-- ==== Sys2Proof/Word.lean ====
section
/-! DEFINITION. The byte, word and counter types of the records, and the names that operands of a
command or an event use. -/

namespace Sys2Proof

/-- One character of the serial line, one field of a record. -/
abbrev Byte := BitVec 8

/-- A field of two bytes in a record. -/
abbrev Word16 := BitVec 16

/-- The position of a stepping channel (R20). -/
abbrev Position := BitVec 32

/-- A value read on VID0 to VID5 (R65). -/
abbrev Pixel := BitVec 6

/-- A raw line: one dot for each position, `true` for black (chapter 6). -/
abbrev RawLine := List Bool

/-- The two stepping channels (chapter 2). -/
inductive ChannelId where
  | df
  | rf
  deriving DecidableEq, Repr

/-- The four sensors (3.1). -/
inductive SensorId where
  | docEntry
  | docScan
  | paper
  | cover
  deriving DecidableEq, Repr

/-- The wake causes (R181, R182). -/
inductive WakeCause where
  | breakSeen
  | rxd
  | docEntry
  | cover
  | paper
  | wake
  deriving DecidableEq, Repr

/-- The levels of the straps, `true` for high (R185). -/
structure Straps where
  hw : Bool
  msz1 : Bool
  msz0 : Bool
  mt : Bool
  bkv : Bool
  deriving DecidableEq, Repr

/-- The contents of one frame between SYNC and CRC; LEN is the length of the payload (11.1). -/
structure Frame where
  type : Byte
  tag : Byte
  payload : List Byte
  deriving DecidableEq, Repr

end Sys2Proof
end

