-- ==== Sys2Proof/Config.lean ====
section
/-! DEFINITION. The quantities the part fixes (0.6) and what its straps select (R185). No value of
the manual is left open after a command, so there is no free value here. -/

namespace Sys2Proof.Config

/-- The start of every frame (11.1). -/
def sync : Byte := 0xC3

/-- The longest payload (R3). -/
def maxPayload : Nat := 2304

/-- The places of the outbound queue (R9). -/
def outboundPlaces : Nat := 16

/-- A report is admitted while the queue holds fewer reports than this (R9). -/
def reportPlaces : Nat := 15

/-- The line slots (R107). -/
def lineSlots : Nat := 16

/-- The longest page, in lines (R148). -/
def maxPageLines : Nat := 8191

/-- The data bytes of one segment (8.1). -/
def segmentData : Nat := 2032

/-- The documents of the directory (R148). -/
def maxDocuments : Nat := 64

/-- The records of the page table (R148). -/
def maxPages : Nat := 256

/-- The highest page index of a document (R148). -/
def maxPageIndex : Nat := 255

/-- The lines of a shading run (R77). -/
def shadingLines : Nat := 8

/-- The head width, which is the pixel count N too (R185). -/
def headWidth (straps : Straps) : Nat := if straps.hw then 2048 else 1728

/-- The dots of one strobe block (R185). -/
def blockSize (straps : Straps) : Nat := headWidth straps / 8

/-- The size of the page memory in MiB (R185): high, high reads as 1 MiB. -/
def memoryMiB (straps : Straps) : Nat :=
  match straps.msz1, straps.msz0 with
  | false, false => 1
  | false, true => 2
  | true, false => 4
  | true, true => 1

/-- The number of segments, the total of chapter 8 (R185). -/
def totalSegments (straps : Straps) : Nat := 512 * memoryMiB straps

/-- The reserve in segments that a reserve code gives (R151). -/
def reserveSegments (total code : Nat) : Nat :=
  match code with
  | 0 => 0
  | 1 => total / 16
  | 2 => total / 8
  | 3 => total / 4
  | _ => total / 2

/-- The retired count above which the store is DEGRADED (R166). -/
def degradedThreshold (total : Nat) : Nat := total / 16

end Sys2Proof.Config
end

