-- ==== Sys2Proof/Syntax.lean ====
section
/-! DEFINITION. The commands and events of the part, one constructor for each row of the table of
operations. A command carries its TAG and the fields of its payload in the order of 11.4; an event
carries what the outside world brings with it. -/

namespace Sys2Proof

inductive Instr where
  -- LNK commands
  | setLink (tag code rsv : Byte)
  | getStatus (tag clear rsv : Byte)
  | getIdentity (tag rsv : Byte)
  -- PWR commands
  | setPower (tag idle auto warm rsv : Byte)
  | domain (tag dom action rsv : Byte)
  | sleep (tag rsv : Byte)
  | reset (tag kind rsv : Byte)
  -- MTU commands
  | setProfile (tag ch prof : Byte) (ws wt f d k16 rsv : Word16)
  | setLineTiming (tag ch dens : Byte) (w f d rsv : Word16)
  | setChannel (tag ch inv : Byte) (pullIn : Word16) (hold rsv : Byte)
  | moveSteps (tag ch prof dir rsv : Byte) (dist : Word16)
  | stopChannel (tag ch rsv : Byte)
  | clearFault (tag ch rsv : Byte)
  -- FDC commands; polarity and debounce of DOC_ENTRY, DOC_SCAN, PAPER, COVER
  | setFeed (tag pEntry pScan pPaper pCover dEntry dScan dPaper dCover settle rsv : Byte)
      (preload offset eject : Word16)
  | eject (tag rsv : Byte)
  -- SCU commands
  | setScan (tag mode t b inv : Byte) (exposure rsv : Word16)
  | shade (tag rsv : Byte)
  -- PRU command
  | setPrint (tag : Byte) (ts tg m margin pulse rsv : Word16)
  -- PPU commands; the fields of START_MOVE that depend on the route are named by their offset
  | startMove (tag source sink depth target reduce header fallback close f8 f9 : Byte)
      (f10 : Word16) (f12 f13 : Byte) (f14 : Word16) (f16 f17 : Byte)
  | abortMove (tag num rsv : Byte)
  | moveStatus (tag num rsv : Byte)
  | lineData (tag num endPage endMove rsv : Byte) (coded : List Byte)
  | readLines (tag num k rsv : Byte)
  | loadHeader (tag : Byte) (width rsv : Word16) (code : List Byte)
  -- PST commands
  | createDoc (tag cls auto rsv : Byte)
  | closeDoc (tag : Byte) (doc : Word16) (rsv : Byte)
  | deleteDoc (tag : Byte) (doc : Word16) (rsv : Byte)
  | releaseDoc (tag : Byte) (doc : Word16) (rsv : Byte)
  | listDocs (tag start rsv : Byte)
  | docInfo (tag : Byte) (doc : Word16) (start rsv : Byte)
  | setReserve (tag code rsv : Byte)
  | checkStore (tag rsv : Byte)
  -- link events
  | rxCharacter (c : Byte)
  | framingError
  | breakDetected
  | characterGapExpiry
  | takeCommand
  | recordSent
  | wakeDiscard
  -- channel events; the level is that of FLT after the change
  | channelStep (ch : ChannelId)
  | holdTimerExpiry (ch : ChannelId)
  | driverFault (ch : ChannelId) (active : Bool)
  -- feed events; the level is that of the input after the change
  | sensorInputChange (sensor : SensorId) (level : Bool)
  | debounceExpiry (sensor : SensorId)
  | settleTimerExpiry
  -- scan and print events; the pixels are one line as VID gives it
  | exposureEnd
  | captureDone (pixels : List Pixel)
  | shadingLineRead (pixels : List Pixel)
  | loadComplete
  | phaseTimerExpiry
  | cutterPulseEnd
  -- store events; an upset is a data byte of the segment that the memory no longer holds as written
  | storeLineWritten
  | storeSegmentRead (upsets : List (Nat × Byte))
  | memoryCheckDone
  -- power events; the reading is pixel position 0, the level that of HPG after the change
  | lampWarmUpExpiry (reading : Pixel)
  | hpgChange (active : Bool)
  | printStartTimeout
  | motorStartDone
  | idleTimerExpiry
  | sleepClocksStop
  | wakeInput
  | wakeCause (cause : WakeCause)
  | wakeComplete
  -- start-up and reset events; the numbers count the FREE marks of a format or a scan, and the other
  -- header writes, that had been begun (R147)
  | nrstAsserted (marked bursts : Nat)
  | powerOnReset (straps : Straps)
  | formatDone
  | recoveryScanDone
  | resetStopped
  | pfiAsserted (bursts : Nat)
  | firstReadingsSteady (sensor : SensorId)
  | segmentTested (passed : Bool)
  deriving DecidableEq, Repr

end Sys2Proof
end

