-- ==== Sys2Proof/Machine/State.lean ====
section
/-! DEFINITION. The whole state of the part, block by block, and the state after power-on reset. -/

namespace Sys2Proof.Machine

/-! ## Names the blocks share -/

/-- Lines per unit of paper length (0.8): 4, 2 or 1 half-steps per line. -/
inductive Density where
  | v1
  | v2
  | v4
  deriving DecidableEq, Repr

/-- The result codes of 11.2. -/
inductive Result where
  | ok
  | unknownType
  | badLength
  | badValue
  | linkUnset
  | booting
  | busy
  | inUse
  | tableFull
  | noSuchMove
  | noSuchDoc
  | noRoom
  | moveEnded
  | held
  | storeFull
  | notLoaded
  | docPresent
  | badRoute
  | domainFault
  | pageLong
  | shadeWeak
  deriving DecidableEq, Repr

/-! ## Settings -/

/-- A ramp profile (R23). -/
structure Profile where
  ws : Nat
  wt : Nat
  f : Nat
  d : Nat
  k16 : Nat
  deriving DecidableEq, Repr

/-- A line timing (R24). -/
structure LineTiming where
  w : Nat
  f : Nat
  d : Nat
  deriving DecidableEq, Repr

/-- The settings of one channel (R23 to R25). The hold time is kept as its code, in units of 10 ms. -/
structure ChannelSettings where
  profiles : List Profile
  v1 : LineTiming
  v2 : LineTiming
  v4 : LineTiming
  invert : Bool
  pullIn : Nat
  holdCode : Nat
  deriving DecidableEq, Repr

/-- The settings of one sensor (R44, R45). -/
structure SensorSettings where
  polarity : Bool
  debounce : Nat
  deriving DecidableEq, Repr

/-- The feed settings (R62). -/
structure FeedSettings where
  docEntry : SensorSettings
  docScan : SensorSettings
  paper : SensorSettings
  cover : SensorSettings
  settleCode : Nat
  preload : Nat
  offset : Nat
  ejectDistance : Nat
  deriving DecidableEq, Repr

/-- The scan settings (R75). -/
structure ScanSettings where
  halftone : Bool
  threshold : Nat
  black : Nat
  invert : Bool
  exposure : Nat
  deriving DecidableEq, Repr

/-- The print settings (R95). -/
structure PrintSettings where
  strobe : Nat
  gap : Nat
  limit : Nat
  margin : Nat
  pulse : Nat
  deriving DecidableEq, Repr

/-- The power settings (R179). -/
structure PowerSettings where
  idleTime : Nat
  autoSleep : Bool
  warmUpCode : Nat
  deriving DecidableEq, Repr

/-- Every setting the host makes, save the page line header and the link rate. -/
structure Settings where
  df : ChannelSettings
  rf : ChannelSettings
  feed : FeedSettings
  scan : ScanSettings
  print : PrintSettings
  reserveCode : Nat
  power : PowerSettings
  deriving DecidableEq, Repr

/-! ## LNK -/

/-- The link states (R1). -/
inductive LinkState where
  | unset
  | ready
  deriving DecidableEq, Repr

/-- The link rates (R11). -/
inductive Rate where
  | b125000
  | b250000
  | b500000
  | b1000000
  deriving DecidableEq, Repr

/-- The parser with what it has assembled (R3): in HEADER the bytes after SYNC, in PAYLOAD the
header and the bytes so far, in CHECK the frame and the low CRC byte once it has come. -/
inductive Parser where
  | hunt
  | header (got : List Byte)
  | payload (type tag : Byte) (len : Nat) (got : List Byte)
  | check (frame : Frame) (low : Option Byte)
  deriving DecidableEq, Repr

/-- Where the command in hand stands (R5, R7): not yet taken, since no place is free for its reply;
taken, with a place reserved, and still to be checked (log 2); handed to its block, which replies late
(R8); or SET_LINK whose reply is in the queue and has not gone out (R11). -/
inductive HandPhase where
  | untaken
  | taken
  | handed
  | replied
  deriving DecidableEq, Repr

/-- The command in hand (1.4). -/
structure Hand where
  frame : Frame
  phase : HandPhase
  deriving DecidableEq, Repr

/-- What a record of the outbound queue is. A READ_LINES reply names the move (by its acceptance
order), how many lines it carries and its move-finished mark (R140). -/
inductive RecordKind where
  | report
  | reply
  | linkReply
  | linesReply (move count : Nat) (finished : Bool)
  deriving DecidableEq, Repr

/-- A record of the outbound queue (R9, R10). -/
structure OutRecord where
  kind : RecordKind
  type : Byte
  tag : Byte
  payload : List Byte
  deriving DecidableEq, Repr

/-- The sticky flags (R14). -/
structure Sticky where
  badCrc : Bool
  timeout : Bool
  framing : Bool
  rxOverrun : Bool
  reportOverflow : Bool
  dfFault : Bool
  rfFault : Bool
  checkError : Bool
  deriving DecidableEq, Repr

/-- The link port (chapter 1). `awaitMark`: after a wake by RXD the parser waits for the line to
stay at mark before it hunts (R13). -/
structure Link where
  state : LinkState
  rate : Rate
  rateChange : Option Rate
  parser : Parser
  hand : Option Hand
  waiting : Option Frame
  outbound : List OutRecord
  sticky : Sticky
  awaitMark : Bool
  deriving DecidableEq, Repr

/-! ## MTU -/

/-- The channel states (R18). -/
inductive ChanState where
  | idle
  | holding
  | ramping
  | lineRun
  | lineHold
  | stopping
  | fault
  deriving DecidableEq, Repr

/-- The party a channel works for (R21). A move is named by its acceptance order, which no other
move ever has. -/
inductive User where
  | move (id : Nat)
  | feed
  | host
  deriving DecidableEq, Repr

/-- An order that issues steps (R29, R36). -/
inductive Order where
  | ramp (profile : Nat) (forward : Bool) (distance : Nat)
  | line (density : Density) (gated : Bool)
  deriving DecidableEq, Repr

/-- The run values of a ramped move (R26, R27, R29, R32): `acc` is A, `period` the period of the
step in progress, `r` the steps left with it. -/
structure RampRun where
  profile : Profile
  forward : Bool
  qs : Nat
  qt : Nat
  q : Nat
  a : Nat
  r : Nat
  acc : Nat
  period : Nat
  stopOrdered : Bool
  deriving DecidableEq, Repr

/-- The run values of a line run (R26, R33, R36 to R39): `period` is the step period running, if one
is, `waiting` says that the line's capture done or strobe done has not come yet. -/
structure LineRun where
  density : Density
  timing : LineTiming
  acc : Nat
  gated : Bool
  gatingChange : Option Bool
  endOrdered : Bool
  stopOrdered : Bool
  stepsLeft : Nat
  period : Option Nat
  waiting : Bool
  deriving DecidableEq, Repr

/-- The run values (chapter 2). -/
inductive Run where
  | none
  | ramp (x : RampRun)
  | line (x : LineRun)
  deriving DecidableEq, Repr

/-- A stepping channel (chapter 2). `releasing`: the user has ended and stays recorded until the
channel has stopped (R22). `holdLatched`: the hold time in force at entry to HOLDING, in ms (R40). -/
structure Channel where
  state : ChanState
  user : Option User
  releasing : Bool
  queue : List User
  startWaiting : Option Order
  phase : BitVec 3
  position : Position
  holdTimer : Option Nat
  holdLatched : Nat
  run : Run
  deriving DecidableEq, Repr

/-! ## FDC -/

/-- One sensor (R44, R45): `debounced` is PRESENT, or OPEN for the cover; `known` says that the
first debounced state after power-on has been taken (R63). -/
structure Sensor where
  reading : Bool
  debounced : Bool
  timer : Option Nat
  known : Bool
  deriving DecidableEq, Repr

/-- The document states (R46). -/
inductive DocState where
  | none
  | settling
  | loading
  | loaded
  | scanning
  | ejecting
  | jammed
  deriving DecidableEq, Repr

/-- The causes of a change of the document state (R46). -/
inductive DocCause where
  | arrived
  | removed
  | load
  | nextSheet
  | aligned
  | scan
  | command
  | pagesDone
  | moveEnded
  | ejected
  | preloadTimeout
  | gapTimeout
  | pageLong
  | misfeed
  | notCleared
  | coverOpen
  | motorFault
  | cleared
  | reset
  | powerOn
  deriving DecidableEq, Repr

/-- The settle timer (R47). -/
inductive SettleTimer where
  | stopped
  | running (ms : Nat)
  | expired
  deriving DecidableEq, Repr

/-- The feed sequence with its counts (R48, R49, R53, R56). `overrun` in SEEK counts the steps since
DOC_SCAN was taken PRESENT. -/
inductive FeedSeq where
  | none
  | seek (offset : Nat) (overrun : Option Nat)
  | align (offset : Nat)
  | gapSeek (offset preload steps : Nat)
  | gapAlign (offset steps : Nat)
  | eject (cleared : Bool)
  deriving DecidableEq, Repr

/-- Feed control (chapter 3). `tail` is the tail count of R51, `tailSkip` says that the line under
way when it was set is still under way, `tailOffset` is the offset latched for it. -/
structure Feed where
  docEntry : Sensor
  docScan : Sensor
  paper : Sensor
  cover : Sensor
  doc : DocState
  settle : SettleTimer
  seq : FeedSeq
  tail : Option Nat
  tailSkip : Bool
  tailOffset : Nat
  deriving DecidableEq, Repr

/-! ## SCU -/

/-- What a capture holds (R70): the settings and the shading table are those at its start (R66). -/
structure CaptureCtx where
  slot : Nat
  move : Nat
  settings : ScanSettings
  table : List Nat
  y : Nat
  deriving DecidableEq, Repr

/-- The capture state (R70). -/
inductive Capture where
  | idle
  | exposing (ctx : CaptureCtx)
  | writing (ctx : CaptureCtx)
  deriving DecidableEq, Repr

/-- The shading run with the settings in force when it began (R77). -/
inductive ShadingRun where
  | none
  | waiting (settings : ScanSettings)
  | measuring (settings : ScanSettings) (count : Nat) (sums : List Nat)
  deriving DecidableEq, Repr

/-- The scan unit (chapter 4). -/
structure Scan where
  table : List Nat
  capture : Capture
  lineCounter : Nat
  shading : ShadingRun
  deriving DecidableEq, Repr

/-! ## PRU -/

/-- A line in the load stage or in the latch: the move and slot it comes from, its eight block
counts, its page-end mark (R83). -/
structure HeadLine where
  move : Nat
  slot : Nat
  counts : List Nat
  pageEnd : Bool
  deriving DecidableEq, Repr

/-- The load stage (R83). The white mark is `counts` all 0. -/
inductive LoadStage where
  | empty
  | loading (line : HeadLine)
  | loaded (line : HeadLine)
  deriving DecidableEq, Repr

/-- A strobe phase: its blocks and its black dots (R85). -/
structure Phase where
  blocks : List Nat
  sum : Nat
  deriving DecidableEq, Repr

/-- The strobe state (R84, R87): `phases` are the phases still to end, the first one under way;
`inGap` says that it is in its gap; `strobe` and `gap` are the times latched. -/
inductive StrobeState where
  | idle
  | latchWait
  | strobing (line : HeadLine) (heavy : Bool) (phases : List Phase) (inGap : Bool)
      (strobe gap : Nat)
  deriving DecidableEq, Repr

/-- The cut state (R92, R93) with the cutter pulse latched. -/
inductive CutState where
  | none
  | feed (pulse : Nat)
  | pulse (pulse : Nat)
  deriving DecidableEq, Repr

/-- The print unit (chapter 5). -/
structure Print where
  load : LoadStage
  strobe : StrobeState
  cut : CutState
  deriving DecidableEq, Repr

/-! ## PPU -/

/-- The class of a stored document (8.3). -/
inductive DocClass where
  | received
  | outgoing
  | copySpool
  deriving DecidableEq, Repr

/-- The source of a move (chapter 7). -/
inductive Source where
  | scan (density : Density) (pageLimit : Nat)
  | linkIn (width : Nat) (density : Density)
  | store (doc first count : Nat)
  deriving DecidableEq, Repr

/-- The sink of a move (chapter 7); document 0 is a document not yet created. -/
inductive Sink where
  | print
  | linkOut
  | store (doc : Nat) (cls : DocClass) (autoDelete closeAtEnd : Bool)
  deriving DecidableEq, Repr

/-- The move states (chapter 7). -/
inductive MoveState where
  | pending
  | starting
  | running
  | draining
  | done
  | aborted
  | failed
  deriving DecidableEq, Repr

/-- The causes of a failed move (chapter 7). -/
inductive MoveCause where
  | docJam
  | paperOut
  | coverOpen
  | motorFault
  | storeFull
  | domainFault
  deriving DecidableEq, Repr

/-- The state of a line in a slot (R106, R109). -/
inductive SlotState where
  | opened
  | heldBack
  | ready
  deriving DecidableEq, Repr

/-- A line slot held for a line of a move's queue (chapter 6): the width is the number of dots. -/
structure SlotLine where
  slot : Nat
  density : Density
  dots : RawLine
  pageEnd : Bool
  state : SlotState
  sending : Bool
  deriving DecidableEq, Repr

/-- A line the store has read and not yet handed (R155): coded bytes, or none for a line handed
white (R156). -/
abbrev ReadLine := Option (List Byte)

/-- A STORE source's page being read (R155): `chain` the segments not yet read, `part` the bytes of a
line begun (none when a byte of it stood in a segment with a bad check), `lines` those read and not
yet handed, `handed` and `white` the lines handed so far and those of them handed white. -/
structure Reader where
  page : Nat
  chain : List Nat
  part : ReadLine
  lines : List ReadLine
  handed : Nat
  white : Nat
  deriving DecidableEq, Repr

/-- The counters of a move that are not the length of a list (R131). Lines queued is the length of
the queue. -/
structure Counters where
  taken : Nat
  headerLines : Nat
  delivered : Nat
  merged : Nat
  discarded : Nat
  repaired : Nat
  heavy : Nat
  damaged : Nat
  pagesCompleted : Nat
  curPage : Nat
  curLines : Nat
  deriving DecidableEq, Repr

/-- A move record (chapter 7). `id` is the acceptance order. After the fields of the table come the
values of the work in hand: `granted` the slot held for a capture (R108), `merge` the lines of the
open group (R105), `headerLeft` the prefix count of the page whose lines enter next (R114), `srcPage`
and `srcLines` the source page and its lines taken, `blankDue` the scan pages that have ended empty and
whose white line has not entered (R129), `cutDue` a page end printed and not yet cut (R92), `paperOut` a
paper-out taken and not yet acted on (R133). -/
structure Move where
  id : Nat
  number : Nat
  source : Source
  sink : Sink
  depth : Nat
  target : Density
  reduce : Bool
  withHeader : Bool
  fallback : Bool
  state : MoveState
  cause : Option MoveCause
  counters : Counters
  diverted : Option Nat
  queue : List SlotLine
  granted : Option Nat
  merge : Nat
  headerLeft : Nat
  srcPage : Nat
  srcLines : Nat
  blankDue : Nat
  cutDue : Bool
  paperOut : Bool
  reader : Option Reader
  deriving DecidableEq, Repr

/-- The header buffer when it is not EMPTY (R116). -/
structure HeaderBuffer where
  width : Nat
  count : Nat
  code : List Byte
  deriving DecidableEq, Repr

/-- The page path (chapters 6 and 7). `endings` are the acceptance orders of the ended moves of the
table, the one that ended earliest first (R119). -/
structure Path where
  table : List (Option Move)
  lastNumber : Nat
  nextId : Nat
  endings : List Nat
  header : Option HeaderBuffer
  deriving DecidableEq, Repr

/-! ## PST -/

/-- The condition of a page (R148). -/
inductive PageCondition where
  | opened
  | complete
  | truncated
  deriving DecidableEq, Repr

/-- A page record (R148); its document is the record that lists it. -/
structure Page where
  index : Nat
  width : Nat
  density : Density
  lines : Nat
  bytes : Nat
  first : Option Nat
  segments : Nat
  condition : PageCondition
  startOffset : Option Nat
  damaged : Nat
  printed : Bool
  deriving DecidableEq, Repr

/-- A document record (R148). -/
structure Document where
  number : Nat
  cls : DocClass
  closed : Bool
  hold : Bool
  autoDelete : Bool
  pages : List Page
  deriving DecidableEq, Repr

/-- The page and document attributes in a LAST header (R146). -/
structure LastAttrs where
  width : Nat
  density : Density
  lines : Nat
  condition : PageCondition
  startOffset : Option Nat
  damaged : Nat
  printed : Bool
  cls : DocClass
  hold : Bool
  autoDelete : Bool
  pagesPrinted : Nat
  deriving DecidableEq, Repr

/-- The header of a USED segment (R146); `last` present is the LAST mark. -/
structure UsedHeader where
  doc : Nat
  page : Nat
  seq : Nat
  next : Option Nat
  bytes : Nat
  lineEnds : Nat
  continued : Bool
  check : Word16
  last : Option LastAttrs
  deriving DecidableEq, Repr

/-- The sixteen header bytes of a segment: the fields of a USED segment with a good header check, or
any other sixteen bytes, the FREE and RETIRED marks among them (R146). -/
inductive SegHeader where
  | raw (bytes : List Byte)
  | used (h : UsedHeader)
  deriving DecidableEq, Repr

/-- A segment of the page memory: its header and the data bytes written from the first on (8.1). -/
structure Segment where
  header : SegHeader
  data : List Byte
  deriving DecidableEq, Repr

/-- The page memory: the segments that do not read as a FREE mark with no data, numbers rising. -/
abbrev PageMemory := List (Nat × Segment)

/-- An entry of the segment map that is not FREE (chapter 8). -/
inductive SegUse where
  | used (doc page seq : Nat) (next : Option Nat)
  | retired
  deriving DecidableEq, Repr

/-- An open page with its open segment (R153): `seg` is none before the first line is written; `seq`,
`lineEnds` and `continued` are those of the open segment, `allocated` the segments allocated to the line
being written. -/
structure OpenPage where
  doc : Nat
  index : Nat
  seg : Option Nat
  seq : Nat
  lineEnds : Nat
  continued : Bool
  allocated : List Nat
  deriving DecidableEq, Repr

/-- A memory check under way (R164): the segment number it has come to, and its counts. -/
structure CheckRun where
  next : Nat
  tested : Nat
  retired : Nat
  deriving DecidableEq, Repr

/-- The page store (chapter 8). `making` are the header writes of the turn in progress and `rewrites` those due at the
next one, rewrites, closings and the marks of an abandoned line, oldest first (R155). `transfer` is the move whose transfer is in progress, `turn` the move served last. -/
structure Store where
  memory : PageMemory
  map : List (Nat × SegUse)
  directory : List Document
  lastDoc : Nat
  openPages : List OpenPage
  making : List (Nat × SegHeader)
  rewrites : List (Nat × SegHeader)
  check : Option CheckRun
  transfer : Option Nat
  turn : Option Nat
  docsRecovered : Nat
  pagesRecovered : Nat
  pagesDiscarded : Nat
  deriving DecidableEq, Repr

/-! ## PWR -/

/-- The domains (chapter 9). -/
inductive DomainId where
  | scan
  | print
  | motor
  deriving DecidableEq, Repr

/-- The domain states (R168). -/
inductive DomainState where
  | off
  | starting
  | on
  | fault
  deriving DecidableEq, Repr

/-- The power states (R176). -/
inductive PowerState where
  | run
  | standby
  | sleep
  deriving DecidableEq, Repr

/-- The idle timer (R177). -/
inductive IdleTimer where
  | stopped
  | running (s : Nat)
  | expired
  deriving DecidableEq, Repr

/-- The sleep entry (R180): steps 1 and 2 are done as it begins; step 3 drains, step 4 waits for the
clocks to stop. -/
inductive SleepEntry where
  | none
  | draining
  | stopping
  deriving DecidableEq, Repr

/-- The set of wake causes (R182). -/
structure WakeCauses where
  breakSeen : Bool
  rxd : Bool
  docEntry : Bool
  cover : Bool
  paper : Bool
  wake : Bool
  deriving DecidableEq, Repr

/-- Power control (chapter 9). `warmUp` is the lamp warm-up latched at the start of SCAN, in ms. -/
structure Power where
  scan : DomainState
  print : DomainState
  motor : DomainState
  warmUp : Nat
  state : PowerState
  idleTimer : IdleTimer
  entry : SleepEntry
  waking : Bool
  causes : WakeCauses
  deriving DecidableEq, Repr

/-- The start-up stages (chapter 10). -/
inductive Startup where
  | straps
  | format
  | scan
  | check
  | done
  deriving DecidableEq, Repr

/-- A RESET under way (R194 to R196): stopping the channels, with the kind, or rebuilding the store
under RESET FULL. -/
inductive ResetPhase where
  | none
  | stopping (full : Bool)
  | rebuilding
  deriving DecidableEq, Repr

/-- The levels of the inputs, `true` for high or active. -/
structure Inputs where
  sne : Bool
  sns : Bool
  snp : Bool
  snc : Bool
  fltd : Bool
  fltr : Bool
  hpg : Bool
  pfi : Bool
  deriving DecidableEq, Repr

/-! ## The whole machine -/

/-- The state of the part, and the queue of commands and events that are waiting, first in first
out. `held` is NRST active. -/
structure State where
  pending : List Instr
  straps : Straps
  held : Bool
  startup : Startup
  resetPhase : ResetPhase
  inputs : Inputs
  cfg : Settings
  link : Link
  df : Channel
  rf : Channel
  feed : Feed
  scan : Scan
  print : Print
  path : Path
  store : Store
  power : Power
  deriving DecidableEq, Repr

/-- Why the machine could stop with a fault. The part has no such stop: every command and event has
an effect or none in every state, so no meaning answers with this. -/
inductive Fault where
  /-- Raised by no meaning; safe: the part never stops. -/
  | neverRaised
  deriving DecidableEq, Repr

/-- Why a command could be refused by the model. -/
inductive Refusal where
  /-- Raised by the dispatch for a row that has no meaning yet; safe: nothing is claimed of it. -/
  | notModelled (mnemonic : String)
  deriving DecidableEq, Repr

/-! ## The state after power-on reset -/

/-- The power-on settings of DF (2.4). -/
def ChannelSettings.dfPowerOn : ChannelSettings :=
  { profiles := List.replicate 8 ⟨3200, 1600, 0, 1, 6400⟩
    v1 := ⟨1600, 0, 1⟩
    v2 := ⟨2000, 0, 1⟩
    v4 := ⟨3000, 0, 1⟩
    invert := false
    pullIn := 1600
    holdCode := 20 }

/-- The power-on settings of RF (2.4). -/
def ChannelSettings.rfPowerOn : ChannelSettings :=
  { profiles := List.replicate 8 ⟨2400, 1200, 0, 1, 4800⟩
    v1 := ⟨1200, 0, 1⟩
    v2 := ⟨2000, 0, 1⟩
    v4 := ⟨3000, 0, 1⟩
    invert := false
    pullIn := 1200
    holdCode := 20 }

/-- The power-on feed settings (R62). -/
def FeedSettings.powerOn : FeedSettings :=
  { docEntry := ⟨false, 8⟩
    docScan := ⟨false, 8⟩
    paper := ⟨false, 8⟩
    cover := ⟨false, 8⟩
    settleCode := 30
    preload := 2000
    offset := 24
    ejectDistance := 600 }

/-- The power-on scan settings (R81). -/
def ScanSettings.powerOn : ScanSettings := ⟨false, 32, 4, false, 5000⟩

/-- The power-on print settings (R97): M is a quarter of the head width. -/
def PrintSettings.powerOn (straps : Straps) : PrintSettings :=
  ⟨800, 40, Config.headWidth straps / 4, 240, 80⟩

/-- The power-on power settings (R184). -/
def PowerSettings.powerOn : PowerSettings := ⟨60, false, 12⟩

/-- Every setting at its power-on value. -/
def Settings.powerOn (straps : Straps) : Settings :=
  { df := ChannelSettings.dfPowerOn
    rf := ChannelSettings.rfPowerOn
    feed := FeedSettings.powerOn
    scan := ScanSettings.powerOn
    print := PrintSettings.powerOn straps
    reserveCode := 0
    power := PowerSettings.powerOn }

/-- Every sticky flag clear (R14). -/
def Sticky.clear : Sticky := ⟨false, false, false, false, false, false, false, false⟩

/-- The link at power-on reset (R1). -/
def Link.powerOn : Link :=
  { state := .unset
    rate := .b125000
    rateChange := none
    parser := .hunt
    hand := none
    waiting := none
    outbound := []
    sticky := Sticky.clear
    awaitMark := false }

/-- A channel at power-on reset with FLT inactive (R43). -/
def Channel.powerOn : Channel :=
  { state := .idle
    user := none
    releasing := false
    queue := []
    startWaiting := none
    phase := 0
    position := 0
    holdTimer := none
    holdLatched := 0
    run := .none }

/-- A sensor at power-on reset with its asserted reading (R63): until the first debounced state is
taken it stands ABSENT, or CLOSED. -/
def Sensor.powerOn (reading : Bool) : Sensor := ⟨reading, false, none, false⟩

/-- Feed control at power-on reset; every polarity is 0, so the readings are the input levels. -/
def Feed.powerOn (i : Inputs) : Feed :=
  { docEntry := Sensor.powerOn i.sne
    docScan := Sensor.powerOn i.sns
    paper := Sensor.powerOn i.snp
    cover := Sensor.powerOn i.snc
    doc := .none
    settle := .stopped
    seq := .none
    tail := none
    tailSkip := false
    tailOffset := 0 }

/-- The scan unit at power-on reset (R67, R81). -/
def Scan.powerOn (straps : Straps) : Scan :=
  { table := List.replicate (Config.headWidth straps) 63
    capture := .idle
    lineCounter := 0
    shading := .none }

/-- The print unit at power-on reset (R97). -/
def Print.powerOn : Print := ⟨.empty, .idle, .none⟩

/-- The page path at power-on reset (R113, R117, R118). -/
def Path.powerOn : Path :=
  { table := [none, none, none, none]
    lastNumber := 0
    nextId := 0
    endings := []
    header := none }

/-- The page store when start-up begins, over what the page memory holds (R167, R186). -/
def Store.powerOn (memory : PageMemory) : Store :=
  { memory := memory
    map := []
    directory := []
    lastDoc := 0
    openPages := []
    making := []
    rewrites := []
    check := none
    transfer := none
    turn := none
    docsRecovered := 0
    pagesRecovered := 0
    pagesDiscarded := 0 }

/-- No wake cause. -/
def WakeCauses.empty : WakeCauses := ⟨false, false, false, false, false, false⟩

/-- Power control at power-on reset (R184). -/
def Power.powerOn : Power :=
  { scan := .off
    print := .off
    motor := .off
    warmUp := 0
    state := .standby
    idleTimer := .stopped
    entry := .none
    waking := false
    causes := WakeCauses.empty }

/-- Every block in its power-on state (R186), with the straps sampled, the levels of the inputs and
what the page memory holds; FORMAT follows with BKV low and SCAN with BKV high. -/
def State.powerOn (pending : List Instr) (straps : Straps) (i : Inputs) (memory : PageMemory) :
    State :=
  { pending := pending
    straps := straps
    held := false
    startup := if straps.bkv then .scan else .format
    resetPhase := .none
    inputs := i
    cfg := Settings.powerOn straps
    link := Link.powerOn
    df := Channel.powerOn
    rf := Channel.powerOn
    feed := Feed.powerOn i
    scan := Scan.powerOn straps
    print := Print.powerOn
    path := Path.powerOn
    store := Store.powerOn memory
    power := Power.powerOn }

/-- All straps low: a head of 1728 dots, 1 MiB, no check at start-up, no valid battery backup.
DESIGN CHOICE (log 5). -/
def Straps.low : Straps := ⟨false, false, false, false, false⟩

/-- All inputs low. DESIGN CHOICE (log 5). -/
def Inputs.low : Inputs := ⟨false, false, false, false, false, false, false, false⟩

/-- The part right after power-on reset, nothing waiting and nothing in the page memory. -/
def State.reset : State := State.powerOn [] Straps.low Inputs.low []

end Sys2Proof.Machine
end

