-- ==== Sys2Proof/Machine/Flags.lean ====
section
/-! DEFINITION. The sticky flags (R14), the reasons of a LINK_FAULT with the flag each sets (R6), and
the set of wake causes (R182). -/

namespace Sys2Proof.Machine

/-- The reasons of a LINK_FAULT (R6). -/
inductive LinkFaultReason where
  | badCrc
  | timeout
  | rxOverrun
  | framing
  | wakeDiscard
  | tooLong
  deriving DecidableEq, Repr

/-- The reason's code (11.3). -/
def LinkFaultReason.code : LinkFaultReason → Byte
  | .badCrc => 0
  | .timeout => 1
  | .rxOverrun => 2
  | .framing => 3
  | .wakeDiscard => 4
  | .tooLong => 5

/-- The sticky flag that a link fault sets (R6): TOO_LONG sets FRAMING, WAKE_DISCARD none. -/
def Sticky.linkFault (r : LinkFaultReason) (f : Sticky) : Sticky :=
  match r with
  | .badCrc => { f with badCrc := true }
  | .timeout => { f with timeout := true }
  | .rxOverrun => { f with rxOverrun := true }
  | .framing => { f with framing := true }
  | .wakeDiscard => f
  | .tooLong => { f with framing := true }

/-- The sticky flag that a channel's entry to FAULT sets (R41). -/
def Sticky.channelFault (ch : ChannelId) (f : Sticky) : Sticky :=
  match ch with
  | .df => { f with dfFault := true }
  | .rf => { f with rfFault := true }

/-- The sum of bits, bit 0 the first. -/
def bitsOf : List Bool → Nat
  | [] => 0
  | b :: bs => (if b then 1 else 0) + 2 * bitsOf bs

/-- The sticky flags as a byte (11.3). -/
def Sticky.byte (f : Sticky) : Byte :=
  BitVec.ofNat 8 (bitsOf [f.badCrc, f.timeout, f.framing, f.rxOverrun, f.reportOverflow, f.dfFault,
    f.rfFault, f.checkError])

/-- The wake causes as a byte (11.3). -/
def WakeCauses.byte (w : WakeCauses) : Byte :=
  BitVec.ofNat 8 (bitsOf [w.breakSeen, w.rxd, w.docEntry, w.cover, w.paper, w.wake])

/-- A cause joins the set. A break begins with RXD falling to space, so BREAK brings RXD (R182). -/
def WakeCauses.add (c : WakeCause) (w : WakeCauses) : WakeCauses :=
  match c with
  | .breakSeen => { w with breakSeen := true, rxd := true }
  | .rxd => { w with rxd := true }
  | .docEntry => { w with docEntry := true }
  | .cover => { w with cover := true }
  | .paper => { w with paper := true }
  | .wake => { w with wake := true }

/-- The wake cause that a change of a sensor input is: SNS is none (R64). -/
def SensorId.wakeCause? : SensorId → Option WakeCause
  | .docEntry => some .docEntry
  | .docScan => none
  | .paper => some .paper
  | .cover => some .cover

end Sys2Proof.Machine
end

