-- ==== Sys2Proof/Decode.lean ====
section
/-! DEFINITION. What the table's bits spell (no row gives bits), the byte order of records (0.7), the
CRC of frames and segments (R3, R147), and the layout of every command as a frame (11.2, 11.4). -/

namespace Sys2Proof

/-- No row of the table gives bits, so no word spells a command. -/
def decodeTableWord (_nbits _w : Nat) : Option Instr := none

/-- The number a two-byte field carries, low byte first (0.7). -/
def word16 (lo hi : Byte) : Word16 := hi ++ lo

/-- The two bytes of a number, low byte first, modulo 65536 (R199). -/
def bytes2 (n : Nat) : List Byte := [BitVec.ofNat 8 n, BitVec.ofNat 8 (n / 256)]

/-- The two bytes of a word, low byte first. -/
def wordBytes (w : Word16) : List Byte := [w.setWidth 8, (w >>> 8).setWidth 8]

/-- The four bytes of a number, low byte first, modulo 2^32 (R199). -/
def bytes4 (n : Nat) : List Byte := bytes2 n ++ bytes2 (n / 65536)

/-- One byte of a number, modulo 256 (R199). -/
def byte1 (n : Nat) : Byte := BitVec.ofNat 8 n

/-- A mark as a byte. -/
def markByte (b : Bool) : Byte := if b then 1 else 0

/-- One bit of the CRC: polynomial 0x8005, most significant bit first (R3). -/
def crcShift (c : Word16) : Word16 :=
  if c.getLsbD 15 then (c <<< 1) ^^^ 0x8005 else c <<< 1

/-- One byte into the CRC (R3). -/
def crcByte (c : Word16) (b : Byte) : Word16 :=
  let x := c ^^^ (b.setWidth 16 <<< 8)
  crcShift (crcShift (crcShift (crcShift (crcShift (crcShift (crcShift (crcShift x)))))))

/-- The CRC-16 of a string of bytes: initial value 0xFFFF, no final XOR (R3). -/
def crc16 (bytes : List Byte) : Word16 := bytes.foldl crcByte 0xFFFF

/-- The bytes the CRC of a frame covers: TYPE through PAYLOAD (11.1). -/
def Frame.covered (f : Frame) : List Byte :=
  f.type :: f.tag :: (bytes2 f.payload.length ++ f.payload)

/-- A frame as it travels on the line (11.1). -/
def Frame.bytes (f : Frame) : List Byte :=
  Config.sync :: (f.covered ++ wordBytes (crc16 f.covered))

/-- The frame that a command travels in; an event has none (11.2, 11.4). -/
def Instr.frame? : Instr → Option Frame
  | .setLink tag code rsv => some ⟨0x10, tag, [code, rsv]⟩
  | .getStatus tag clear rsv => some ⟨0x11, tag, [clear, rsv]⟩
  | .getIdentity tag rsv => some ⟨0x12, tag, [rsv]⟩
  | .setPower tag idle auto warm rsv => some ⟨0x20, tag, [idle, auto, warm, rsv]⟩
  | .domain tag dom action rsv => some ⟨0x21, tag, [dom, action, rsv]⟩
  | .sleep tag rsv => some ⟨0x22, tag, [rsv]⟩
  | .reset tag kind rsv => some ⟨0x23, tag, [kind, rsv]⟩
  | .setProfile tag ch prof ws wt f d k16 rsv =>
      some ⟨0x30, tag, [ch, prof] ++ wordBytes ws ++ wordBytes wt ++ wordBytes f ++ wordBytes d
        ++ wordBytes k16 ++ wordBytes rsv⟩
  | .setLineTiming tag ch dens w f d rsv =>
      some ⟨0x31, tag, [ch, dens] ++ wordBytes w ++ wordBytes f ++ wordBytes d ++ wordBytes rsv⟩
  | .setChannel tag ch inv pullIn hold rsv =>
      some ⟨0x32, tag, [ch, inv] ++ wordBytes pullIn ++ [hold, rsv]⟩
  | .moveSteps tag ch prof dir rsv dist =>
      some ⟨0x33, tag, [ch, prof, dir, rsv] ++ wordBytes dist⟩
  | .stopChannel tag ch rsv => some ⟨0x34, tag, [ch, rsv]⟩
  | .clearFault tag ch rsv => some ⟨0x35, tag, [ch, rsv]⟩
  | .setFeed tag pEntry pScan pPaper pCover dEntry dScan dPaper dCover settle rsv preload offset
      distance =>
      some ⟨0x36, tag, [pEntry, pScan, pPaper, pCover, dEntry, dScan, dPaper, dCover, settle, rsv]
        ++ wordBytes preload ++ wordBytes offset ++ wordBytes distance⟩
  | .eject tag rsv => some ⟨0x37, tag, [rsv]⟩
  | .setScan tag mode t b inv exposure rsv =>
      some ⟨0x40, tag, [mode, t, b, inv] ++ wordBytes exposure ++ wordBytes rsv⟩
  | .shade tag rsv => some ⟨0x41, tag, [rsv]⟩
  | .setPrint tag ts tg m margin pulse rsv =>
      some ⟨0x42, tag, wordBytes ts ++ wordBytes tg ++ wordBytes m ++ wordBytes margin
        ++ wordBytes pulse ++ wordBytes rsv⟩
  | .startMove tag source sink depth target reduce header fallback close f8 f9 f10 f12 f13 f14 f16
      f17 =>
      some ⟨0x50, tag, [source, sink, depth, target, reduce, header, fallback, close, f8, f9]
        ++ wordBytes f10 ++ [f12, f13] ++ wordBytes f14 ++ [f16, f17]⟩
  | .abortMove tag num rsv => some ⟨0x51, tag, [num, rsv]⟩
  | .moveStatus tag num rsv => some ⟨0x52, tag, [num, rsv]⟩
  | .lineData tag num endPage endMove rsv coded =>
      some ⟨0x53, tag, [num, endPage, endMove, rsv] ++ coded⟩
  | .readLines tag num k rsv => some ⟨0x54, tag, [num, k, rsv]⟩
  | .loadHeader tag width rsv code => some ⟨0x55, tag, wordBytes width ++ wordBytes rsv ++ code⟩
  | .createDoc tag cls auto rsv => some ⟨0x60, tag, [cls, auto, rsv]⟩
  | .closeDoc tag doc rsv => some ⟨0x61, tag, wordBytes doc ++ [rsv]⟩
  | .deleteDoc tag doc rsv => some ⟨0x62, tag, wordBytes doc ++ [rsv]⟩
  | .releaseDoc tag doc rsv => some ⟨0x63, tag, wordBytes doc ++ [rsv]⟩
  | .listDocs tag start rsv => some ⟨0x64, tag, [start, rsv]⟩
  | .docInfo tag doc start rsv => some ⟨0x65, tag, wordBytes doc ++ [start, rsv]⟩
  | .setReserve tag code rsv => some ⟨0x66, tag, [code, rsv]⟩
  | .checkStore tag rsv => some ⟨0x67, tag, [rsv]⟩
  | _ => none

/-- The line of a LINE_DATA payload: every byte from offset 4; LEN is 5 to 2304 (11.4). -/
def lineDataCommand (tag : Byte) : List Byte → Option Instr
  | num :: endPage :: endMove :: rsv :: c :: coded =>
      if 5 + coded.length ≤ Config.maxPayload then
        some (.lineData tag num endPage endMove rsv (c :: coded))
      else none
  | _ => none

/-- The header code of a LOAD_HEADER payload: every byte from offset 4; LEN is 5 to 2052 (11.4). -/
def loadHeaderCommand (tag : Byte) : List Byte → Option Instr
  | w0 :: w1 :: r0 :: r1 :: c :: code =>
      if 5 + code.length ≤ 2052 then
        some (.loadHeader tag (word16 w0 w1) (word16 r0 r1) (c :: code))
      else none
  | _ => none

/-- The command that a TYPE, a TAG and a payload carry, when the TYPE is a command's and LEN fits
that command (11.4). -/
def commandOf (type : Nat) (tag : Byte) (payload : List Byte) : Option Instr :=
  match type with
  | 0x10 => match payload with
    | [code, rsv] =>
      some (.setLink tag code rsv)
    | _ => none
  | 0x11 => match payload with
    | [clear, rsv] =>
      some (.getStatus tag clear rsv)
    | _ => none
  | 0x12 => match payload with
    | [rsv] =>
      some (.getIdentity tag rsv)
    | _ => none
  | 0x20 => match payload with
    | [idle, auto, warm, rsv] =>
      some (.setPower tag idle auto warm rsv)
    | _ => none
  | 0x21 => match payload with
    | [dom, action, rsv] =>
      some (.domain tag dom action rsv)
    | _ => none
  | 0x22 => match payload with
    | [rsv] =>
      some (.sleep tag rsv)
    | _ => none
  | 0x23 => match payload with
    | [kind, rsv] =>
      some (.reset tag kind rsv)
    | _ => none
  | 0x30 => match payload with
    | [ch, prof, ws0, ws1, wt0, wt1, f0, f1, d0, d1, k0, k1, r0, r1] =>
      some (.setProfile tag ch prof (word16 ws0 ws1) (word16 wt0 wt1) (word16 f0 f1) (word16 d0
        d1) (word16 k0 k1) (word16 r0 r1))
    | _ => none
  | 0x31 => match payload with
    | [ch, dens, w0, w1, f0, f1, d0, d1, r0, r1] =>
      some (.setLineTiming tag ch dens (word16 w0 w1) (word16 f0 f1) (word16 d0 d1) (word16 r0 r1))
    | _ => none
  | 0x32 => match payload with
    | [ch, inv, p0, p1, hold, rsv] =>
      some (.setChannel tag ch inv (word16 p0 p1) hold rsv)
    | _ => none
  | 0x33 => match payload with
    | [ch, prof, dir, rsv, d0, d1] =>
      some (.moveSteps tag ch prof dir rsv (word16 d0 d1))
    | _ => none
  | 0x34 => match payload with
    | [ch, rsv] =>
      some (.stopChannel tag ch rsv)
    | _ => none
  | 0x35 => match payload with
    | [ch, rsv] =>
      some (.clearFault tag ch rsv)
    | _ => none
  | 0x36 => match payload with
    | [p0, p1, p2, p3, b0, b1, b2, b3, settle, rsv, l0, l1, o0, o1, e0, e1] =>
      some (.setFeed tag p0 p1 p2 p3 b0 b1 b2 b3 settle rsv (word16 l0 l1) (word16 o0 o1) (word16
        e0 e1))
    | _ => none
  | 0x37 => match payload with
    | [rsv] =>
      some (.eject tag rsv)
    | _ => none
  | 0x40 => match payload with
    | [mode, t, b, inv, e0, e1, r0, r1] =>
      some (.setScan tag mode t b inv (word16 e0 e1) (word16 r0 r1))
    | _ => none
  | 0x41 => match payload with
    | [rsv] =>
      some (.shade tag rsv)
    | _ => none
  | 0x42 => match payload with
    | [s0, s1, g0, g1, m0, m1, c0, c1, p0, p1, r0, r1] =>
      some (.setPrint tag (word16 s0 s1) (word16 g0 g1) (word16 m0 m1) (word16 c0 c1) (word16 p0
        p1) (word16 r0 r1))
    | _ => none
  | 0x50 => match payload with
    | [source, sink, depth, target, reduce, header, fallback, close, f8, f9, a0, a1, f12, f13,
      b0, b1, f16, f17] =>
      some (.startMove tag source sink depth target reduce header fallback close f8 f9 (word16 a0
        a1) f12 f13 (word16 b0 b1) f16 f17)
    | _ => none
  | 0x51 => match payload with
    | [num, rsv] =>
      some (.abortMove tag num rsv)
    | _ => none
  | 0x52 => match payload with
    | [num, rsv] =>
      some (.moveStatus tag num rsv)
    | _ => none
  | 0x53 => lineDataCommand tag payload
  | 0x54 => match payload with
    | [num, k, rsv] =>
      some (.readLines tag num k rsv)
    | _ => none
  | 0x55 => loadHeaderCommand tag payload
  | 0x60 => match payload with
    | [cls, auto, rsv] =>
      some (.createDoc tag cls auto rsv)
    | _ => none
  | 0x61 => match payload with
    | [d0, d1, rsv] =>
      some (.closeDoc tag (word16 d0 d1) rsv)
    | _ => none
  | 0x62 => match payload with
    | [d0, d1, rsv] =>
      some (.deleteDoc tag (word16 d0 d1) rsv)
    | _ => none
  | 0x63 => match payload with
    | [d0, d1, rsv] =>
      some (.releaseDoc tag (word16 d0 d1) rsv)
    | _ => none
  | 0x64 => match payload with
    | [start, rsv] =>
      some (.listDocs tag start rsv)
    | _ => none
  | 0x65 => match payload with
    | [d0, d1, start, rsv] =>
      some (.docInfo tag (word16 d0 d1) start rsv)
    | _ => none
  | 0x66 => match payload with
    | [code, rsv] =>
      some (.setReserve tag code rsv)
    | _ => none
  | 0x67 => match payload with
    | [rsv] =>
      some (.checkStore tag rsv)
    | _ => none
  | _ => none

/-- The command that a frame carries; none where R7 answers UNKNOWN_TYPE or BAD_LENGTH. -/
def Frame.command? (f : Frame) : Option Instr := commandOf f.type.toNat f.tag f.payload

/-- The command types of 11.2; every other TYPE is answered UNKNOWN_TYPE (R7). -/
def commandTypes : List Byte :=
  [0x10, 0x11, 0x12, 0x20, 0x21, 0x22, 0x23, 0x30, 0x31, 0x32, 0x33, 0x34, 0x35, 0x36, 0x37, 0x40,
   0x41, 0x42, 0x50, 0x51, 0x52, 0x53, 0x54, 0x55, 0x60, 0x61, 0x62, 0x63, 0x64, 0x65, 0x66, 0x67]

end Sys2Proof
end

