-- ==== Sys2Proof/Machine/Operands.lean ====
section
/-! DEFINITION. The code values of 11.3, read from operands and written into records. -/

namespace Sys2Proof.Machine

/-! ## Operands of commands -/

/-- A channel code: 0 DF, 1 RF. -/
def channelOf (b : Byte) : Option ChannelId :=
  match b.toNat with
  | 0 => some .df
  | 1 => some .rf
  | _ => none

/-- A density code: 0 V1, 1 V2, 2 V4. -/
def densityOf (b : Byte) : Option Density :=
  match b.toNat with
  | 0 => some .v1
  | 1 => some .v2
  | 2 => some .v4
  | _ => none

/-- A domain code: 0 SCAN, 1 PRINT, 2 MOTOR. -/
def domainOf (b : Byte) : Option DomainId :=
  match b.toNat with
  | 0 => some .scan
  | 1 => some .print
  | 2 => some .motor
  | _ => none

/-- A class code: 0 RECEIVED, 1 OUTGOING, 2 COPY_SPOOL. -/
def classOf (b : Byte) : Option DocClass :=
  match b.toNat with
  | 0 => some .received
  | 1 => some .outgoing
  | 2 => some .copySpool
  | _ => none

/-- A mark of 0 or 1. -/
def markOf (b : Byte) : Option Bool :=
  match b.toNat with
  | 0 => some false
  | 1 => some true
  | _ => none

/-- A rate code (1.7). -/
def rateOf (b : Byte) : Option Rate :=
  match b.toNat with
  | 0 => some .b125000
  | 1 => some .b250000
  | 2 => some .b500000
  | 3 => some .b1000000
  | _ => none

/-- A line width: 1728 or 2048. -/
def widthOf (w : Word16) : Option Nat :=
  match w.toNat with
  | 1728 => some 1728
  | 2048 => some 2048
  | _ => none

/-! ## Codes in replies and reports -/

/-- The result codes of 11.2. -/
def Result.code : Result → Byte
  | .ok => 0x00
  | .unknownType => 0x01
  | .badLength => 0x02
  | .badValue => 0x03
  | .linkUnset => 0x04
  | .booting => 0x05
  | .busy => 0x06
  | .inUse => 0x07
  | .tableFull => 0x08
  | .noSuchMove => 0x09
  | .noSuchDoc => 0x0A
  | .noRoom => 0x0B
  | .moveEnded => 0x0C
  | .held => 0x0D
  | .storeFull => 0x0E
  | .notLoaded => 0x0F
  | .docPresent => 0x10
  | .badRoute => 0x11
  | .domainFault => 0x12
  | .pageLong => 0x13
  | .shadeWeak => 0x14

def channelCode : ChannelId → Byte
  | .df => 0
  | .rf => 1

def ChanState.code : ChanState → Byte
  | .idle => 0
  | .holding => 1
  | .ramping => 2
  | .lineRun => 3
  | .lineHold => 4
  | .stopping => 5
  | .fault => 6

def Density.code : Density → Byte
  | .v1 => 0
  | .v2 => 1
  | .v4 => 2

def DomainId.code : DomainId → Byte
  | .scan => 0
  | .print => 1
  | .motor => 2

def DomainState.code : DomainState → Byte
  | .off => 0
  | .starting => 1
  | .on => 2
  | .fault => 3

def PowerState.code : PowerState → Byte
  | .run => 0
  | .standby => 1
  | .sleep => 2

def MoveState.code : MoveState → Byte
  | .pending => 0
  | .starting => 1
  | .running => 2
  | .draining => 3
  | .done => 4
  | .aborted => 5
  | .failed => 6

def MoveCause.code : MoveCause → Byte
  | .docJam => 1
  | .paperOut => 2
  | .coverOpen => 3
  | .motorFault => 4
  | .storeFull => 5
  | .domainFault => 6

/-- The move cause field: 0 for none. -/
def causeCode : Option MoveCause → Byte
  | none => 0
  | some c => c.code

/-- The route field: source times 16 plus sink. -/
def routeCode (source : Source) (sink : Sink) : Byte :=
  let a := match source with
    | .scan _ _ => 0
    | .linkIn _ _ => 1
    | .store _ _ _ => 2
  let b := match sink with
    | .print => 0
    | .linkOut => 1
    | .store _ _ _ _ => 2
  byte1 (a * 16 + b)

def DocState.code : DocState → Byte
  | .none => 0
  | .settling => 1
  | .loading => 2
  | .loaded => 3
  | .scanning => 4
  | .ejecting => 5
  | .jammed => 6

def DocCause.code : DocCause → Byte
  | .arrived => 0
  | .removed => 1
  | .load => 2
  | .nextSheet => 3
  | .aligned => 4
  | .scan => 5
  | .command => 6
  | .pagesDone => 7
  | .moveEnded => 8
  | .ejected => 9
  | .preloadTimeout => 10
  | .gapTimeout => 11
  | .pageLong => 12
  | .misfeed => 13
  | .notCleared => 14
  | .coverOpen => 15
  | .motorFault => 16
  | .cleared => 17
  | .reset => 18
  | .powerOn => 19

def DocClass.code : DocClass → Byte
  | .received => 0
  | .outgoing => 1
  | .copySpool => 2

def PageCondition.code : PageCondition → Byte
  | .opened => 0
  | .complete => 1
  | .truncated => 2

def Rate.code : Rate → Byte
  | .b125000 => 0
  | .b250000 => 1
  | .b500000 => 2
  | .b1000000 => 3

/-- The half-steps of one line (chapter 2). -/
def Density.steps : Density → Nat
  | .v1 => 4
  | .v2 => 2
  | .v4 => 1

/-- The lines of a density per line of V1. -/
def Density.rank : Density → Nat
  | .v1 => 1
  | .v2 => 2
  | .v4 => 4

end Sys2Proof.Machine
end

