-- ==== Sys2Proof/Machine/Ops.lean ====
section
/-! DEFINITION. The operations every block uses: its own part of the state, the outbound queue with
its replies and reports (R7, R9), the sensors' states, and the lookups in the move table. -/

namespace Sys2Proof.Machine

/-! ## One block at a time -/

def State.onLink (f : Link → Link) (s : State) : State := { s with link := f s.link }
def State.onFeed (f : Feed → Feed) (s : State) : State := { s with feed := f s.feed }
def State.onScan (f : Scan → Scan) (s : State) : State := { s with scan := f s.scan }
def State.onPrint (f : Print → Print) (s : State) : State := { s with print := f s.print }
def State.onPath (f : Path → Path) (s : State) : State := { s with path := f s.path }
def State.onStore (f : Store → Store) (s : State) : State := { s with store := f s.store }
def State.onPower (f : Power → Power) (s : State) : State := { s with power := f s.power }

/-- A channel of the part. -/
def State.channel (ch : ChannelId) (s : State) : Channel :=
  match ch with
  | .df => s.df
  | .rf => s.rf

/-- One channel changes. -/
def State.onChannel (ch : ChannelId) (f : Channel → Channel) (s : State) : State :=
  match ch with
  | .df => { s with df := f s.df }
  | .rf => { s with rf := f s.rf }

/-- The settings of a channel. -/
def State.channelCfg (ch : ChannelId) (s : State) : ChannelSettings :=
  match ch with
  | .df => s.cfg.df
  | .rf => s.cfg.rf

/-- The level of a channel's FLT input. -/
def State.flt (ch : ChannelId) (s : State) : Bool :=
  match ch with
  | .df => s.inputs.fltd
  | .rf => s.inputs.fltr

/-- The head width, which is N (R185). -/
def State.headWidth (s : State) : Nat := Config.headWidth s.straps

/-- The total of segments (R185). -/
def State.total (s : State) : Nat := Config.totalSegments s.straps

/-- The clocks run: NRST is not active and the part is not in SLEEP or waking (R176, R183, R185). -/
def State.clocked (s : State) : Bool := !s.held && s.power.state != .sleep

/-! ## The outbound queue -/

/-- A command that is taken and not yet answered holds a place for its reply (R7). -/
def HandPhase.reserves : HandPhase → Bool
  | .taken | .handed => true
  | .untaken | .replied => false

/-- The place reserved for the reply of the command in hand (R7, R9). -/
def Link.reserved (l : Link) : Nat :=
  match l.hand with
  | some h => if h.phase.reserves then 1 else 0
  | none => 0

/-- The frame in hand is taken: a place is reserved for its reply, when the queue has one (R5, R7). -/
def Link.take (l : Link) : Link :=
  match l.hand with
  | some ⟨f, .untaken⟩ =>
    if l.outbound.length < Config.outboundPlaces then { l with hand := some ⟨f, .taken⟩ } else l
  | _ => l

def OutRecord.isReport (r : OutRecord) : Bool := r.kind == .report

/-- The reports in the queue. -/
def Link.reports (l : Link) : Nat := (l.outbound.filter OutRecord.isReport).length

/-- A report is admitted when fewer than 15 reports stand in the queue and records plus reservations
number fewer than 16 (R9). -/
def Link.admits (l : Link) : Bool :=
  l.reports < Config.reportPlaces && l.outbound.length + l.reserved < Config.outboundPlaces

/-- A report enters at the tail, or is dropped with REPORT_OVERFLOW set (R9). -/
def Link.report (type : Byte) (payload : List Byte) (l : Link) : Link :=
  if l.admits then { l with outbound := l.outbound ++ [⟨.report, type, 0, payload⟩] }
  else { l with sticky := { l.sticky with reportOverflow := true } }

/-- The part raises a report (R9). -/
def State.report (type : Byte) (payload : List Byte) (s : State) : State :=
  s.onLink (Link.report type payload)

/-- A link fault sets its flag and raises its report together (R6). -/
def State.linkFault (r : LinkFaultReason) (s : State) : State :=
  (s.onLink fun l => { l with sticky := l.sticky.linkFault r }).report 0xE7 [r.code]

/-- The command in hand completes: the waiting frame moves into the hand and is taken (R5). -/
def Link.complete (l : Link) : Link :=
  { l with hand := l.waiting.map fun f => ⟨f, .untaken⟩, waiting := none }.take

/-- A reply record for a frame: TYPE plus 0x80, the same TAG (R7, R199). -/
def replyRecord (kind : RecordKind) (f : Frame) (payload : List Byte) : OutRecord :=
  ⟨kind, f.type + 0x80, f.tag, payload⟩

/-- A reply enters at the tail in its reserved place, and the command completes (R5, R9). That the frame waiting
behind it takes a free place before the reports that follow the reply in the same event is DESIGN CHOICE (log 68). -/
def Link.answer (kind : RecordKind) (f : Frame) (payload : List Byte) (l : Link) : Link :=
  { l with outbound := l.outbound ++ [replyRecord kind f payload] }.complete

/-- The late reply of the command in hand is queued (R8); nothing is queued without a command that its
block has been handed. -/
def Link.answerLate (payload : List Byte) (l : Link) : Link :=
  match l.hand with
  | some h => if h.phase = .handed then l.answer .reply h.frame payload else l
  | none => l

def State.answerLate (payload : List Byte) (s : State) : State :=
  s.onLink (Link.answerLate payload)

/-! ## Sensors -/

def Feed.sensor (id : SensorId) (f : Feed) : Sensor :=
  match id with
  | .docEntry => f.docEntry
  | .docScan => f.docScan
  | .paper => f.paper
  | .cover => f.cover

def Feed.onSensor (id : SensorId) (g : Sensor → Sensor) (f : Feed) : Feed :=
  match id with
  | .docEntry => { f with docEntry := g f.docEntry }
  | .docScan => { f with docScan := g f.docScan }
  | .paper => { f with paper := g f.paper }
  | .cover => { f with cover := g f.cover }

def FeedSettings.sensor (id : SensorId) (f : FeedSettings) : SensorSettings :=
  match id with
  | .docEntry => f.docEntry
  | .docScan => f.docScan
  | .paper => f.paper
  | .cover => f.cover

/-- The level of a sensor's input (3.1). -/
def Inputs.sensor (id : SensorId) (i : Inputs) : Bool :=
  match id with
  | .docEntry => i.sne
  | .docScan => i.sns
  | .paper => i.snp
  | .cover => i.snc

def Inputs.setSensor (id : SensorId) (level : Bool) (i : Inputs) : Inputs :=
  match id with
  | .docEntry => { i with sne := level }
  | .docScan => { i with sns := level }
  | .paper => { i with snp := level }
  | .cover => { i with snc := level }

/-- Debounced states (R45). -/
def State.entryPresent (s : State) : Bool := s.feed.docEntry.debounced
def State.scanPresent (s : State) : Bool := s.feed.docScan.debounced
def State.paperPresent (s : State) : Bool := s.feed.paper.debounced
def State.coverOpen (s : State) : Bool := s.feed.cover.debounced

/-! ## The move table -/

/-- The records of the table, entry 0 first. -/
def State.moves (s : State) : List Move := s.path.table.filterMap id

/-- A move that has not ended. -/
def Move.live (m : Move) : Bool :=
  m.state == .pending || m.state == .starting || m.state == .running || m.state == .draining

/-- A move in STARTING, RUNNING or DRAINING: it holds its claims and counts its depth (R120). -/
def Move.active (m : Move) : Bool :=
  m.state == .starting || m.state == .running || m.state == .draining

/-- A move whose lines flow (RUNNING or DRAINING). -/
def Move.flowing (m : Move) : Bool := m.state == .running || m.state == .draining

def Move.isScan (m : Move) : Bool :=
  match m.source with
  | .scan _ _ => true
  | _ => false

def Move.isLinkIn (m : Move) : Bool :=
  match m.source with
  | .linkIn _ _ => true
  | _ => false

def Move.isStoreSource (m : Move) : Bool :=
  match m.source with
  | .store _ _ _ => true
  | _ => false

def Move.isPrint (m : Move) : Bool := m.sink == .print

def Move.isLinkOut (m : Move) : Bool := m.sink == .linkOut

def Move.isStoreSink (m : Move) : Bool :=
  match m.sink with
  | .store _ _ _ _ => true
  | _ => false

/-- The document a STORE sink writes, once it has a number. -/
def Move.sinkDoc? (m : Move) : Option Nat :=
  match m.sink with
  | .store doc _ _ _ => if doc = 0 then none else some doc
  | _ => none

/-- The record of a move, by acceptance order. -/
def State.move? (id : Nat) (s : State) : Option Move := s.moves.find? fun m => m.id == id

/-- The record that holds a move number (R134). -/
def State.moveNumbered? (number : Nat) (s : State) : Option Move :=
  s.moves.find? fun m => m.number == number

/-- One move's record changes. -/
def Path.onMove (id : Nat) (f : Move → Move) (p : Path) : Path :=
  { p with table := p.table.map fun e => e.map fun m => if m.id = id then f m else m }

def State.onMove (id : Nat) (f : Move → Move) (s : State) : State := s.onPath (Path.onMove id f)

/-- A number takes its place in a rising list. -/
def insertNat (n : Nat) : List Nat → List Nat
  | [] => [n]
  | m :: ms => if n ≤ m then n :: m :: ms else m :: insertNat n ms

/-- A list of numbers in rising order. -/
def sortNat (ns : List Nat) : List Nat := ns.foldr insertNat []

/-- The acceptance orders of the moves that have a property, oldest first. -/
def State.moveIds (p : Move → Bool) (s : State) : List Nat :=
  sortNat ((s.moves.filter p).map Move.id)

/-- The move that PRU serves: the one with the PRINT sink in RUNNING or DRAINING (R91). -/
def State.serving? (s : State) : Option Move := s.moves.find? fun m => m.isPrint && m.flowing

/-- The move with the SCAN source whose lines flow. -/
def State.scanning? (s : State) : Option Move := s.moves.find? fun m => m.isScan && m.flowing

/-- A move with the SCAN source in STARTING, RUNNING or DRAINING (R61, R75, R76). -/
def State.scanBusy (s : State) : Bool := s.moves.any fun m => m.isScan && m.active

/-- A move with the PRINT sink in STARTING, RUNNING or DRAINING (R95). -/
def State.printBusy (s : State) : Bool := s.moves.any fun m => m.isPrint && m.active

/-! ## The segments of the page memory -/

/-- The FREE mark: sixteen bytes of 0xFF (R146). -/
def freeMark : List Byte := List.replicate 16 0xFF

/-- The RETIRED mark: 0xA5, 0x5A eight times (R146). -/
def retiredMark : List Byte := [0xA5, 0x5A, 0xA5, 0x5A, 0xA5, 0x5A, 0xA5, 0x5A,
  0xA5, 0x5A, 0xA5, 0x5A, 0xA5, 0x5A, 0xA5, 0x5A]

/-- What an unlisted segment reads as: a FREE mark, no data byte that anything reads (log 8). -/
def Segment.blank : Segment := ⟨.raw freeMark, []⟩

/-- A segment of the page memory. -/
def PageMemory.read (n : Nat) : PageMemory → Segment
  | [] => Segment.blank
  | (k, seg) :: rest => if k = n then seg else PageMemory.read n rest

/-- A segment is written; the list keeps its canonical form. -/
def PageMemory.write (n : Nat) (seg : Segment) : PageMemory → PageMemory
  | [] => if seg = Segment.blank then [] else [(n, seg)]
  | (k, old) :: rest =>
    if n < k then
      if seg = Segment.blank then (k, old) :: rest else (n, seg) :: (k, old) :: rest
    else if n = k then
      if seg = Segment.blank then rest else (n, seg) :: rest
    else (k, old) :: PageMemory.write n seg rest

/-- Numbers strictly rising, each above a bound. -/
def risingFrom (lo : Nat) : PageMemory → Bool
  | [] => true
  | (k, seg) :: rest => lo ≤ k && seg != Segment.blank && risingFrom (k + 1) rest

/-- The canonical form: numbers strictly rising, no entry equal to what an unlisted one reads as. -/
def PageMemory.wf (m : PageMemory) : Bool := risingFrom 0 m

/-- The FREE mark is written, and no data byte of the segment is read again (log 8). -/
def PageMemory.free (n : Nat) (m : PageMemory) : PageMemory := m.write n Segment.blank

/-- A segment with its header written: the data bytes stay, but under the FREE mark none is read again
(log 8). -/
def Segment.withHeader (h : SegHeader) (seg : Segment) : Segment :=
  if h = .raw freeMark then Segment.blank else { seg with header := h }

/-- A header is written as one burst (R147). -/
def PageMemory.writeHeader (n : Nat) (h : SegHeader) (m : PageMemory) : PageMemory :=
  m.write n ((m.read n).withHeader h)

/-- Header writes, oldest first. -/
def PageMemory.writeHeaders (ws : List (Nat × SegHeader)) (m : PageMemory) : PageMemory :=
  ws.foldl (fun m w => m.writeHeader w.1 w.2) m

end Sys2Proof.Machine
end

