-- ==== Sys2Proof/Machine/Motor.lean ====
section
/-! DEFINITION. The stepping channels (chapter 2): step periods, ramped moves, line runs, stops,
users and the request queue. Every function here changes one channel and nothing else. -/

namespace Sys2Proof.Machine

/-! ## Settings -/

/-- The line timing of a density (R24). -/
def ChannelSettings.timing (d : Density) (c : ChannelSettings) : LineTiming :=
  match d with
  | .v1 => c.v1
  | .v2 => c.v2
  | .v4 => c.v4

def ChannelSettings.setTiming (d : Density) (t : LineTiming) (c : ChannelSettings) :
    ChannelSettings :=
  match d with
  | .v1 => { c with v1 := t }
  | .v2 => { c with v2 := t }
  | .v4 => { c with v4 := t }

/-- A W is raised to the pull-in period (R24, R25). -/
def LineTiming.clamp (pullIn : Nat) (t : LineTiming) : LineTiming := { t with w := max t.w pullIn }

/-- A profile of the channel. -/
def ChannelSettings.profile (n : Nat) (c : ChannelSettings) : Profile :=
  c.profiles.getD n ⟨40, 40, 0, 1, 0⟩

/-- The hold time in ms (R25). -/
def ChannelSettings.holdTime (c : ChannelSettings) : Nat := 10 * c.holdCode

/-! ## Step periods (2.5) -/

/-- The next fractional cruise period and the accumulator after it (R26). -/
def cruisePeriod (w f d acc : Nat) : Nat × Nat :=
  if acc + f ≥ d then (w + 1, acc + f - d) else (w, acc + f)

/-- The period of the step now in front, `r` steps left with it (R27). -/
def RampRun.plan (x : RampRun) : RampRun :=
  if x.r ≤ x.a then
    let q := min (x.q + x.profile.k16) x.qs
    { x with q := q, period := q / 16 }
  else if x.r > x.a + 1 ∧ x.q > x.qt then
    { x with period := x.q / 16, q := max (x.q - x.profile.k16) x.qt, a := x.a + 1 }
  else if x.q = x.qt then
    let c := cruisePeriod x.profile.wt x.profile.f x.profile.d x.acc
    { x with period := c.1, acc := c.2 }
  else { x with period := x.q / 16 }

/-- A ramped move at its start, its first period begun (R27, R29). -/
def RampRun.start (p : Profile) (forward : Bool) (distance : Nat) : RampRun :=
  let qt := 16 * p.wt
  let qs := if p.ws ≤ p.wt ∨ p.k16 = 0 then qt else 16 * p.ws
  RampRun.plan
    { profile := p
      forward := forward
      qs := qs
      qt := qt
      q := qs
      a := 0
      r := distance
      acc := 0
      period := 0
      stopOrdered := false }

/-- The steps still to go once the step in progress has been issued: a stop leaves the lesser of
them and the acceleration count (R32). -/
def RampRun.toGo (x : RampRun) : Nat :=
  if x.stopOrdered then min (x.r - 1) x.a else x.r - 1

/-- A line's first step period begins (R36 to R39). -/
def LineRun.plan (x : LineRun) : LineRun :=
  let c := cruisePeriod x.timing.w x.timing.f x.timing.d x.acc
  { x with period := some c.1, acc := c.2 }

/-- A line run at its start, at the boundary of its first line (R36). -/
def LineRun.start (density : Density) (t : LineTiming) (gated : Bool) : LineRun :=
  { density := density
    timing := t
    acc := 0
    gated := gated
    gatingChange := none
    endOrdered := false
    stopOrdered := false
    stepsLeft := 0
    period := none
    waiting := false }

/-! ## Phase and position (2.2) -/

/-- One step: the position counts it whatever direction invert is, the phase index follows the
rotation (R19, R20). -/
def Channel.issue (invert forward : Bool) (c : Channel) : Channel :=
  { c with
    phase := if forward != invert then c.phase + 1 else c.phase - 1
    position := if forward then c.position + 1 else c.position - 1 }

/-! ## Holding, users and requests (2.3, 2.9) -/

/-- Free: no user, in IDLE or HOLDING (R21). -/
def Channel.free (c : Channel) : Bool := c.user.isNone && (c.state == .idle || c.state == .holding)

/-- Stopped: HOLDING, IDLE or FAULT (R18, R195). -/
def Channel.stopped (c : Channel) : Bool :=
  c.state == .holding || c.state == .idle || c.state == .fault

/-- The hold timer of a userless channel in HOLDING starts; a hold time of 0 ends it at once (R40). -/
def Channel.startHold (c : Channel) : Channel :=
  if c.state = .holding then
    if c.holdLatched = 0 then { c with state := .idle, holdTimer := none }
    else { c with holdTimer := some c.holdLatched }
  else c

/-- The channel enters HOLDING with the hold time in force; its user is as it was (R40). -/
def Channel.enterHolding (hold : Nat) (c : Channel) : Channel :=
  { c with state := .holding, run := .none, holdLatched := hold, holdTimer := none }

/-- The user leaves a stopped channel: the head of the request queue becomes user at that moment, or
the hold timer starts (R21, R22, R40). -/
def Channel.passOn (c : Channel) : Channel :=
  match c.queue with
  | u :: rest => { c with user := some u, releasing := false, queue := rest }
  | [] => { c with user := none, releasing := false }.startHold

/-- A channel that has come to HOLDING under a user that has ended passes on (R22). -/
def Channel.settleHolding (c : Channel) : Channel :=
  if c.state = .holding ∧ c.releasing = true then c.passOn else c

/-- The answers to a request (R21). -/
inductive RequestAnswer where
  | granted
  | queued
  | fault
  | coverOpen
  deriving DecidableEq, Repr

/-- The answer that a request gets (R21); FAULT where the cover is OPEN too. DESIGN CHOICE (log 32). -/
def Channel.requestAnswer (cover : Bool) (c : Channel) : RequestAnswer :=
  if c.state = .fault then .fault
  else if cover then .coverOpen
  else if c.free && c.queue.isEmpty then .granted
  else .queued

/-- The channel after a request: the requester is user, or at the tail of the queue, once (R21). -/
def Channel.request (u : User) (cover : Bool) (c : Channel) : Channel :=
  if c.user = some u ∧ c.releasing = false ∨ u ∈ c.queue then c
  else
    match c.requestAnswer cover with
    | .granted => { c with user := some u, releasing := false, holdTimer := none }
    | .queued => { c with queue := c.queue ++ [u] }
    | _ => c

/-- A requester is withdrawn from wherever it stands in the queue (R21). -/
def Channel.withdraw (u : User) (c : Channel) : Channel :=
  { c with queue := c.queue.filter fun v => v != u }

/-! ## Orders and stops (2.6, 2.7) -/

/-- An order is kept until the channel may start it (R29, R36). -/
def Channel.order (o : Order) (c : Channel) : Channel := { c with startWaiting := some o }

/-- The stop of a ramped move takes effect at the step in progress (R32). -/
def Channel.stopRamp (c : Channel) : Channel :=
  match c.run with
  | .ramp x => if c.state = .ramping then { c with run := .ramp { x with stopOrdered := true } } else c
  | _ => c

/-- The stop of a line run: at the step whose period is running, or at once (R33). -/
def Channel.stopLine (hold : Nat) (c : Channel) : Channel :=
  match c.run with
  | .line x =>
    if c.state = .lineRun ∧ x.period.isSome then
      { c with run := .line { x with stopOrdered := true } }
    else if c.state = .lineRun ∨ c.state = .lineHold then (c.enterHolding hold).settleHolding
    else c
  | _ => c

/-- A stop order from the user: an order not yet started is dropped too (R32, R33). -/
def Channel.stop (hold : Nat) (c : Channel) : Channel :=
  ({ c with startWaiting := none }.stopRamp).stopLine hold

/-- The user ends: a stepping channel stops first and is released when it reaches HOLDING (R22). -/
def Channel.release (hold : Nat) (c : Channel) : Channel :=
  match c.state with
  | .idle | .holding => { c with startWaiting := none }.passOn
  | .fault => c
  | _ => { c with releasing := true }.stop hold

/-- A party gives up the channel, as user or as requester (R22). -/
def Channel.giveUp (u : User) (hold : Nat) (c : Channel) : Channel :=
  if c.user = some u then (c.withdraw u).release hold else c.withdraw u

/-- The cover is taken open: no step is issued, the channel is in HOLDING if it was stepping, its
user is released, the start waiting and the queue are gone (R34). -/
def Channel.coverStop (hold : Nat) (c : Channel) : Channel :=
  let c := { c with user := none, releasing := false, queue := [], startWaiting := none }
  match c.state with
  | .idle | .fault => c
  | .holding => if c.holdTimer.isSome then c else c.startHold
  | _ => (c.enterHolding hold).startHold

/-- The channel enters FAULT (R41). -/
def Channel.enterFault (c : Channel) : Channel :=
  { c with
    state := .fault
    user := none
    releasing := false
    queue := []
    startWaiting := none
    holdTimer := none
    run := .none }

/-- A RESET reaches the channel: a ramp decelerates, a line run stops at once, a user is released as
the channel stops, the start waiting and the queue are gone (R32, R33, R43). -/
def Channel.resetStop (hold : Nat) (c : Channel) : Channel :=
  let c := { c with queue := [], startWaiting := none }
  match c.state with
  | .idle | .holding => if c.user.isSome then c.passOn else c
  | .ramping | .stopping => { c with releasing := true }.stopRamp
  | .lineRun | .lineHold => ({ c with releasing := true }.enterHolding hold).settleHolding
  | .fault => c

/-- The MOTOR domain goes OFF: a channel in HOLDING enters IDLE (R40). -/
def Channel.motorOff (c : Channel) : Channel :=
  if c.state = .holding then { c with state := .idle, holdTimer := none } else c

/-! ## Line mode (2.8) -/

/-- A line run not yet started is dropped (R36). -/
def Channel.dropLineWaiting (c : Channel) : Channel :=
  match c.startWaiting with
  | some (.line _ _) => { c with startWaiting := none }
  | _ => c

/-- A line run under way ends at the next boundary, at once in LINE_HOLD (R36). -/
def Channel.endRun (hold : Nat) (c : Channel) : Channel :=
  match c.run with
  | .line x =>
    if c.state = .lineHold then (c.enterHolding hold).settleHolding
    else { c with run := .line { x with endOrdered := true } }
  | _ => c

/-- The order to end a line run (R36). R36 speaks of a run under way; an order that finds the run still kept as the
start waiting drops it, and the channel stays in IDLE or HOLDING. DESIGN CHOICE (log 53). -/
def Channel.endLine (hold : Nat) (c : Channel) : Channel := c.dropLineWaiting.endRun hold

/-- A line run not yet started starts with the gating. R36 lets the user change the gating of a run under way; that a
change which finds the run still kept as the start waiting replaces the gating of that order is DESIGN CHOICE (log
71). -/
def Channel.gateWaiting (gated : Bool) (c : Channel) : Channel :=
  match c.startWaiting with
  | some (.line d _) => { c with startWaiting := some (.line d gated) }
  | _ => c

/-- An ungated line begins: its S steps, without a grant (R39). -/
def Channel.beginUngated (x : LineRun) (c : Channel) : Channel :=
  { c with
    state := .lineRun
    run := .line { x with stepsLeft := x.density.steps, waiting := false }.plan }

/-- A line run under way takes the gating at the next boundary, at once in LINE_HOLD, where an ungated line then
begins (R36, R39). -/
def Channel.gateRun (gated : Bool) (c : Channel) : Channel :=
  match c.run with
  | .line x =>
    if c.state = .lineHold then
      if gated then { c with run := .line { x with gated := true } }
      else c.beginUngated { x with gated := false }
    else { c with run := .line { x with gatingChange := some gated } }
  | _ => c

/-- The order to change the gating of a run (R36), one not yet started included (DESIGN CHOICE, log 71). -/
def Channel.setGating (gated : Bool) (c : Channel) : Channel := (c.gateWaiting gated).gateRun gated

/-- A boundary: the run ends if so ordered, an ordered gating is taken, and the channel holds for the
grant or begins the next line (R36, R37, R38, R39). -/
def Channel.boundary (hold : Nat) (x : LineRun) (c : Channel) : Channel :=
  if x.endOrdered then (c.enterHolding hold).settleHolding
  else
    let x := { x with gated := x.gatingChange.getD x.gated, gatingChange := none }
    if x.gated then { c with state := .lineHold, run := .line x }
    else c.beginUngated x

/-- A gated DF line begins: its capture is outstanding and its first step period runs (R37). -/
def Channel.beginCapture (c : Channel) : Channel :=
  match c.run with
  | .line x =>
    { c with
      state := .lineRun
      run := .line { x with stepsLeft := x.density.steps, waiting := true }.plan }
  | _ => c

/-- A gated RF line begins: no step until its strobe done (R38). -/
def Channel.beginStrobe (c : Channel) : Channel :=
  match c.run with
  | .line x =>
    { c with
      state := .lineRun
      run := .line { x with stepsLeft := x.density.steps, waiting := true, period := none } }
  | _ => c

/-- Capture done reaches the channel: the boundary comes if the steps are issued (R37); outside line
mode it is ignored (R36). -/
def Channel.captureDone (hold : Nat) (c : Channel) : Channel :=
  match c.run with
  | .line x =>
    if c.state = .lineRun ∧ x.gated = true ∧ x.waiting = true then
      let x := { x with waiting := false }
      if x.period.isNone then c.boundary hold x else { c with run := .line x }
    else c
  | _ => c

/-- Strobe done reaches the channel: the first step period begins (R38); outside line mode it is
ignored (R36). -/
def Channel.strobeDone (c : Channel) : Channel :=
  match c.run with
  | .line x =>
    if c.state = .lineRun ∧ x.gated = true ∧ x.waiting = true then
      { c with run := .line { x with waiting := false }.plan }
    else c
  | _ => c

/-- The channel starts an order: a ramped move, or a line run at its first boundary (R29, R36). -/
def Channel.startOrder (cfg : ChannelSettings) (o : Order) (c : Channel) : Channel :=
  let c := { c with startWaiting := none, holdTimer := none }
  match o with
  | .ramp n forward distance =>
    { c with state := .ramping, run := .ramp (RampRun.start (cfg.profile n) forward distance) }
  | .line d gated =>
    let x := LineRun.start d (cfg.timing d) gated
    if gated then { c with state := .lineHold, run := .line x } else c.beginUngated x

/-! ## The step (R27, R32, R33, R37 to R39) -/

/-- A step is due: a ramped move or a stop is running, or a line's step period is. -/
def Channel.stepDue (c : Channel) : Bool :=
  match c.run with
  | .ramp _ => c.state == .ramping || c.state == .stopping
  | .line x => c.state == .lineRun && x.period.isSome
  | .none => false

/-- The step of a ramped move is issued: the move ends in HOLDING, or its next period begins. -/
def Channel.stepRamp (cfg : ChannelSettings) (x : RampRun) (c : Channel) : Channel :=
  let c := c.issue cfg.invert x.forward
  if x.toGo = 0 then c.enterHolding cfg.holdTime
  else
    { c with
      state := if x.stopOrdered then .stopping else .ramping
      run := .ramp { x with r := x.toGo }.plan }

/-- The step of a line is issued: a stop takes effect, the next period begins, or the line's steps
are done and the boundary comes unless its capture is outstanding. -/
def Channel.stepLine (cfg : ChannelSettings) (x : LineRun) (c : Channel) : Channel :=
  let c := c.issue cfg.invert true
  let x := { x with stepsLeft := x.stepsLeft - 1, period := none }
  if x.stopOrdered then (c.enterHolding cfg.holdTime).settleHolding
  else if x.stepsLeft > 0 then { c with run := .line x.plan }
  else if x.waiting then { c with run := .line x }
  else c.boundary cfg.holdTime x

/-- The last step of the move in progress is the one being issued (R29, R32). -/
def RampRun.ending (x : RampRun) : Bool := x.toGo == 0

end Sys2Proof.Machine
end

