-- ==== Sys2Proof/Machine/LineCode.lean ====
section
/-! DEFINITION. The line code and the conversions of a raw line (chapter 6), the pixel stages of the
scan unit (chapter 4) and the strobe phases of the head (chapter 5): functions of a line alone. -/

namespace Sys2Proof.Machine

/-! ## The line code (6.1, 6.2) -/

/-- The lengths of the runs of a line; `colour` is the run's colour and `n` its length so far. -/
def runsFrom (colour : Bool) (n : Nat) : RawLine → List Nat
  | [] => [n]
  | d :: ds => if d = colour then runsFrom colour (n + 1) ds else n :: runsFrom d 1 ds

/-- The runs of a line, the first one white (R99). -/
def runsOf (line : RawLine) : List Nat := runsFrom false 0 line

/-- One run: a terminating byte, after a makeup byte for 192 or more (R98, R99). -/
def encodeRun (n : Nat) : List Byte :=
  if n < 192 then [BitVec.ofNat 8 n]
  else [BitVec.ofNat 8 (192 + (n / 192 - 1)), BitVec.ofNat 8 (n % 192)]

/-- The coded line: its runs and the end-of-line byte (R99). -/
def encodeLine (line : RawLine) : List Byte := (runsOf line).flatMap encodeRun ++ [255]

/-- The runs of a coded line, none when it fails structurally (R100): `n` is the length made up so
far, `made` says that a makeup byte has just been read. -/
def decodeRuns (n : Nat) (made : Bool) : List Byte → Option (List Nat)
  | [] => none
  | b :: rest =>
    if b.toNat < 192 then (decodeRuns 0 false rest).map fun runs => (n + b.toNat) :: runs
    else if b.toNat < 208 then
      if made then none else decodeRuns (192 * (b.toNat - 191)) true rest
    else if b.toNat = 255 then
      if made || !rest.isEmpty then none else some []
    else none

/-- The dots of runs whose colours alternate. -/
def expandRuns (colour : Bool) : List Nat → RawLine
  | [] => []
  | n :: ns => List.replicate n colour ++ expandRuns (!colour) ns

/-- A line of width w, and whether it was repaired (R100, R101). -/
def decodeLine (w : Nat) (coded : List Byte) : RawLine × Bool :=
  match decodeRuns 0 false coded with
  | none => (List.replicate w false, true)
  | some runs =>
    let dots := expandRuns false runs
    (dots.take w ++ List.replicate (w - dots.length) false, dots.length != w)

/-! ## Widths (6.3) -/

/-- The positions dropped in each group of 32 dots (R102). -/
def droppedDots : List Nat := [3, 9, 16, 22, 28]

/-- A group of 32 dots becomes 27: a dropped black dot darkens the dot to its right (R102). -/
def reduceGroup (g : List Bool) : List Bool :=
  (List.range 32).filterMap fun p =>
    if droppedDots.contains p then none
    else some (g.getD p false || (p != 0 && droppedDots.contains (p - 1) && g.getD (p - 1) false))

/-- The reduction of 2048 dots to 1728; a 1728-dot line is unchanged (R102). -/
def reduceLine (line : RawLine) : RawLine :=
  if line.length = 2048 then
    (List.range 64).flatMap fun g => reduceGroup ((line.drop (32 * g)).take 32)
  else line

/-- The centering of 1728 dots on 2048; a 2048-dot line is unchanged (R103). -/
def centreLine (line : RawLine) : RawLine :=
  if line.length = 1728 then List.replicate 160 false ++ line ++ List.replicate 160 false else line

/-- The fitting of a line to the head width (R82). -/
def fitLine (head : Nat) (line : RawLine) : RawLine :=
  if line.length = head then line
  else if head = 1728 then reduceLine line
  else centreLine line

/-- Two lines of one group: a dot is black when it is black in either (R105). -/
def mergeLines (a b : RawLine) : RawLine := List.zipWith (· || ·) a b

/-- The merge factor from a source density to a target density at or below it (6.5). -/
def mergeFactor (source target : Density) : Nat :=
  match source, target with
  | .v4, .v1 => 4
  | .v4, .v2 => 2
  | .v2, .v1 => 2
  | _, _ => 1

/-! ## Pixels (4.1 to 4.3) -/

/-- Video invert (R65). -/
def invertPixel (invert : Bool) (p : Pixel) : Nat := if invert then 63 - p.toNat else p.toNat

/-- The shading stage: pixel v, black level B, white reference W (R66). -/
def shadePixel (v b w : Nat) : Nat :=
  if v ≤ b then 0 else if w ≤ b then 63 else min 63 ((v - b) * 63 / (w - b))

/-- The matrix of R69, row y mod 4 and column x mod 4. -/
def halftoneEntry (y x : Nat) : Nat :=
  match y % 4, x % 4 with
  | 0, 0 => 0 | 0, 1 => 8 | 0, 2 => 2 | 0, _ => 10
  | 1, 0 => 12 | 1, 1 => 4 | 1, 2 => 14 | 1, _ => 6
  | 2, 0 => 3 | 2, 1 => 11 | 2, 2 => 1 | 2, _ => 9
  | _, 0 => 15 | _, 1 => 7 | _, 2 => 13 | _, _ => 5

/-- The threshold a dot's value must lie below to be black (R68, R69). -/
def dotThreshold (settings : ScanSettings) (y x : Nat) : Nat :=
  if settings.halftone then 2 + 4 * halftoneEntry y x else settings.threshold

/-- The dots of a line from position x on, from its pixels and the white references there. -/
def dotsFrom (settings : ScanSettings) (y x : Nat) : List Pixel → List Nat → RawLine
  | p :: ps, w :: ws =>
    decide (shadePixel (invertPixel settings.invert p) settings.black w < dotThreshold settings y x)
      :: dotsFrom settings y (x + 1) ps ws
  | _, _ => []

/-- A captured line (R65 to R69). -/
def captureLine (settings : ScanSettings) (y : Nat) (table : List Nat) (pixels : List Pixel) :
    RawLine :=
  dotsFrom settings y 0 pixels table

/-- One line of a shading run is added to the sums (R77). -/
def addPixels (invert : Bool) (sums : List Nat) (pixels : List Pixel) : List Nat :=
  List.zipWith (fun n p => n + invertPixel invert p) sums pixels

/-- The new white values of a shading run (R78). -/
def whiteValues (sums : List Nat) : List Nat := sums.map (· / 8)

/-- The weak positions among new white values (R78). -/
def weakCount (black : Nat) (whites : List Nat) : Nat :=
  (whites.filter fun w => decide (w < black + 8)).length

/-! ## Strobe phases (5.3) -/

/-- The black dots of each of the eight strobe blocks (R83). -/
def blockCounts (size : Nat) (line : RawLine) : List Nat :=
  (List.range 8).map fun b => (((line.drop (b * size)).take size).filter id).length

/-- The phases from block b on, with the open phase's blocks and sum (R85). -/
def phasesFrom (limit : Nat) (b : Nat) (blocks : List Nat) (sum : Nat) : List Nat → List Phase
  | [] => if blocks.isEmpty then [] else [⟨blocks, sum⟩]
  | c :: cs =>
    if blocks.isEmpty || sum + c ≤ limit then
      if c > limit then ⟨blocks ++ [b], sum + c⟩ :: phasesFrom limit (b + 1) [] 0 cs
      else phasesFrom limit (b + 1) (blocks ++ [b]) (sum + c) cs
    else if c > limit then
      ⟨blocks, sum⟩ :: ⟨[b], c⟩ :: phasesFrom limit (b + 1) [] 0 cs
    else ⟨blocks, sum⟩ :: phasesFrom limit (b + 1) [b] c cs

/-- The phase list of a latched line: phases of sum 0 are removed (R85). -/
def phaseList (limit : Nat) (counts : List Nat) : List Phase :=
  (phasesFrom limit 0 [] 0 counts).filter fun p => p.sum != 0

/-- A heavy line: a block holds more than M black dots (R86). -/
def isHeavy (limit : Nat) (counts : List Nat) : Bool := counts.any fun c => decide (c > limit)

end Sys2Proof.Machine
end

