-- ==== Sys2Proof/Machine/Store.lean ====
section
/-! DEFINITION. The page store (chapter 8): the segment map, documents and pages, allocation, the
writing and the reading of a page, holds and deletion. Every function changes the store alone; the
total of segments and the reserve in force are given to it. -/

namespace Sys2Proof.Machine

/-! ## The segment map (R145) -/

/-- The entry of a segment, none for FREE. -/
def mapRead (n : Nat) : List (Nat × SegUse) → Option SegUse
  | [] => none
  | (k, u) :: rest => if k = n then some u else mapRead n rest

/-- A segment becomes USED or RETIRED; the numbers stay rising. -/
def mapSet (n : Nat) (u : SegUse) : List (Nat × SegUse) → List (Nat × SegUse)
  | [] => [(n, u)]
  | (k, v) :: rest =>
    if n < k then (n, u) :: (k, v) :: rest
    else if n = k then (n, u) :: rest
    else (k, v) :: mapSet n u rest

/-- A segment becomes FREE. -/
def mapFree (n : Nat) (m : List (Nat × SegUse)) : List (Nat × SegUse) := m.filter fun e => e.1 != n

def SegUse.isRetired : SegUse → Bool
  | .retired => true
  | .used _ _ _ _ => false

/-- The retired count (R145). -/
def Store.retiredCount (st : Store) : Nat := (st.map.filter fun e => e.2.isRetired).length

/-- The free count (R145). -/
def Store.freeCount (total : Nat) (st : Store) : Nat := total - st.map.length

/-- The FREE segments, rising. -/
def Store.freeSegments (total : Nat) (st : Store) : List Nat :=
  (List.range total).filter fun n => (mapRead n st.map).isNone

/-- The next segment that the map gives. -/
def Store.nextOf (n : Nat) (st : Store) : Option Nat :=
  match mapRead n st.map with
  | some (.used _ _ _ next) => next
  | _ => none

/-- A chain followed through the map, at most `fuel` segments. -/
def Store.chainFrom (st : Store) : Nat → Option Nat → List Nat
  | 0, _ => []
  | _, none => []
  | fuel + 1, some n => n :: st.chainFrom fuel (st.nextOf n)

/-- The segments of a page, first to last (R155). -/
def Store.chainOf (p : Page) (st : Store) : List Nat := st.chainFrom p.segments p.first

/-! ## Documents and pages (R148) -/

def Store.doc? (number : Nat) (st : Store) : Option Document :=
  st.directory.find? fun d => d.number == number

def Store.onDoc (number : Nat) (f : Document → Document) (st : Store) : Store :=
  { st with directory := st.directory.map fun d => if d.number = number then f d else d }

def Document.page? (index : Nat) (d : Document) : Option Page :=
  d.pages.find? fun p => p.index == index

def Document.onPage (index : Nat) (f : Page → Page) (d : Document) : Document :=
  { d with pages := d.pages.map fun p => if p.index = index then f p else p }

/-- Pages printed: the pages whose printed mark is set (R157). -/
def Document.pagesPrinted (d : Document) : Nat := (d.pages.filter Page.printed).length

def Document.allPrinted (d : Document) : Bool := d.pages.all Page.printed

/-- The page records of the page table (R148). -/
def Store.pageCount (st : Store) : Nat := (st.directory.map fun d => d.pages.length).sum

/-- The lowest number of a range that no document holds. -/
def Store.freeNumberFrom (lo : Nat) (st : Store) : Option Nat :=
  ((List.range (Config.maxDocuments + 1)).map fun i => lo + i).find? fun n =>
    decide (n ≤ 65535) && (st.doc? n).isNone

/-- The number of a new document (R149). The directory holds fewer than 64 documents when it is
sought, so one of 65 numbers in a row is free. -/
def Store.newNumber (st : Store) : Nat :=
  match st.freeNumberFrom (st.lastDoc + 1) with
  | some n => n
  | none => (st.freeNumberFrom 1).getD 1

def Store.directoryFull (st : Store) : Bool := decide (Config.maxDocuments ≤ st.directory.length)

/-- A document is created at the end of the directory: a RECEIVED one held (R150). -/
def Store.create (cls : DocClass) (autoDelete : Bool) (st : Store) : Store :=
  { st with
    directory := st.directory ++
      [{ number := st.newNumber
         cls := cls
         closed := false
         hold := cls == .received
         autoDelete := autoDelete
         pages := [] }]
    lastDoc := st.newNumber }

/-! ## Headers (R146, R147) -/

/-- The attributes of a LAST header (R146). -/
def lastAttrs (d : Document) (p : Page) : LastAttrs :=
  { width := p.width
    density := p.density
    lines := p.lines
    condition := p.condition
    startOffset := p.startOffset
    damaged := p.damaged
    printed := p.printed
    cls := d.cls
    hold := d.hold
    autoDelete := d.autoDelete
    pagesPrinted := d.pagesPrinted }

/-- The header writes not yet made, oldest first: those of the turn in progress, and those due after it. -/
def Store.writesLeft (st : Store) : List (Nat × SegHeader) := st.making ++ st.rewrites

/-- The attributes in force for a segment, when it is the last one of a closed page in the directory. -/
def Store.attrsInForce? (n : Nat) (h : UsedHeader) (st : Store) : Option LastAttrs :=
  (st.doc? h.doc).bind fun d => (d.page? h.page).bind fun p =>
    if p.condition ≠ .opened ∧ (st.chainOf p).getLast? = some n then some (lastAttrs d p) else none

/-- A header as it is written: a LAST header with the attributes as they stand when it is written (R146), or, when
its page has gone from the directory, as they stood when the write fell due (log 9). -/
def Store.asWritten (st : Store) (w : Nat × SegHeader) : Nat × SegHeader :=
  match w.2 with
  | .raw _ => w
  | .used h => (w.1, .used { h with last := h.last.map fun a => (st.attrsInForce? w.1 h).getD a })

/-- Header writes are made in the page memory, in order, each with the attributes as they stand (R146, R147). -/
def Store.madeWrites (ws : List (Nat × SegHeader)) (st : Store) : PageMemory :=
  st.memory.writeHeaders (ws.map st.asWritten)

/-- The header writes left are made, oldest first (R155, log 9). -/
def Store.flush (st : Store) : Store :=
  { st with memory := st.madeWrites st.writesLeft, making := [], rewrites := [] }

/-- The header that a segment has once the writes left are made, but for its attributes. -/
def Store.headerAt (n : Nat) (st : Store) : SegHeader :=
  ((st.memory.writeHeaders st.writesLeft).read n).header

/-- The rewrite of a closed page's last segment with its attributes is due; it is written with those in
force by then (R156 to R158); of a page without a segment no header is rewritten. DESIGN CHOICE (log 41). -/
def Store.rewritePage (number index : Nat) (st : Store) : Store :=
  match st.doc? number with
  | none => st
  | some d =>
    match d.page? index with
    | none => st
    | some p =>
      match (st.chainOf p).getLast? with
      | none => st
      | some n =>
        match st.headerAt n with
        | .used h =>
          if p.condition = .opened then st
          else { st with
            rewrites := st.rewrites ++ [(n, .used { h with last := some (lastAttrs d p) })] }
        | .raw _ => st

/-- The lowest page index of a document. -/
def Document.lowest? (d : Document) : Option Nat := d.pages.head?.map Page.index

/-- The rewrite of the lowest page's last segment (R157, R158). -/
def Store.rewriteLowest (number : Nat) (st : Store) : Store :=
  match (st.doc? number).bind Document.lowest? with
  | none => st
  | some i => st.rewritePage number i

/-! ## Writing a page (R151, R153, R154) -/

def Store.openPage? (doc : Nat) (st : Store) : Option OpenPage :=
  st.openPages.find? fun o => o.doc == doc

def Store.setOpenPage (o : OpenPage) (st : Store) : Store :=
  { st with openPages := st.openPages.map fun x => if x.doc = o.doc then o else x }

/-- The index a new page of a document gets (R153). -/
def Document.newIndex (curPage : Nat) (d : Document) : Nat :=
  match d.pages.getLast? with
  | none => curPage
  | some p => p.index + 1

/-- A page can be opened (R153). -/
def Store.canOpen (curPage : Nat) (d : Document) (st : Store) : Bool :=
  decide (d.newIndex curPage ≤ Config.maxPageIndex) && decide (d.pages.length < Config.maxPageIndex)
    && decide (st.pageCount < Config.maxPages)

/-- A page is opened (R153). -/
def Store.addPage (d : Document) (curPage width : Nat) (density : Density)
    (startOffset : Option Nat) (st : Store) : Store :=
  let page : Page :=
    { index := d.newIndex curPage
      width := width
      density := density
      lines := 0
      bytes := 0
      first := none
      segments := 0
      condition := .opened
      startOffset := startOffset
      damaged := 0
      printed := false }
  let st := st.onDoc d.number fun d => { d with pages := d.pages ++ [page] }
  { st with openPages := st.openPages ++ [⟨d.number, d.newIndex curPage, none, 0, 0, false, []⟩] }

/-- The data bytes written in the open segment. -/
def Store.openBytes (o : OpenPage) (st : Store) : Nat :=
  match o.seg with
  | none => 0
  | some n => (st.memory.read n).data.length

/-- The room left in the open segment; none before the first one. -/
def Store.openRoom (o : OpenPage) (st : Store) : Nat :=
  match o.seg with
  | none => 0
  | some _ => Config.segmentData - st.openBytes o

/-- The further segments a line needs (R153). -/
def Store.segmentsNeeded (o : OpenPage) (length : Nat) (st : Store) : Nat :=
  (length - st.openRoom o + (Config.segmentData - 1)) / Config.segmentData

/-- Allocations for a class are made while the free count exceeds the reserve, for RECEIVED while it
is above 0 (R151). -/
def Store.mayAllocate (total reserve : Nat) (cls : DocClass) (count : Nat) (st : Store) : Bool :=
  match cls with
  | .received => decide (count ≤ st.freeCount total)
  | _ => decide (count = 0) || decide (reserve + count ≤ st.freeCount total)

/-- The header of a segment as it closes or stands open (R147). -/
def Store.headerOf (o : OpenPage) (data : List Byte) (next : Option Nat)
    (last : Option LastAttrs) : SegHeader :=
  .used
    { doc := o.doc
      page := o.index
      seq := o.seq
      next := next
      bytes := data.length
      lineEnds := o.lineEnds
      continued := o.continued
      check := crc16 data
      last := last }

/-- The data bytes of the open segment grow. -/
def Store.appendData (o : OpenPage) (bytes : List Byte) (st : Store) : Store :=
  match o.seg with
  | none => st
  | some n =>
    let seg := st.memory.read n
    { st with memory := st.memory.write n { seg with data := seg.data ++ bytes } }

/-- The open segment closes on going on into the next one (R147). -/
def Store.closeSegment (o : OpenPage) (next : Nat) (st : Store) : Store :=
  match o.seg with
  | none => st
  | some n =>
    { st with
      memory := st.memory.writeHeader n (Store.headerOf o (st.memory.read n).data (some next) none)
      map := mapSet n (.used o.doc o.index o.seq (some next)) st.map }

/-- The sequence that the next segment of an open page has (R146, R153). -/
def OpenPage.nextSeq (o : OpenPage) : Nat := if o.seg.isNone then 0 else o.seq + 1

/-- The open page with its stream gone on into a segment. -/
def OpenPage.into (n : Nat) (continued : Bool) (o : OpenPage) : OpenPage :=
  { o with seg := some n, seq := o.nextSeq, lineEnds := 0, continued := continued }

/-- The header of a segment that the stream goes on into (R147). -/
def Store.openSegment (n : Nat) (o : OpenPage) (st : Store) : Store :=
  { st with
    memory := st.memory.write n ⟨Store.headerOf o [] none none, []⟩
    map := mapSet n (.used o.doc o.index o.seq none) st.map }

/-- The stream goes on into an allocated segment: its header is written before the one before it closes
(R147). -/
def Store.takeSegment (n : Nat) (o : OpenPage) (continued : Bool) (st : Store) : OpenPage × Store :=
  (o.into n continued, (st.openSegment n (o.into n continued)).closeSegment o n)

/-- The bytes of a line go into the open segment and the segments taken for it; `inLine` says that
bytes of the line have been written before. -/
def Store.writeBytes (bytes : List Byte) (inLine : Bool) :
    List Nat → OpenPage → Store → OpenPage × Store
  | [], o, st => (o, st.appendData o bytes)
  | n :: ns, o, st =>
    let room := st.openRoom o
    let st := st.appendData o (bytes.take room)
    let split := inLine || decide (0 < room)
    let (o, st) := st.takeSegment n o split
    Store.writeBytes (bytes.drop room) split ns o st

/-- Segments become USED for a page, the sequence rising (R151). -/
def mapAllocate (o : OpenPage) : Nat → List Nat → List (Nat × SegUse) → List (Nat × SegUse)
  | _, [], m => m
  | seq, n :: ns, m => mapAllocate o (seq + 1) ns (mapSet n (.used o.doc o.index seq none) m)

/-- The lowest-numbered FREE segments are allocated to a line of an open page; the first segment that
a page gets is its first segment (R151, R153). -/
def Store.allocate (total count : Nat) (o : OpenPage) (st : Store) : Store :=
  let ns := (st.freeSegments total).take count
  let st := { st with map := mapAllocate o o.nextSeq ns st.map }
  (st.setOpenPage { o with allocated := ns }).onDoc o.doc fun d => d.onPage o.index fun p =>
    { p with first := p.first.orElse fun _ => ns.head?, segments := p.segments + ns.length }

/-- A segment that held only bytes of an abandoned line joins the free set, and its FREE mark is due (R145, R154, R155,
log 9). -/
def Store.freeSegment (n : Nat) (st : Store) : Store :=
  { st with rewrites := st.rewrites ++ [(n, .raw freeMark)], map := mapFree n st.map }

/-- The line taken for writing is abandoned: the segments allocated to it return to FREE (R154). -/
def Store.abandonLine (o : OpenPage) (st : Store) : Store :=
  let st := o.allocated.foldl (fun st n => st.freeSegment n) st
  (st.setOpenPage { o with allocated := [] }).onDoc o.doc fun d => d.onPage o.index fun p =>
    { p with
      first := if p.segments ≤ o.allocated.length then none else p.first
      segments := p.segments - o.allocated.length }

/-- A coded line is written into the open page and the segments allocated to it (R153). -/
def Store.writeLine (o : OpenPage) (coded : List Byte) (st : Store) : Store :=
  let (o, st) := Store.writeBytes coded false o.allocated { o with allocated := [] } st
  let o := { o with lineEnds := o.lineEnds + 1 }
  (st.setOpenPage o).onDoc o.doc fun d => d.onPage o.index fun p =>
    { p with lines := p.lines + 1, bytes := p.bytes + coded.length }

/-- The store after each header write that the bytes of a line bring about, in order (R147): at each
segment that the stream goes on into, the header of that one, and then the closing of the one before. -/
def Store.byteStages (bytes : List Byte) (inLine : Bool) :
    List Nat → OpenPage → Store → List Store
  | [], _, _ => []
  | n :: ns, o, st =>
    let room := st.openRoom o
    let st := st.appendData o (bytes.take room)
    let split := inLine || decide (0 < room)
    let (o', st') := st.takeSegment n o split
    (st.openSegment n (o.into n split)
        :: (if o.seg.isSome then st' :: Store.byteStages (bytes.drop room) split ns o' st'
          else Store.byteStages (bytes.drop room) split ns o' st'))

/-- The data bytes up to the end of so many lines. -/
def wholeLines : Nat → List Byte → List Byte
  | 0, _ => []
  | _, [] => []
  | n + 1, b :: rest => if b.toNat = 255 then b :: wholeLines n rest else b :: wholeLines (n + 1) rest

/-- The header that the last segment of a page closes with: the byte count stops at the end of the last whole
line (R147, R154). -/
def Store.lastHeader (n : Nat) (o : OpenPage) (attrs : LastAttrs) (st : Store) : SegHeader :=
  Store.headerOf o (wholeLines o.lineEnds (st.memory.read n).data) none (some attrs)

/-- The last segment of a page closes: in the write of the line that completes the page, or else at the next
turn, with the attributes as they stand then (R146, R154, R155, log 9). -/
def Store.closeLast (o : OpenPage) (attrs : LastAttrs) (condition : PageCondition) (st : Store) : Store :=
  match o.seg with
  | none => st
  | some n =>
    if condition = .complete then
      { st with memory := st.memory.writeHeader n (st.lastHeader n o attrs) }
    else { st with rewrites := st.rewrites ++ [(n, st.lastHeader n o attrs)] }

/-- The open page of a document closes: its last segment takes the LAST mark and the attributes
(R154). -/
def Store.closePage (doc : Nat) (condition : PageCondition) (st : Store) : Store :=
  match st.openPage? doc with
  | none => st
  | some o =>
    let st := st.onDoc doc fun d => d.onPage o.index fun p => { p with condition := condition }
    let st := { st with openPages := st.openPages.filter fun x => x.doc != doc }
    match st.doc? doc with
    | none => st
    | some d =>
      match d.page? o.index with
      | none => st
      | some p => st.closeLast o (lastAttrs d p) condition

/-! ## Holds, printing, deletion (R157 to R161) -/

/-- A hold clears when the document is CLOSED, has a page, and every page is printed (R158). -/
def Document.holdClears (d : Document) : Bool :=
  d.hold && d.closed && !d.pages.isEmpty && d.allPrinted

/-- The hold clears and the lowest page's attributes are rewritten (R158). -/
def Store.clearHold (number : Nat) (st : Store) : Store :=
  (st.onDoc number fun d => { d with hold := false }).rewriteLowest number

/-- The hold test of R158. -/
def Store.testHold (number : Nat) (st : Store) : Store :=
  match st.doc? number with
  | none => st
  | some d => if d.holdClears then st.clearHold number else st

/-- A page of a document has printed (R157, R158). -/
def Store.pagePrinted (number index : Nat) (st : Store) : Store :=
  match (st.doc? number).bind (Document.page? index) with
  | none => st
  | some p =>
    if p.printed then st
    else
      let st := st.onDoc number fun d =>
        let d := d.onPage index fun p => { p with printed := true }
        if d.holdClears then { d with hold := false } else d
      let st := st.rewritePage number index
      if (st.doc? number).bind Document.lowest? = some index then st
      else st.rewriteLowest number

/-- The FREE mark is written into a segment, which joins the free set as it is written (R160). -/
def Store.markFree (n : Nat) (st : Store) : Store :=
  { st with memory := st.memory.free n, map := mapFree n st.map }

/-- The segments of a page become FREE, the first one first (R160). -/
def Store.freePage (p : Page) (st : Store) : Store :=
  (st.chainOf p).foldl (fun st n => st.markFree n) st

/-- A document is deleted: the FREE mark goes into every segment of every page, one page at a time, and then the
records go (R160). That the header writes left are made first, and the marks in the same step, is DESIGN CHOICE
(log 69). -/
def Store.delete (number : Nat) (st : Store) : Store :=
  match st.doc? number with
  | none => st
  | some d =>
    let st := d.pages.foldl (fun st p => st.freePage p) st.flush
    { st with directory := st.directory.filter fun d => d.number != number }

/-- Auto-delete is due, for a document that no unended move references (R159). -/
def Document.autoDeletes (d : Document) : Bool :=
  d.autoDelete && !d.hold && d.closed && d.allPrinted

/-- The auto-delete test of R159. -/
def Store.testAutoDelete (number : Nat) (referenced : Bool) (st : Store) : Store :=
  match st.doc? number with
  | none => st
  | some d => if d.autoDeletes && !referenced then st.delete number else st

/-- A document becomes CLOSED; a page left OPEN closes TRUNCATED; the hold test runs (R161). -/
def Store.close (number : Nat) (st : Store) : Store :=
  let st := st.closePage number .truncated
  (st.onDoc number fun d => { d with closed := true }).testHold number

/-! ## Reading a page (R155, R156) -/

/-- The complete lines of a string of coded bytes, and the bytes after the last of them. -/
def splitLines (begun : List Byte) : List Byte → List (List Byte) × List Byte
  | [] => ([], begun)
  | b :: rest =>
    if b.toNat = 255 then
      let (lines, tail) := splitLines [] rest
      ((begun ++ [b]) :: lines, tail)
    else splitLines (begun ++ [b]) rest

/-- The reading of a page begins (R155). -/
def Reader.start (page : Nat) (chain : List Nat) : Reader :=
  { page := page
    chain := chain
    part := some []
    lines := []
    handed := 0
    white := 0 }

/-- A segment with a good check gives its lines; the first one joins the bytes begun before, and is
white when a byte of it stood in a segment with a bad check (R155, R156). -/
def Reader.good (continued : Bool) (data : List Byte) (r : Reader) : Reader :=
  let part : ReadLine := if continued then r.part else some []
  let (lines, tail) := splitLines [] data
  match lines with
  | [] => { r with part := part.map fun p => p ++ tail }
  | l :: ls =>
    { r with
      part := some tail
      lines := r.lines ++ (part.map fun p => p ++ l) :: ls.map some }

/-- A segment with a bad check: every line with a byte in it is white (R156). -/
def Reader.bad (lineEnds : Nat) (r : Reader) : Reader :=
  { r with part := none, lines := r.lines ++ List.replicate lineEnds none }

/-- PST hands exactly the page's line count of lines (R155): at the end of the chain lines that are
missing are white. -/
def Reader.fill (pageLines : Nat) (r : Reader) : Reader :=
  if r.chain.isEmpty then
    { r with
      lines := r.lines ++ List.replicate (pageLines - (r.handed + r.lines.length)) none }
  else r

/-- The data bytes of a segment that the memory no longer holds as written. -/
def Store.upset (n : Nat) (upsets : List (Nat × Byte)) (st : Store) : Store :=
  let seg := st.memory.read n
  let data := upsets.foldl (fun d u => d.set u.1 u.2) seg.data
  { st with memory := st.memory.write n { seg with data := data } }

/-- The next segment of a page is read and its check compared: the reader after it, and whether the
check was good (R155). -/
def Store.readSegment (n : Nat) (r : Reader) (st : Store) : Reader × Bool :=
  let r := { r with chain := r.chain.tail }
  let seg := st.memory.read n
  match seg.header with
  | .used h =>
    let data := seg.data.take h.bytes
    if crc16 data = h.check ∧ data.length = h.bytes then (r.good h.continued data, true)
    else (r.bad h.lineEnds, false)
  | .raw _ => (r.bad 0, false)

/-- The damaged count at the end of a read, and its rewrite (R156). A read that the end of its move cuts short raises
no damaged count. DESIGN CHOICE (log 57). -/
def Store.endRead (number index white : Nat) (st : Store) : Store :=
  match (st.doc? number).bind (Document.page? index) with
  | none => st
  | some p =>
    if white > p.damaged then
      (st.onDoc number fun d => d.onPage index fun p => { p with damaged := white }).rewritePage
        number index
    else st

/-! ## The memory check (R164) -/

/-- The next FREE segment at or above a number. -/
def Store.nextFree (total : Nat) (from_ : Nat) (st : Store) : Option Nat :=
  (st.freeSegments total).find? fun n => decide (from_ ≤ n)

/-- A memory check begins. -/
def Store.startCheck (st : Store) : Store := { st.flush with check := some ⟨0, 0, 0⟩ }

/-- One FREE segment has been tested: it gets the FREE mark again, or is retired (R164). -/
def Store.testSegment (n : Nat) (passed : Bool) (c : CheckRun) (st : Store) : Store :=
  if passed then
    { st with
      memory := st.memory.free n
      check := some ⟨n + 1, c.tested + 1, c.retired⟩ }
  else
    { st with
      memory := st.memory.write n ⟨.raw retiredMark, []⟩
      map := mapSet n .retired st.map
      check := some ⟨n + 1, c.tested + 1, c.retired + 1⟩ }

end Sys2Proof.Machine
end

