-- ==== Sys2Proof/Machine/Recovery.lean ====
section
/-! DEFINITION. Format (R187) and the recovery scan (R188 to R191): the store's lists rebuilt from
the segment headers. -/

namespace Sys2Proof.Machine

/-- The classes of a header (R146). -/
inductive HeaderClass where
  | free
  | retired
  | used (h : UsedHeader)
  | unreadable
  deriving DecidableEq, Repr

/-- The bytes of a header that equal the RETIRED mark. -/
def retiredMatches (bytes : List Byte) : Nat :=
  ((List.zipWith (fun a b => a == b) bytes retiredMark).filter id).length

/-- The fields of a LAST header are in their ranges (R148, R189). -/
def LastAttrs.inRange (a : LastAttrs) : Bool :=
  (a.width == 1728 || a.width == 2048) && decide (a.lines ≤ Config.maxPageLines)
    && (a.condition == .complete || a.condition == .truncated)
    && (match a.startOffset with
        | none => true
        | some o => decide (1 ≤ o) && decide (o ≤ 8190))
    && decide (a.damaged ≤ Config.maxPageLines)

/-- The fields of a USED header are in their ranges (R146); a next at or above the total makes the
header unreadable (R188). The page attributes of a LAST header are looked at when its chain is walked (R189), not
here. DEDUCED (log 50). -/
def UsedHeader.inRange (total : Nat) (h : UsedHeader) : Bool :=
  decide (1 ≤ h.doc) && decide (h.doc ≤ 65535) && decide (1 ≤ h.page)
    && decide (h.page ≤ Config.maxPageIndex) && decide (h.bytes ≤ Config.segmentData)
    && (match h.next with
        | none => true
        | some n => decide (n < total))

/-- The class of a header, by the first case that holds (R146, R188). -/
def SegHeader.classify (total : Nat) : SegHeader → HeaderClass
  | .raw bytes =>
    if 12 ≤ retiredMatches bytes then .retired
    else if bytes = freeMark then .free
    else .unreadable
  | .used h => if h.inRange total then .used h else .unreadable

/-- The class of a segment's header in the page memory. -/
def PageMemory.classOf (total n : Nat) (m : PageMemory) : HeaderClass :=
  (m.read n).header.classify total

/-- A segment's data check is good (R188). -/
def PageMemory.checkGood (n : Nat) (h : UsedHeader) (m : PageMemory) : Bool :=
  let data := (m.read n).data.take h.bytes
  crc16 data == h.check && data.length == h.bytes

/-- A chain walked from a first segment (R189): its segments with their headers, and whether it
stopped at a segment whose next is none and not at a link that fails a condition. -/
def PageMemory.walk (total : Nat) (m : PageMemory) :
    Nat → Nat → UsedHeader → List (Nat × UsedHeader) × Bool
  | 0, n, h => ([(n, h)], false)
  | fuel + 1, n, h =>
    match h.next with
    | none => ([(n, h)], true)
    | some k =>
      match m.classOf total k with
      | .used g =>
        if g.doc = h.doc ∧ g.page = h.page ∧ g.seq = h.seq + 1 then
          let (links, ok) := m.walk total fuel k g
          ((n, h) :: links, ok)
        else ([(n, h)], false)
      | _ => ([(n, h)], false)

/-- A chain that has been walked. -/
structure Chain where
  links : List (Nat × UsedHeader)
  whole : Bool
  deriving DecidableEq, Repr

def Chain.first (c : Chain) : Nat := (c.links.head?.map Prod.fst).getD 0
def Chain.lastHeader? (c : Chain) : Option UsedHeader := c.links.getLast?.map Prod.snd
def Chain.attrs? (c : Chain) : Option LastAttrs := c.lastHeader?.bind UsedHeader.last
def Chain.segments (c : Chain) : List Nat := c.links.map Prod.fst
def Chain.doc (c : Chain) : Nat := (c.links.head?.map fun l => l.2.doc).getD 0
def Chain.page (c : Chain) : Nat := (c.links.head?.map fun l => l.2.page).getD 0

/-- A chain that stopped at its end is whole when the conditions of R189 hold. -/
def PageMemory.isWhole (m : PageMemory) (links : List (Nat × UsedHeader)) (ended : Bool) : Bool :=
  ended
    && (match links.getLast?.bind fun l => l.2.last with
        | none => false
        | some a => a.inRange && (links.map fun l => l.2.lineEnds).sum == a.lines)
    && (links.all fun l => m.checkGood l.1 l.2)
    && (match links.head? with
        | none => false
        | some l => !l.2.continued)

/-- The chains walked from the USED segments with sequence 0, in ascending number (R189). -/
def PageMemory.chains (total : Nat) (m : PageMemory) : List Chain :=
  (List.range total).filterMap fun n =>
    match m.classOf total n with
    | .used h =>
      if h.seq = 0 then
        let (links, ended) := m.walk total total n h
        some ⟨links, m.isWhole links ended⟩
      else none
    | _ => none

/-- A chain beats another that contends for the same page: more segments, or as many and a lower
first segment (R190). -/
def Chain.beats (a b : Chain) : Bool :=
  a.doc == b.doc && a.page == b.page
    && (decide (a.links.length > b.links.length)
      || (a.links.length == b.links.length && decide (a.first < b.first)))

/-- The chains that become pages: whole and not beaten by a whole one (R190). -/
def winners (chains : List Chain) : List Chain :=
  let whole := chains.filter Chain.whole
  whole.filter fun c => !(whole.any fun o => o.beats c)

/-- A page record from a recovered chain (R190). -/
def Chain.pageRecord (c : Chain) : Option Page :=
  c.attrs?.map fun a =>
    { index := c.page
      width := a.width
      density := a.density
      lines := a.lines
      bytes := (c.links.map fun l => l.2.bytes).sum
      first := some c.first
      segments := c.links.length
      condition := a.condition
      startOffset := a.startOffset
      damaged := a.damaged
      printed := a.printed }

/-- A chain takes its place in a list by rising page index. -/
def insertChain (c : Chain) : List Chain → List Chain
  | [] => [c]
  | d :: ds => if c.page ≤ d.page then c :: d :: ds else d :: insertChain c ds

/-- The recovered chains of a document, by page index. -/
def chainsOfDoc (number : Nat) (cs : List Chain) : List Chain :=
  (cs.filter fun c => c.doc == number).foldr insertChain []

/-- The document numbers of recovered chains, rising, each once. -/
def docNumbers (cs : List Chain) : List Nat :=
  (sortNat (cs.map Chain.doc)).foldr
    (fun n acc => if acc.head? = some n then acc else n :: acc) []

/-- A document record from its recovered pages, the lowest one first (R190). -/
def docRecord (number : Nat) (cs : List Chain) : Option Document :=
  match cs with
  | [] => none
  | c :: _ =>
    c.attrs?.map fun a =>
      { number := number
        cls := a.cls
        closed := true
        hold := a.hold
        autoDelete := a.autoDelete
        pages := cs.filterMap Chain.pageRecord }

/-- Documents are entered in ascending number while both limits hold; one that would pass a limit is
left out whole (R190). -/
def enterDocs (cs : List Chain) : List Nat → List Document → List Document
  | [], dir => dir
  | n :: ns, dir =>
    match docRecord n (chainsOfDoc n cs) with
    | none => enterDocs cs ns dir
    | some d =>
      if dir.length < Config.maxDocuments
          ∧ (dir.map fun e => e.pages.length).sum + d.pages.length ≤ Config.maxPages then
        enterDocs cs ns (dir ++ [d])
      else enterDocs cs ns dir

/-- The recovered chains whose document has been entered. -/
def keptChains (dir : List Document) (cs : List Chain) : List Chain :=
  cs.filter fun c => dir.any fun d => d.number == c.doc

/-- The segments that the end of the scan marks FREE: USED in their header and on no recovered page,
or unreadable (R191). -/
def freedSegments (total : Nat) (kept : List Chain) (m : PageMemory) : List Nat :=
  (List.range total).filter fun n =>
    match m.classOf total n with
    | .used _ => !(kept.any fun c => c.segments.contains n)
    | .unreadable => true
    | _ => false

/-- The FREE mark is written into segments, in order. -/
def PageMemory.freeAll (ns : List Nat) (m : PageMemory) : PageMemory :=
  ns.foldl (fun m n => m.free n) m

/-- The segment map after the scan: RETIRED headers and the segments of recovered pages. -/
def recoveredMap (total : Nat) (kept : List Chain) (m : PageMemory) : List (Nat × SegUse) :=
  let retired := ((List.range total).filter fun n => m.classOf total n == .retired).foldl
    (fun acc n => mapSet n .retired acc) []
  kept.foldl
    (fun acc c => c.links.foldl
      (fun acc l => mapSet l.1 (.used l.2.doc l.2.page l.2.seq l.2.next) acc) acc) retired

/-- The pages recovered in a page memory, before the limits of the directory. -/
def PageMemory.recoveredChains (total : Nat) (m : PageMemory) : List Chain :=
  winners (m.chains total)

/-- The directory a page memory gives (R190). -/
def PageMemory.recoveredDirectory (total : Nat) (m : PageMemory) : List Document :=
  let cs := m.recoveredChains total
  enterDocs cs (docNumbers cs) []

/-- The segments the scan frees in a page memory. -/
def PageMemory.scanFrees (total : Nat) (m : PageMemory) : List Nat :=
  freedSegments total (keptChains (m.recoveredDirectory total) (m.recoveredChains total)) m

/-- The store after a recovery scan (R188 to R191). A document left out whole for the limits counts neither in the
documents recovered nor in the highest number. DESIGN CHOICE (log 60). -/
def Store.recover (total : Nat) (st : Store) : Store :=
  let st := st.flush
  let m := st.memory
  let dir := m.recoveredDirectory total
  let kept := keptChains dir (m.recoveredChains total)
  { st with
    memory := m.freeAll (m.scanFrees total)
    map := recoveredMap total kept m
    directory := dir
    lastDoc := (dir.map Document.number).foldl max 0
    openPages := []
    docsRecovered := dir.length
    pagesRecovered := kept.length
    pagesDiscarded := (m.chains total).length - kept.length }

/-- The store after a format (R187). -/
def Store.format (total : Nat) (st : Store) : Store :=
  { st with
    memory := st.memory.freeAll (List.range total)
    map := []
    directory := []
    lastDoc := 0
    openPages := []
    making := []
    rewrites := []
    docsRecovered := 0
    pagesRecovered := 0
    pagesDiscarded := 0 }

end Sys2Proof.Machine
end

