-- ==== Sys2Proof/Machine/Records.lean ====
section
/-! DEFINITION. The layouts of reports and of the move record (11.6, 11.8). -/

namespace Sys2Proof.Machine

/-- The move record, 56 bytes (11.6). Lines queued is the length of the queue (R131). -/
def moveRecord (m : Move) : List Byte :=
  [byte1 m.number, m.state.code, causeCode m.cause, routeCode m.source m.sink,
    markByte m.diverted.isSome, 0]
    ++ bytes2 (m.diverted.getD 0)
    ++ bytes4 m.counters.taken ++ bytes4 m.counters.headerLines ++ bytes4 m.counters.delivered
    ++ bytes4 m.queue.length ++ bytes4 m.counters.merged ++ bytes4 m.counters.discarded
    ++ bytes4 m.counters.repaired ++ bytes4 m.counters.heavy ++ bytes4 m.counters.damaged
    ++ bytes4 m.counters.pagesCompleted ++ bytes4 m.counters.curPage ++ bytes4 m.counters.curLines

/-- MOVE_DONE (R136). -/
def State.reportMoveDone (m : Move) (s : State) : State := s.report 0xE1 (moveRecord m)

/-- MOVE_STARTED (R136). -/
def State.reportMoveStarted (m : Move) (s : State) : State := s.report 0xE2 [byte1 m.number]

/-- DOC_EVENT (R46). -/
def State.reportDoc (d : DocState) (cause : DocCause) (overrun : Nat) (s : State) : State :=
  s.report 0xE3 ([d.code, cause.code] ++ bytes2 overrun)

/-- PAPER_EVENT with the paper and cover states as they stand (R58, R59). -/
def State.reportPaper (s : State) : State :=
  s.report 0xE4 [markByte s.paperPresent, markByte s.coverOpen]

/-- The marks of a PAGE_EVENT (11.3). -/
inductive PageMark where
  | scanned
  | stored
  | printedAndCut
  | sent
  deriving DecidableEq, Repr

def PageMark.code : PageMark → Byte
  | .scanned => 0
  | .stored => 1
  | .printedAndCut => 2
  | .sent => 3

/-- PAGE_EVENT (R129, R130, R200). -/
def State.reportPage (number : Nat) (mark : PageMark) (page lines : Nat) (s : State) : State :=
  s.report 0xE5 ([byte1 number, mark.code] ++ bytes2 page ++ bytes2 lines)

/-- The kinds of a POWER_EVENT (R176). -/
inductive PowerKind where
  | state
  | domainFault (d : DomainId)
  | sleep
  | sleepCancelled (causes : WakeCauses)
  | wake (causes : WakeCauses)
  deriving DecidableEq, Repr

def PowerKind.code : PowerKind → Byte
  | .state => 0
  | .domainFault _ => 1
  | .sleep => 2
  | .sleepCancelled _ => 3
  | .wake _ => 4

/-- The wake causes a POWER_EVENT carries: empty but for WAKE and SLEEP_CANCELLED (R176). -/
def PowerKind.causes : PowerKind → WakeCauses
  | .sleepCancelled c => c
  | .wake c => c
  | .state => WakeCauses.empty
  | .domainFault _ => WakeCauses.empty
  | .sleep => WakeCauses.empty

/-- The domain a POWER_EVENT names, 0xFF for none (11.8). -/
def PowerKind.domainByte : PowerKind → Byte
  | .domainFault d => d.code
  | .state => 0xFF
  | .sleep => 0xFF
  | .sleepCancelled _ => 0xFF
  | .wake _ => 0xFF

/-- POWER_EVENT with the power state and the domain states that it carries (R176). -/
def State.reportPowerOf (p : Power) (k : PowerKind) (s : State) : State :=
  s.report 0xE6 [k.code, p.state.code, p.scan.code, p.print.code, p.motor.code, k.causes.byte,
    k.domainByte]

/-- POWER_EVENT with the states as they stand. -/
def State.reportPower (k : PowerKind) (s : State) : State := s.reportPowerOf s.power k

/-- The kinds of a STORE_EVENT (11.3). -/
inductive StoreKind where
  | storeFull
  | degraded
  | checkError
  deriving DecidableEq, Repr

def StoreKind.code : StoreKind → Byte
  | .storeFull => 0
  | .degraded => 1
  | .checkError => 2

/-- STORE_EVENT (R154, R156, R166). -/
def State.reportStore (k : StoreKind) (doc page : Nat) (s : State) : State :=
  s.report 0xE8 ([k.code] ++ bytes2 doc ++ [byte1 page])

/-- MOTOR_FAULT (R41). -/
def State.reportMotorFault (ch : ChannelId) (s : State) : State := s.report 0xE9 [channelCode ch]

/-! ## The store state (R166) and its counts (R15) -/

/-- The store is RECOVERING in start-up and while RESET FULL rebuilds it (R166, R196). -/
def State.recovering (s : State) : Bool := s.startup != .done || s.resetPhase == .rebuilding

/-- Where the counts of GET_STATUS and GET_IDENTITY come from: none in STRAPS and FORMAT (R186), the
headers that a recovery scan has read (R188), the segment map at any other time (R145). -/
inductive CountSource where
  | none
  | headers
  | segmentMap
  deriving DecidableEq, Repr

/-- The source of the counts. The header-read part of a recovery scan is taken as done when the scan
begins. DESIGN CHOICE (log 31). -/
def State.counted (s : State) : CountSource :=
  match s.startup with
  | .straps | .format => .none
  | .scan => .headers
  | .check | .done => if s.resetPhase = .rebuilding then .headers else .segmentMap

/-- The segments whose headers are of a class (R188). -/
def State.headersOf (c : HeaderClass) (s : State) : Nat :=
  ((List.range s.total).filter fun n => s.store.flush.memory.classOf s.total n == c).length

/-- The store state code: RECOVERING, READY or DEGRADED. -/
def State.storeStateCode (s : State) : Byte :=
  if s.recovering then 0
  else if s.store.retiredCount > Config.degradedThreshold s.total then 2 else 1

/-- The reserve in segments in force (R151). -/
def State.reserve (s : State) : Nat := Config.reserveSegments s.total s.cfg.reserveCode

/-- The free count that GET_STATUS shows (R15, R188). -/
def State.freeShown (s : State) : Nat :=
  match s.counted with
  | .none => 0
  | .headers => s.headersOf .free
  | .segmentMap => s.store.freeCount s.total

/-- The retired count that GET_STATUS and GET_IDENTITY show (R15, R16, R188). -/
def State.retiredShown (s : State) : Nat :=
  match s.counted with
  | .none => 0
  | .headers => s.headersOf .retired
  | .segmentMap => s.store.retiredCount

/-- The reserve that GET_STATUS shows: 0 at power-on, and in a scan the one in force (R15, R186, R188). -/
def State.reserveShown (s : State) : Nat := if s.counted = .none then 0 else s.reserve

/-- BOOT_DONE (R193). -/
def State.reportBootDone (s : State) : State :=
  s.report 0xE0 ([s.storeStateCode, byte1 s.store.docsRecovered] ++ bytes2 s.store.pagesRecovered
    ++ bytes2 s.store.pagesDiscarded)

end Sys2Proof.Machine
end

