-- ==== Sys2Proof/Machine/Path.lean ====
section
/-! DEFINITION. The line queue of a move (chapter 6), its pages (R129, R130) and its end (R132). -/

namespace Sys2Proof.Machine

/-! ## Slots and room (R107, R108) -/

/-- The slots a move holds: one for each queued line, and one granted for a capture. -/
def Move.slotsHeld (m : Move) : Nat := m.queue.length + (if m.granted.isSome then 1 else 0)

/-- The room of a move (R107). -/
def Move.room (m : Move) : Nat := m.depth - m.slotsHeld

/-- The room a LINE_DATA reply carries: 0 for a waiting or an ended move (R137). -/
def Move.shownRoom (m : Move) : Nat := if m.flowing then m.room else 0

/-- The slots that all moves hold. -/
def State.slotsUsed (s : State) : List Nat :=
  s.moves.flatMap fun m => m.queue.map SlotLine.slot ++ m.granted.toList

/-- The FREE slot that a line or a capture takes: the lowest-numbered one. DESIGN CHOICE (log 38). -/
def State.freeSlot (s : State) : Nat :=
  ((List.range Config.lineSlots).find? fun n => !(s.slotsUsed.contains n)).getD 0

/-! ## Widths and densities of a move's lines (R104) -/

/-- The page record that a STORE source reads now. -/
def State.sourcePage? (m : Move) (s : State) : Option Page :=
  match m.source with
  | .store doc first _ => (s.store.doc? doc).bind (Document.page? (first + (m.srcPage - 1)))
  | _ => none

def State.sourceWidth (m : Move) (s : State) : Nat :=
  match m.source with
  | .scan _ _ => s.headWidth
  | .linkIn w _ => w
  | .store _ _ _ => ((s.sourcePage? m).map Page.width).getD s.headWidth

def State.sourceDensity (m : Move) (s : State) : Density :=
  match m.source with
  | .scan d _ => d
  | .linkIn _ d => d
  | .store _ _ _ => ((s.sourcePage? m).map Page.density).getD m.target

/-- The move's line width (R104). -/
def State.lineWidth (m : Move) (s : State) : Nat := if m.reduce then 1728 else s.sourceWidth m

/-- The width PST records for a page the move writes: the line width, or the head width after a
fallback (R142, R153). -/
def State.storedWidth (m : Move) (s : State) : Nat :=
  if m.diverted.isSome then s.headWidth else s.lineWidth m

/-- The lines of a move are fitted to the head for PRINT, and after a fallback (R82, R142). -/
def Move.fitsHead (m : Move) : Bool := m.isPrint || m.diverted.isSome

/-! ## Lines enter a queue (R104 to R109) -/

/-- The last element of a list changes. -/
def mapLast {α : Type} (f : α → α) : List α → List α
  | [] => []
  | [a] => [f a]
  | a :: b :: rest => a :: mapLast f (b :: rest)

/-- A line becomes READY (R104, R109). -/
def Move.makeReady (head : Nat) (m : Move) (l : SlotLine) : SlotLine :=
  { l with state := .ready, dots := if m.fitsHead then fitLine head l.dots else l.dots }

/-- A line held back becomes READY when the next line of its page enters (R109). -/
def Move.promote (head : Nat) (m : Move) : Move :=
  { m with
    queue := m.queue.map fun l => if l.state = .heldBack then m.makeReady head l else l }

/-- The merge group at the tail closes (R106, R109): READY, or held back for a SCAN line that does
not end its page. -/
def Move.closeGroup (head : Nat) (pageEnd : Bool) (m : Move) : Move :=
  { m with
    merge := 0
    queue := mapLast
      (fun l =>
        if m.isScan && !pageEnd then { l with state := .heldBack }
        else { m.makeReady head l with pageEnd := pageEnd })
      m.queue }

/-- A source line enters the queue of its move (R104 to R106, R108): it starts a group in the slot
given, or joins the open one. -/
def Move.enter (head slot : Nat) (density : Density) (dots : RawLine) (pageEnd : Bool) (m : Move) :
    Move :=
  let dots := if m.reduce then reduceLine dots else dots
  let m := { m with
    granted := none
    srcLines := m.srcLines + 1
    counters := { m.counters with taken := m.counters.taken + 1 } }
  let m :=
    if m.merge = 0 then
      let m := m.promote head
      { m with
        merge := 1
        queue := m.queue ++ [⟨slot, m.target, dots, false, .opened, false⟩] }
    else
      { m with
        merge := m.merge + 1
        queue := mapLast (fun l => { l with dots := mergeLines l.dots dots }) m.queue
        counters := { m.counters with merged := m.counters.merged + 1 } }
  if pageEnd || decide (mergeFactor density m.target ≤ m.merge) then m.closeGroup head pageEnd
  else m

/-- A repaired line is counted (R101). -/
def Move.countRepair (repaired : Bool) (m : Move) : Move :=
  if repaired then { m with counters := { m.counters with repaired := m.counters.repaired + 1 } }
  else m

/-- The page end of a SCAN page reaches the queue: an open group closes, a line held back becomes
READY, and the last line takes the page-end mark (R109). -/
def Move.endScanPage (head : Nat) (m : Move) : Move :=
  { m with
    merge := 0
    queue := mapLast (fun l => { m.makeReady head l with pageEnd := true }) m.queue }

/-- The prefix count of a page that begins (R114): none after a fallback (R142). -/
def Move.prefixCount (headerLines : Nat) (m : Move) : Nat :=
  if m.withHeader && m.diverted.isNone then headerLines else 0

/-- The source page that follows begins; under PREFIX its header lines are due (R114, R129), after the
white line of a scan page that has ended empty. -/
def Move.nextSourcePage (headerLines : Nat) (m : Move) : Move :=
  { m with
    srcPage := m.srcPage + 1
    srcLines := 0
    headerLeft := if 0 < m.blankDue then m.headerLeft else m.prefixCount headerLines }

/-- The white line of a scan page that has ended empty enters, with the page-end mark, and the header
lines of the page after it come due (R114, R129). -/
def Move.enterBlank (head width slot headerLines : Nat) (m : Move) : Move :=
  let line := List.replicate width false
  { m with
    blankDue := m.blankDue - 1
    headerLeft :=
      if 1 < m.blankDue ∨ m.state = .running then m.prefixCount headerLines else 0
    queue := m.queue ++
      [⟨slot, m.target, if m.fitsHead then fitLine head line else line, true, .ready, false⟩]
    counters := { m.counters with taken := m.counters.taken + 1 } }

/-- The line count of the header buffer, 0 when EMPTY (R116). -/
def State.headerLines (s : State) : Nat := (s.path.header.map HeaderBuffer.count).getD 0

/-- The header lines of a buffer (R116): its code split at the end-of-line bytes. -/
def HeaderBuffer.lines (h : HeaderBuffer) : List (List Byte) := (splitLines [] h.code).1

/-- A header line in the form a move emits it, and whether it was repaired (R115): centred to a line width
of 2048 whatever the sink. DEDUCED (log 37). -/
def headerLine (h : HeaderBuffer) (width head n : Nat) (fits : Bool) : RawLine × Bool :=
  let (dots, repaired) := decodeLine h.width (h.lines.getD n [])
  let dots := if dots.length = width then dots
    else if width = 1728 then reduceLine dots else centreLine dots
  (if fits then fitLine head dots else dots, repaired)

/-- A header line is emitted (R114, R115). -/
def Move.emitHeader (h : HeaderBuffer) (width head slot : Nat) (m : Move) : Move :=
  let (dots, repaired) := headerLine h width head (h.count - m.headerLeft) m.fitsHead
  { (m.countRepair repaired) with
    headerLeft := m.headerLeft - 1
    queue := m.queue ++ [⟨slot, m.target, dots, false, .ready, false⟩]
    counters := { (m.countRepair repaired).counters with
      headerLines := m.counters.headerLines + 1 } }

/-! ## Lines leave a queue (R110) -/

/-- The head line of a queue is delivered (R88, R110, R130). -/
def Move.deliver (heavy : Bool) (m : Move) : Move :=
  { m with
    queue := m.queue.tail
    counters := { m.counters with
      delivered := m.counters.delivered + 1
      heavy := m.counters.heavy + (if heavy then 1 else 0)
      curLines := m.counters.curLines + 1 } }

/-- The counters after a sink page is completed (R130). -/
def Move.completePage (m : Move) : Move :=
  { m with
    counters := { m.counters with
      pagesCompleted := m.counters.pagesCompleted + 1
      curPage := m.counters.curPage + 1
      curLines := 0 } }

/-- A sink page is completed: PAGE_EVENT, then the counters (R130). -/
def State.completeSinkPage (id : Nat) (mark : PageMark) (s : State) : State :=
  match s.move? id with
  | none => s
  | some m =>
    (s.reportPage m.number mark m.counters.curPage m.counters.curLines).onMove id Move.completePage

/-! ## The document state (R46) -/

/-- The document state changes, with its report. -/
def State.setDoc (d : DocState) (cause : DocCause) (overrun : Nat) (s : State) : State :=
  (s.onFeed fun f => { f with doc := d }).reportDoc d cause overrun

/-! ## The end of a move (R132) -/

/-- The record of a move that ends: its queue is discarded and counted (R112), and what it had in
hand is gone. -/
def Move.ended (outcome : MoveState) (cause : Option MoveCause) (m : Move) : Move :=
  { m with
    state := outcome
    cause := cause
    counters := { m.counters with discarded := m.counters.discarded + m.queue.length }
    queue := []
    granted := none
    merge := 0
    headerLeft := 0
    blankDue := 0
    cutDue := false
    paperOut := false
    reader := none }

/-- PRU stops serving: the load stage is emptied, a latch that waits for its load is dropped, a cut
ends with CUT inactive; a strobe runs on (R90, R91, R94, log 12). -/
def Print.stopServing (p : Print) : Print :=
  { load := .empty
    strobe := if p.strobe = .latchWait then .idle else p.strobe
    cut := .none }

/-- The head drops its line: no strobe, nothing loaded (R90, R91). -/
def Print.drop (p : Print) : Print := { p with load := .empty, strobe := .idle }

/-- A move that has not ended references a document (R159). -/
def Move.references (doc : Nat) (m : Move) : Bool :=
  m.live && (m.sinkDoc? == some doc || (match m.source with
    | .store d _ _ => d == doc
    | _ => false))

def State.referenced (doc : Nat) (s : State) : Bool := s.moves.any (Move.references doc)

/-- The auto-delete test for a document (R159). -/
def State.testAutoDelete (doc : Nat) (s : State) : State :=
  s.onStore (Store.testAutoDelete doc (s.referenced doc))

/-- The store at the end of a move that writes: its open page closes TRUNCATED, and its document is
closed when so marked or made by a fallback (R132, R154, R161). -/
def Store.endWriter (m : Move) (st : Store) : Store :=
  match m.sink with
  | .store doc _ _ closeAtEnd =>
    if closeAtEnd || m.diverted.isSome then st.close doc else st.closePage doc .truncated
  | _ => st

/-- A move's line taken for writing is abandoned at its end, with the transfer in progress for it (R154). -/
def Store.dropTransfer (m : Move) (st : Store) : Store :=
  let st := if st.transfer = some m.id then { st with transfer := none } else st
  match m.sinkDoc?.bind fun doc => st.openPage? doc with
  | none => st
  | some o => if o.allocated.isEmpty then st else st.abandonLine o

/-- The documents whose auto-delete may come due at the end of a move (R159). -/
def Move.documents (m : Move) : List Nat :=
  m.sinkDoc?.toList ++ (match m.source with
    | .store d _ _ => [d]
    | _ => [])

/-- A move gives up its channels (R132). -/
def State.giveUpChannels (u : User) (s : State) : State :=
  (s.onChannel .df (Channel.giveUp u s.cfg.df.holdTime)).onChannel .rf
    (Channel.giveUp u s.cfg.rf.holdTime)

/-- FDC after the end of a move that left its sheet partly scanned (R55). -/
def State.ejectPartScanned (m : Move) (s : State) : State :=
  if m.isScan && m.flowing && s.feed.doc == .scanning then
    (s.onFeed fun f => { f with seq := .none, tail := none, tailSkip := false }).setDoc .ejecting
      .moveEnded 0
  else s

/-- The parts of a move's end that touch the head and the store; a move still PENDING holds nothing (R134). That its
end does not close the document which a close-at-end sink names, though R132 and R161 close it at any end, is DEDUCED
(log 72). -/
def State.stopWork (m : Move) (s : State) : State :=
  if m.active then
    (if m.isPrint && m.flowing then s.onPrint Print.stopServing else s).onStore fun st =>
      (st.dropTransfer m).endWriter m
  else s

/-- A move ends, once (R132): the record, the head and the store, the channels (but under RESET, which
stops them itself, R144), the report, and then a sheet left partly scanned. -/
def State.endMove (id : Nat) (outcome : MoveState) (cause : Option MoveCause) (inReset : Bool)
    (s : State) : State :=
  match s.move? id with
  | none => s
  | some m =>
    if m.live then
      let s := (s.stopWork m).onMove id (Move.ended outcome cause)
      let s := s.onPath fun p => { p with endings := p.endings ++ [id] }
      let s := m.documents.foldl (fun s d => s.testAutoDelete d) s
      let s := if inReset then s else s.giveUpChannels (.move id)
      let s := s.reportMoveDone (m.ended outcome cause)
      if inReset then s else s.ejectPartScanned m
    else s

/-- A move fails (R133). -/
def State.failMove (cause : MoveCause) (s : State) (id : Nat) : State :=
  s.endMove id .failed (some cause) false

/-- Every move with a property fails, in acceptance order (R136). That no arbitration runs between two of the ends,
and one runs after them all (R132), is DESIGN CHOICE (log 67). -/
def State.failWhere (p : Move → Bool) (cause : MoveCause) (s : State) : State :=
  (s.moveIds p).foldl (fun s id => s.failMove cause id) s

/-- The directory is full, or a page cannot be opened, or a segment is not to be had: STORE_EVENT and
the failure of the move (R154). -/
def State.storeFull (id doc page : Nat) (s : State) : State :=
  (s.reportStore .storeFull doc page).failMove .storeFull id

/-- A move in DRAINING whose queue is empty at the completion of a sink page ends DONE (R130). -/
def State.endIfDrained (id : Nat) (s : State) : State :=
  match s.move? id with
  | none => s
  | some m =>
    if m.state == .draining && m.queue.isEmpty && m.blankDue == 0 then s.endMove id .done none false
    else s

end Sys2Proof.Machine
end

