-- ==== Sys2Proof/Machine/Power.lean ====
section
/-! DEFINITION. Power control (chapter 9): needs, domains, power state, idle timer, sleep and wake. -/

namespace Sys2Proof.Machine

/-! ## Needs (R169) -/

/-- A party needs the domain now: moves by their endpoints, a shading run, channels with a user. -/
def State.needed (d : DomainId) (s : State) : Bool :=
  match d with
  | .scan => s.scanBusy || s.scan.shading != .none
  | .print => s.printBusy
  | .motor => s.scanBusy || s.printBusy || s.df.user.isSome || s.rf.user.isSome

/-- A move needs the domain (R169). -/
def Move.needs (d : DomainId) (m : Move) : Bool :=
  m.active && (match d with
    | .scan => m.isScan
    | .print => m.isPrint
    | .motor => m.isScan || m.isPrint)

def Power.domain (d : DomainId) (p : Power) : DomainState :=
  match d with
  | .scan => p.scan
  | .print => p.print
  | .motor => p.motor

def Power.setDomain (d : DomainId) (x : DomainState) (p : Power) : Power :=
  match d with
  | .scan => { p with scan := x }
  | .print => { p with print := x }
  | .motor => { p with motor := x }

/-! ## The power state (R176) -/

/-- RUN while a domain is STARTING or ON, STANDBY otherwise. -/
def Power.computed (p : Power) : PowerState :=
  if p.scan == .starting || p.scan == .on || p.print == .starting || p.print == .on
      || p.motor == .starting || p.motor == .on then .run else .standby

/-- The power state follows the domains with no STATE report: another report stands for it. -/
def Power.follow (p : Power) : Power :=
  if p.state = .sleep then p else { p with state := p.computed }

/-- The power state differs from what the domains give. -/
def State.powerChanged (s : State) : Bool :=
  s.power.state != .sleep && s.power.state != s.power.computed

/-- The power state follows the domains, with a STATE report when it changes (R176). -/
def State.syncPower (s : State) : State :=
  if s.powerChanged then (s.onPower Power.follow).reportPower .state else s

/-! ## Domains -/

/-- A domain starts (R168, R170 to R172): PRINT is ON at once when HPG is active. SCAN stands in STARTING until
LAMP_WARM_UP_EXPIRY brings the reading, with a warm-up of 0 too: DESIGN CHOICE (log 63). -/
def State.startDomain (d : DomainId) (s : State) : State :=
  match d with
  | .scan => s.onPower fun p => { p with scan := .starting, warmUp := 10 * s.cfg.power.warmUpCode }
  | .print => s.onPower fun p => { p with print := if s.inputs.hpg then .on else .starting }
  | .motor => s.onPower fun p => { p with motor := .starting }

/-- A domain goes OFF, and the blocks it feeds follow (R74, R90, R91, R96, R174). -/
def State.domainOff (d : DomainId) (s : State) : State :=
  let s := s.onPower (Power.setDomain d .off)
  match d with
  | .scan => s.onScan fun c => { c with capture := .idle }
  | .print => s.onPrint Print.drop
  | .motor =>
    ((s.onPrint fun p => { p with cut := .none }).onChannel .df Channel.motorOff).onChannel .rf
      Channel.motorOff

/-- Every domain that is not OFF goes OFF (R178, R180). -/
def State.allDomainsOff (s : State) : State :=
  ((s.domainOff .scan).domainOff .print).domainOff .motor

/-- A shading run ends with a reply and the table unchanged (R79). -/
def State.endShading (r : Result) (s : State) : State :=
  (s.onScan fun c => { c with shading := .none }).answerLate [r.code]

def ShadingRun.isWaiting : ShadingRun → Bool
  | .waiting _ => true
  | _ => false

/-- A domain enters FAULT (R173): the head drops its line, POWER_EVENT is raised, a shading run in
WAITING for the SCAN domain ends, and every move that needs the domain fails. The report shows the states
of `after`, and is queued before the reply of the SHADE that the fault ends. DESIGN CHOICE (log 56). -/
def State.faultDomain (d : DomainId) (after : Power) (s : State) : State :=
  let s := s.onPower fun p => (p.setDomain d .fault).follow
  let s := if d = .print then s.onPrint Print.drop else s
  let s := s.reportPowerOf after (.domainFault d)
  let s := if d = .scan ∧ s.scan.shading.isWaiting then s.endShading .domainFault else s
  s.failWhere (Move.needs d) .domainFault

/-! ## The idle timer (R177) -/

/-- No feed sequence is running (R46). -/
def State.feedIdle (s : State) : Bool :=
  s.feed.doc != .settling && s.feed.doc != .loading && s.feed.doc != .ejecting

/-- The part is idle (R177). -/
def State.idle (s : State) : Bool :=
  !(s.moves.any Move.live) && s.df.user.isNone && s.rf.user.isNone && s.scan.shading == .none
    && s.feedIdle && s.store.check.isNone && !s.recovering

/-- What the idle timer is when the part's idleness and the idle time are as they stand: it stops
when the part is not idle or asleep or entering SLEEP, and starts from the full idle time when it
stands stopped and may run. -/
def State.idleTimerNow (s : State) : IdleTimer :=
  if s.power.state == .sleep || s.power.entry != .none || !s.idle || s.cfg.power.idleTime == 0 then
    .stopped
  else if s.power.idleTimer = .stopped then .running s.cfg.power.idleTime
  else s.power.idleTimer

/-- The idle timer starts afresh when the part is idle (R177, R179, R181, R183). -/
def State.restartIdle (s : State) : State :=
  let s := s.onPower fun p => { p with idleTimer := .stopped }
  s.onPower fun p => { p with idleTimer := s.idleTimerNow }

/-! ## Sleep (R180, R181) -/

/-- A channel is in FAULT. -/
def State.anyFault (s : State) : Bool := s.df.state == .fault || s.rf.state == .fault

/-- The receiver has nothing in hand that a sleep entry forbids: no frame waits and the parser is in
HUNT (R178, R180). A parser that waits for the mark after a wake (R13) counts as in HUNT: DESIGN CHOICE (log 64). -/
def Link.quiet (l : Link) : Bool := l.waiting.isNone && l.parser == .hunt

/-- A sleep entry begins: its steps 1 and 2 (R180). -/
def State.beginSleep (s : State) : State :=
  let s := s.allDomainsOff
  let s := s.onPower fun p =>
    { p.follow with idleTimer := .stopped, entry := .draining, causes := WakeCauses.empty }
  s.reportPower .sleep

/-- A sleep entry under way is cancelled, with the causes taken (R181). -/
def State.cancelSleep (causes : WakeCauses) (s : State) : State :=
  if s.power.entry = .none then s
  else
    ((s.onPower fun p => { p.follow with entry := .none }).reportPower
      (.sleepCancelled causes)).restartIdle

/-- A wake cause is taken while the clocks run: it cancels a sleep entry (R181). -/
def State.causeTaken (c : WakeCause) (s : State) : State :=
  s.cancelSleep (WakeCauses.empty.add c)

/-- A wake cause is detected in SLEEP: the wake begins, or the cause joins it (R182, R183). -/
def State.causeDetected (c : WakeCause) (s : State) : State :=
  if s.held || s.power.state != .sleep then s
  else s.onPower fun p => { p with waking := true, causes := p.causes.add c }

/-- The records the transmitter may send: all in READY, the replies in UNSET (R10). -/
def Link.eligible (l : Link) (r : OutRecord) : Bool := l.state == .ready || !r.isReport

/-- The drain of a sleep entry has ended (R180). -/
def Link.drained (l : Link) : Bool := !(l.outbound.any l.eligible)

end Sys2Proof.Machine
end

