-- ==== Sys2Proof/Machine/Feed.lean ====
section
/-! DEFINITION. Feed control (chapter 3): sensors, the document state, load, gap and eject, and what
they tell the page path. -/

namespace Sys2Proof.Machine

/-! ## Sensors (R44, R45) -/

/-- The debounce timer after the asserted reading or the debounced state has changed: it runs while
they differ, from the time in force when they came to differ (R45). A sensor whose first state is not
yet taken runs no debounce (R63). -/
def Sensor.retime (debounce : Nat) (x : Sensor) : Sensor :=
  if x.known = false ∨ x.reading = x.debounced then { x with timer := none }
  else if x.timer.isSome then x
  else { x with timer := some debounce }

/-- The asserted reading of a sensor is formed from its input and its polarity (R44). -/
def State.formReading (id : SensorId) (s : State) : State :=
  let c := s.cfg.feed.sensor id
  s.onFeed (Feed.onSensor id fun x =>
    { x with reading := s.inputs.sensor id != c.polarity }.retime c.debounce)

/-- All four readings are formed. -/
def State.formReadings (s : State) : State :=
  (((s.formReading .docEntry).formReading .docScan).formReading .paper).formReading .cover

/-- Debounce starts afresh from the present reading (R64). -/
def State.restartDebounce (s : State) : State :=
  let stop : Sensor → Sensor := fun x => { x with timer := none }
  (s.onFeed fun f =>
    { f with docEntry := stop f.docEntry, docScan := stop f.docScan, paper := stop f.paper,
             cover := stop f.cover }).formReadings

/-! ## Changes of the document state (R46, R47, R57) -/

/-- The settle timer starts; a settle time of 0 expires at once (R47). -/
def State.startSettle (s : State) : State :=
  s.onFeed fun f =>
    { f with
      settle := if s.cfg.feed.settleCode = 0 then .expired
        else .running (10 * s.cfg.feed.settleCode) }

/-- A sheet has arrived (R47). -/
def State.arrive (s : State) : State := (s.setDoc .settling .arrived 0).startSettle

/-- A SCAN move in STARTING: it fails when the document enters NONE or JAMMED (R125). -/
def Move.scanStarting (m : Move) : Bool := m.isScan && m.state == .starting

/-- The document enters NONE, and SETTLING at once when a sheet stands in the entry (R46, R47, R125). -/
def State.enterNone (cause : DocCause) (s : State) : State :=
  let s := s.onFeed fun f => { f with settle := .stopped, seq := .none }
  let s := s.setDoc .none cause 0
  let s := if s.entryPresent then s.arrive else s
  s.failWhere Move.scanStarting .docJam

/-- The document enters JAMMED: its sequence ends and gives up DF, and with no sheet seen it clears
at once (R57). -/
def State.jam (cause : DocCause) (s : State) : State :=
  let s := s.onFeed fun f =>
    { f with settle := .stopped, seq := .none, tail := none, tailSkip := false }
  let s := s.setDoc .jammed cause 0
  let s := s.onChannel .df (Channel.giveUp .feed s.cfg.df.holdTime)
  if s.entryPresent || s.scanPresent then s else s.setDoc .none .cleared 0

/-- The document enters JAMMED and a SCAN move in STARTING fails (R57, R125). -/
def State.enterJammed (cause : DocCause) (s : State) : State :=
  (s.jam cause).failWhere Move.scanStarting .docJam

/-- The document enters JAMMED in a scan, and the move that scans fails with it (R53, R54, R133). -/
def State.jamScan (cause : DocCause) (s : State) : State :=
  (s.enterJammed cause).failWhere (fun m => m.isScan && m.flowing) .docJam

/-- A change of a sensor starts no sequence and changes no document state while a RESET stops the
channels (R194). -/
def State.feedHeld (s : State) : Bool :=
  match s.resetPhase with
  | .stopping _ => true
  | _ => false

/-- The first debounced states of both document sensors have been taken. -/
def Feed.documentKnown (f : Feed) : Bool := f.docEntry.known && f.docScan.known

/-- A change of a document sensor acts on the document: not before the document state has been set at
power-on (R63, log 13), and not while a RESET stops the channels (R194). -/
def State.feedActs (s : State) : Bool := s.feed.documentKnown && !s.feedHeld

/-! ## Loading (R48, R49) -/

/-- ALIGN begins with the overrun counted (R49): a ramped move of the rest of the offset, or the end
of the load. -/
def State.beginAlign (offset overrun : Nat) (s : State) : State :=
  if overrun < offset then
    (s.onFeed fun f => { f with seq := .align offset }).onChannel .df
      (Channel.order (.ramp 1 true (offset - overrun)))
  else
    let s := (s.onFeed fun f => { f with seq := .none }).setDoc .loaded .aligned (overrun - offset)
    s.onChannel .df (Channel.giveUp .feed s.cfg.df.holdTime)

/-- LOAD begins when DF is granted (R47, R48): SEEK, or ALIGN when DOC_SCAN is PRESENT. -/
def State.beginLoad (s : State) : State :=
  let s := (s.onFeed fun f => { f with settle := .stopped }).setDoc .loading .load 0
  if s.scanPresent then s.beginAlign s.cfg.feed.offset 0
  else
    (s.onFeed fun f => { f with seq := .seek s.cfg.feed.offset none }).onChannel .df
      (Channel.order (.ramp 1 true s.cfg.feed.preload))

/-- EJECT begins when DF is granted (R56). -/
def State.beginEject (s : State) : State :=
  (s.onFeed fun f => { f with seq := .eject (!s.scanPresent) }).onChannel .df
    (Channel.order (.ramp 2 true s.cfg.feed.ejectDistance))

/-- The ramped move of a feed sequence has come to HOLDING (R48, R49, R56). -/
def State.feedRampEnded (s : State) : State :=
  match s.feed.seq with
  | .seek offset (some d) => s.beginAlign offset d
  | .seek _ none => s.enterJammed .preloadTimeout
  | .align _ =>
    let s := (s.onFeed fun f => { f with seq := .none }).setDoc .loaded .aligned 0
    s.onChannel .df (Channel.giveUp .feed s.cfg.df.holdTime)
  | .eject true =>
    let s := s.onFeed fun f => { f with seq := .none }
    (s.onChannel .df (Channel.giveUp .feed s.cfg.df.holdTime)).enterNone .ejected
  | .eject false => s.enterJammed .notCleared
  | _ => s

/-! ## Counting steps of DF (R48, R53) -/

/-- FDC counts a step that DF has issued: in a gap every step from the page end on, those that still end
the last line of the page included. DEDUCED (log 34). -/
def Feed.countStep (f : Feed) : Feed :=
  match f.seq with
  | .seek offset (some d) => { f with seq := .seek offset (some (d + 1)) }
  | .gapSeek offset preload n => { f with seq := .gapSeek offset preload (n + 1) }
  | .gapAlign offset n => { f with seq := .gapAlign offset (n + 1) }
  | _ => f

/-- In ALIGN of a gap the change to gated running is ordered once the offset has been travelled
(R53). -/
def State.gapGate (s : State) : State :=
  match s.feed.seq with
  | .gapAlign offset n =>
    if offset ≤ n then s.onChannel .df (Channel.setGating true) else s
  | _ => s

/-- The preload maximum is reached in SEEK of a gap: the next sheet did not arrive (R53). -/
def State.gapTimeout (s : State) : State :=
  match s.feed.seq with
  | .gapSeek _ preload n => if preload ≤ n then s.jamScan .gapTimeout else s
  | _ => s

/-- The gap is over when its run has become gated (R53). -/
def State.gapOver (s : State) : Bool :=
  match s.feed.seq, s.df.run with
  | .gapAlign _ _, .line x => x.gated && s.df.startWaiting.isNone
  | _, _ => false

/-! ## Page end (R51 to R54, R129) -/

/-- The white line of a SCAN page that has ended empty enters (R129). -/
def State.blankPage (m : Move) (s : State) : State :=
  s.onMove m.id (Move.enterBlank s.headWidth (s.lineWidth m) s.freeSlot s.headerLines)

/-- The page path is told of a SCAN page end: the last line takes the mark, or the white line of an
empty page is due, and PAGE_EVENT is raised (R109, R129). -/
def State.scanPageEnded (m : Move) (s : State) : State :=
  let s :=
    if m.srcLines = 0 then s.onMove m.id fun m => { m with blankDue := m.blankDue + 1 }
    else s.onMove m.id (Move.endScanPage s.headWidth)
  s.reportPage m.number .scanned m.srcPage (max m.srcLines 1)

/-- A further page is taken from the feeder (R52, R129). -/
def furtherPage (m : Move) (entry : Bool) : Bool :=
  match m.source with
  | .scan _ limit => entry && (limit == 0 || decide (m.srcPage < limit))
  | _ => false

/-- The density of the scanning run. -/
def scanDensity (m : Move) : Density :=
  match m.source with
  | .scan d _ => d
  | _ => m.target

/-- GAP begins under the move's user role (R53). When the page has ended before the last step of its last
line, the run waits for that line's end, and its steps are counted. DEDUCED (log 34). -/
def State.beginGap (m : Move) (s : State) : State :=
  let c := s.cfg.feed
  let seq := if s.scanPresent then .gapAlign c.offset 0 else .gapSeek c.offset c.preload 0
  let s := s.onFeed fun f => { f with seq := seq, tailOffset := c.offset }
  (s.onChannel .df (Channel.order (.line (scanDensity m) false))).gapGate

/-- The page of a scan ends (R51, R52, R73): the DF run ends, the page path is told, and the gap or
the end of the source follows. -/
def State.pageEnd (m : Move) (s : State) : State :=
  let s := s.onFeed fun f => { f with tail := none, tailSkip := false }
  let s := s.onChannel .df (Channel.endLine s.cfg.df.holdTime)
  let s := s.onScan fun c => { c with lineCounter := 0 }
  let s := s.scanPageEnded m
  if furtherPage m s.entryPresent then
    (s.onMove m.id (Move.nextSourcePage s.headerLines)).beginGap m
  else
    (s.onMove m.id fun m => { m with state := .draining }).setDoc .ejecting .pagesDone 0

/-- A line of the scan has been handed: the tail count falls, and the page ends, or the sheet is too
long (R51, R54); at line 8191 with no tail count it is too long whatever DOC_SCAN is. DEDUCED
(log 35). -/
def State.scanLineCounted (m : Move) (s : State) : State :=
  match s.feed.tail with
  | some n =>
    let left := if s.feed.tailSkip then n else n - 1
    let s := s.onFeed fun f => { f with tail := some left, tailSkip := false }
    if left = 0 ∨ Config.maxPageLines ≤ s.scan.lineCounter then s.pageEnd m else s
  | none =>
    if Config.maxPageLines ≤ s.scan.lineCounter then s.jamScan .pageLong else s

/-- The capture of the line under way has not come yet (R51). -/
def Channel.captureOutstanding (c : Channel) : Bool :=
  match c.run with
  | .line x => c.state == .lineRun && x.gated && x.waiting
  | _ => false

/-- DF runs gated, or is about to, for the page of a scan (R51). -/
def Channel.gatedRun (c : Channel) : Bool :=
  match c.startWaiting, c.run with
  | some (.line _ gated), _ => gated
  | _, .line x => x.gated
  | _, _ => false

/-- The tail of the sheet has passed the scan sensor (R51). -/
def State.tailSeen (m : Move) (s : State) : State :=
  let n := (s.feed.tailOffset + ((scanDensity m).steps - 1)) / (scanDensity m).steps
  let under := s.df.captureOutstanding
  let s := s.onFeed fun f => { f with tail := some n, tailSkip := under }
  if n = 0 ∧ under = false then s.pageEnd m else s

/-! ## Debounced changes (R45, and the rules that act on each) -/

/-- DOC_ENTRY is taken PRESENT (R47). -/
def State.entryTakenPresent (s : State) : State :=
  if s.feed.doc = .none then s.arrive else s

/-- DOC_ENTRY is taken ABSENT (R47, R57). -/
def State.entryTakenAbsent (s : State) : State :=
  match s.feed.doc with
  | .settling => (s.onChannel .df (Channel.giveUp .feed s.cfg.df.holdTime)).enterNone .removed
  | .jammed => if s.scanPresent then s else s.enterNone .cleared
  | _ => s

/-- DOC_SCAN is taken PRESENT (R48, R53, R56, R57). A sequence whose first move still waits for the
MOTOR domain has issued no step: SEEK is then skipped as at the start of LOAD, and the cleared mark is
as it stands when the eject move starts (log 17). -/
def State.scanTakenPresent (s : State) : State :=
  match s.feed.doc, s.feed.seq with
  | .none, _ => s.enterJammed .misfeed
  | _, .seek offset none =>
    if s.df.startWaiting.isSome then
      (s.onChannel .df fun c => { c with startWaiting := none }).beginAlign offset 0
    else
      (s.onFeed fun f => { f with seq := .seek offset (some 0) }).onChannel .df
        (Channel.stop s.cfg.df.holdTime)
  | _, .eject true =>
    if s.df.startWaiting.isSome then s.onFeed fun f => { f with seq := .eject false }
    else
      let s := s.onFeed fun f => { f with seq := .seek s.cfg.feed.offset (some 0) }
      (s.setDoc .loading .nextSheet 0).onChannel .df (Channel.stop s.cfg.df.holdTime)
  | _, .gapSeek offset _ _ => (s.onFeed fun f => { f with seq := .gapAlign offset 0 }).gapGate
  | _, _ => s

/-- A shading run under way ends on DOC_SCAN taken PRESENT (R79). -/
def State.shadingSeesSheet (s : State) : State :=
  if s.scan.shading = .none then s else s.endShading .docPresent

/-- DOC_SCAN is taken ABSENT (R49, R50, R51, R53, R56, R57). -/
def State.scanTakenAbsent (s : State) : State :=
  match s.feed.doc, s.feed.seq with
  | .loaded, _ => s.enterNone .removed
  | .jammed, _ => if s.entryPresent then s else s.enterNone .cleared
  | _, .align _ => s.enterJammed .misfeed
  | _, .gapAlign _ _ => s.jamScan .misfeed
  | _, .eject _ => s.onFeed fun f => { f with seq := .eject true }
  | .scanning, .none =>
    match s.scanning? with
    | some m => if s.df.gatedRun then s.tailSeen m else s
    | none => s
  | _, _ => s

/-- A document that moves, or is to move, jams when the cover opens (R58). -/
def State.coverJam (s : State) : State :=
  if s.feedHeld then s
  else
    match s.feed.doc with
    | .loading => s.jam .coverOpen
    | .scanning => s.jam .coverOpen
    | .ejecting => s.jam .coverOpen
    | _ => s

/-- The cover is OPEN (R34, R58, R79, R90, R91, R94): the channels stop, the head drops its line and a cut
ends, a moving document jams, a report is raised, a shading run ends, and the moves fail; one that a fallback has
diverted goes on (R143, DEDUCED, log 47). -/
def State.coverOpens (report : State → State) (s : State) : State :=
  let s := (s.onChannel .df (Channel.coverStop s.cfg.df.holdTime)).onChannel .rf
    (Channel.coverStop s.cfg.rf.holdTime)
  let s := report (s.onPrint fun p => { p.drop with cut := .none }).coverJam
  let s := if s.scan.shading = .none then s else s.endShading .busy
  s.failWhere (fun m => m.active && (m.isScan || m.isPrint)) .coverOpen

/-- The cover is taken OPEN, with PAPER_EVENT (R58). -/
def State.coverTakenOpen (s : State) : State := s.coverOpens State.reportPaper

/-- The paper is taken ABSENT (R59, R126, R133): a PRINT move in STARTING fails; one whose lines flow
ends its RF run and acts on the paper when RF reaches HOLDING, unless its cut is running. -/
def State.paperTakenAbsent (s : State) : State :=
  let s := s.reportPaper
  let s := s.failWhere (fun m => m.isPrint && m.state == .starting) .paperOut
  match s.serving? with
  | none => s
  | some m =>
    if s.print.cut = .none then
      (s.onMove m.id fun m => { m with paperOut := true }).onChannel .rf
        (Channel.endLine s.cfg.rf.holdTime)
    else s

/-- The rules that act on a debounced change. The reply of a SHADE that DOC_SCAN ends (R79) is queued before the
DOC_EVENT of the same taking. DESIGN CHOICE (log 55). -/
def State.sensorTaken (id : SensorId) (s : State) : State :=
  match id with
  | .docEntry =>
    if !s.feedActs then s
    else if s.entryPresent then s.entryTakenPresent else s.entryTakenAbsent
  | .docScan =>
    let s := if s.scanPresent then s.shadingSeesSheet else s
    if !s.feedActs then s
    else if s.scanPresent then s.scanTakenPresent else s.scanTakenAbsent
  | .paper => if s.paperPresent then s.reportPaper else s.paperTakenAbsent
  | .cover => if s.coverOpen then s.coverTakenOpen else s.reportPaper

/-! ## Driver faults on DF (R60) -/

/-- FDC acts on DF entering FAULT; `queued` says that its request stood in the queue of DF. -/
def State.feedMotorFault (queued : Bool) (s : State) : State :=
  match s.feed.doc with
  | .loading => s.jam .motorFault
  | .scanning => s.jam .motorFault
  | .ejecting => s.jam .motorFault
  | .settling => if queued then s.jam .motorFault else s
  | _ => s

end Sys2Proof.Machine
end

