-- ==== Sys2Proof/Machine/Head.lean ====
section
/-! DEFINITION. The print unit (chapter 5): the load stage, the strobe, delivery and the cut. -/

namespace Sys2Proof.Machine

/-- The white mark: no black dot in any block (R83). -/
def HeadLine.isWhite (l : HeadLine) : Bool := l.counts.all fun c => c == 0

/-- The slot is bound to the load stage or is being strobed. -/
def Print.takenSlot (move slot : Nat) (p : Print) : Bool :=
  (match p.load with
    | .empty => false
    | .loading l => l.move == move && l.slot == slot
    | .loaded l => l.move == move && l.slot == slot)
  || (match p.strobe with
    | .strobing l _ _ _ _ _ => l.move == move && l.slot == slot
    | _ => false)

/-- The READY lines of the serving move that PRU has not taken, oldest first (R83). -/
def State.untakenLines (m : Move) (s : State) : List SlotLine :=
  m.queue.filter fun l => l.state == .ready && !(s.print.takenSlot m.id l.slot)

/-- The load stage takes the oldest READY line not yet taken (R83): a white line is LOADED at once. -/
def State.takeLoad (m : Move) (l : SlotLine) (s : State) : State :=
  let line : HeadLine :=
    { move := m.id
      slot := l.slot
      counts := blockCounts (Config.blockSize s.straps) l.dots
      pageEnd := l.pageEnd }
  s.onPrint fun p => { p with load := if line.isWhite then .loaded line else .loading line }

/-- The line of a head line is still in its move's queue, under the PRINT sink (R88). -/
def State.headLineHeld (l : HeadLine) (s : State) : Bool :=
  match s.move? l.move with
  | none => false
  | some m => m.isPrint && m.flowing && (m.queue.head?.map SlotLine.slot) == some l.slot

/-- The line is delivered (R88): it leaves the queue, and a page end orders the end of the RF run
(R92). -/
def State.deliverHead (l : HeadLine) (heavy : Bool) (s : State) : State :=
  if s.headLineHeld l then
    let s := s.onMove l.move (Move.deliver heavy)
    if l.pageEnd then
      (s.onMove l.move fun m => { m with cutDue := true }).onChannel .rf
        (Channel.endLine s.cfg.rf.holdTime)
    else s
  else s

/-- Strobe done: the line is delivered, and RF begins its steps (R38, R87, R88). -/
def State.strobeDone (l : HeadLine) (heavy : Bool) (s : State) : State :=
  (s.deliverHead l heavy).onChannel .rf Channel.strobeDone

/-- A line that is not white is latched and strobed (R84, R85, R86). -/
def State.latch (l : HeadLine) (s : State) : State :=
  let c := s.cfg.print
  s.onPrint fun p =>
    { p with
      load := .empty
      strobe := .strobing l (isHeavy c.limit l.counts) (phaseList c.limit l.counts) false c.strobe
        c.gap }

/-- A line boundary of RF reaches PRU, whose load stage has taken a line (R84). -/
def State.boundaryAtHead (s : State) : State :=
  match s.print.load with
  | .loaded l =>
    if l.isWhite then (s.onPrint fun p => { p with load := .empty }).strobeDone l false
    else s.latch l
  | .loading _ => s.onPrint fun p => { p with strobe := .latchWait }
  | .empty => s

/-- The load of a line completes; a boundary that has waited for it strobes (R83, R84). -/
def State.loadComplete (s : State) : State :=
  match s.print.load with
  | .loading l =>
    if s.print.strobe = .latchWait then s.latch l
    else s.onPrint fun p => { p with load := .loaded l }
  | _ => s

/-- The strobe time or the gap time of the phase under way ends (R87); a gap of 0 ends with the strobe
time. -/
def State.phaseEnd (s : State) : State :=
  match s.print.strobe with
  | .strobing l heavy phases inGap strobe gap =>
    if !inGap && decide (0 < gap) then
      s.onPrint fun p => { p with strobe := .strobing l heavy phases true strobe gap }
    else
      match phases.tail with
      | [] => (s.onPrint fun p => { p with strobe := .idle }).strobeDone l heavy
      | rest => s.onPrint fun p => { p with strobe := .strobing l heavy rest false strobe gap }
  | _ => s

/-- The head is in a strobe phase (R38, R87). -/
def Print.inStrobe (p : Print) : Bool :=
  match p.strobe with
  | .strobing _ _ _ _ _ _ => true
  | _ => false

/-- The cut begins when RF has come to HOLDING after a page end (R92): a margin of 0 fires at once. -/
def State.beginCut (m : Move) (s : State) : State :=
  let c := s.cfg.print
  let s := s.onMove m.id fun m => { m with cutDue := false }
  if c.margin = 0 then s.onPrint fun p => { p with cut := .pulse c.pulse }
  else
    (s.onPrint fun p => { p with cut := .feed c.pulse }).onChannel .rf
      (Channel.order (.ramp 1 true c.margin))

/-- The last step of the cut feed has been issued (R92). -/
def State.cutFeedEnded (s : State) : State :=
  match s.print.cut with
  | .feed pulse => s.onPrint fun p => { p with cut := .pulse pulse }
  | _ => s

/-- The stored page that a STORE-source move prints as its sink page (R157). -/
def storedPage (m : Move) : Option (Nat × Nat) :=
  match m.source with
  | .store doc first _ => some (doc, first + (m.counters.curPage - 1))
  | _ => none

/-- A printed page of a stored document counts (R157 to R159). -/
def State.countPrinted (m : Move) (s : State) : State :=
  match storedPage m with
  | none => s
  | some (doc, page) => (s.onStore (Store.pagePrinted doc page)).testAutoDelete doc

/-! ## Fallback (R142) -/

/-- The switch cannot be made: the directory is full or the page table has no free record. -/
def Store.cannotDivert (st : Store) : Bool :=
  st.directoryFull || decide (Config.maxPages ≤ st.pageCount)

/-- The record of a move at the switch. -/
def Move.divert (doc : Nat) (m : Move) : Move :=
  { m with
    sink := .store doc .received false false
    diverted := some doc
    headerLeft := 0
    cutDue := false
    paperOut := false }

/-- A page of the move's document is opened, or the move fails with STORE_FULL (R153, R154). -/
def State.openPageFor (m : Move) (doc : Nat) (startOffset : Option Nat) (s : State) : State :=
  match s.store.doc? doc with
  | none => s.storeFull m.id doc 0
  | some d =>
    if s.store.canOpen m.counters.curPage d then
      s.onStore (Store.addPage d m.counters.curPage (s.storedWidth m) m.target startOffset)
    else s.storeFull m.id doc 0

/-- The start offset of the page that a switch opens (R142): the lines of the current page delivered to PRINT, whatever
their number (DESIGN CHOICE, log 58); none when no line of it was delivered. -/
def Move.switchOffset (m : Move) : Option Nat :=
  if 0 < m.counters.curLines then some m.counters.curLines else none

/-- The fallback switch (R142): a new held document, the sink changed, PRINT and RF given up, and the page that the move
goes on with opened at once (R153). A move whose page index is above 255 has then been diverted, and fails with
STORE_FULL (R153, R154): DEDUCED (log 74). -/
def State.switchToStore (m : Move) (s : State) : State :=
  let s := s.onStore (Store.create .received false)
  let doc := s.store.lastDoc
  let s := (s.onPrint Print.stopServing).onMove m.id (Move.divert doc)
  let s := s.onChannel .rf (Channel.giveUp (.move m.id) s.cfg.rf.holdTime)
  match s.move? m.id with
  | none => s
  | some m => s.openPageFor m doc m.switchOffset

/-- A PRINT move acts on a paper-out (R133, R142). A document that cannot be created raises STORE_EVENT
before the move fails (R154; document 0 for a full page table too, DEDUCED, log 40). -/
def State.actOnPaperOut (m : Move) (s : State) : State :=
  if m.fallback && m.isLinkIn then
    if s.store.cannotDivert then (s.reportStore .storeFull 0 0).failMove .paperOut m.id
    else s.switchToStore m
  else s.failMove .paperOut m.id

/-! ## The end of the cut (R93, R130) -/

/-- The cutter pulse ends: the page is complete, and the paper is acted on unless the move ends: when it is
ABSENT, or was taken ABSENT before RF came to rest for this page, though PRESENT again. DEDUCED
(log 36). -/
def State.cutDone (s : State) : State :=
  let s := s.onPrint fun p => { p with cut := .none }
  match s.serving? with
  | none => s
  | some m =>
    let s := (s.completeSinkPage m.id .printedAndCut).countPrinted m
    let s := s.endIfDrained m.id
    match s.move? m.id with
    | none => s
    | some m =>
      if m.flowing && (m.paperOut || !s.paperPresent) then s.actOnPaperOut m else s

end Sys2Proof.Machine
end

