-- ==== Sys2Proof/Machine/Moves.lean ====
section
/-! DEFINITION. Moves from PENDING to RUNNING (chapter 7), the lines the store writes and reads for
them (chapter 8), and the lines the host brings and takes. -/

namespace Sys2Proof.Machine

/-! ## Arbitration (R120, R123) -/

/-- The claimable endpoints (7.2). -/
inductive Endpoint where
  | scan
  | print
  | linkIn
  | linkOut
  deriving DecidableEq, Repr

/-- The claimable endpoints of a move's route. -/
def Move.endpoints (m : Move) : List Endpoint :=
  (match m.source with
    | .scan _ _ => [.scan]
    | .linkIn _ _ => [.linkIn]
    | .store _ _ _ => [])
  ++ (match m.sink with
    | .print => [.print]
    | .linkOut => [.linkOut]
    | .store _ _ _ _ => [])

/-- The claims held (R120). -/
def State.claims (s : State) : List Endpoint := (s.moves.filter Move.active).flatMap Move.endpoints

/-- The free depth (R123). -/
def State.freeDepth (s : State) : Nat :=
  Config.lineSlots - ((s.moves.filter Move.active).map Move.depth).sum

/-- The first PENDING move that one pass of the arbitration admits (R123): `taken` are the endpoints
claimed or blocked, `held` the blocked depth. -/
def firstAdmitted (free : Nat) (taken : List Endpoint) (held : Nat) : List Move → Option Nat
  | [] => none
  | m :: ms =>
    if m.endpoints.any fun e => taken.contains e then
      firstAdmitted free (taken ++ m.endpoints) held ms
    else if m.depth + held ≤ free then some m.id
    else firstAdmitted free (taken ++ m.endpoints) (held + m.depth) ms

/-- The PENDING moves, oldest first. -/
def State.pendingMoves (s : State) : List Move :=
  (s.moveIds fun m => m.state == .pending).filterMap fun id => s.move? id

/-- The move that the arbitration admits next. -/
def State.admitted? (s : State) : Option Nat :=
  firstAdmitted s.freeDepth s.claims 0 s.pendingMoves

/-! ## STARTING (R124 to R127) -/

/-- A needed domain is in FAULT (R124). -/
def State.needFault (m : Move) (s : State) : Bool :=
  [DomainId.scan, .print, .motor].any fun d => m.needs d && s.power.domain d == .fault

/-- A move requests a channel (R21, R124, R125). -/
def State.moveRequest (ch : ChannelId) (id : Nat) (s : State) : State :=
  match (s.channel ch).requestAnswer s.coverOpen with
  | .fault => s.failMove .motorFault id
  | .coverOpen => s.failMove .coverOpen id
  | _ => s.onChannel ch (Channel.request (.move id) s.coverOpen)

/-- The new document takes the place of document 0 in a sink (R127). -/
def Sink.named (doc : Nat) : Sink → Sink
  | .store 0 cls autoDelete closeAtEnd => .store doc cls autoDelete closeAtEnd
  | sink => sink

/-- A STORE sink that names document 0 gets its document at entry to STARTING (R127, R150). -/
def State.makeSinkDoc (m : Move) (s : State) : State :=
  match m.sink with
  | .store 0 cls autoDelete _ =>
    if s.store.directoryFull then s.storeFull m.id 0 0
    else
      let s := s.onStore (Store.create cls autoDelete)
      let doc := s.store.lastDoc
      s.onMove m.id fun m => { m with sink := m.sink.named doc }
  | _ => s

/-- A move enters STARTING: it holds its claims and its depth, and meets what fails it there
(R123 to R127). A SCAN move that finds the document already NONE or JAMMED waits. DEDUCED (log 39). A move that
fails here has started no domain (R124, R169), and a domain in FAULT fails it behind the paper and the cover (R126)
and before a sink document is made (R127). DESIGN CHOICE (log 51). -/
def State.enterStarting (id : Nat) (s : State) : State :=
  let s := s.onMove id fun m => { m with state := .starting }
  match s.move? id with
  | none => s
  | some m =>
    if m.isPrint && !s.paperPresent then s.failMove .paperOut id
    else if m.isPrint && s.coverOpen then s.failMove .coverOpen id
    else if s.needFault m then s.failMove .domainFault id
    else
      let s := s.makeSinkDoc m
      if m.isPrint then s.moveRequest .rf id else s

/-- Every needed domain is ON (R124). -/
def State.domainsOn (m : Move) (s : State) : Bool :=
  [DomainId.scan, .print, .motor].all fun d => !(m.needs d) || s.power.domain d == .on

/-- The move is the user of a channel, and not only recorded there. -/
def Channel.usedBy (u : User) (c : Channel) : Bool := c.user == some u && !c.releasing

/-- All conditions of STARTING hold (R124 to R128). -/
def State.canRun (m : Move) (s : State) : Bool :=
  m.state == .starting && s.domainsOn m
    && (!m.isPrint || s.rf.usedBy (.move m.id))
    && (!m.isScan || (s.df.usedBy (.move m.id) && s.feed.doc == .loaded))

/-- The reading of the page that a STORE source has come to begins (R128, R155). -/
def State.startReading (id : Nat) (s : State) : State :=
  match s.move? id with
  | none => s
  | some m =>
    match s.sourcePage? m with
    | none => s
    | some p =>
      s.onMove id fun m =>
        { m with reader := some ((Reader.start p.index (s.store.chainOf p)).fill p.lines) }

/-- A move enters RUNNING (R128). -/
def State.enterRunning (m : Move) (s : State) : State :=
  let headerLeft := m.prefixCount s.headerLines
  let s := s.onMove m.id fun m => { m with state := .running, headerLeft := headerLeft }
  let s := s.reportMoveStarted m
  let s :=
    if m.isScan then
      let s := s.onChannel .df (Channel.order (.line (scanDensity m) true))
      let s := s.onScan fun c => { c with lineCounter := 0 }
      let s := s.onFeed fun f =>
        { f with tailOffset := s.cfg.feed.offset, tail := none, tailSkip := false, seq := .none }
      s.setDoc .scanning .scan 0
    else s
  if m.isStoreSource then s.startReading m.id else s

/-! ## Header lines (R114, R115) -/

/-- The next header line of a page is emitted. -/
def State.emitHeader (m : Move) (s : State) : State :=
  match s.path.header with
  | none => s.onMove m.id fun m => { m with headerLeft := 0 }
  | some h =>
    let slot := s.freeSlot
    s.onMove m.id (Move.emitHeader h (s.lineWidth m) s.headWidth slot)

/-! ## Lines read from the store (R155, R156) -/

/-- The document and page that a STORE source reads. -/
def Move.sourceDoc (m : Move) : Nat :=
  match m.source with
  | .store doc _ _ => doc
  | _ => 0

def Move.sourcePages (m : Move) : Nat :=
  match m.source with
  | .store _ _ count => count
  | _ => 0

/-- The read of a page has ended with its last line handed: its damaged count, and the next page named or the end of
the source (R129, R156). The end of the move before that is no end of the read. DESIGN CHOICE (log 57). -/
def State.pageRead (m : Move) (r : Reader) (s : State) : State :=
  let s := s.onStore (Store.endRead m.sourceDoc r.page r.white)
  if m.srcPage < m.sourcePages then
    (s.onMove m.id (Move.nextSourcePage s.headerLines)).startReading m.id
  else s.onMove m.id fun m => { m with state := .draining, reader := none }

/-- PST hands the next line it has read: decoded at the page's width, or white after a check error
(R104, R155, R156). -/
def State.handLine (m : Move) (r : Reader) (line : ReadLine) (s : State) : State :=
  let width := s.sourceWidth m
  let last := match s.sourcePage? m with
    | none => true
    | some p => decide (p.lines ≤ r.handed + 1)
  let (dots, repaired) := match line with
    | none => (List.replicate width false, false)
    | some coded => decodeLine width coded
  let r := { r with
    lines := r.lines.tail
    handed := r.handed + 1
    white := r.white + (if line.isNone then 1 else 0) }
  let slot := s.freeSlot
  let density := s.sourceDensity m
  let s := s.onMove m.id fun m =>
    let m := (m.countRepair repaired).enter s.headWidth slot density dots last
    { m with
      reader := some r
      counters := { m.counters with
        damaged := m.counters.damaged + (if line.isNone then 1 else 0) } }
  if last then s.pageRead m r else s

/-- The transfer of a move has ended, and the turn has been its own (R155). -/
def Store.endTransfer (id : Nat) (st : Store) : Store := { st with transfer := none, turn := some id }

/-- The header writes of the turn in progress are made, before what the transfer itself does (R155). -/
def Store.makeWrites (st : Store) : Store :=
  { st with memory := st.madeWrites st.making, making := [] }

/-- PST reads a segment for a move (R155, R156). The turn passes once the read has completed a line
(log 21). -/
def State.readSegment (m : Move) (r : Reader) (upsets : List (Nat × Byte)) (s : State) : State :=
  match r.chain with
  | [] => s
  | n :: _ =>
    let s := (s.onStore Store.makeWrites).onStore (Store.upset n upsets)
    let (r, good) := s.store.readSegment n r
    let r := r.fill (((s.sourcePage? m).map Page.lines).getD 0)
    let s := s.onMove m.id fun m => { m with reader := some r }
    let s := if r.lines.isEmpty && !r.chain.isEmpty then s else s.onStore (Store.endTransfer m.id)
    if good then s
    else
      (s.onLink fun l => { l with sticky := { l.sticky with checkError := true } }).reportStore
        .checkError m.sourceDoc r.page

/-! ## Lines written to the store (R153, R154) -/

/-- The open page of a document closes TRUNCATED for want of a segment or for its line limit, and the
move fails (R154). -/
def State.truncate (m : Move) (doc page : Nat) (s : State) : State :=
  (s.onStore (Store.closePage doc .truncated)).storeFull m.id doc page

/-- The lines of a page record. -/
def Store.pageLines (doc page : Nat) (st : Store) : Nat :=
  (((st.doc? doc).bind (Document.page? page)).map Page.lines).getD 0

/-- The class of a document. -/
def Store.classOf (doc : Nat) (st : Store) : DocClass :=
  ((st.doc? doc).map Document.cls).getD .outgoing

/-- The segments for a line are allocated and its write begins, or the page closes TRUNCATED: for its
line limit, or when an allocation fails (R153, R154). -/
def State.allocateLine (m : Move) (l : SlotLine) (doc : Nat) (o : OpenPage) (s : State) : State :=
  let need := s.store.segmentsNeeded o (encodeLine l.dots).length
  if Config.maxPageLines ≤ s.store.pageLines doc o.index then s.truncate m doc o.index
  else if s.store.mayAllocate s.total s.reserve (s.store.classOf doc) need then
    s.onStore fun st => { st.allocate s.total need o with transfer := some m.id }
  else s.truncate m doc o.index

/-- PST takes the head line of a move's queue for writing, opening its page first when none is open
(R153). -/
def State.takeLine (m : Move) (l : SlotLine) (doc : Nat) (s : State) : State :=
  let s := if (s.store.openPage? doc).isNone then s.openPageFor m doc none else s
  match s.store.openPage? doc with
  | none => s
  | some o => s.allocateLine m l doc o

/-- PST finishes the line it has taken for writing: it is delivered, and the page closes with it when
it carries the page-end mark (R110, R130, R153, R154). -/
def State.lineWritten (m : Move) (l : SlotLine) (doc : Nat) (o : OpenPage) (s : State) : State :=
  let s := (s.onStore (Store.writeLine o (encodeLine l.dots))).onMove m.id (Move.deliver false)
  if l.pageEnd then
    ((s.onStore (Store.closePage doc .complete)).completeSinkPage m.id .stored).endIfDrained m.id
  else s

/-- The open page that a STORE-sink move writes. -/
def State.sinkPage? (m : Move) (s : State) : Option OpenPage :=
  m.sinkDoc?.bind fun doc => s.store.openPage? doc

/-- PST finishes the head line of a move's queue, and the turn passes (R153, R155). -/
def State.writeLine (m : Move) (l : SlotLine) (s : State) : State :=
  let s := (s.onStore Store.makeWrites).onStore (Store.endTransfer m.id)
  match s.sinkPage? m with
  | none => s
  | some o => s.lineWritten m l o.doc o

/-- The store after each header write of a line being written, in order: those of its bytes, and the
closing of the page with it (R147, R154). -/
def Store.lineStages (l : SlotLine) (o : OpenPage) (st : Store) : List Store :=
  Store.byteStages (encodeLine l.dots) false o.allocated { o with allocated := [] } st
    ++ (if l.pageEnd then
      [(st.writeLine o (encodeLine l.dots)).closePage o.doc .complete]
    else [])

/-! ## Transfers on the page memory (R155) -/

/-- A line of the move is due for writing. -/
def Move.writeDue (m : Move) : Bool :=
  m.sinkDoc?.isSome && m.flowing && (m.queue.head?.map SlotLine.state) == some .ready

/-- A segment is due for reading: lines read before have been handed, and the move has room. -/
def Move.readDue (m : Move) : Bool :=
  m.isStoreSource && m.state == .running && m.headerLeft == 0 && decide (0 < m.room)
    && (match m.reader with
      | none => false
      | some r => r.lines.isEmpty && !r.chain.isEmpty)

/-- The move whose transfer comes next: in turn by acceptance order, the oldest again after the
youngest. -/
def State.nextTransfer? (s : State) : Option Nat :=
  let ids := s.moveIds fun m => m.writeDue || m.readDue
  match s.store.turn with
  | none => ids.head?
  | some t => (ids.find? fun id => decide (t < id)).orElse fun _ => ids.head?

/-- The header writes that are due come to the turn that begins (R155). -/
def Store.takeWrites (st : Store) : Store :=
  { st with making := st.making ++ st.rewrites, rewrites := [] }

/-- The transfer of a move begins, the header writes that are due before it (R153, R155). -/
def State.beginTransfer (id : Nat) (s : State) : State :=
  let s := s.onStore Store.takeWrites
  match s.move? id with
  | none => s
  | some m =>
    if m.writeDue then
      match m.queue.head?, m.sinkDoc? with
      | some l, some doc => s.takeLine m l doc
      | _, _ => s
    else s.onStore fun st => { st with transfer := some id }

/-! ## Lines from the host (R137, R138) -/

/-- An accepted line of LINE_DATA enters the queue; END_PAGE ends the source page and END_MOVE the
source (R138). -/
def State.acceptLine (m : Move) (coded : List Byte) (endPage endMove : Bool) (s : State) : State :=
  let width := s.sourceWidth m
  let (dots, repaired) := decodeLine width coded
  let slot := s.freeSlot
  let s := s.onMove m.id fun m =>
    (m.countRepair repaired).enter s.headWidth slot (s.sourceDensity m) dots (endPage || endMove)
  if endMove then s.onMove m.id fun m => { m with state := .draining }
  else if endPage then s.onMove m.id (Move.nextSourcePage s.headerLines)
  else s

/-! ## Lines to the host (R139, R140) -/

/-- The lines that a READ_LINES reply may take: READY, in queue order, up to the first that is not,
past those being sent. -/
def Move.readable (m : Move) : List SlotLine :=
  (m.queue.dropWhile SlotLine.sending).takeWhile fun l => l.state == .ready

/-- The lines placed in a reply (R139): fewer than k, within the payload, of one width. -/
def placeLines (width : Nat) : Nat → Nat → List SlotLine → List (SlotLine × List Byte)
  | 0, _, _ => []
  | _, _, [] => []
  | k + 1, used, l :: ls =>
    let coded := encodeLine l.dots
    if l.dots.length = width ∧ used + coded.length + 3 ≤ Config.maxPayload then
      (l, coded) :: placeLines width k (used + coded.length + 3) ls
    else []

/-- The lines of a READ_LINES reply; the width is that of the first. -/
def Move.placed (k : Nat) (m : Move) : List (SlotLine × List Byte) :=
  match m.readable with
  | [] => []
  | l :: ls => placeLines l.dots.length k 8 (l :: ls)

/-- The move-finished mark: DRAINING, and the reply holds every line left (R139); not while the white line of an
empty scan page is still due (R129). DEDUCED (log 48). -/
def Move.finishedBy (n : Nat) (m : Move) : Bool :=
  m.state == .draining && m.blankDue == 0 && n == m.queue.length

/-- The sending marks of the lines placed (R111). -/
def Move.markSending (slots : List Nat) (m : Move) : Move :=
  { m with queue := m.queue.map fun l => if slots.contains l.slot then { l with sending := true } else l }

/-- The payload of a READ_LINES reply (11.6). -/
def linesPayload (m : Move) (placed : List (SlotLine × List Byte)) (finished : Bool) : List Byte :=
  let width := (placed.head?.map fun x => x.1.dots.length).getD 0
  [Result.ok.code, byte1 m.number, byte1 placed.length, markByte finished] ++ bytes2 width
    ++ [m.target.code, 0]
    ++ placed.flatMap fun x => bytes2 x.2.length ++ [markByte x.1.pageEnd] ++ x.2

/-- One line of a reply that has gone out is delivered, and completes its sink page when it carries
the mark (R140). -/
def State.lineSent (id : Nat) (s : State) : State :=
  match s.move? id with
  | none => s
  | some m =>
    match m.queue.head? with
    | none => s
    | some l =>
      let s := s.onMove id (Move.deliver false)
      if l.pageEnd then s.completeSinkPage id .sent else s

/-- The last character of a READ_LINES reply has been sent (R140). -/
def State.linesSent (id count : Nat) (finished : Bool) (s : State) : State :=
  match s.move? id with
  | none => s
  | some m =>
    if m.flowing && m.isLinkOut then
      let s := (List.range count).foldl (fun s _ => s.lineSent id) s
      if finished then s.endMove id .done none false else s
    else s

/-- The sending marks are cleared: the lines stand again at the head of their queue (R111). -/
def Move.clearSending (m : Move) : Move :=
  { m with queue := m.queue.map fun l => { l with sending := false } }

end Sys2Proof.Machine
end

