-- ==== Sys2Proof/Machine/Settle.lean ====
section
/-! DEFINITION. What follows at once (log 7): the consequences that the rules give "at the moment" a
condition comes to hold, each as one rule that may act on a state, and their repetition until none acts.
A meaning makes its own change and then settles. -/

namespace Sys2Proof.Machine

/-- The oldest move with a property. -/
def State.oldestMove? (p : Move → Bool) (s : State) : Option Move :=
  ((s.moveIds p).head?).bind s.move?

/-- A rule that acts on the oldest move with a property. -/
def State.forMove (p : Move → Bool) (f : Move → State → State) (s : State) : Option State :=
  (s.oldestMove? p).map fun m => f m s

/-- A rule that acts when a condition holds. -/
def State.doWhen (c : Bool) (f : State → State) (s : State) : Option State :=
  if c then some (f s) else none

/-- A channel that stands stopped and may take an order of its user. -/
def Channel.ready (c : Channel) : Bool :=
  (c.state == .idle || c.state == .holding) && c.startWaiting.isNone

/-- The user or a requester of a channel. -/
def Channel.asks (u : User) (c : Channel) : Bool := c.usedBy u || c.queue.contains u

/-! ## Power (R169, R176, R177, R180, R181) -/

/-- The idle timer follows the idle condition (R177). -/
def ruleIdleTimer (s : State) : Option State :=
  s.doWhen (s.idleTimerNow != s.power.idleTimer) fun s =>
    s.onPower fun p => { p with idleTimer := s.idleTimerNow }

/-- A sleep entry is cancelled, with no cause, when the part is no longer idle or a channel has entered
FAULT (R181). -/
def ruleSleepLost (s : State) : Option State :=
  s.doWhen (s.power.entry != .none && (!s.idle || s.anyFault)) (State.cancelSleep WakeCauses.empty)

/-- A need on a domain in OFF starts it (R169). -/
def ruleNeed (d : DomainId) (s : State) : Option State :=
  s.doWhen (s.needed d && s.power.domain d == .off) (State.startDomain d)

/-- The power state follows the domains, once nothing else follows (R176). -/
def rulePowerState (s : State) : Option State := s.doWhen s.powerChanged State.syncPower

/-- The drain ends when nothing is left to send (R180). -/
def ruleDrained (s : State) : Option State :=
  s.doWhen (s.power.entry == .draining && s.link.drained) fun s =>
    s.onPower fun p => { p with entry := .stopping }

/-! ## The move table (R123 to R128) -/

/-- The arbitration admits a PENDING move (R123). -/
def ruleArbitrate (s : State) : Option State := s.admitted?.map fun id => s.enterStarting id

/-- A SCAN move in STARTING requests DF once the document is LOADED (R125). -/
def ruleScanRequest (s : State) : Option State :=
  s.forMove (fun m => m.scanStarting && s.feed.doc == .loaded && !(s.df.asks (.move m.id)))
    fun m s => s.moveRequest .df m.id

/-- A move whose conditions hold enters RUNNING (R128). -/
def ruleRun (s : State) : Option State := s.forMove (fun m => s.canRun m) State.enterRunning

/-! ## Feed control (R47, R53, R56) -/

/-- FDC, become user of DF, begins its sequence (R47, R56). -/
def ruleFeedGranted (s : State) : Option State :=
  s.doWhen (s.df.usedBy .feed && s.df.ready && !s.feedHeld
      && (s.feed.doc == .settling || (s.feed.doc == .ejecting && s.feed.seq == .none))) fun s =>
    if s.feed.doc = .settling then s.beginLoad else s.beginEject

/-- FDC requests DF for a load that is due or for an eject (R47, R56). -/
def State.feedRequest (s : State) : State :=
  match s.df.requestAnswer s.coverOpen with
  | .fault => s.enterJammed .motorFault
  | .coverOpen => s.enterJammed .coverOpen
  | _ => s.onChannel .df (Channel.request .feed s.coverOpen)

/-- A load is due, or the document waits for its eject; a load waits while the cover is open (R47). -/
def State.feedWants (s : State) : Bool :=
  !s.feedHeld && !(s.df.asks .feed)
    && ((s.feed.doc == .settling && s.feed.settle == .expired && !s.coverOpen)
      || (s.feed.doc == .ejecting && s.feed.seq == .none))

def ruleFeedRequest (s : State) : Option State := s.doWhen s.feedWants State.feedRequest

/-- The gap is over when DF has become gated (R53). -/
def ruleGapOver (s : State) : Option State :=
  s.doWhen s.gapOver fun s => s.onFeed fun f => { f with seq := .none }

/-! ## Lines that enter a queue (R114, R129, R155) -/

/-- The white line of an empty scan page enters (R129). -/
def ruleBlankPage (s : State) : Option State :=
  s.forMove (fun m => m.flowing && decide (0 < m.blankDue) && m.headerLeft == 0 && decide (0 < m.room))
    State.blankPage

/-- The next header line is emitted (R114): before the first source line of its page, the white line of a
page that has ended empty included. -/
def ruleHeader (s : State) : Option State :=
  s.forMove (fun m => (m.state == .running || m.state == .draining && decide (0 < m.blankDue))
    && decide (0 < m.headerLeft) && decide (0 < m.room)) State.emitHeader

/-- A line that the store has read is waiting for room. -/
def Move.lineWaiting (m : Move) : Bool :=
  m.state == .running && m.headerLeft == 0 && decide (0 < m.room)
    && (match m.reader with
      | none => false
      | some r => !r.lines.isEmpty)

/-- PST hands a line it has read (R155). -/
def ruleHandLine (s : State) : Option State :=
  s.forMove Move.lineWaiting fun m s =>
    match m.reader with
    | none => s
    | some r => s.handLine m r (r.lines.head?.getD none)

/-! ## Channels (R29, R36 to R38) -/

/-- A channel may begin its start waiting: the MOTOR domain is ON and the cover CLOSED, and RF waits while the
head is in a strobe phase (R29, R34, R36). That an order of RF held until strobe done starts too when the strobe ends
without it (R90) is DESIGN CHOICE (log 66). -/
def State.mayStart (ch : ChannelId) (s : State) : Bool :=
  s.power.motor == .on && !s.coverOpen && ((s.channel ch).state == .idle || (s.channel ch).state == .holding)
    && (ch == .df || !s.print.inStrobe)

/-- A channel begins its start waiting. -/
def ruleStart (ch : ChannelId) (s : State) : Option State :=
  match (s.channel ch).startWaiting with
  | none => none
  | some o => s.doWhen (s.mayStart ch) fun s => s.onChannel ch (Channel.startOrder (s.channelCfg ch) o)

/-- The channel stands at the boundary of a gated line. -/
def Channel.awaitsGrant (c : Channel) : Bool :=
  c.state == .lineHold && (match c.run with
    | .line x => x.gated
    | _ => false)

/-- A slot may be granted for the next scan line (R37, R108, R114). -/
def Move.grantsScan (counter : Nat) (m : Move) : Bool :=
  m.isScan && m.state == .running && decide (0 < m.room) && m.headerLeft == 0 && m.blankDue == 0
    && m.granted.isNone && decide (counter < Config.maxPageLines)

/-- The boundary of a scan line with its grant: DF begins the line and SCU starts its capture, over one
still under way (R37, R70). -/
def State.beginScanLine (m : Move) (s : State) : State :=
  let slot := s.freeSlot
  let s := s.onMove m.id fun m => { m with granted := some slot }
  let s := s.onChannel .df Channel.beginCapture
  s.onScan fun c =>
    { c with
      capture := .exposing
        { slot := slot, move := m.id, settings := s.cfg.scan, table := c.table, y := c.lineCounter } }

def ruleScanGrant (s : State) : Option State :=
  if s.df.awaitsGrant then
    s.forMove (fun m => s.df.usedBy (.move m.id) && m.grantsScan s.scan.lineCounter)
      State.beginScanLine
  else none

/-! ## Shading (R77) -/

/-- A shading run in WAITING begins to measure (R77). -/
def ruleMeasure (s : State) : Option State :=
  match s.scan.shading with
  | .waiting settings =>
    s.doWhen (s.power.scan == .on && s.scan.capture == .idle) fun s =>
      s.onScan fun c =>
        { c with shading := .measuring settings 0 (List.replicate s.headWidth 0) }
  | _ => none

/-! ## The head (R38, R83, R84, R92, R130, R133) -/

/-- The load stage takes a line (R83). -/
def ruleLoad (s : State) : Option State :=
  match s.serving? with
  | none => none
  | some m =>
    match s.untakenLines m with
    | [] => none
    | l :: _ => s.doWhen (s.print.load == .empty) (State.takeLoad m l)

/-- The boundary of a line to print with its grant (R38, R84). -/
def rulePrintGrant (s : State) : Option State :=
  match s.serving? with
  | none => none
  | some m =>
    s.doWhen (s.rf.awaitsGrant && s.rf.usedBy (.move m.id) && s.print.load != .empty
        && s.print.strobe == .idle) fun s =>
      (s.onChannel .rf Channel.beginStrobe).boundaryAtHead

/-- RF stands stopped under the serving move with no order. -/
def State.rfRests (m : Move) (s : State) : Bool := s.rf.usedBy (.move m.id) && s.rf.ready

/-- RF has come to HOLDING after a page end, and the cut begins (R92). -/
def ruleCut (s : State) : Option State :=
  match s.serving? with
  | none => none
  | some m => s.doWhen (m.cutDue && s.rfRests m && s.print.cut == .none) (State.beginCut m)

/-- RF has come to HOLDING after a paper-out (R133). -/
def rulePaperOut (s : State) : Option State :=
  match s.serving? with
  | none => none
  | some m =>
    s.doWhen (m.paperOut && !m.cutDue && s.rfRests m && s.print.cut == .none)
      (State.actOnPaperOut m)

/-- The serving move orders a gated RF run for its next page (R128, R130). -/
def rulePrintRun (s : State) : Option State :=
  match s.serving? with
  | none => none
  | some m =>
    s.doWhen (!m.cutDue && !m.paperOut && s.rfRests m && s.print.cut == .none
        && (m.state == .running || !m.queue.isEmpty || decide (0 < m.blankDue))) fun s =>
      s.onChannel .rf (Channel.order (.line m.target true))

/-! ## Transfers on the page memory (R155) -/

/-- The next transfer begins; a memory check serves no move (R155, R165), and none begins while PFI is
active (log 9). -/
def ruleTransfer (s : State) : Option State :=
  if s.store.transfer.isNone && s.store.check.isNone && !s.inputs.pfi then
    s.nextTransfer?.map fun id => s.beginTransfer id
  else none

/-! ## All of them -/

/-- The rules in the order in which one is sought. A report of power control carries the states as they
stand after the event, so its two rules come last (R176, log 42). -/
def consequenceRules : List (State → Option State) :=
  [ruleIdleTimer, ruleNeed .scan, ruleNeed .print, ruleNeed .motor, ruleArbitrate, ruleFeedGranted, ruleFeedRequest, ruleScanRequest, ruleRun, ruleGapOver,
   ruleBlankPage, ruleHeader, ruleHandLine, ruleStart .df, ruleStart .rf, ruleScanGrant, ruleMeasure,
   ruleLoad, rulePrintGrant, ruleCut, rulePaperOut, rulePrintRun, ruleTransfer, ruleDrained,
   ruleSleepLost, rulePowerState]

/-- The first rule of a list that acts. -/
def firstActing (s : State) : List (State → Option State) → Option State
  | [] => none
  | r :: rs =>
    match r s with
    | some t => some t
    | none => firstActing s rs

/-- At most `fuel` consequences, one after another. -/
def settleFor : Nat → State → State
  | 0, s => s
  | fuel + 1, s =>
    match firstActing s consequenceRules with
    | none => s
    | some t => settleFor fuel t

/-- Every consequence (log 7). -/
def State.settle (s : State) : State := settleFor 512 s

/-- Nothing follows at once: no rule acts. -/
def State.settled (s : State) : Bool := (firstActing s consequenceRules).isNone

end Sys2Proof.Machine
end

