-- ==== Sys2Proof/Machine/Answers.lean ====
section
/-! DEFINITION. What a block makes of a command it is handed (R7, R199): the reply payload, and the
effect. A reply is queued before the effect, so that reports of the effect follow it (log 6). -/

namespace Sys2Proof.Machine

/-- The answer of a block: the reply with its kind, none for a command that replies late, and the
effect on the part. -/
structure Answer where
  kind : RecordKind
  reply : Option (List Byte)
  effect : State → State

/-- A reply that carries a result code alone, and no effect (R199). -/
def Answer.refuse (r : Result) : Answer := ⟨.reply, some [r.code], id⟩

/-- A reply OK with the fields of 11.4. -/
def Answer.ok (fields : List Byte) (effect : State → State) : Answer :=
  ⟨.reply, some (Result.ok.code :: fields), effect⟩

/-- A late reply (R8). -/
def Answer.late (effect : State → State) : Answer := ⟨.reply, none, effect⟩

/-- The settings of a channel change. -/
def State.onChannelCfg (ch : ChannelId) (f : ChannelSettings → ChannelSettings) (s : State) :
    State :=
  match ch with
  | .df => { s with cfg := { s.cfg with df := f s.cfg.df } }
  | .rf => { s with cfg := { s.cfg with rf := f s.cfg.rf } }

end Sys2Proof.Machine
end

