-- ==== Sys2Proof/Machine/ChannelAnswers.lean ====
section
/-! DEFINITION. SET_PROFILE, SET_LINE_TIMING, SET_CHANNEL, MOVE_STEPS, STOP_CHANNEL and CLEAR_FAULT
(chapter 2). -/

namespace Sys2Proof.Machine

/-- F and D make a fraction below 1 with D up to 4095 (2.4). -/
def fractionOk (f d : Word16) : Bool :=
  decide (1 ≤ d.toNat) && decide (d.toNat ≤ 4095) && decide (f.toNat < d.toNat)

/-! ## SET_PROFILE (R23) -/

/-- The operands of SET_PROFILE, but the channel, are in range. -/
def profileOk (prof : Byte) (ws wt f d k16 rsv : Word16) : Bool :=
  decide (prof.toNat ≤ 7) && decide (40 ≤ ws.toNat) && decide (40 ≤ wt.toNat) && fractionOk f d
    && decide (k16.toNat ≤ 16383) && rsv == 0

def ChannelSettings.setProfile (n : Nat) (p : Profile) (c : ChannelSettings) : ChannelSettings :=
  { c with profiles := c.profiles.set n p }

def answerSetProfile (ch prof : Byte) (ws wt f d k16 rsv : Word16) : Answer :=
  match channelOf ch with
  | none => .refuse .badValue
  | some c =>
    if profileOk prof ws wt f d k16 rsv then
      .ok [] (State.onChannelCfg c
        (ChannelSettings.setProfile prof.toNat ⟨ws.toNat, wt.toNat, f.toNat, d.toNat, k16.toNat⟩))
    else .refuse .badValue

/-! ## SET_LINE_TIMING (R24) -/

def answerSetLineTiming (ch dens : Byte) (w f d rsv : Word16) (s : State) : Answer :=
  match channelOf ch, densityOf dens with
  | some c, some v =>
    if 40 ≤ w.toNat ∧ fractionOk f d = true ∧ rsv = 0 then
      let t := LineTiming.clamp (s.channelCfg c).pullIn ⟨w.toNat, f.toNat, d.toNat⟩
      .ok (bytes2 t.w) (State.onChannelCfg c (ChannelSettings.setTiming v t))
    else .refuse .badValue
  | _, _ => .refuse .badValue

/-! ## SET_CHANNEL (R25) -/

/-- The three values are replaced, and each W below the new pull-in period is raised to it. -/
def ChannelSettings.setChannel (invert : Bool) (pullIn holdCode : Nat) (c : ChannelSettings) :
    ChannelSettings :=
  { c with
    invert := invert
    pullIn := pullIn
    holdCode := holdCode
    v1 := c.v1.clamp pullIn
    v2 := c.v2.clamp pullIn
    v4 := c.v4.clamp pullIn }

def answerSetChannel (ch inv : Byte) (pullIn : Word16) (hold rsv : Byte) (s : State) : Answer :=
  match channelOf ch, markOf inv with
  | some c, some i =>
    if pullIn.toNat < 400 ∨ rsv ≠ 0 then .refuse .badValue
    else if (s.channel c).user.isSome then .refuse .inUse
    else .ok [] (State.onChannelCfg c (ChannelSettings.setChannel i pullIn.toNat hold.toNat))
  | _, _ => .refuse .badValue

/-! ## MOVE_STEPS (R30) -/

/-- The host becomes the user and its order is kept until the channel may start it (R29, R40). -/
def Channel.hostMove (o : Order) (c : Channel) : Channel :=
  { c with user := some .host, releasing := false, holdTimer := none, startWaiting := some o }

def answerMoveSteps (ch prof dir rsv : Byte) (dist : Word16) (s : State) : Answer :=
  match channelOf ch, markOf dir with
  | some c, some back =>
    if prof.toNat > 7 ∨ dist.toNat = 0 ∨ rsv ≠ 0 then .refuse .badValue
    else if (s.channel c).state = .fault then .refuse .busy
    else if (s.channel c).user.isSome then .refuse .inUse
    else if s.coverOpen then .refuse .busy
    else
      .ok (bytes4 (s.channel c).position.toNat) fun s =>
        (s.onChannel c (Channel.hostMove (.ramp prof.toNat (!back) dist.toNat))).settle
  | _, _ => .refuse .badValue

/-! ## STOP_CHANNEL (R35) -/

/-- The effect of STOP_CHANNEL by the state when taken. -/
def Channel.hostStop (c : Channel) : Channel :=
  match c.state with
  | .ramping => c.stopRamp
  | .idle | .holding =>
    if c.user = some .host then { c with startWaiting := none }.passOn
    else if c.state = .holding then { c with state := .idle, holdTimer := none }
    else c
  | _ => c

/-- The step in progress is the last one of a move stopped now (R32). -/
def Channel.stopsAtStep (c : Channel) : Bool :=
  match c.run with
  | .ramp x => { x with stopOrdered := true }.ending
  | _ => false

/-- The state that the reply of STOP_CHANNEL shows (log 11): IDLE too when the hold time in force is 0 and the
channel rests with its host user. DEDUCED (log 44). -/
def Channel.shownAfterStop (c : Channel) : ChanState :=
  match c.state with
  | .ramping => if c.stopsAtStep then .holding else .stopping
  | _ => c.hostStop.state

/-- A move or a feed sequence is the user. -/
def Channel.userIsPart (c : Channel) : Bool :=
  match c.user with
  | none => false
  | some .host => false
  | some _ => true

def answerStopChannel (ch rsv : Byte) (s : State) : Answer :=
  match channelOf ch with
  | none => .refuse .badValue
  | some c =>
    if rsv ≠ 0 then .refuse .badValue
    else if (s.channel c).userIsPart then .refuse .inUse
    else
      .ok [(s.channel c).shownAfterStop.code] fun s => (s.onChannel c Channel.hostStop).settle

/-! ## CLEAR_FAULT (R42) -/

def Channel.clearFault (c : Channel) : Channel :=
  if c.state = .fault then { c with state := .idle } else c

def answerClearFault (ch rsv : Byte) (s : State) : Answer :=
  match channelOf ch with
  | none => .refuse .badValue
  | some c =>
    if rsv ≠ 0 then .refuse .badValue
    else if (s.channel c).state = .fault ∧ s.flt c = true then .refuse .busy
    else .ok [] fun s => (s.onChannel c Channel.clearFault).settle

end Sys2Proof.Machine
end

