-- ==== Sys2Proof/Machine/FeedScanPrintAnswers.lean ====
section
/-! DEFINITION. SET_FEED and EJECT (chapter 3), SET_SCAN and SHADE (chapter 4), SET_PRINT
(chapter 5). -/

namespace Sys2Proof.Machine

/-! ## SET_FEED (R62) -/

/-- The feed settings are replaced, and a polarity acts on the asserted reading at once (R44). -/
def State.setFeed (c : FeedSettings) (s : State) : State :=
  State.formReadings { s with cfg := { s.cfg with feed := c } }

def answerSetFeed (pEntry pScan pPaper pCover dEntry dScan dPaper dCover settle rsv : Byte)
    (preload offset eject : Word16) : Answer :=
  match markOf pEntry, markOf pScan, markOf pPaper, markOf pCover with
  | some a, some b, some c, some d =>
    if dEntry.toNat = 0 ∨ dScan.toNat = 0 ∨ dPaper.toNat = 0 ∨ dCover.toNat = 0
        ∨ preload.toNat = 0 ∨ eject.toNat = 0 ∨ offset.toNat > 1023 ∨ rsv ≠ 0 then
      .refuse .badValue
    else
      .ok [] (State.setFeed
        { docEntry := ⟨a, dEntry.toNat⟩
          docScan := ⟨b, dScan.toNat⟩
          paper := ⟨c, dPaper.toNat⟩
          cover := ⟨d, dCover.toNat⟩
          settleCode := settle.toNat
          preload := preload.toNat
          offset := offset.toNat
          ejectDistance := eject.toNat })
  | _, _, _, _ => .refuse .badValue

/-! ## EJECT (R61) -/

def answerEject (rsv : Byte) (s : State) : Answer :=
  if rsv ≠ 0 then .refuse .badValue
  else if s.scanBusy then .refuse .inUse
  else
    match s.feed.doc with
    | .none | .jammed => .refuse .notLoaded
    | .loaded =>
      if s.coverOpen = true ∨ s.df.state = .fault then .refuse .busy
      else .ok [] fun s => (s.setDoc .ejecting .command 0).settle
    | _ => .refuse .busy

/-! ## SET_SCAN (R75) -/

def answerSetScan (mode t b inv : Byte) (exposure rsv : Word16) (s : State) : Answer :=
  match markOf mode, markOf inv with
  | some half, some i =>
    if t.toNat = 0 ∨ t.toNat > 63 ∨ b.toNat > 31 ∨ exposure.toNat < 1000 ∨ exposure.toNat > 40000
        ∨ rsv ≠ 0 then .refuse .badValue
    else if s.scanBusy then .refuse .inUse
    else
      .ok [] fun s =>
        { s with cfg := { s.cfg with scan := ⟨half, t.toNat, b.toNat, i, exposure.toNat⟩ } }
  | _, _ => .refuse .badValue

/-! ## SHADE (R76, R77) -/

/-- A shading run begins, waiting for the domain and the capture unit (R77). -/
def State.beginShading (s : State) : State :=
  (s.onScan fun c => { c with shading := .waiting s.cfg.scan }).settle

def answerShade (rsv : Byte) (s : State) : Answer :=
  if rsv ≠ 0 then .refuse .badValue
  else if s.scanPresent then .refuse .docPresent
  else if s.scanBusy = true ∨ s.coverOpen = true then .refuse .busy
  else if s.power.scan = .fault then .refuse .domainFault
  else .late State.beginShading

/-! ## SET_PRINT (R95) -/

def answerSetPrint (ts tg m margin pulse rsv : Word16) (s : State) : Answer :=
  if ts.toNat < 200 ∨ ts.toNat > 2500 ∨ tg.toNat > 500 ∨ m.toNat = 0 ∨ m.toNat > s.headWidth
      ∨ margin.toNat > 4095 ∨ pulse.toNat < 20 ∨ pulse.toNat > 500 ∨ rsv ≠ 0 then
    .refuse .badValue
  else if s.printBusy then .refuse .inUse
  else
    .ok [] fun s =>
      { s with
        cfg := { s.cfg with
          print := ⟨ts.toNat, tg.toNat, m.toNat, margin.toNat, pulse.toNat⟩ } }

end Sys2Proof.Machine
end

