-- ==== Sys2Proof/Machine/LinkAnswers.lean ====
section
/-! DEFINITION. SET_LINK, GET_STATUS and GET_IDENTITY (chapter 1, 11.5). -/

namespace Sys2Proof.Machine

/-! ## SET_LINK (R11) -/

/-- The ordered rate is recorded, and the reply enters the queue; the command stays in hand until the
reply has gone out. -/
def Link.orderRate (rate : Rate) (l : Link) : Link :=
  match l.hand with
  | none => l
  | some h =>
    { l with
      rateChange := some rate
      outbound := l.outbound ++ [replyRecord .linkReply h.frame [Result.ok.code, rate.code]]
      hand := some { h with phase := .replied } }

def answerSetLink (code rsv : Byte) : Answer :=
  match rateOf code with
  | none => .refuse .badValue
  | some rate =>
    if rsv ≠ 0 then .refuse .badValue else .late fun s => s.onLink (Link.orderRate rate)

/-! ## GET_STATUS (R15) -/

/-- An entry of the move table in the status record (11.5). -/
def entryBytes : Option Move → List Byte
  | none => [0, 0xFF, 0xFF]
  | some m => [byte1 m.number, m.state.code, routeCode m.source m.sink]

def positionBytes (p : Position) : List Byte := bytes4 p.toNat

/-- The status record, 37 bytes after the result code (11.5). -/
def statusRecord (s : State) : List Byte :=
  [s.power.state.code, s.power.scan.code, s.power.print.code, s.power.motor.code, s.df.state.code,
    s.rf.state.code]
    ++ positionBytes s.df.position ++ positionBytes s.rf.position
    ++ [s.feed.doc.code, markByte s.paperPresent, markByte s.coverOpen, s.storeStateCode]
    ++ bytes2 s.freeShown ++ bytes2 s.reserveShown ++ bytes2 s.retiredShown
    ++ s.path.table.flatMap entryBytes ++ [s.link.sticky.byte]

/-- The flags shown are cleared. -/
def State.clearSticky (s : State) : State :=
  s.onLink fun l => { l with sticky := Sticky.clear }

def answerGetStatus (clear rsv : Byte) (s : State) : Answer :=
  match markOf clear with
  | none => .refuse .badValue
  | some c =>
    if rsv ≠ 0 then .refuse .badValue
    else .ok (statusRecord s) fun s => if c then s.clearSticky else s

/-! ## GET_IDENTITY (R16) -/

/-- The identity record, 18 bytes after the result code (11.5). -/
def identityRecord (s : State) : List Byte :=
  [1] ++ bytes2 s.headWidth ++ bytes2 (Config.blockSize s.straps)
    ++ [byte1 (Config.memoryMiB s.straps)] ++ bytes2 s.total ++ bytes2 s.retiredShown
    ++ [s.storeStateCode, byte1 s.store.docsRecovered] ++ bytes2 s.store.pagesRecovered
    ++ bytes2 s.store.pagesDiscarded ++ [0x07, 0x0F]

def answerGetIdentity (rsv : Byte) (s : State) : Answer :=
  if rsv ≠ 0 then .refuse .badValue else .ok (identityRecord s) id

end Sys2Proof.Machine
end

