-- ==== Sys2Proof/Machine/PowerAnswers.lean ====
section
/-! DEFINITION. SET_POWER, DOMAIN, SLEEP and RESET (chapters 9 and 10). -/

namespace Sys2Proof.Machine

/-! ## SET_POWER (R179) -/

/-- The three power settings are replaced and the idle timer starts afresh. -/
def State.setPower (idle auto warm : Byte) (s : State) : State :=
  State.restartIdle
    { s with cfg := { s.cfg with power := ⟨idle.toNat, auto == 1, warm.toNat⟩ } }

def answerSetPower (idle auto warm rsv : Byte) : Answer :=
  if auto.toNat > 1 ∨ rsv ≠ 0 then .refuse .badValue else .ok [] (State.setPower idle auto warm)

/-! ## DOMAIN (R175) -/

/-- DOMAIN ON (R175 cases 3 to 5). -/
def State.domainOn (d : DomainId) (s : State) : State :=
  match s.power.domain d with
  | .off | .fault => (s.startDomain d).settle
  | _ => s

/-- The state that the reply of DOMAIN ON shows. -/
def shownAfterOn : DomainState → DomainState
  | .off | .fault | .starting => .starting
  | .on => .on

/-- DOMAIN OFF (R175 cases 6 and 7). -/
def State.domainOffCommand (d : DomainId) (s : State) : State :=
  if s.power.domain d = .off then s else (s.domainOff d).settle

def answerDomain (dom action rsv : Byte) (s : State) : Answer :=
  match domainOf dom, markOf action with
  | some d, some on =>
    if rsv ≠ 0 then .refuse .badValue
    else if s.needed d then .refuse .inUse
    else if on then .ok [(shownAfterOn (s.power.domain d)).code] (State.domainOn d)
    else .ok [DomainState.off.code] (State.domainOffCommand d)
  | _, _ => .refuse .badValue

/-! ## SLEEP (R180) -/

/-- A sleep entry may begin. -/
def State.maySleep (s : State) : Bool := s.idle && !s.anyFault && s.link.quiet

def answerSleep (rsv : Byte) (s : State) : Answer :=
  if rsv ≠ 0 then .refuse .badValue
  else if s.maySleep then .ok [] fun s => s.beginSleep.settle
  else .refuse .busy

/-! ## RESET (R194) -/

/-- Every move that has not ended becomes ABORTED, in acceptance order (R144). No arbitration runs between two of the
aborts: DEDUCED (log 62). -/
def State.abortAll (s : State) : State :=
  (s.moveIds Move.live).foldl (fun s id => s.endMove id .aborted none true) s

/-- Captures, strobes, loads, pulses and feed sequences are cancelled (R63, R74, R97). -/
def State.cancelWork (s : State) : State :=
  ((s.onScan fun c => { c with capture := .idle, lineCounter := 0 }).onPrint fun p =>
    { p.drop with cut := .none }).onFeed fun f =>
      { f with settle := .stopped, seq := .none, tail := none, tailSkip := false }

/-- Both channels stop by the reset rule (R43). -/
def State.resetChannels (s : State) : State :=
  (s.onChannel .df (Channel.resetStop s.cfg.df.holdTime)).onChannel .rf
    (Channel.resetStop s.cfg.rf.holdTime)

/-- A RESET is taken (R194): its stopping phase begins. -/
def State.beginReset (full : Bool) (s : State) : State :=
  { s.abortAll.cancelWork.resetChannels with resetPhase := .stopping full }.settle

def answerReset (kind rsv : Byte) : Answer :=
  match markOf kind with
  | none => .refuse .badValue
  | some full => if rsv ≠ 0 then .refuse .badValue else .late (State.beginReset full)

end Sys2Proof.Machine
end

