-- ==== Sys2Proof/Machine/MoveAnswers.lean ====
section
/-! DEFINITION. START_MOVE, ABORT_MOVE, MOVE_STATUS, LINE_DATA, READ_LINES and LOAD_HEADER (chapters 6
and 7). -/

namespace Sys2Proof.Machine

/-! ## START_MOVE: the fields (11.4, R121 case 1, R198) -/

/-- What START_MOVE asks for. -/
structure MoveRequest where
  source : Source
  sink : Sink
  depth : Nat
  target : Density
  reduce : Bool
  withHeader : Bool
  fallback : Bool
  close : Bool
  deriving DecidableEq, Repr

/-- The source with its fields; a field that does not apply is reserved. -/
def sourceOf (source f8 f9 : Byte) (f10 : Word16) (f12 : Byte) : Option Source :=
  match source.toNat with
  | 0 =>
    if f10 = 0 ∧ f12 = 0 then (densityOf f8).map fun d => .scan d f9.toNat else none
  | 1 =>
    if f9 = 0 ∧ f12 = 0 then
      match densityOf f8, widthOf f10 with
      | some d, some w => some (.linkIn w d)
      | _, _ => none
    else none
  | 2 => if f8 = 0 ∧ f9 ≠ 0 then some (.store f10.toNat f12.toNat f9.toNat) else none
  | _ => none

/-- The sink with its fields; a field that does not apply is reserved. -/
def sinkOf (sink : Byte) (close : Bool) (f13 : Byte) (f14 : Word16) (f16 : Byte) : Option Sink :=
  match sink.toNat with
  | 0 => if f13 = 0 ∧ f14 = 0 ∧ f16 = 0 then some .print else none
  | 1 => if f13 = 0 ∧ f14 = 0 ∧ f16 = 0 then some .linkOut else none
  | 2 =>
    if f14 = 0 then
      match classOf f13, markOf f16 with
      | some c, some a => some (.store 0 c a close)
      | _, _ => none
    else if f13 = 0 ∧ f16 = 0 then some (.store f14.toNat .received false close)
    else none
  | _ => none

/-- The request that the fields make, none for BAD_VALUE (R121 case 1). -/
def requestOf (source sink depth target reduce header fallback close f8 f9 : Byte) (f10 : Word16)
    (f12 f13 : Byte) (f14 : Word16) (f16 f17 : Byte) : Option MoveRequest :=
  match markOf reduce, markOf header, markOf fallback, markOf close, densityOf target with
  | some r, some h, some fb, some cl, some t =>
    match sourceOf source f8 f9 f10 f12, sinkOf sink cl f13 f14 f16 with
    | some a, some b =>
      if 2 ≤ depth.toNat ∧ depth.toNat ≤ 12 ∧ f17 = 0 then
        some { source := a, sink := b, depth := depth.toNat, target := t, reduce := r,
               withHeader := h, fallback := fb, close := cl }
      else none
    | _, _ => none
  | _, _, _, _, _ => none

/-! ## START_MOVE: the checks (R121 cases 2 to 7) -/

def Source.isLinkIn : Source → Bool
  | .linkIn _ _ => true
  | _ => false

def Source.isStore : Source → Bool
  | .store _ _ _ => true
  | _ => false

def Sink.isStore : Sink → Bool
  | .store _ _ _ _ => true
  | _ => false

/-- Case 2: LINK_IN to LINK_OUT, or STORE to STORE. -/
def MoveRequest.badRoute (r : MoveRequest) : Bool :=
  (r.source.isLinkIn && r.sink == .linkOut) || (r.source.isStore && r.sink.isStore)

/-- The target density is above the density of the source. -/
def MoveRequest.targetTooHigh (r : MoveRequest) : Bool :=
  match r.source with
  | .scan d _ => decide (d.rank < r.target.rank)
  | .linkIn _ d => decide (d.rank < r.target.rank)
  | .store _ _ _ => false

/-- Case 3: an option that does not go with the route. -/
def MoveRequest.badOption (r : MoveRequest) : Bool :=
  (r.withHeader && r.sink.isStore)
    || (r.fallback && !(r.source.isLinkIn && r.sink == .print))
    || (r.close && !r.sink.isStore)
    || r.targetTooHigh

/-- A page that a STORE source may read (R121 case 4; an OPEN page is not complete, log 19). -/
def Document.readable (target : Density) (d : Document) (index : Nat) : Bool :=
  match d.page? index with
  | none => false
  | some p => p.condition == .complete && decide (target.rank ≤ p.density.rank)

/-- Case 4: the document and pages of a STORE source. -/
def State.sourceProblem (r : MoveRequest) (s : State) : Option Result :=
  match r.source with
  | .store doc first count =>
    match s.store.doc? doc with
    | none => some .noSuchDoc
    | some d =>
      if ((List.range count).map fun i => first + i).all (d.readable r.target) then none
      else some .badValue
  | _ => none

/-- A document written by a STORE-sink move that has not ended (R121, R161). -/
def State.written (doc : Nat) (s : State) : Bool :=
  s.moves.any fun m => m.live && m.sinkDoc? == some doc

/-- Case 5: the document that a STORE sink names. -/
def State.sinkProblem (r : MoveRequest) (s : State) : Option Result :=
  match r.sink with
  | .store doc _ _ _ =>
    if doc = 0 then none
    else
      match s.store.doc? doc with
      | none => some .noSuchDoc
      | some d =>
        if d.closed then some .badValue
        else if s.written doc then some .inUse
        else none
  | _ => none

/-- Case 6: there is no document to scan. -/
def State.noSheet (r : MoveRequest) (s : State) : Bool :=
  match r.source with
  | .scan _ _ => s.feed.doc == .none || s.feed.doc == .jammed
  | _ => false

/-- Case 7: all four entries hold moves that have not ended. -/
def State.tableFull (s : State) : Bool :=
  s.path.table.all fun e => match e with
    | none => false
    | some m => m.live

/-- The first case of R121, from the second on, that refuses a request. -/
def State.moveProblem (r : MoveRequest) (s : State) : Option Result :=
  if r.badRoute then some .badRoute
  else if r.badOption then some .badValue
  else
    match s.sourceProblem r with
    | some x => some x
    | none =>
      match s.sinkProblem r with
      | some x => some x
      | none =>
        if s.noSheet r then some .notLoaded
        else if s.tableFull then some .tableFull
        else none

/-! ## START_MOVE: the entry (R119, R122) -/

/-- The entry that the move of an acceptance order holds. -/
def Path.entryOf (id : Nat) (p : Path) : Option Nat :=
  p.table.findIdx? fun e => match e with
    | none => false
    | some m => m.id == id

/-- The entry for a new move: the lowest empty one, or that of the move that ended earliest (R119). -/
def Path.entryFor (p : Path) : Nat :=
  match p.table.findIdx? Option.isNone with
  | some i => i
  | none => ((p.endings.head?).bind fun id => p.entryOf id).getD 0

/-- The numbers that the entries other than one hold. -/
def Path.otherNumbers (entry : Nat) (p : Path) : List Nat :=
  (p.table.set entry none).filterMap fun e => e.map Move.number

/-- The number after another, 1 after 255, past the numbers held (R119). -/
def nextNumber (held : List Nat) : Nat → Nat → Nat
  | 0, n => n
  | fuel + 1, n =>
    let k := if 255 ≤ n then 1 else n + 1
    if held.contains k then nextNumber held fuel k else k

/-- The number of a new move. -/
def Path.numberFor (p : Path) : Nat := nextNumber (p.otherNumbers p.entryFor) 4 p.lastNumber

/-- The counters of a record when its move is accepted (R118). -/
def Counters.fresh : Counters :=
  { taken := 0, headerLines := 0, delivered := 0, merged := 0, discarded := 0, repaired := 0,
    heavy := 0, damaged := 0, pagesCompleted := 0, curPage := 1, curLines := 0 }

/-- The record of a move when it is accepted (R118, R122). -/
def MoveRequest.record (number id : Nat) (r : MoveRequest) : Move :=
  { id := id
    number := number
    source := r.source
    sink := r.sink
    depth := r.depth
    target := r.target
    reduce := r.reduce
    withHeader := r.withHeader
    fallback := r.fallback
    state := .pending
    cause := none
    counters := Counters.fresh
    diverted := none
    queue := []
    granted := none
    merge := 0
    headerLeft := 0
    srcPage := 1
    srcLines := 0
    blankDue := 0
    cutDue := false
    paperOut := false
    reader := none }

/-- A new move takes its entry (R119). -/
def Path.accept (r : MoveRequest) (p : Path) : Path :=
  let table := p.table.set p.entryFor (some (r.record p.numberFor p.nextId))
  { p with
    table := table
    lastNumber := p.numberFor
    nextId := p.nextId + 1
    endings := p.endings.filter fun id => table.any fun e => match e with
      | none => false
      | some m => m.id == id }

/-- The state that the reply of START_MOVE shows (R122): the arbitration runs, and a move that is
admitted meets what fails it on entry to STARTING. -/
def State.shownState (id : Nat) (s : State) : MoveState :=
  if s.admitted? = some id then
    let s := s.enterStarting id
    let s := (ruleScanRequest s).getD s
    ((s.move? id).map Move.state).getD .starting
  else .pending

def answerStartMove (source sink depth target reduce header fallback close f8 f9 : Byte)
    (f10 : Word16) (f12 f13 : Byte) (f14 : Word16) (f16 f17 : Byte) (s : State) : Answer :=
  match requestOf source sink depth target reduce header fallback close f8 f9 f10 f12 f13 f14 f16
      f17 with
  | none => .refuse .badValue
  | some r =>
    match s.moveProblem r with
    | some x => .refuse x
    | none =>
      .ok [byte1 s.path.numberFor, ((s.onPath (Path.accept r)).shownState s.path.nextId).code]
        fun s => (s.onPath (Path.accept r)).settle

/-! ## ABORT_MOVE (R134) -/

def answerAbortMove (num rsv : Byte) (s : State) : Answer :=
  match s.moveNumbered? num.toNat with
  | none => .refuse .noSuchMove
  | some m =>
    if rsv ≠ 0 then .refuse .badValue
    else if m.live then .ok [] fun s => (s.endMove m.id .aborted none false).settle
    else .refuse .moveEnded

/-! ## MOVE_STATUS (R118, R135) -/

/-- The entry of a move is emptied. -/
def Path.clear (id : Nat) (p : Path) : Path :=
  { p with
    table := p.table.map fun e => e.bind fun m => if m.id = id then none else some m
    endings := p.endings.filter fun n => n != id }

def answerMoveStatus (num rsv : Byte) (s : State) : Answer :=
  match s.moveNumbered? num.toNat with
  | none => .refuse .noSuchMove
  | some m =>
    if rsv ≠ 0 then .refuse .badValue
    else .ok (moveRecord m) fun s => if m.live then s else s.onPath (Path.clear m.id)

/-! ## LINE_DATA (R137, R138) -/

/-- A refusal that carries the room (R137). -/
def refuseLine (r : Result) (room : Nat) : Answer := ⟨.reply, some [r.code, byte1 room], id⟩

/-- The line would be the 8191st of its page and does not end it (R137). -/
def Move.lineTooMany (ends : Bool) (m : Move) : Bool := !ends && decide (8190 ≤ m.srcLines)

def answerLineData (num endPage endMove rsv : Byte) (coded : List Byte) (s : State) : Answer :=
  match s.moveNumbered? num.toNat with
  | none => refuseLine .noSuchMove 0
  | some m =>
    match markOf endPage, markOf endMove with
    | some p, some e =>
      if rsv ≠ 0 ∨ m.isLinkIn = false then refuseLine .badValue m.shownRoom
      else if m.live = false ∨ m.state = .draining then refuseLine .moveEnded m.shownRoom
      else if m.state ≠ .running ∨ m.room = 0 ∨ 0 < m.headerLeft then
        refuseLine .noRoom m.shownRoom
      else if m.lineTooMany (p || e) then refuseLine .pageLong m.shownRoom
      else
        let t := s.acceptLine m coded p e
        .ok [byte1 (((t.move? m.id).map Move.shownRoom).getD 0)] fun s =>
          (s.acceptLine m coded p e).settle
    | _, _ => refuseLine .badValue m.shownRoom

/-! ## READ_LINES (R139) -/

def answerReadLines (num k rsv : Byte) (s : State) : Answer :=
  match s.moveNumbered? num.toNat with
  | none => .refuse .noSuchMove
  | some m =>
    if k.toNat = 0 ∨ k.toNat > 32 ∨ rsv ≠ 0 ∨ m.isLinkOut = false then .refuse .badValue
    else if m.live = false then .refuse .moveEnded
    else
      let placed := if m.flowing then m.placed k.toNat else []
      let finished := m.finishedBy placed.length
      ⟨.linesReply m.id placed.length finished, some (linesPayload m placed finished), fun s =>
        s.onMove m.id (Move.markSending (placed.map fun x => x.1.slot))⟩

/-! ## LOAD_HEADER (R116) -/

/-- The end-of-line bytes of a header code. -/
def lineEnds (code : List Byte) : Nat := (code.filter fun b => b == 255).length

def answerLoadHeader (width rsv : Word16) (code : List Byte) (s : State) : Answer :=
  match widthOf width with
  | none => .refuse .badValue
  | some w =>
    if rsv ≠ 0 ∨ code.getLast? ≠ some 255 ∨ lineEnds code > 32 then .refuse .badValue
    else if s.moves.any fun m => m.live && m.withHeader then .refuse .inUse
    else
      .ok [byte1 (lineEnds code)] fun s =>
        s.onPath fun p => { p with header := some ⟨w, lineEnds code, code⟩ }

end Sys2Proof.Machine
end

