-- ==== Sys2Proof/Machine/StoreAnswers.lean ====
section
/-! DEFINITION. CREATE_DOC, CLOSE_DOC, DELETE_DOC, RELEASE_DOC, LIST_DOCS, DOC_INFO, SET_RESERVE and
CHECK_STORE (chapter 8, 11.7). -/

namespace Sys2Proof.Machine

/-! ## CREATE_DOC (R150) -/

/-- CREATE_DOC: an operand out of range is refused before a full directory. DEDUCED (log 49). That the answer STORE_FULL
comes with no STORE_EVENT (R150, R154) is DESIGN CHOICE (log 75). -/
def answerCreateDoc (cls auto rsv : Byte) (s : State) : Answer :=
  match classOf cls, markOf auto with
  | some c, some a =>
    if rsv ≠ 0 then .refuse .badValue
    else if s.store.directoryFull then .refuse .storeFull
    else .ok (bytes2 s.store.newNumber) (State.onStore (Store.create c a))
  | _, _ => .refuse .badValue

/-! ## CLOSE_DOC (R161) -/

/-- A document that is OPEN closes, with the tests of R158 and R159. -/
def State.closeDoc (d : Document) (s : State) : State :=
  if d.closed then s else (s.onStore (Store.close d.number)).testAutoDelete d.number

def answerCloseDoc (doc : Word16) (rsv : Byte) (s : State) : Answer :=
  if doc.toNat = 0 ∨ rsv ≠ 0 then .refuse .badValue
  else
    match s.store.doc? doc.toNat with
    | none => .refuse .noSuchDoc
    | some d => if s.written d.number then .refuse .inUse else .ok [] (State.closeDoc d)

/-! ## DELETE_DOC (R160) -/

def answerDeleteDoc (doc : Word16) (rsv : Byte) (s : State) : Answer :=
  if doc.toNat = 0 ∨ rsv ≠ 0 then .refuse .badValue
  else
    match s.store.doc? doc.toNat with
    | none => .refuse .noSuchDoc
    | some d =>
      if d.hold then .refuse .held
      else if s.referenced d.number then .refuse .inUse
      else .ok [] (State.onStore (Store.delete d.number))

/-! ## RELEASE_DOC (R158) -/

/-- A set hold clears, with the test of R159. -/
def State.releaseDoc (d : Document) (s : State) : State :=
  if d.hold then (s.onStore (Store.clearHold d.number)).testAutoDelete d.number else s

def answerReleaseDoc (doc : Word16) (rsv : Byte) (s : State) : Answer :=
  if doc.toNat = 0 ∨ rsv ≠ 0 then .refuse .badValue
  else
    match s.store.doc? doc.toNat with
    | none => .refuse .noSuchDoc
    | some d => .ok [] (State.releaseDoc d)

/-! ## LIST_DOCS (R162) -/

/-- An entry of LIST_DOCS, 10 bytes (11.7). -/
def State.listEntry (d : Document) (s : State) : List Byte :=
  bytes2 d.number ++ [d.cls.code, markByte d.closed, markByte d.hold, markByte d.autoDelete,
    markByte (s.referenced d.number), byte1 d.pages.length, byte1 d.pagesPrinted, 0]

def answerListDocs (start rsv : Byte) (s : State) : Answer :=
  if start.toNat > 63 ∨ rsv ≠ 0 then .refuse .badValue
  else
    let shown := (s.store.directory.drop start.toNat).take 16
    .ok ([byte1 s.store.directory.length, byte1 shown.length]
      ++ shown.flatMap fun d => s.listEntry d) id

/-! ## DOC_INFO (R163) -/

/-- A page record of DOC_INFO, 20 bytes (11.7). -/
def pageBytes (p : Page) : List Byte :=
  [byte1 p.index] ++ bytes2 p.width ++ [p.density.code] ++ bytes2 p.lines ++ bytes4 p.bytes
    ++ bytes2 (p.first.getD 0xFFFF) ++ bytes2 p.segments ++ [p.condition.code]
    ++ bytes2 (p.startOffset.getD 0) ++ bytes2 p.damaged ++ [markByte p.printed]

def answerDocInfo (doc : Word16) (start rsv : Byte) (s : State) : Answer :=
  if doc.toNat = 0 ∨ start.toNat > 254 ∨ rsv ≠ 0 then .refuse .badValue
  else
    match s.store.doc? doc.toNat with
    | none => .refuse .noSuchDoc
    | some d =>
      let shown := (d.pages.drop start.toNat).take 64
      .ok (bytes2 d.number ++ [d.cls.code, markByte d.closed, markByte d.hold,
        markByte d.autoDelete, byte1 d.pagesPrinted, byte1 d.pages.length, byte1 shown.length, 0]
        ++ shown.flatMap pageBytes) id

/-! ## SET_RESERVE (R152) -/

def answerSetReserve (code rsv : Byte) (s : State) : Answer :=
  if code.toNat > 4 ∨ rsv ≠ 0 then .refuse .badValue
  else
    .ok (bytes2 (Config.reserveSegments s.total code.toNat)) fun s =>
      { s with cfg := { s.cfg with reserveCode := code.toNat } }

/-! ## CHECK_STORE (R164, R165) -/

/-- A move that has not ended uses the store, or may come to by a fallback. -/
def Move.mayUseStore (m : Move) : Bool :=
  m.live && (m.isStoreSource || m.isStoreSink || (m.isLinkIn && m.isPrint && m.fallback))

def answerCheckStore (rsv : Byte) (s : State) : Answer :=
  if rsv ≠ 0 then .refuse .badValue
  else if s.moves.any Move.mayUseStore then .refuse .inUse
  else .late fun s => (s.onStore Store.startCheck).settle

end Sys2Proof.Machine
end

