-- ==== Sys2Proof/Machine/Receive.lean ====
section
/-! DEFINITION. The receive side of the link port: the frame parser (R3), the receive buffer (R5), the
checks and the answer of a command that has been taken (R7), and a command sent whole (log 1). -/

namespace Sys2Proof.Machine

/-! ## Checking a command (R7) -/

/-- The answer of the owning block. -/
def answerOf (i : Instr) (s : State) : Answer :=
  match i with
  | .setLink _ code rsv => answerSetLink code rsv
  | .getStatus _ clear rsv => answerGetStatus clear rsv s
  | .getIdentity _ rsv => answerGetIdentity rsv s
  | .setPower _ idle auto warm rsv => answerSetPower idle auto warm rsv
  | .domain _ dom action rsv => answerDomain dom action rsv s
  | .sleep _ rsv => answerSleep rsv s
  | .reset _ kind rsv => answerReset kind rsv
  | .setProfile _ ch prof ws wt f d k16 rsv => answerSetProfile ch prof ws wt f d k16 rsv
  | .setLineTiming _ ch dens w f d rsv => answerSetLineTiming ch dens w f d rsv s
  | .setChannel _ ch inv pullIn hold rsv => answerSetChannel ch inv pullIn hold rsv s
  | .moveSteps _ ch prof dir rsv dist => answerMoveSteps ch prof dir rsv dist s
  | .stopChannel _ ch rsv => answerStopChannel ch rsv s
  | .clearFault _ ch rsv => answerClearFault ch rsv s
  | .setFeed _ a b c d e f g h settle rsv preload offset distance =>
    answerSetFeed a b c d e f g h settle rsv preload offset distance
  | .eject _ rsv => answerEject rsv s
  | .setScan _ mode t b inv exposure rsv => answerSetScan mode t b inv exposure rsv s
  | .shade _ rsv => answerShade rsv s
  | .setPrint _ ts tg m margin pulse rsv => answerSetPrint ts tg m margin pulse rsv s
  | .startMove _ source sink depth target reduce header fallback close f8 f9 f10 f12 f13 f14 f16
      f17 =>
    answerStartMove source sink depth target reduce header fallback close f8 f9 f10 f12 f13 f14
      f16 f17 s
  | .abortMove _ num rsv => answerAbortMove num rsv s
  | .moveStatus _ num rsv => answerMoveStatus num rsv s
  | .lineData _ num endPage endMove rsv coded => answerLineData num endPage endMove rsv coded s
  | .readLines _ num k rsv => answerReadLines num k rsv s
  | .loadHeader _ width rsv code => answerLoadHeader width rsv code s
  | .createDoc _ cls auto rsv => answerCreateDoc cls auto rsv s
  | .closeDoc _ doc rsv => answerCloseDoc doc rsv s
  | .deleteDoc _ doc rsv => answerDeleteDoc doc rsv s
  | .releaseDoc _ doc rsv => answerReleaseDoc doc rsv s
  | .listDocs _ start rsv => answerListDocs start rsv s
  | .docInfo _ doc start rsv => answerDocInfo doc start rsv s
  | .setReserve _ code rsv => answerSetReserve code rsv s
  | .checkStore _ rsv => answerCheckStore rsv s
  | _ => .refuse .unknownType

/-- The commands that start-up does not refuse: SET_LINK, GET_STATUS and GET_IDENTITY (R7). -/
def servedInStartup (type : Byte) : Bool := type == 0x10 || type == 0x11 || type == 0x12

/-- The answer to a frame that is taken, by the first check that fails (R7). -/
def State.judge (f : Frame) (s : State) : Answer :=
  if s.link.state = .unset ∧ f.type ≠ 0x10 then .refuse .linkUnset
  else if f.type ∉ commandTypes then .refuse .unknownType
  else
    match f.command? with
    | none => .refuse .badLength
    | some i =>
      if s.startup ≠ .done ∧ servedInStartup f.type = false then .refuse .booting
      else answerOf i s

/-- The reply is queued and the command completes, or the command stays in hand; then the effect. -/
def State.give (f : Frame) (a : Answer) (s : State) : State :=
  match a.reply with
  | none => a.effect s
  | some payload => a.effect (s.onLink (Link.answer a.kind f payload))

/-- A frame is in hand, and its block has been handed it with its place reserved. -/
def Link.handOver (f : Frame) (l : Link) : Link := { l with hand := some ⟨f, .handed⟩ }

/-- The command in hand, if it has been taken, is checked and answered (R7). -/
def State.checkHand (s : State) : State :=
  match s.link.hand with
  | some ⟨f, .taken⟩ =>
    let s := s.onLink (Link.handOver f)
    s.give f (s.judge f)
  | _ => s

/-- The command in hand is checked and answered, and then the one that has moved up behind it: the receive
buffer has two places (R5, R7, R8). -/
def State.serve (s : State) : State := s.checkHand.checkHand

/-- What an event brings about: the consequences that follow at once, and then the answers to the commands
that have been taken in it (log 2, log 7). -/
def State.finish (s : State) : State := s.settle.serve

/-! ## The receive buffer (R5) -/

/-- A complete frame is offered to the receive buffer. The one that becomes the command in hand is taken, with
a place for its reply, and checked and answered at once (R5, R7, log 2). -/
def State.offer (f : Frame) (s : State) : State :=
  match s.link.hand with
  | none => (s.onLink fun l => { l with hand := some ⟨f, .untaken⟩ }.take).checkHand
  | some _ =>
    match s.link.waiting with
    | none => s.onLink fun l => { l with waiting := some f }
    | some _ => s.linkFault .rxOverrun

/-! ## The parser (R3) -/

def State.setParser (p : Parser) (s : State) : State := s.onLink fun l => { l with parser := p }

/-- The parser after the fourth byte of a header (R3). -/
def State.headerRead (type tag lo hi : Byte) (s : State) : State :=
  let len := (word16 lo hi).toNat
  if Config.maxPayload < len then (s.setParser .hunt).linkFault .tooLong
  else if len = 0 then s.setParser (.check ⟨type, tag, []⟩ none)
  else s.setParser (.payload type tag len [])

/-- A character reaches the parser (R3). -/
def State.parse (c : Byte) (s : State) : State :=
  match s.link.parser with
  | .hunt => if c = Config.sync then s.setParser (.header []) else s
  | .header got =>
    match got with
    | [type, tag, lo] => s.headerRead type tag lo c
    | _ => s.setParser (.header (got ++ [c]))
  | .payload type tag len got =>
    if len ≤ got.length + 1 then s.setParser (.check ⟨type, tag, got ++ [c]⟩ none)
    else s.setParser (.payload type tag len (got ++ [c]))
  | .check f none => s.setParser (.check f (some c))
  | .check f (some lo) =>
    if word16 lo c = crc16 f.covered then (s.setParser .hunt).offer f
    else (s.setParser .hunt).linkFault .badCrc

/-- A character begins on RXD: its start bit is a wake cause (R181, R182); in SLEEP and while NRST is
active it is not received, and while the parser waits for the mark time it is passed over (R13). -/
def State.heard (f : State → State) (s : State) : State :=
  if s.held then s
  else if s.power.state = .sleep then s.causeDetected .rxd
  else
    let s := s.causeTaken .rxd
    if s.link.awaitMark then s else f s

/-! ## A command sent whole (log 1) -/

/-- A frame whose characters all arrive: with the parser in HUNT it is offered to the buffer; otherwise its
characters go where the parser stands. -/
def State.arriveFrame (f : Frame) (s : State) : State :=
  if s.link.parser = .hunt ∧ f.payload.length ≤ Config.maxPayload then s.offer f
  else f.bytes.foldl (fun s c => s.parse c) s

/-- The host sends a command. -/
def State.receiveCommand (i : Instr) (s : State) : State :=
  match i.frame? with
  | none => s
  | some f => s.heard (State.arriveFrame f)

end Sys2Proof.Machine
end

