-- ==== Sys2Proof/Machine/CommandRows.lean ====
section
/-! DEFINITION. The meanings of the command rows: the host sends the command (log 1). What the part does
with each is in its answer (LinkAnswers, PowerAnswers, ChannelAnswers, FeedScanPrintAnswers, MoveAnswers,
StoreAnswers). -/

namespace Sys2Proof.Machine

/-- What a meaning answers. -/
abbrev Row := Host.Outcome State Fault Refusal

/-- SET_LINK (R11). -/
def execSetLink (tag code rsv : Byte) (s : State) : Row :=
  .next (s.receiveCommand (.setLink tag code rsv))

/-- GET_STATUS (R15). -/
def execGetStatus (tag clear rsv : Byte) (s : State) : Row :=
  .next (s.receiveCommand (.getStatus tag clear rsv))

/-- GET_IDENTITY (R16). -/
def execGetIdentity (tag rsv : Byte) (s : State) : Row :=
  .next (s.receiveCommand (.getIdentity tag rsv))

/-- SET_POWER (R179). -/
def execSetPower (tag idle auto warm rsv : Byte) (s : State) : Row :=
  .next (s.receiveCommand (.setPower tag idle auto warm rsv))

/-- DOMAIN (R175). -/
def execDomain (tag dom action rsv : Byte) (s : State) : Row :=
  .next (s.receiveCommand (.domain tag dom action rsv))

/-- SLEEP (R180). -/
def execSleep (tag rsv : Byte) (s : State) : Row :=
  .next (s.receiveCommand (.sleep tag rsv))

/-- RESET (R194). -/
def execReset (tag kind rsv : Byte) (s : State) : Row :=
  .next (s.receiveCommand (.reset tag kind rsv))

/-- SET_PROFILE (R23). -/
def execSetProfile (tag ch prof : Byte) (ws wt f d k16 rsv : Word16) (s : State) : Row :=
  .next (s.receiveCommand (.setProfile tag ch prof ws wt f d k16 rsv))

/-- SET_LINE_TIMING (R24). -/
def execSetLineTiming (tag ch dens : Byte) (w f d rsv : Word16) (s : State) : Row :=
  .next (s.receiveCommand (.setLineTiming tag ch dens w f d rsv))

/-- SET_CHANNEL (R25). -/
def execSetChannel (tag ch inv : Byte) (pullIn : Word16) (hold rsv : Byte) (s : State) :
    Row :=
  .next (s.receiveCommand (.setChannel tag ch inv pullIn hold rsv))

/-- MOVE_STEPS (R30). -/
def execMoveSteps (tag ch prof dir rsv : Byte) (dist : Word16) (s : State) : Row :=
  .next (s.receiveCommand (.moveSteps tag ch prof dir rsv dist))

/-- STOP_CHANNEL (R35). -/
def execStopChannel (tag ch rsv : Byte) (s : State) : Row :=
  .next (s.receiveCommand (.stopChannel tag ch rsv))

/-- CLEAR_FAULT (R42). -/
def execClearFault (tag ch rsv : Byte) (s : State) : Row :=
  .next (s.receiveCommand (.clearFault tag ch rsv))

/-- SET_FEED (R62). -/
def execSetFeed (tag pEntry pScan pPaper pCover dEntry dScan dPaper dCover settle rsv : Byte)
    (preload offset eject : Word16) (s : State) : Row :=
  .next (s.receiveCommand (.setFeed tag pEntry pScan pPaper pCover dEntry dScan dPaper dCover
    settle rsv preload offset eject))

/-- EJECT (R61). -/
def execEject (tag rsv : Byte) (s : State) : Row :=
  .next (s.receiveCommand (.eject tag rsv))

/-- SET_SCAN (R75). -/
def execSetScan (tag mode t b inv : Byte) (exposure rsv : Word16) (s : State) : Row :=
  .next (s.receiveCommand (.setScan tag mode t b inv exposure rsv))

/-- SHADE (R76). -/
def execShade (tag rsv : Byte) (s : State) : Row :=
  .next (s.receiveCommand (.shade tag rsv))

/-- SET_PRINT (R95). -/
def execSetPrint (tag : Byte) (ts tg m margin pulse rsv : Word16) (s : State) : Row :=
  .next (s.receiveCommand (.setPrint tag ts tg m margin pulse rsv))

/-- START_MOVE (R121). -/
def execStartMove (tag source sink depth target reduce header fallback close f8 f9 : Byte) (f10 :
    Word16) (f12 f13 : Byte) (f14 : Word16) (f16 f17 : Byte) (s : State) : Row :=
  .next (s.receiveCommand (.startMove tag source sink depth target reduce header fallback close f8
    f9 f10 f12 f13 f14 f16 f17))

/-- ABORT_MOVE (R134). -/
def execAbortMove (tag num rsv : Byte) (s : State) : Row :=
  .next (s.receiveCommand (.abortMove tag num rsv))

/-- MOVE_STATUS (R135). -/
def execMoveStatus (tag num rsv : Byte) (s : State) : Row :=
  .next (s.receiveCommand (.moveStatus tag num rsv))

/-- LINE_DATA (R137). -/
def execLineData (tag num endPage endMove rsv : Byte) (coded : List Byte) (s : State) : Row :=
  .next (s.receiveCommand (.lineData tag num endPage endMove rsv coded))

/-- READ_LINES (R139). -/
def execReadLines (tag num k rsv : Byte) (s : State) : Row :=
  .next (s.receiveCommand (.readLines tag num k rsv))

/-- LOAD_HEADER (R116). -/
def execLoadHeader (tag : Byte) (width rsv : Word16) (code : List Byte) (s : State) : Row :=
  .next (s.receiveCommand (.loadHeader tag width rsv code))

/-- CREATE_DOC (R150). -/
def execCreateDoc (tag cls auto rsv : Byte) (s : State) : Row :=
  .next (s.receiveCommand (.createDoc tag cls auto rsv))

/-- CLOSE_DOC (R161). -/
def execCloseDoc (tag : Byte) (doc : Word16) (rsv : Byte) (s : State) : Row :=
  .next (s.receiveCommand (.closeDoc tag doc rsv))

/-- DELETE_DOC (R160). -/
def execDeleteDoc (tag : Byte) (doc : Word16) (rsv : Byte) (s : State) : Row :=
  .next (s.receiveCommand (.deleteDoc tag doc rsv))

/-- RELEASE_DOC (R158). -/
def execReleaseDoc (tag : Byte) (doc : Word16) (rsv : Byte) (s : State) : Row :=
  .next (s.receiveCommand (.releaseDoc tag doc rsv))

/-- LIST_DOCS (R162). -/
def execListDocs (tag start rsv : Byte) (s : State) : Row :=
  .next (s.receiveCommand (.listDocs tag start rsv))

/-- DOC_INFO (R163). -/
def execDocInfo (tag : Byte) (doc : Word16) (start rsv : Byte) (s : State) : Row :=
  .next (s.receiveCommand (.docInfo tag doc start rsv))

/-- SET_RESERVE (R152). -/
def execSetReserve (tag code rsv : Byte) (s : State) : Row :=
  .next (s.receiveCommand (.setReserve tag code rsv))

/-- CHECK_STORE (R165). -/
def execCheckStore (tag rsv : Byte) (s : State) : Row :=
  .next (s.receiveCommand (.checkStore tag rsv))

end Sys2Proof.Machine
end

