-- ==== Sys2Proof/Machine/ScanPrintEvents.lean ====
section
/-! DEFINITION. The meanings of the events of the scan unit and the recording head (chapters 4 and 5). -/

namespace Sys2Proof.Machine

/-! ## The capture (R70, R71) -/

/-- The exposure time has elapsed. -/
def Capture.exposed : Capture → Capture
  | .exposing ctx => .writing ctx
  | c => c

/-- EXPOSURE_END (R70). -/
def execExposureEnd (s : State) : Row :=
  .next (if s.clocked then s.onScan fun c => { c with capture := c.capture.exposed } else s)

/-- The line of a capture is handed to its move (R71, R104), and FDC counts it (R51, R54). -/
def State.handCapture (m : Move) (ctx : CaptureCtx) (dots : RawLine) (s : State) : State :=
  let s := s.onScan fun c => { c with lineCounter := c.lineCounter + 1 }
  let s := s.onMove m.id (Move.enter s.headWidth ctx.slot (scanDensity m) dots false)
  match s.move? m.id with
  | none => s
  | some m => s.scanLineCounted m

/-- Capture done reaches the page path: the line is dropped when its move has ended or its slot has been
returned (R71). -/
def State.captured (ctx : CaptureCtx) (dots : RawLine) (s : State) : State :=
  match s.move? ctx.move with
  | none => s
  | some m =>
    if m.flowing && m.granted == some ctx.slot then s.handCapture m ctx dots else s

/-- The capture under way is being written, and the pixels are one line (log 18). -/
def State.captureDue? (pixels : List Pixel) (s : State) : Option CaptureCtx :=
  match s.scan.capture with
  | .writing ctx => if s.clocked && pixels.length == s.headWidth then some ctx else none
  | _ => none

/-- CAPTURE_DONE (R65 to R71). -/
def execCaptureDone (pixels : List Pixel) (s : State) : Row :=
  .next (
    match s.captureDue? pixels with
    | none => s
    | some ctx =>
      let dots := captureLine ctx.settings ctx.y ctx.table pixels
      let s := (s.onScan fun c => { c with capture := .idle }).captured ctx dots
      (s.onChannel .df (Channel.captureDone s.cfg.df.holdTime)).settle)

/-! ## Shading (R77, R78) -/

/-- The end of the measurement (R78). -/
def State.shadingMeasured (settings : ScanSettings) (sums : List Nat) (s : State) : State :=
  let whites := whiteValues sums
  let weak := weakCount settings.black whites
  if weak > s.headWidth / 8 then
    (s.onScan fun c => { c with shading := .none }).answerLate
      (Result.shadeWeak.code :: bytes2 weak)
  else
    (s.onScan fun c => { c with shading := .none, table := whites }).answerLate
      (Result.ok.code :: bytes2 weak)

/-- One line of a shading run has been read (R77). -/
def State.shadingLine (settings : ScanSettings) (count : Nat) (sums : List Nat)
    (pixels : List Pixel) (s : State) : State :=
  let sums := addPixels settings.invert sums pixels
  if Config.shadingLines ≤ count + 1 then s.shadingMeasured settings sums
  else s.onScan fun c => { c with shading := .measuring settings (count + 1) sums }

/-- SHADING_LINE_READ (R77, R78). -/
def execShadingLineRead (pixels : List Pixel) (s : State) : Row :=
  .next (
    match s.scan.shading with
    | .measuring settings count sums =>
      if s.clocked && pixels.length == s.headWidth then
        (s.shadingLine settings count sums pixels).finish
      else s
    | _ => s)

/-! ## The head (R83, R84, R87, R93) -/

/-- LOAD_COMPLETE (R83, R84). -/
def execLoadComplete (s : State) : Row :=
  .next (if s.clocked then s.loadComplete.settle else s)

/-- PHASE_TIMER_EXPIRY (R87): the strobe time or the gap of the phase under way ends. -/
def execPhaseTimerExpiry (s : State) : Row :=
  .next (if s.clocked && s.print.inStrobe then s.phaseEnd.settle else s)

/-- CUT is active (R93). -/
def CutState.isPulse : CutState → Bool
  | .pulse _ => true
  | _ => false

/-- CUTTER_PULSE_END (R93). -/
def execCutterPulseEnd (s : State) : Row :=
  .next (if s.clocked && s.print.cut.isPulse then s.cutDone.settle else s)

end Sys2Proof.Machine
end

