-- ==== Sys2Proof/Machine/ChannelEvents.lean ====
section
/-! DEFINITION. The meanings of the channel events (chapter 2). -/

namespace Sys2Proof.Machine

/-! ## STEP (R20, R27, R29, R32, R33, R36 to R39) -/

/-- A ramped move has come to HOLDING: its user acts, or the channel passes on (R22, R29, R32). -/
def State.rampEnded (ch : ChannelId) (s : State) : State :=
  if (s.channel ch).releasing then s.onChannel ch Channel.passOn
  else
    match (s.channel ch).user with
    | none => s.onChannel ch Channel.passOn
    | some .host => s.onChannel ch Channel.passOn
    | some .feed => s.feedRampEnded
    | some (.move _) => s.cutFeedEnded

/-- FDC counts a step of DF, and orders gated running when the offset of a gap is travelled (R20,
R53). -/
def State.countDfStep (ch : ChannelId) (s : State) : State :=
  match ch with
  | .df => (s.onFeed Feed.countStep).gapGate
  | .rf => s

/-- The preload maximum of a gap, on DF (R53). -/
def State.checkGap (ch : ChannelId) (s : State) : State :=
  match ch with
  | .df => s.gapTimeout
  | .rf => s

/-- The step is issued. -/
def State.issueStep (ch : ChannelId) (s : State) : State :=
  match (s.channel ch).run with
  | .none => s
  | .ramp x =>
    let s := s.onChannel ch (Channel.stepRamp (s.channelCfg ch) x)
    if x.ending then s.rampEnded ch else s
  | .line x => (s.onChannel ch (Channel.stepLine (s.channelCfg ch) x)).checkGap ch

/-- STEP (R20, R27): FDC counts the step, the channel issues it, and what ends with it is acted on; no step is
issued while the cover is open (R34). -/
def execChannelStep (ch : ChannelId) (s : State) : Row :=
  .next (
    if s.clocked && !s.coverOpen && (s.channel ch).stepDue then
      ((s.countDfStep ch).issueStep ch).settle
    else s)

/-! ## HOLD_TIMER_EXPIRY (R40) -/

/-- The hold time elapses. -/
def Channel.holdOver (c : Channel) : Channel := { c with state := .idle, holdTimer := none }

/-- HOLD_TIMER_EXPIRY (R40). -/
def execHoldTimerExpiry (ch : ChannelId) (s : State) : Row :=
  .next (
    if s.clocked && (s.channel ch).holdTimer.isSome then (s.onChannel ch Channel.holdOver).settle
    else s)

/-! ## DRIVER_FAULT (R41, R60, R90, R94, R133) -/

/-- The moves that were user or requester of a channel fail (R133). -/
def State.failChannelMoves (c : Channel) (s : State) : State :=
  s.failWhere
    (fun m => c.user == some (.move m.id) || c.queue.contains (.move m.id)) .motorFault

/-- The blocks behind a channel act on its fault: FDC on DF (R60), PRU on RF (R90, R91, R94). -/
def State.faultBehind (ch : ChannelId) (old : Channel) (s : State) : State :=
  match ch with
  | .df => if s.feedHeld then s else s.feedMotorFault (old.queue.contains .feed)
  | .rf => s.onPrint fun p => { p.drop with cut := .none }

/-- A SCAN move in STARTING fails when the fault has jammed its document (R125). -/
def State.failStartingScan (before : DocState) (s : State) : State :=
  if s.feed.doc = before then s else s.failWhere Move.scanStarting .docJam

/-- FLT of a channel has become active (R41): MOTOR_FAULT is raised before the DOC_EVENT of a document that
jams with it. DESIGN CHOICE (log 46). -/
def State.enterDriverFault (ch : ChannelId) (s : State) : State :=
  let old := s.channel ch
  let before := s.feed.doc
  let s := s.onChannel ch Channel.enterFault
  let s := s.onLink fun l => { l with sticky := l.sticky.channelFault ch }
  let s := s.reportMotorFault ch
  ((s.faultBehind ch old).failChannelMoves old).failStartingScan before

/-- A channel not yet in FAULT enters it when its FLT is active (R41). -/
def State.lookAtFlt (ch : ChannelId) (s : State) : State :=
  if s.flt ch && (s.channel ch).state != .fault then s.enterDriverFault ch else s

/-- The level of an FLT input. -/
def Inputs.setFlt (ch : ChannelId) (active : Bool) (i : Inputs) : Inputs :=
  match ch with
  | .df => { i with fltd := active }
  | .rf => { i with fltr := active }

/-- DRIVER_FAULT (R41): the input takes its level, which is watched while the clocks run (log 15). -/
def execDriverFault (ch : ChannelId) (active : Bool) (s : State) : Row :=
  let s := { s with inputs := s.inputs.setFlt ch active }
  .next (if s.clocked then (s.lookAtFlt ch).settle else s)

end Sys2Proof.Machine
end

