-- ==== Sys2Proof/Machine/FeedEvents.lean ====
section
/-! DEFINITION. The meanings of the sensor and feed events (chapter 3). -/

namespace Sys2Proof.Machine

/-! ## SENSOR_INPUT_CHANGE (R44, R45, R181, R182) -/

/-- The input of a sensor takes a level. -/
def State.setInput (sensor : SensorId) (level : Bool) (s : State) : State :=
  { s with inputs := s.inputs.setSensor sensor level }

/-- A changed input is a wake cause, but for SNS (R64). -/
def State.inputCause (f : WakeCause → State → State) (sensor : SensorId) (s : State) : State :=
  match SensorId.wakeCause? sensor with
  | none => s
  | some c => f c s

/-- SENSOR_INPUT_CHANGE: no reading is formed in SLEEP, where the change is a wake cause (R64); at any
other time it cancels a sleep entry and changes the reading (R44, R181). -/
def execSensorInputChange (sensor : SensorId) (level : Bool) (s : State) : Row :=
  .next (
    if s.inputs.sensor sensor = level then s
    else
      let s := s.setInput sensor level
      if s.held then s
      else if s.power.state = .sleep then s.inputCause State.causeDetected sensor
      else (s.inputCause State.causeTaken sensor).formReading sensor)

/-! ## DEBOUNCE_EXPIRY (R45) -/

/-- The debounced state takes the reading. -/
def Sensor.takeReading (x : Sensor) : Sensor :=
  { x with debounced := x.reading, timer := none, known := true }

/-- DEBOUNCE_EXPIRY (R45): the change is taken and acted on. -/
def execDebounceExpiry (sensor : SensorId) (s : State) : Row :=
  .next (
    if s.clocked && (s.feed.sensor sensor).timer.isSome then
      ((s.onFeed (Feed.onSensor sensor Sensor.takeReading)).sensorTaken sensor).finish
    else s)

/-! ## SETTLE_TIMER_EXPIRY (R47) -/

/-- The settle timer is running. -/
def SettleTimer.isRunning : SettleTimer → Bool
  | .running _ => true
  | _ => false

/-- SETTLE_TIMER_EXPIRY (R47): the load is due. -/
def execSettleTimerExpiry (s : State) : Row :=
  .next (
    if s.clocked && s.feed.settle.isRunning then
      (s.onFeed fun f => { f with settle := .expired }).settle
    else s)

/-! ## FIRST_READINGS_STEADY (R63) -/

/-- The document state is set from the sensors at power-on, unless a RESET sets it or has set it (R63,
R194, log 13). -/
def State.firstDocument (s : State) : State :=
  if s.feedHeld ∨ s.feed.doc ≠ .none then s
  else if s.scanPresent then s.setDoc .jammed .powerOn 0
  else if s.entryPresent then (s.setDoc .settling .powerOn 0).startSettle
  else s

/-- What follows from the first debounced state of a sensor: the document state is set once both document
sensors are known (R63), and a cover found OPEN stops the mechanism as one taken OPEN does, with no PAPER_EVENT
(R34, R58). DEDUCED (log 13, log 45). A first DOC_SCAN PRESENT leaves a shading run under way (R79). DESIGN CHOICE
(log 54). -/
def State.firstTaken (sensor : SensorId) (before : Feed) (s : State) : State :=
  match sensor with
  | .cover => if s.coverOpen then s.coverOpens id else s
  | _ => if s.feed.documentKnown && !before.documentKnown then s.firstDocument else s

/-- FIRST_READINGS_STEADY (R63): the first debounced state of a sensor, with no change raised. -/
def execFirstReadingsSteady (sensor : SensorId) (s : State) : Row :=
  .next (
    if s.clocked && !(s.feed.sensor sensor).known then
      ((s.onFeed (Feed.onSensor sensor Sensor.takeReading)).firstTaken sensor s.feed).finish
    else s)

end Sys2Proof.Machine
end

