-- ==== Sys2Proof/Machine/LinkEvents.lean ====
section
/-! DEFINITION. The meanings of the link events (chapter 1). -/

namespace Sys2Proof.Machine

/-! ## Characters (R2 to R4) -/

/-- RX_CHARACTER (R2, R3). -/
def execRxCharacter (c : Byte) (s : State) : Row := .next (s.heard (State.parse c))

/-- The partial frame is discarded with a reason (R6). -/
def State.discardPartial (r : LinkFaultReason) (s : State) : State :=
  (s.setParser .hunt).linkFault r

/-- FRAMING_ERROR (R2, R6). -/
def execFramingError (s : State) : Row := .next (s.heard (State.discardPartial .framing))

/-- CHARACTER_GAP_EXPIRY (R4): the limit runs outside HUNT. -/
def execCharacterGapExpiry (s : State) : Row :=
  .next (if s.clocked && s.link.parser != .hunt then s.discardPartial .timeout else s)

/-! ## Break (R12) -/

/-- The command in hand at a break: a SET_LINK completes, taken or not; any other stays (R12, log 14). -/
def Link.handAtBreak (l : Link) : Option Hand :=
  match l.hand with
  | some h => if h.frame.type = 0x10 then none else some h
  | none => none

/-- The link at a break (R12). -/
def Link.broken (l : Link) : Link :=
  { l with
    state := .unset
    rate := .b125000
    rateChange := none
    parser := .hunt
    hand := l.handAtBreak
    waiting := none
    outbound := []
    awaitMark := false }.take

/-- A break takes its effects: the lines of READ_LINES replies stand again at the head of their queues
(R12, R111). -/
def State.takeBreak (s : State) : State :=
  (s.onLink Link.broken).onPath fun p =>
    { p with table := p.table.map fun e => e.map Move.clearSending }

/-- BREAK (R12, R181, R182). In a sleep entry the cause cancels it first, and the break then removes the report
of that with the others. DESIGN CHOICE (log 52). -/
def execBreakDetected (s : State) : Row :=
  .next (
    if s.held then s
    else if s.power.state = .sleep then s.causeDetected .breakSeen
    else ((s.causeTaken .breakSeen).takeBreak).finish)

/-! ## Taking and sending (R7, R10, R11, R140) -/

/-- TAKE_COMMAND (R7): a frame in hand that has a place is taken, checked and answered. Every event after which a
frame can be taken does so itself (log 2). -/
def execTakeCommand (s : State) : Row :=
  .next (if s.clocked then (s.onLink Link.take).serve else s)

/-- The frame that carries a record (R10). -/
def OutRecord.frame (r : OutRecord) : Frame := ⟨r.type, r.tag, r.payload⟩

/-- The record that the transmitter takes: the eligible one (R10, log 23). -/
def Link.sending? (l : Link) : Option OutRecord := l.outbound.find? l.eligible

/-- The record being sent; none while NRST is active or the clocks stand (R10, R185). -/
def State.sending? (s : State) : Option OutRecord := if s.clocked then s.link.sending? else none

/-- The record being sent leaves the queue (R9), and a frame in hand that had no place is taken (R7). -/
def Link.dropSent (l : Link) : Link := { l with outbound := l.outbound.eraseP l.eligible }.take

/-- The end of the SET_LINK reply (R11). -/
def Link.applyRate (l : Link) : Link :=
  { l with rate := l.rateChange.getD l.rate, rateChange := none, state := .ready }.complete

/-- The end of the SET_LINK reply: a partial frame is discarded when the rate changes (R4, R11), after the next frame
has its place (DESIGN CHOICE, log 43), and goes on when the rate ordered is the current one (DEDUCED, log 33). -/
def State.linkReplySent (s : State) : State :=
  let t := s.onLink Link.applyRate
  if s.link.parser = .hunt ∨ t.link.rate = s.link.rate then t else t.discardPartial .timeout

/-- What the end of a record brings about. -/
def State.recordGone (k : RecordKind) (s : State) : State :=
  match k with
  | .report => s
  | .reply => s
  | .linkReply => s.linkReplySent
  | .linesReply move count finished => s.linesSent move count finished

/-- RECORD_SENT (R7, R9, R10, R11, R140). A frame in hand has its place before the reports that the end of the
record raises. DESIGN CHOICE (log 43). -/
def execRecordSent (s : State) : Row :=
  .next (
    match s.sending? with
    | none => s
    | some r => ((s.onLink Link.dropSent).recordGone r.kind).finish)

/-- WAKE_DISCARD (R6, R13). -/
def execWakeDiscard (s : State) : Row :=
  .next (
    if s.clocked && s.link.awaitMark then
      (s.onLink fun l => { l with awaitMark := false }).linkFault .wakeDiscard
    else s)

end Sys2Proof.Machine
end

