-- ==== Sys2Proof/Machine/PowerEvents.lean ====
section
/-! DEFINITION. The meanings of the events of power control (chapter 9). -/

namespace Sys2Proof.Machine

/-! ## Domain starts and faults (R170 to R173) -/

/-- A domain enters FAULT (R173); its report, before the ends of moves that the fault causes, carries the
states as they stand after the event (R176). -/
def State.domainFault (d : DomainId) (s : State) : State :=
  s.faultDomain d (s.faultDomain d s.power).settle.power

/-- The reading shows the lamp lit (R170). -/
def State.lampLit (reading : Pixel) (s : State) : Bool :=
  decide (s.cfg.scan.black < invertPixel s.cfg.scan.invert reading)

/-- LAMP_WARM_UP_EXPIRY (R170, R173). -/
def execLampWarmUpExpiry (reading : Pixel) (s : State) : Row :=
  .next (
    if s.clocked && s.power.scan == .starting then
      (if s.lampLit reading then s.onPower fun p => { p with scan := .on }
        else s.domainFault .scan).finish
    else s)

/-- HPG acts on the PRINT domain (R171). -/
def State.hpgSeen (active : Bool) (s : State) : State :=
  if active then
    if s.power.print = .starting then s.onPower fun p => { p with print := .on } else s
  else if s.power.print = .on then s.domainFault .print
  else s

/-- HPG_CHANGE (R171, R173). -/
def execHpgChange (active : Bool) (s : State) : Row :=
  let s := { s with inputs := { s.inputs with hpg := active } }
  .next (if s.clocked then (s.hpgSeen active).settle else s)

/-- PRINT_START_TIMEOUT (R171, R173). -/
def execPrintStartTimeout (s : State) : Row :=
  .next (
    if s.clocked && s.power.print == .starting then (s.domainFault .print).settle else s)

/-- MOTOR_START_DONE (R172). -/
def execMotorStartDone (s : State) : Row :=
  .next (
    if s.clocked && s.power.motor == .starting then
      (s.onPower fun p => { p with motor := .on }).settle
    else s)

/-! ## The idle timer (R178) -/

/-- The idle timer is running. -/
def IdleTimer.isRunning : IdleTimer → Bool
  | .running _ => true
  | _ => false

/-- A sleep entry begins at the expiry (R178). -/
def State.autoSleeps (s : State) : Bool :=
  s.cfg.power.autoSleep && !s.anyFault && s.link.hand.isNone && s.link.quiet

/-- IDLE_TIMER_EXPIRY (R178). -/
def execIdleTimerExpiry (s : State) : Row :=
  .next (
    if s.clocked && s.power.idleTimer.isRunning then
      let s := s.onPower fun p => { p with idleTimer := .expired }
      (if s.autoSleeps then s.beginSleep else s.allDomainsOff).settle
    else s)

/-! ## SLEEP and wake (R180 to R183) -/

/-- No debounce runs in SLEEP (R64). -/
def Feed.stopDebounce (f : Feed) : Feed :=
  { f with
    docEntry := { f.docEntry with timer := none }
    docScan := { f.docScan with timer := none }
    paper := { f.paper with timer := none }
    cover := { f.cover with timer := none } }

/-- The clocks stop: the header writes due are made first, no debounce runs (R64), and a wait of the
parser for a mark time ends with it in HUNT (R13), its WAKE_DISCARD not raised: DESIGN CHOICE (log 64). -/
def State.stopClocks (s : State) : State :=
  (((s.onStore Store.flush).onFeed Feed.stopDebounce).onLink fun l =>
    { l with awaitMark := false }).onPower fun p =>
      { p with
        state := .sleep
        entry := .none
        waking := false
        idleTimer := .stopped
        causes := WakeCauses.empty }

/-- SLEEP_CLOCKS_STOP (R13, R180). A record queued since the drain ended stays in the queue through SLEEP: DESIGN
CHOICE (log 65). -/
def execSleepClocksStop (s : State) : Row :=
  .next (if s.clocked && s.power.entry == .stopping then s.stopClocks else s)

/-- WAKE_INPUT (R181, R182). -/
def execWakeInput (s : State) : Row :=
  .next (
    if s.held then s
    else if s.power.state = .sleep then s.causeDetected .wake
    else s.causeTaken .wake)

/-- The sensor input whose change is a wake cause. -/
def sensorBehind? : WakeCause → Option SensorId
  | .docEntry => some .docEntry
  | .paper => some .paper
  | .cover => some .cover
  | .breakSeen => none
  | .rxd => none
  | .wake => none

/-- The input of a sensor changes its level. -/
def State.toggleInput (sensor : SensorId) (s : State) : State :=
  s.setInput sensor (!(s.inputs.sensor sensor))

/-- The input behind a wake cause, if it is a sensor's, changes its level. -/
def State.changeInput (c : WakeCause) (s : State) : State :=
  match sensorBehind? c with
  | none => s
  | some x => s.toggleInput x

/-- WAKE_CAUSE (R182, R183): a cause detected in SLEEP. -/
def execWakeCause (cause : WakeCause) (s : State) : Row :=
  .next (
    if !s.held && s.power.state == .sleep then (s.changeInput cause).causeDetected cause else s)

/-- Steps 1 to 4 of a completed wake (R183). -/
def State.wakeLink (s : State) : State :=
  let causes := s.power.causes
  let s := s.onPower fun p => { p with state := .standby, waking := false }
  let s := if causes.breakSeen then s.takeBreak else s
  let s := (s.reportPower (.wake causes)).onPower fun p => { p with causes := WakeCauses.empty }
  s.onLink fun l => { l with awaitMark := causes.rxd && !causes.breakSeen }

/-- WAKE_COMPLETE (R183): the link, the sensors, the driver faults, DF's before RF's (DESIGN CHOICE, log 59), the idle
timer. -/
def execWakeComplete (s : State) : Row :=
  .next (
    if !s.held && s.power.state == .sleep && s.power.waking then
      ((((s.wakeLink).restartDebounce.lookAtFlt .df).lookAtFlt .rf).restartIdle).finish
    else s)

end Sys2Proof.Machine
end

