-- ==== Sys2Proof/Machine/StoreEvents.lean ====
section
/-! DEFINITION. The meanings of the page memory's events (chapter 8). -/

namespace Sys2Proof.Machine

/-! ## Transfers (R153, R155) -/

/-- The move whose transfer is in progress. -/
def State.transferring? (s : State) : Option Move := s.store.transfer.bind s.move?

/-- STORE_LINE_WRITTEN (R153). -/
def execStoreLineWritten (s : State) : Row :=
  .next (
    match s.transferring? with
    | none => s
    | some m =>
      match m.queue with
      | [] => s
      | l :: _ => if s.clocked && m.writeDue then (s.writeLine m l).settle else s)

/-- STORE_SEGMENT_READ (R155, R156): the upsets are bytes that the memory no longer holds as written. -/
def execStoreSegmentRead (upsets : List (Nat × Byte)) (s : State) : Row :=
  .next (
    match s.transferring? with
    | none => s
    | some m =>
      match m.reader with
      | none => s
      | some r => if s.clocked && m.readDue then (s.readSegment m r upsets).settle else s)

/-! ## The memory check (R164 to R166, R192, R193) -/

/-- The check has made a READY store DEGRADED (R166). -/
def State.degradedSince (before : Byte) (s : State) : State :=
  if before = 1 ∧ s.storeStateCode = 2 then s.reportStore .degraded 0 0 else s

/-- SEGMENT_TESTED (R164, R166). R147 names header bursts beside PFI and R164 does not name PFI; that a memory check
under way goes on while PFI is active is DESIGN CHOICE (log 73). -/
def execSegmentTested (passed : Bool) (s : State) : Row :=
  .next (
    match s.store.check with
    | none => s
    | some c =>
      match s.store.nextFree s.total c.next with
      | none => s
      | some n =>
        if s.clocked then
          (s.onStore (Store.testSegment n passed c)).degradedSince s.storeStateCode
        else s)

/-- Start-up is over: the store serves, and BOOT_DONE is raised (R193). -/
def State.startUpDone (s : State) : State := { s with startup := .done }.reportBootDone

/-- The memory check ends: start-up enters DONE, or the CHECK_STORE reply is queued (R165, R192). -/
def State.checkEnded (c : CheckRun) (s : State) : State :=
  let s := s.onStore fun st => { st with check := none }
  if s.startup = .check then s.startUpDone
  else s.answerLate (Result.ok.code :: (bytes2 c.tested ++ bytes2 c.retired))

/-- MEMORY_CHECK_DONE (R164, R165, R193): no FREE segment is left to test. -/
def execMemoryCheckDone (s : State) : Row :=
  .next (
    match s.store.check with
    | none => s
    | some c =>
      if s.clocked && (s.store.nextFree s.total c.next).isNone then (s.checkEnded c).finish
      else s)

end Sys2Proof.Machine
end

