-- ==== Sys2Proof/Machine/StartupEvents.lean ====
section
/-! DEFINITION. The meanings of the events of start-up, reset and recovery (chapter 10). -/

namespace Sys2Proof.Machine

/-! ## NRST and PFI (R147, R185, R187, R191) -/

/-- The write in progress: the line and the open page it goes into. -/
def State.writing? (s : State) : Option (SlotLine × OpenPage) :=
  s.transferring?.bind fun m => m.queue.head?.bind fun l => (s.sinkPage? m).map fun o => (l, o)

/-- The header writes that come before anything else: those of the turn in progress, or all that are left between
turns (R155). -/
def Store.writesBegun (st : Store) : List (Nat × SegHeader) :=
  if st.transfer.isSome then st.making else st.writesLeft

/-- The page memory when the work on it stops after a number of header writes: first those that come before
anything else, then those of the line being written; a read writes none (R147, log 9). -/
def State.memoryCut (bursts : Nat) (s : State) : PageMemory :=
  let first := s.store.writesBegun
  let begun := s.store.madeWrites (first.take bursts)
  match s.writing? with
  | some (l, o) =>
    (((s.store.makeWrites.lineStages l o).take (bursts - first.length)).getLast?.map
      Store.memory).getD begun
  | none => begun

/-- The work on the page memory stops after a number of header writes. -/
def State.stopMemory (bursts : Nat) (s : State) : State :=
  s.onStore fun st =>
    { st with memory := s.memoryCut bursts, making := [], rewrites := [], transfer := none }

/-- The FREE marks written before the work was cut off: those of a format, or those at the end of a
recovery scan (R187, R191). A segment that a memory check is testing is left FREE, as it was before its test. DESIGN
CHOICE (log 61). -/
def State.marksDone (marked : Nat) (s : State) : PageMemory :=
  match s.startup with
  | .format => s.store.memory.freeAll (List.range (min marked s.total))
  | .scan => s.store.memory.freeAll ((s.store.memory.scanFrees s.total).take marked)
  | _ =>
    if s.resetPhase = .rebuilding then
      s.store.memory.freeAll ((s.store.memory.scanFrees s.total).take marked)
    else s.store.memory

/-- NRST_ASSERTED (R185): the header writes begun are completed, unless PFI has stopped the work on the page
memory before, and the part stands still. -/
def execNrstAsserted (marked bursts : Nat) (s : State) : Row :=
  .next (
    if s.held then s
    else
      let s := if s.inputs.pfi then s else s.stopMemory bursts
      let s := s.onStore fun st => { st with memory := s.marksDone marked }
      { s with held := true, startup := .straps })

/-- PFI_ASSERTED (R147): as PFI becomes active, the header writes begun are completed. -/
def execPfiAsserted (bursts : Nat) (s : State) : Row :=
  .next (
    if s.inputs.pfi then s
    else
      let s := { s with inputs := { s.inputs with pfi := true } }
      if s.clocked then s.stopMemory bursts else s)

/-- POWER_ON_RESET (R185, R186): the straps are sampled and every block takes its power-on state over
what the page memory holds; a channel whose FLT is active enters FAULT (R41), DF before RF. DESIGN CHOICE (log 59). -/
def execPowerOnReset (straps : Straps) (s : State) : Row :=
  .next (
    if s.held then
      let t := State.powerOn s.pending straps { s.inputs with pfi := false } s.store.memory
      ((t.lookAtFlt .df).lookAtFlt .rf).settle
    else s)

/-! ## Format and recovery (R187 to R193, R196) -/

/-- FORMAT_DONE (R187, R192). -/
def execFormatDone (s : State) : Row :=
  .next (
    if s.clocked && s.startup == .format then
      ({ s.onStore (fun st => (st.format s.total).startCheck) with startup := .check }).settle
    else s)

/-- The scan of start-up has ended (R192). -/
def State.scanEnded (s : State) : State :=
  let s := s.onStore (Store.recover s.total)
  if s.straps.mt then { s.onStore Store.startCheck with startup := .check } else s.startUpDone

/-- The scan of a RESET FULL has ended (R196): the reply, and then BOOT_DONE. That a frame which the reply lets be
taken has its place before BOOT_DONE, which may be dropped for it, is DESIGN CHOICE (log 68). -/
def State.rebuilt (s : State) : State :=
  let s := { s.onStore (Store.recover s.total) with resetPhase := .none }
  (s.answerLate [Result.ok.code, 1]).reportBootDone

/-- RECOVERY_SCAN_DONE (R188 to R193, R196). -/
def execRecoveryScanDone (s : State) : Row :=
  .next (
    if s.clocked && s.startup == .scan then s.scanEnded.settle
    else if s.clocked && s.resetPhase == .rebuilding then s.rebuilt.finish
    else s)

/-! ## The end of the stopping phase of a RESET (R63, R195, R196) -/

/-- The document state that a RESET sets (R63). -/
def State.docAfterReset (s : State) : DocState :=
  if s.scanPresent then if s.feed.doc = .loaded then .loaded else .jammed
  else if s.entryPresent then .settling
  else .none

/-- The document state is set, reported when it differs, and a sheet that settles starts its timer. -/
def State.setDocAfterReset (s : State) : State :=
  let d := s.docAfterReset
  let t := if d = s.feed.doc then s else s.setDoc d .reset 0
  if d = .settling then t.startSettle else t

/-- RESET FULL returns the feed settings and takes every debounced state at once from its reading
(R63, R196). -/
def State.fullFeedReset (s : State) : State :=
  let s := { s with cfg := { s.cfg with feed := FeedSettings.powerOn } }
  s.onFeed fun f =>
    { f with
      docEntry := ⟨s.inputs.sne, s.inputs.sne, none, true⟩
      docScan := ⟨s.inputs.sns, s.inputs.sns, none, true⟩
      paper := ⟨s.inputs.snp, s.inputs.snp, none, true⟩
      cover := ⟨s.inputs.snc, s.inputs.snc, none, true⟩ }

/-- PAPER_EVENT when RESET FULL has changed the paper or the cover state (R63). -/
def State.paperChanged (before : Feed) (s : State) : State :=
  if s.feed.paper.debounced = before.paper.debounced
      ∧ s.feed.cover.debounced = before.cover.debounced then s
  else s.reportPaper

/-- RESET FULL returns every other setting, and the store becomes RECOVERING (R196). -/
def State.fullReset (s : State) : State :=
  { (s.onScan fun c => { c with table := List.replicate s.headWidth 63 }).onPath fun p =>
      { p with header := none } with
    cfg := Settings.powerOn s.straps
    resetPhase := .rebuilding }

/-- Both channels have stopped after a RESET (R195, R196): under FULL the PAPER_EVENT of the states taken stands before
the DOC_EVENT of the state set (R63). DEDUCED (log 70). -/
def State.resetStopped (full : Bool) (s : State) : State :=
  if full then ((s.fullFeedReset.paperChanged s.feed).setDocAfterReset).fullReset
  else
    { s.setDocAfterReset with resetPhase := .none }.answerLate [Result.ok.code, 0]

/-- RESET_STOPPED (R195, R196). -/
def execResetStopped (s : State) : Row :=
  .next (
    match s.resetPhase with
    | .stopping full =>
      if s.clocked && s.df.stopped && s.rf.stopped then (s.resetStopped full).finish else s
    | _ => s)

end Sys2Proof.Machine
end

