-- ==== Sys2Proof/Machine/Dispatch.lean ====
section
/-! DEFINITION. One arm for each row of the table: the row's meaning. -/

namespace Sys2Proof.Machine

def exec (i : Instr) (s : State) : Host.Outcome State Fault Refusal :=
  match i with
  | .setLink tag code rsv => Sys2Proof.Machine.execSetLink tag code rsv s
  | .getStatus tag clear rsv => Sys2Proof.Machine.execGetStatus tag clear rsv s
  | .getIdentity tag rsv => Sys2Proof.Machine.execGetIdentity tag rsv s
  | .setPower tag idle auto warm rsv => Sys2Proof.Machine.execSetPower tag idle auto warm rsv s
  | .domain tag dom action rsv => Sys2Proof.Machine.execDomain tag dom action rsv s
  | .sleep tag rsv => Sys2Proof.Machine.execSleep tag rsv s
  | .reset tag kind rsv => Sys2Proof.Machine.execReset tag kind rsv s
  | .setProfile tag ch prof ws wt f d k16 rsv => Sys2Proof.Machine.execSetProfile tag ch prof ws wt f d k16 rsv s
  | .setLineTiming tag ch dens w f d rsv => Sys2Proof.Machine.execSetLineTiming tag ch dens w f d rsv s
  | .setChannel tag ch inv pullIn hold rsv => Sys2Proof.Machine.execSetChannel tag ch inv pullIn hold rsv s
  | .moveSteps tag ch prof dir rsv dist => Sys2Proof.Machine.execMoveSteps tag ch prof dir rsv dist s
  | .stopChannel tag ch rsv => Sys2Proof.Machine.execStopChannel tag ch rsv s
  | .clearFault tag ch rsv => Sys2Proof.Machine.execClearFault tag ch rsv s
  | .setFeed tag pEntry pScan pPaper pCover dEntry dScan dPaper dCover settle rsv preload offset eject => Sys2Proof.Machine.execSetFeed tag pEntry pScan pPaper pCover dEntry dScan dPaper dCover settle rsv preload offset eject s
  | .eject tag rsv => Sys2Proof.Machine.execEject tag rsv s
  | .setScan tag mode t b inv exposure rsv => Sys2Proof.Machine.execSetScan tag mode t b inv exposure rsv s
  | .shade tag rsv => Sys2Proof.Machine.execShade tag rsv s
  | .setPrint tag ts tg m margin pulse rsv => Sys2Proof.Machine.execSetPrint tag ts tg m margin pulse rsv s
  | .startMove tag source sink depth target reduce header fallback close f8 f9 f10 f12 f13 f14 f16 f17 => Sys2Proof.Machine.execStartMove tag source sink depth target reduce header fallback close f8 f9 f10 f12 f13 f14 f16 f17 s
  | .abortMove tag num rsv => Sys2Proof.Machine.execAbortMove tag num rsv s
  | .moveStatus tag num rsv => Sys2Proof.Machine.execMoveStatus tag num rsv s
  | .lineData tag num endPage endMove rsv coded => Sys2Proof.Machine.execLineData tag num endPage endMove rsv coded s
  | .readLines tag num k rsv => Sys2Proof.Machine.execReadLines tag num k rsv s
  | .loadHeader tag width rsv code => Sys2Proof.Machine.execLoadHeader tag width rsv code s
  | .createDoc tag cls auto rsv => Sys2Proof.Machine.execCreateDoc tag cls auto rsv s
  | .closeDoc tag doc rsv => Sys2Proof.Machine.execCloseDoc tag doc rsv s
  | .deleteDoc tag doc rsv => Sys2Proof.Machine.execDeleteDoc tag doc rsv s
  | .releaseDoc tag doc rsv => Sys2Proof.Machine.execReleaseDoc tag doc rsv s
  | .listDocs tag start rsv => Sys2Proof.Machine.execListDocs tag start rsv s
  | .docInfo tag doc start rsv => Sys2Proof.Machine.execDocInfo tag doc start rsv s
  | .setReserve tag code rsv => Sys2Proof.Machine.execSetReserve tag code rsv s
  | .checkStore tag rsv => Sys2Proof.Machine.execCheckStore tag rsv s
  | .rxCharacter c => Sys2Proof.Machine.execRxCharacter c s
  | .framingError => Sys2Proof.Machine.execFramingError s
  | .breakDetected => Sys2Proof.Machine.execBreakDetected s
  | .characterGapExpiry => Sys2Proof.Machine.execCharacterGapExpiry s
  | .takeCommand => Sys2Proof.Machine.execTakeCommand s
  | .recordSent => Sys2Proof.Machine.execRecordSent s
  | .wakeDiscard => Sys2Proof.Machine.execWakeDiscard s
  | .channelStep ch => Sys2Proof.Machine.execChannelStep ch s
  | .holdTimerExpiry ch => Sys2Proof.Machine.execHoldTimerExpiry ch s
  | .driverFault ch active => Sys2Proof.Machine.execDriverFault ch active s
  | .sensorInputChange sensor level => Sys2Proof.Machine.execSensorInputChange sensor level s
  | .debounceExpiry sensor => Sys2Proof.Machine.execDebounceExpiry sensor s
  | .settleTimerExpiry => Sys2Proof.Machine.execSettleTimerExpiry s
  | .exposureEnd => Sys2Proof.Machine.execExposureEnd s
  | .captureDone pixels => Sys2Proof.Machine.execCaptureDone pixels s
  | .shadingLineRead pixels => Sys2Proof.Machine.execShadingLineRead pixels s
  | .loadComplete => Sys2Proof.Machine.execLoadComplete s
  | .phaseTimerExpiry => Sys2Proof.Machine.execPhaseTimerExpiry s
  | .cutterPulseEnd => Sys2Proof.Machine.execCutterPulseEnd s
  | .storeLineWritten => Sys2Proof.Machine.execStoreLineWritten s
  | .storeSegmentRead upsets => Sys2Proof.Machine.execStoreSegmentRead upsets s
  | .memoryCheckDone => Sys2Proof.Machine.execMemoryCheckDone s
  | .lampWarmUpExpiry reading => Sys2Proof.Machine.execLampWarmUpExpiry reading s
  | .hpgChange active => Sys2Proof.Machine.execHpgChange active s
  | .printStartTimeout => Sys2Proof.Machine.execPrintStartTimeout s
  | .motorStartDone => Sys2Proof.Machine.execMotorStartDone s
  | .idleTimerExpiry => Sys2Proof.Machine.execIdleTimerExpiry s
  | .sleepClocksStop => Sys2Proof.Machine.execSleepClocksStop s
  | .wakeInput => Sys2Proof.Machine.execWakeInput s
  | .wakeCause cause => Sys2Proof.Machine.execWakeCause cause s
  | .wakeComplete => Sys2Proof.Machine.execWakeComplete s
  | .nrstAsserted marked bursts => Sys2Proof.Machine.execNrstAsserted marked bursts s
  | .powerOnReset straps => Sys2Proof.Machine.execPowerOnReset straps s
  | .formatDone => Sys2Proof.Machine.execFormatDone s
  | .recoveryScanDone => Sys2Proof.Machine.execRecoveryScanDone s
  | .resetStopped => Sys2Proof.Machine.execResetStopped s
  | .pfiAsserted bursts => Sys2Proof.Machine.execPfiAsserted bursts s
  | .firstReadingsSteady sensor => Sys2Proof.Machine.execFirstReadingsSteady sensor s
  | .segmentTested passed => Sys2Proof.Machine.execSegmentTested passed s

end Sys2Proof.Machine
end

