-- ==== Sys2Proof/Machine/Outputs.lean ====
section
/-! DEFINITION. The output pins as the state gives them (R18, R19, R87, R93, R168, R170, R174, R185). -/

namespace Sys2Proof.Machine

/-- The four phase outputs of a channel. -/
structure PhaseOutputs where
  a : Bool
  b : Bool
  c : Bool
  d : Bool
  deriving DecidableEq, Repr

/-- All four off. -/
def PhaseOutputs.off : PhaseOutputs := ⟨false, false, false, false⟩

/-- The pattern of a phase index (R19). -/
def phasePattern (index : BitVec 3) : PhaseOutputs :=
  match index.toNat with
  | 0 => ⟨true, false, false, false⟩
  | 1 => ⟨true, true, false, false⟩
  | 2 => ⟨false, true, false, false⟩
  | 3 => ⟨false, true, true, false⟩
  | 4 => ⟨false, false, true, false⟩
  | 5 => ⟨false, false, true, true⟩
  | 6 => ⟨false, false, false, true⟩
  | _ => ⟨true, false, false, true⟩

/-- The phase outputs of a channel (R18): off in IDLE and FAULT. -/
def Channel.outputs (c : Channel) : PhaseOutputs :=
  if c.state = .idle ∨ c.state = .fault then PhaseOutputs.off else phasePattern c.phase

/-- The phase outputs of a channel; off while NRST is active (R185). -/
def State.phaseOutputs (ch : ChannelId) (s : State) : PhaseOutputs :=
  if s.held then PhaseOutputs.off else (s.channel ch).outputs

/-- The enable of a domain: ENS, ENP, ENM (R168). -/
def State.enable (d : DomainId) (s : State) : Bool :=
  !s.held && (s.power.domain d == .starting || s.power.domain d == .on)

/-- LAMP: active while the SCAN domain starts and is ON (R170, R174). -/
def State.lamp (s : State) : Bool := s.enable .scan

/-- HSTB of a block: active in the strobe time of a phase that holds the block (R87), low with the PRINT
domain OFF (R96, R174). -/
def State.strobeLine (block : Nat) (s : State) : Bool :=
  s.enable .print && (match s.print.strobe with
    | .strobing _ _ (p :: _) inGap _ _ => !inGap && p.blocks.contains block
    | _ => false)

/-- HDAT: the dots of the line being shifted into the register, dot 0 first; none, held low, when no load
is under way, with the PRINT domain OFF and while NRST is active (R83, R96, R174, R185). -/
def State.headData (s : State) : Option RawLine :=
  match s.print.load with
  | .loading l =>
    if s.enable .print then
      ((s.move? l.move).bind fun m => m.queue.find? fun x => x.slot == l.slot).map SlotLine.dots
    else none
  | _ => none

/-- HCLK: the head clock runs while a line is shifted (R83, R96, R174). -/
def State.headClock (s : State) : Bool := s.headData.isSome

/-- The line in the strobe stage (R84). -/
def Print.latched? (p : Print) : Option HeadLine :=
  match p.strobe with
  | .strobing l _ _ _ _ _ => some l
  | _ => none

/-- HLAT in the event that leads from `before` to `s`: raised as a line is latched, which may be at the strobe
done of the line before it; low at every other moment and with the PRINT domain OFF (R84, R96, R174). -/
def State.headLatch (s before : State) : Bool :=
  s.enable .print && s.print.latched?.isSome && s.print.latched? != before.print.latched?

/-- CUT: active in PULSE, with the MOTOR domain ON (R93, R96). -/
def State.cutter (s : State) : Bool := s.enable .motor && s.print.cut.isPulse

/-- TXD: the characters of the frame being sent, or none for the line at mark: nothing eligible, NRST
active, or the clocks stopped (R10, R185). -/
def State.txd (s : State) : Option (List Byte) := s.sending?.map fun r => r.frame.bytes

end Sys2Proof.Machine
end

