-- ==== Sys2Proof/Safety.lean ====
section
/-! DEFINITION. What claims about the part are stated with: the ranges of the settings, the bounds of the
queues and of the step periods, the state in which a command is served at once, and what no consequence
changes. -/

namespace Sys2Proof

/-- LEN is in the range that 11.4 gives the command: LINE_DATA 5 to 2304, LOAD_HEADER 5 to 2052; the
other commands have one LEN each. -/
def Instr.LengthFits : Instr → Prop
  | .lineData _ _ _ _ _ coded => 1 ≤ coded.length ∧ coded.length ≤ 2300
  | .loadHeader _ _ _ code => 1 ≤ code.length ∧ code.length ≤ 2048
  | _ => True

namespace Machine

/-! ## Settings in range -/

/-- F and D make a fraction below 1, D up to 4095 (2.4). -/
abbrev fractionValid (f d : Nat) : Prop := 1 ≤ d ∧ d ≤ 4095 ∧ f < d

/-- A profile that SET_PROFILE stores (R23). -/
abbrev Profile.Valid (p : Profile) : Prop :=
  (40 ≤ p.ws ∧ p.ws ≤ 65535) ∧ (40 ≤ p.wt ∧ p.wt ≤ 65535) ∧ fractionValid p.f p.d ∧ p.k16 ≤ 16383

/-- A line timing at or above the pull-in period (R24). -/
abbrev LineTiming.Valid (pullIn : Nat) (t : LineTiming) : Prop :=
  pullIn ≤ t.w ∧ t.w ≤ 65535 ∧ fractionValid t.f t.d

/-- The settings of a channel (R23 to R25). -/
abbrev ChannelSettings.Valid (c : ChannelSettings) : Prop :=
  c.profiles.length = 8 ∧ (∀ p ∈ c.profiles, p.Valid)
    ∧ c.v1.Valid c.pullIn ∧ c.v2.Valid c.pullIn ∧ c.v4.Valid c.pullIn
    ∧ 400 ≤ c.pullIn ∧ c.pullIn ≤ 65535 ∧ c.holdCode ≤ 255

/-- A debounce time (R45). -/
abbrev SensorSettings.Valid (x : SensorSettings) : Prop := 1 ≤ x.debounce ∧ x.debounce ≤ 255

/-- The feed settings (R62). -/
abbrev FeedSettings.Valid (c : FeedSettings) : Prop :=
  c.docEntry.Valid ∧ c.docScan.Valid ∧ c.paper.Valid ∧ c.cover.Valid ∧ c.settleCode ≤ 255
    ∧ (1 ≤ c.preload ∧ c.preload ≤ 65535) ∧ c.offset ≤ 1023
    ∧ (1 ≤ c.ejectDistance ∧ c.ejectDistance ≤ 65535)

/-- The scan settings (R75). -/
abbrev ScanSettings.Valid (c : ScanSettings) : Prop :=
  (1 ≤ c.threshold ∧ c.threshold ≤ 63) ∧ c.black ≤ 31 ∧ (1000 ≤ c.exposure ∧ c.exposure ≤ 40000)

/-- The print settings for a head width (R95). -/
abbrev PrintSettings.Valid (head : Nat) (c : PrintSettings) : Prop :=
  (200 ≤ c.strobe ∧ c.strobe ≤ 2500) ∧ c.gap ≤ 500 ∧ (1 ≤ c.limit ∧ c.limit ≤ head)
    ∧ c.margin ≤ 4095 ∧ (20 ≤ c.pulse ∧ c.pulse ≤ 500)

/-- Every setting in its range (R23 to R25, R62, R75, R95, R152, R179). -/
abbrev Settings.Valid (straps : Straps) (c : Settings) : Prop :=
  c.df.Valid ∧ c.rf.Valid ∧ c.feed.Valid ∧ c.scan.Valid ∧ c.print.Valid (Config.headWidth straps)
    ∧ c.reserveCode ≤ 4 ∧ c.power.idleTime ≤ 255 ∧ c.power.warmUpCode ≤ 255

/-! ## Step periods and channel states (R18, R26 to R28) -/

/-- The run values of a ramped move: Q between Qt and Qs, the accumulator below D, and the period of the
step in progress within the bounds of R28. -/
structure RampRun.Ok (x : RampRun) : Prop where
  target : x.qt = 16 * x.profile.wt
  floor : x.qt ≤ x.q
  ceiling : x.q ≤ x.qs
  start : x.qs = x.qt ∨ x.qs = 16 * x.profile.ws ∧ x.profile.wt < x.profile.ws
  fraction : x.profile.f < x.profile.d
  acc : x.acc < x.profile.d
  fastest : x.profile.wt ≤ x.period
  slowest : x.period ≤ max x.profile.ws (x.profile.wt + 1)

/-- A step period is W or W + 1 of a line timing. -/
def periodOf (t : LineTiming) : Option Nat → Prop
  | none => True
  | some p => t.w ≤ p ∧ p ≤ t.w + 1

/-- The run values of a line run: a W of 400 or more, the smallest pull-in period, the accumulator below
D, and the period of the step in progress W or W + 1. -/
structure LineRun.Ok (x : LineRun) : Prop where
  slowEnough : 400 ≤ x.timing.w
  fraction : x.timing.f < x.timing.d
  acc : x.acc < x.timing.d
  period : periodOf x.timing x.period

/-- The run values and the hold timer go with the state of the channel (R18, R28, R40). -/
def Channel.Ok (c : Channel) : Prop :=
  match c.state with
  | .idle | .fault => c.run = .none ∧ c.holdTimer = none
  | .holding => c.run = .none
  | .ramping | .stopping => c.holdTimer = none ∧ ∃ x, c.run = .ramp x ∧ x.Ok
  | .lineRun | .lineHold => c.holdTimer = none ∧ ∃ x, c.run = .line x ∧ x.Ok

/-! ## The link's buffers (R3, R5, R9) -/

/-- What the parser has assembled stays within one frame. -/
def Parser.Ok : Parser → Prop
  | .hunt => True
  | .header got => got.length ≤ 3
  | .payload _ _ len got => got.length < len ∧ len ≤ Config.maxPayload
  | .check f _ => f.payload.length ≤ Config.maxPayload

/-- Records and reservations within 16 places, a frame in hand untaken only while no place is free, a frame
waiting only behind one in hand, the parser within one frame. -/
structure Link.Ok (l : Link) : Prop where
  places : l.outbound.length + l.reserved ≤ Config.outboundPlaces
  untaken : ∀ f, l.hand = some ⟨f, .untaken⟩ → Config.outboundPlaces ≤ l.outbound.length
  order : l.waiting.isSome = true → l.hand.isSome = true
  parser : l.parser.Ok

/-! ## The move table and the line slots (R107, R118, R119, R131) -/

/-- The records of a move table. -/
abbrev Path.moves (p : Path) : List Move := p.table.filterMap id

/-- The slots that a move holds: those of its lines, and one granted for a capture. -/
def Move.slots (m : Move) : List Nat := m.queue.map SlotLine.slot ++ m.granted.toList

/-- The lines that have entered the queue of a move, and those that have left it, are in it or merged away
(R131). -/
def Counters.Balanced (c : Counters) (queued : Nat) : Prop :=
  c.taken + c.headerLines = c.delivered + queued + c.merged + c.discarded

/-- The record of a move: a number and a depth in range, no more slots than its depth, none but in RUNNING and
DRAINING, every line accounted for (R107, R119, R131). -/
structure Move.Ok (m : Move) : Prop where
  number : 1 ≤ m.number ∧ m.number ≤ 255
  depth : 2 ≤ m.depth ∧ m.depth ≤ 12
  room : m.slots.length ≤ m.depth
  still : m.flowing = false → m.slots = []
  lines : m.counters.Balanced m.queue.length

/-- The move table: four entries, no two records with one number or one place in the order of acceptance, the
depths of the moves at work within the sixteen slots, and no slot held twice (R107, R118, R119). -/
structure Path.Ok (p : Path) : Prop where
  entries : p.table.length = 4
  names : (p.moves.map Move.id).Nodup
  next : ∀ m ∈ p.moves, m.id < p.nextId
  numbers : (p.moves.map Move.number).Nodup
  moves : ∀ m ∈ p.moves, m.Ok
  depth : ((p.moves.filter Move.active).map Move.depth).sum ≤ 16
  slots : (p.moves.flatMap Move.slots).Nodup
  range : ∀ n ∈ p.moves.flatMap Move.slots, n < 16

/-! ## The invariant -/

/-- What every step keeps: settings in range, the queues and buffers in bounds, the channels with their
step periods in bounds, the move table and the line slots in bounds, the page memory in its canonical form. -/
structure State.Inv (s : State) : Prop where
  settings : s.cfg.Valid s.straps
  link : s.link.Ok
  df : s.df.Ok
  rf : s.rf.Ok
  path : s.path.Ok
  memory : s.store.memory.wf = true

/-! ## A command served at once -/

/-- Characters reach the parser, and nothing else follows from them: the clocks run, no sleep entry is under
way, and the parser waits for no mark time (R3, R13, R181). -/
structure State.Listens (s : State) : Prop where
  held : s.held = false
  awake : s.power.state ≠ .sleep
  entry : s.power.entry = .none
  marked : s.link.awaitMark = false

/-- A frame that arrives whole becomes the command in hand, is taken at once and is checked: besides, the parser is in
HUNT, the receive buffer is empty and the outbound queue has a place (R5, R7). -/
structure State.Hears (s : State) : Prop extends s.Listens where
  hunting : s.link.parser = .hunt
  hand : s.link.hand = none
  waiting : s.link.waiting = none
  place : s.link.outbound.length < Config.outboundPlaces

/-- Nothing stands between a command and its owning block: besides, the link is READY and start-up is over
(R7). -/
structure State.Serves (s : State) : Prop extends s.Hears where
  startup : s.startup = .done
  ready : s.link.state = .ready

/-- A frame that is in hand is taken when the outbound queue, with so many records in it, has a place for its
reply (R5, R7). -/
def Hand.takenWith (records : Nat) (h : Hand) : Hand :=
  if h.phase = .untaken ∧ records < 16 then { h with phase := .taken } else h

/-- A record enters the outbound queue at its tail. -/
def State.queued (r : OutRecord) (s : State) : State :=
  s.onLink fun l => { l with outbound := l.outbound ++ [r] }

/-- A reply enters the outbound queue: the TYPE of the command plus 0x80, its TAG, the payload (11.2). -/
def State.replied (type tag : Byte) (payload : List Byte) (s : State) : State :=
  s.queued ⟨.reply, type + 0x80, tag, payload⟩

/-- A command is in hand, with a place reserved for its reply, and its block has been handed it (R7). -/
def State.inHand (f : Frame) (s : State) : State := s.onLink (Link.handOver f)

/-- The record that the transmitter sends: the oldest in READY, the oldest reply in UNSET, with only reports
standing before it (R10). -/
structure State.Sends (before : List OutRecord) (r : OutRecord) (after : List OutRecord) (s : State) :
    Prop where
  queue : s.link.outbound = before ++ r :: after
  passed : ∀ x ∈ before, x.kind = .report
  unset : before ≠ [] → s.link.state = .unset
  eligible : s.link.state = .ready ∨ r.kind ≠ .report

/-- The command types with the least and the greatest LEN of each (11.2, 11.4). -/
def commandLengths : List (Byte × Nat × Nat) :=
  [(0x10, 2, 2), (0x11, 2, 2), (0x12, 1, 1), (0x20, 4, 4), (0x21, 3, 3), (0x22, 1, 1), (0x23, 2, 2),
   (0x30, 14, 14), (0x31, 10, 10), (0x32, 6, 6), (0x33, 6, 6), (0x34, 2, 2), (0x35, 2, 2),
   (0x36, 16, 16), (0x37, 1, 1), (0x40, 8, 8), (0x41, 1, 1), (0x42, 12, 12), (0x50, 18, 18),
   (0x51, 2, 2), (0x52, 2, 2), (0x53, 5, 2304), (0x54, 3, 3), (0x55, 5, 2052), (0x60, 3, 3),
   (0x61, 3, 3), (0x62, 3, 3), (0x63, 3, 3), (0x64, 2, 2), (0x65, 4, 4), (0x66, 2, 2), (0x67, 1, 1)]

/-! ## What no consequence changes -/

/-- The parts of the state that only a command or an event itself changes; of the sticky flags all but
REPORT_OVERFLOW, which a dropped report sets. -/
structure Kept where
  pending : List Instr
  straps : Straps
  held : Bool
  startup : Startup
  resetPhase : ResetPhase
  inputs : Inputs
  cfg : Settings
  linkState : LinkState
  rate : Rate
  rateChange : Option Rate
  parser : Parser
  hand : Option Hand
  waiting : Option Frame
  awaitMark : Bool
  sticky : Sticky
  docEntry : Sensor
  docScan : Sensor
  paper : Sensor
  cover : Sensor
  table : List Nat
  dfPhase : BitVec 3
  dfPosition : Position
  rfPhase : BitVec 3
  rfPosition : Position

/-- Those parts of a state. -/
def State.kept (s : State) : Kept :=
  { pending := s.pending
    straps := s.straps
    held := s.held
    startup := s.startup
    resetPhase := s.resetPhase
    inputs := s.inputs
    cfg := s.cfg
    linkState := s.link.state
    rate := s.link.rate
    rateChange := s.link.rateChange
    parser := s.link.parser
    hand := s.link.hand
    waiting := s.link.waiting
    awaitMark := s.link.awaitMark
    sticky := { s.link.sticky with reportOverflow := false }
    docEntry := s.feed.docEntry
    docScan := s.feed.docScan
    paper := s.feed.paper
    cover := s.feed.cover
    table := s.scan.table
    dfPhase := s.df.phase
    dfPosition := s.df.position
    rfPhase := s.rf.phase
    rfPosition := s.rf.position }

/-- One state comes from another by consequences: the kept parts are the same, and the outbound queue
has only grown at its tail. -/
structure State.Leads (s t : State) : Prop where
  kept : t.kept = s.kept
  queue : s.link.outbound <+: t.link.outbound

/-! ## Several commands and events in order -/

/-- The state after a list of commands and events, none when one of them stops the machine. -/
def runAll : List Instr → State → Option State
  | [], s => some s
  | i :: is, s =>
    match exec i s with
    | .next t => runAll is t
    | _ => none

end Machine

end Sys2Proof
end

