-- ==== Sys2Proof/Laws/PerInstr.lean ====
section
/-! SUPPORT. The layout of every command as a frame agrees with what a frame is read as (11.2, 11.4):
family Frames, one lemma for each constructor. -/

namespace Sys2Proof

/-- The two bytes of a word, joined again. -/
def rejoined (w : Word16) : Word16 := word16 (w.setWidth 8) ((w >>> 8).setWidth 8)

/-- The two bytes of a word give the word again (0.7). -/
theorem rejoined_eq (w : Word16) : rejoined w = w := by
  apply BitVec.eq_of_toNat_eq
  simp only [rejoined, word16, BitVec.toNat_append, BitVec.toNat_setWidth, BitVec.toNat_ushiftRight]
  have h := w.isLt
  rw [Nat.shiftRight_eq_div_pow, ← Nat.shiftLeft_add_eq_or_of_lt (Nat.mod_lt _ (by decide)),
    Nat.shiftLeft_eq]
  omega

namespace Laws.Frames

/-- A command whose LEN is in its range travels in a frame that carries it back: a command type, at most
2304 payload bytes, and the same command with every operand as it was. -/
def Statement (i : Instr) : Prop :=
  ∀ f, i.frame? = some f → i.LengthFits →
    f.payload.length ≤ Config.maxPayload ∧ f.type ∈ commandTypes ∧ f.command? = some i

theorem setLink (tag code rsv : Byte) : Statement (.setLink tag code rsv) := by
  intro f e _
  cases e
  refine ⟨(by decide : 2 ≤ Config.maxPayload), (by decide : (0x10 : Byte) ∈ commandTypes), ?_⟩
  rfl

theorem getStatus (tag clear rsv : Byte) : Statement (.getStatus tag clear rsv) := by
  intro f e _
  cases e
  refine ⟨(by decide : 2 ≤ Config.maxPayload), (by decide : (0x11 : Byte) ∈ commandTypes), ?_⟩
  rfl

theorem getIdentity (tag rsv : Byte) : Statement (.getIdentity tag rsv) := by
  intro f e _
  cases e
  refine ⟨(by decide : 1 ≤ Config.maxPayload), (by decide : (0x12 : Byte) ∈ commandTypes), ?_⟩
  rfl

theorem setPower (tag idle auto warm rsv : Byte) : Statement (.setPower tag idle auto warm rsv) :=
    by
  intro f e _
  cases e
  refine ⟨(by decide : 4 ≤ Config.maxPayload), (by decide : (0x20 : Byte) ∈ commandTypes), ?_⟩
  rfl

theorem domain (tag dom action rsv : Byte) : Statement (.domain tag dom action rsv) := by
  intro f e _
  cases e
  refine ⟨(by decide : 3 ≤ Config.maxPayload), (by decide : (0x21 : Byte) ∈ commandTypes), ?_⟩
  rfl

theorem sleep (tag rsv : Byte) : Statement (.sleep tag rsv) := by
  intro f e _
  cases e
  refine ⟨(by decide : 1 ≤ Config.maxPayload), (by decide : (0x22 : Byte) ∈ commandTypes), ?_⟩
  rfl

theorem reset (tag kind rsv : Byte) : Statement (.reset tag kind rsv) := by
  intro f e _
  cases e
  refine ⟨(by decide : 2 ≤ Config.maxPayload), (by decide : (0x23 : Byte) ∈ commandTypes), ?_⟩
  rfl

theorem setProfile (tag ch prof : Byte) (ws wt f d k16 rsv : Word16) : Statement (.setProfile tag
    ch prof ws wt f d k16 rsv) := by
  intro f e _
  cases e
  refine ⟨(by decide : 14 ≤ Config.maxPayload), (by decide : (0x30 : Byte) ∈ commandTypes), ?_⟩
  show some (Instr.setProfile tag ch prof (rejoined ws) (rejoined wt) (rejoined f) (rejoined d)
    (rejoined k16) (rejoined rsv)) = _
  simp only [rejoined_eq]

theorem setLineTiming (tag ch dens : Byte) (w f d rsv : Word16) : Statement (.setLineTiming tag ch
    dens w f d rsv) := by
  intro f e _
  cases e
  refine ⟨(by decide : 10 ≤ Config.maxPayload), (by decide : (0x31 : Byte) ∈ commandTypes), ?_⟩
  show some (Instr.setLineTiming tag ch dens (rejoined w) (rejoined f) (rejoined d) (rejoined rsv))
    = _
  simp only [rejoined_eq]

theorem setChannel (tag ch inv : Byte) (pullIn : Word16) (hold rsv : Byte) : Statement
    (.setChannel tag ch inv pullIn hold rsv) := by
  intro f e _
  cases e
  refine ⟨(by decide : 6 ≤ Config.maxPayload), (by decide : (0x32 : Byte) ∈ commandTypes), ?_⟩
  show some (Instr.setChannel tag ch inv (rejoined pullIn) hold rsv) = _
  simp only [rejoined_eq]

theorem moveSteps (tag ch prof dir rsv : Byte) (dist : Word16) : Statement (.moveSteps tag ch prof
    dir rsv dist) := by
  intro f e _
  cases e
  refine ⟨(by decide : 6 ≤ Config.maxPayload), (by decide : (0x33 : Byte) ∈ commandTypes), ?_⟩
  show some (Instr.moveSteps tag ch prof dir rsv (rejoined dist)) = _
  simp only [rejoined_eq]

theorem stopChannel (tag ch rsv : Byte) : Statement (.stopChannel tag ch rsv) := by
  intro f e _
  cases e
  refine ⟨(by decide : 2 ≤ Config.maxPayload), (by decide : (0x34 : Byte) ∈ commandTypes), ?_⟩
  rfl

theorem clearFault (tag ch rsv : Byte) : Statement (.clearFault tag ch rsv) := by
  intro f e _
  cases e
  refine ⟨(by decide : 2 ≤ Config.maxPayload), (by decide : (0x35 : Byte) ∈ commandTypes), ?_⟩
  rfl

theorem setFeed (tag pEntry pScan pPaper pCover dEntry dScan dPaper dCover settle rsv : Byte)
    (preload offset eject : Word16) : Statement (.setFeed tag pEntry pScan pPaper pCover dEntry
    dScan dPaper dCover settle rsv preload offset eject) := by
  intro f e _
  cases e
  refine ⟨(by decide : 16 ≤ Config.maxPayload), (by decide : (0x36 : Byte) ∈ commandTypes), ?_⟩
  show some (Instr.setFeed tag pEntry pScan pPaper pCover dEntry dScan dPaper dCover settle rsv
    (rejoined preload) (rejoined offset) (rejoined eject)) = _
  simp only [rejoined_eq]

theorem eject (tag rsv : Byte) : Statement (.eject tag rsv) := by
  intro f e _
  cases e
  refine ⟨(by decide : 1 ≤ Config.maxPayload), (by decide : (0x37 : Byte) ∈ commandTypes), ?_⟩
  rfl

theorem setScan (tag mode t b inv : Byte) (exposure rsv : Word16) : Statement (.setScan tag mode t
    b inv exposure rsv) := by
  intro f e _
  cases e
  refine ⟨(by decide : 8 ≤ Config.maxPayload), (by decide : (0x40 : Byte) ∈ commandTypes), ?_⟩
  show some (Instr.setScan tag mode t b inv (rejoined exposure) (rejoined rsv)) = _
  simp only [rejoined_eq]

theorem shade (tag rsv : Byte) : Statement (.shade tag rsv) := by
  intro f e _
  cases e
  refine ⟨(by decide : 1 ≤ Config.maxPayload), (by decide : (0x41 : Byte) ∈ commandTypes), ?_⟩
  rfl

theorem setPrint (tag : Byte) (ts tg m margin pulse rsv : Word16) : Statement (.setPrint tag ts tg
    m margin pulse rsv) := by
  intro f e _
  cases e
  refine ⟨(by decide : 12 ≤ Config.maxPayload), (by decide : (0x42 : Byte) ∈ commandTypes), ?_⟩
  show some (Instr.setPrint tag (rejoined ts) (rejoined tg) (rejoined m) (rejoined margin) (rejoined
    pulse) (rejoined rsv)) = _
  simp only [rejoined_eq]

theorem startMove (tag source sink depth target reduce header fallback close f8 f9 : Byte) (f10 :
    Word16) (f12 f13 : Byte) (f14 : Word16) (f16 f17 : Byte) : Statement (.startMove tag source
    sink depth target reduce header fallback close f8 f9 f10 f12 f13 f14 f16 f17) := by
  intro f e _
  cases e
  refine ⟨(by decide : 18 ≤ Config.maxPayload), (by decide : (0x50 : Byte) ∈ commandTypes), ?_⟩
  show some (Instr.startMove tag source sink depth target reduce header fallback close f8 f9
    (rejoined f10) f12 f13 (rejoined f14) f16 f17) = _
  simp only [rejoined_eq]

theorem abortMove (tag num rsv : Byte) : Statement (.abortMove tag num rsv) := by
  intro f e _
  cases e
  refine ⟨(by decide : 2 ≤ Config.maxPayload), (by decide : (0x51 : Byte) ∈ commandTypes), ?_⟩
  rfl

theorem moveStatus (tag num rsv : Byte) : Statement (.moveStatus tag num rsv) := by
  intro f e _
  cases e
  refine ⟨(by decide : 2 ≤ Config.maxPayload), (by decide : (0x52 : Byte) ∈ commandTypes), ?_⟩
  rfl

theorem lineData (tag num endPage endMove rsv : Byte) (coded : List Byte) : Statement (.lineData
    tag num endPage endMove rsv coded) := by
  intro f e h
  cases e
  obtain ⟨h1, h2⟩ := h
  obtain ⟨c, rest, rfl⟩ := List.exists_cons_of_length_pos h1
  simp only [List.length_cons] at h2
  refine ⟨?_, (by decide : (0x53 : Byte) ∈ commandTypes), ?_⟩
  · show (rest.length + 1) + 4 ≤ 2304
    omega
  · show (if 5 + rest.length ≤ 2304 then some (Instr.lineData tag num endPage endMove rsv (c :: rest)) else none) = _
    rw [if_pos (by omega)]

theorem readLines (tag num k rsv : Byte) : Statement (.readLines tag num k rsv) := by
  intro f e _
  cases e
  refine ⟨(by decide : 3 ≤ Config.maxPayload), (by decide : (0x54 : Byte) ∈ commandTypes), ?_⟩
  rfl

theorem loadHeader (tag : Byte) (width rsv : Word16) (code : List Byte) : Statement (.loadHeader
    tag width rsv code) := by
  intro f e h
  cases e
  obtain ⟨h1, h2⟩ := h
  obtain ⟨c, rest, rfl⟩ := List.exists_cons_of_length_pos h1
  simp only [List.length_cons] at h2
  refine ⟨?_, (by decide : (0x55 : Byte) ∈ commandTypes), ?_⟩
  · show (rest.length + 1) + 4 ≤ 2304
    omega
  · show (if 5 + rest.length ≤ 2052 then some (Instr.loadHeader tag (rejoined width) (rejoined rsv) (c :: rest)) else none) = _
    rw [if_pos (by omega)]
    simp only [rejoined_eq]

theorem createDoc (tag cls auto rsv : Byte) : Statement (.createDoc tag cls auto rsv) := by
  intro f e _
  cases e
  refine ⟨(by decide : 3 ≤ Config.maxPayload), (by decide : (0x60 : Byte) ∈ commandTypes), ?_⟩
  rfl

theorem closeDoc (tag : Byte) (doc : Word16) (rsv : Byte) : Statement (.closeDoc tag doc rsv) :=
    by
  intro f e _
  cases e
  refine ⟨(by decide : 3 ≤ Config.maxPayload), (by decide : (0x61 : Byte) ∈ commandTypes), ?_⟩
  show some (Instr.closeDoc tag (rejoined doc) rsv) = _
  simp only [rejoined_eq]

theorem deleteDoc (tag : Byte) (doc : Word16) (rsv : Byte) : Statement (.deleteDoc tag doc rsv) :=
    by
  intro f e _
  cases e
  refine ⟨(by decide : 3 ≤ Config.maxPayload), (by decide : (0x62 : Byte) ∈ commandTypes), ?_⟩
  show some (Instr.deleteDoc tag (rejoined doc) rsv) = _
  simp only [rejoined_eq]

theorem releaseDoc (tag : Byte) (doc : Word16) (rsv : Byte) : Statement (.releaseDoc tag doc rsv)
    := by
  intro f e _
  cases e
  refine ⟨(by decide : 3 ≤ Config.maxPayload), (by decide : (0x63 : Byte) ∈ commandTypes), ?_⟩
  show some (Instr.releaseDoc tag (rejoined doc) rsv) = _
  simp only [rejoined_eq]

theorem listDocs (tag start rsv : Byte) : Statement (.listDocs tag start rsv) := by
  intro f e _
  cases e
  refine ⟨(by decide : 2 ≤ Config.maxPayload), (by decide : (0x64 : Byte) ∈ commandTypes), ?_⟩
  rfl

theorem docInfo (tag : Byte) (doc : Word16) (start rsv : Byte) : Statement (.docInfo tag doc start
    rsv) := by
  intro f e _
  cases e
  refine ⟨(by decide : 4 ≤ Config.maxPayload), (by decide : (0x65 : Byte) ∈ commandTypes), ?_⟩
  show some (Instr.docInfo tag (rejoined doc) start rsv) = _
  simp only [rejoined_eq]

theorem setReserve (tag code rsv : Byte) : Statement (.setReserve tag code rsv) := by
  intro f e _
  cases e
  refine ⟨(by decide : 2 ≤ Config.maxPayload), (by decide : (0x66 : Byte) ∈ commandTypes), ?_⟩
  rfl

theorem checkStore (tag rsv : Byte) : Statement (.checkStore tag rsv) := by
  intro f e _
  cases e
  refine ⟨(by decide : 1 ≤ Config.maxPayload), (by decide : (0x67 : Byte) ∈ commandTypes), ?_⟩
  rfl

theorem rxCharacter (c : Byte) : Statement (.rxCharacter c) := by
  intro f e
  cases e

theorem framingError : Statement .framingError := by
  intro f e
  cases e

theorem breakDetected : Statement .breakDetected := by
  intro f e
  cases e

theorem characterGapExpiry : Statement .characterGapExpiry := by
  intro f e
  cases e

theorem takeCommand : Statement .takeCommand := by
  intro f e
  cases e

theorem recordSent : Statement .recordSent := by
  intro f e
  cases e

theorem wakeDiscard : Statement .wakeDiscard := by
  intro f e
  cases e

theorem channelStep (ch : ChannelId) : Statement (.channelStep ch) := by
  intro f e
  cases e

theorem holdTimerExpiry (ch : ChannelId) : Statement (.holdTimerExpiry ch) := by
  intro f e
  cases e

theorem driverFault (ch : ChannelId) (active : Bool) : Statement (.driverFault ch active) := by
  intro f e
  cases e

theorem sensorInputChange (sensor : SensorId) (level : Bool) : Statement (.sensorInputChange
    sensor level) := by
  intro f e
  cases e

theorem debounceExpiry (sensor : SensorId) : Statement (.debounceExpiry sensor) := by
  intro f e
  cases e

theorem settleTimerExpiry : Statement .settleTimerExpiry := by
  intro f e
  cases e

theorem exposureEnd : Statement .exposureEnd := by
  intro f e
  cases e

theorem captureDone (pixels : List Pixel) : Statement (.captureDone pixels) := by
  intro f e
  cases e

theorem shadingLineRead (pixels : List Pixel) : Statement (.shadingLineRead pixels) := by
  intro f e
  cases e

theorem loadComplete : Statement .loadComplete := by
  intro f e
  cases e

theorem phaseTimerExpiry : Statement .phaseTimerExpiry := by
  intro f e
  cases e

theorem cutterPulseEnd : Statement .cutterPulseEnd := by
  intro f e
  cases e

theorem storeLineWritten : Statement .storeLineWritten := by
  intro f e
  cases e

theorem storeSegmentRead (upsets : List (Nat × Byte)) : Statement (.storeSegmentRead upsets) := by
  intro f e
  cases e

theorem memoryCheckDone : Statement .memoryCheckDone := by
  intro f e
  cases e

theorem lampWarmUpExpiry (reading : Pixel) : Statement (.lampWarmUpExpiry reading) := by
  intro f e
  cases e

theorem hpgChange (active : Bool) : Statement (.hpgChange active) := by
  intro f e
  cases e

theorem printStartTimeout : Statement .printStartTimeout := by
  intro f e
  cases e

theorem motorStartDone : Statement .motorStartDone := by
  intro f e
  cases e

theorem idleTimerExpiry : Statement .idleTimerExpiry := by
  intro f e
  cases e

theorem sleepClocksStop : Statement .sleepClocksStop := by
  intro f e
  cases e

theorem wakeInput : Statement .wakeInput := by
  intro f e
  cases e

theorem wakeCause (cause : WakeCause) : Statement (.wakeCause cause) := by
  intro f e
  cases e

theorem wakeComplete : Statement .wakeComplete := by
  intro f e
  cases e

theorem nrstAsserted (marked bursts : Nat) : Statement (.nrstAsserted marked bursts) := by
  intro f e
  cases e

theorem powerOnReset (straps : Straps) : Statement (.powerOnReset straps) := by
  intro f e
  cases e

theorem formatDone : Statement .formatDone := by
  intro f e
  cases e

theorem recoveryScanDone : Statement .recoveryScanDone := by
  intro f e
  cases e

theorem resetStopped : Statement .resetStopped := by
  intro f e
  cases e

theorem pfiAsserted (bursts : Nat) : Statement (.pfiAsserted bursts) := by
  intro f e
  cases e

theorem firstReadingsSteady (sensor : SensorId) : Statement (.firstReadingsSteady sensor) := by
  intro f e
  cases e

theorem segmentTested (passed : Bool) : Statement (.segmentTested passed) := by
  intro f e
  cases e

end Laws.Frames

end Sys2Proof
end

