-- ==== Sys2Proof/Certificates/Slice0/Obligations.lean ====
section
/-! DEFINITION. The statements for the provers. The next state of a command is written as the rules give it;
`settle` stands for what follows at once (log 7), and `SettleKeeps` says what that leaves alone. A reply is
queued before the effect (log 6), so it never carries what follows. -/

section Statements

open Sys2Proof Sys2Proof.Machine

/-! ## The machine as a whole -/

/-- O1. A step runs the command at the front of the queue on the state with the queue's rest; with nothing waiting the
block idles (the model's choice, log 4). -/
def Obligations.FrontCommandRuns : Prop :=
  (∀ (c : Instr) (rest : List Instr) (s : State),
    step { s with pending := c :: rest } = exec c { s with pending := rest })
  ∧ ∀ s : State, s.pending = [] → step s = .next s

/-- O2. Every command and event of the table, with any operands and in any state, has a next state. -/
def Obligations.EveryCommandHasANextState : Prop :=
  ∀ (i : Instr) (s : State), ∃ t, exec i s = .next t

/-- O3. What every step keeps: settings in their ranges, the link's buffers in bounds, the channels' run values and
step periods in bounds, the move table in bounds (four entries, no number twice, the depths at work within the sixteen
line slots, no slot twice, every line accounted for), the page memory in its canonical form. -/
def Obligations.StepKeepsTheInvariant : Prop :=
  ∀ s t : State, s.Inv → step s = .next t → t.Inv

/-- O4. The state after power-on reset has the invariant, whatever the straps, the inputs, the waiting commands and a
page memory in its canonical form; so has the state with straps and inputs low (the model's choice, log 5). -/
def Obligations.ResetHasTheInvariant : Prop :=
  (∀ (p : List Instr) (straps : Straps) (i : Inputs) (m : PageMemory), m.wf = true →
    (State.powerOn p straps i m).Inv)
  ∧ State.reset.Inv

/-- O5. A command laid out as 11.2 and 11.4 give it is read back as the same command, with every operand at every
value. -/
def Obligations.CommandFramesReadBack : Prop := ∀ i : Instr, Laws.Frames.Statement i

/-- O6. The bytes of a frame, arriving one by one at a part that hears, put that frame in hand, taken with a place for
its reply, and it is checked and answered with its last byte; for the frame of a command that is what the row of the
command does in one (log 1). -/
def Obligations.FrameBytesReachTheHand : Prop :=
  ∀ (s : State) (f : Frame), s.Hears → f.payload.length ≤ 2304 →
    let t : State := State.checkHand { s with link := { s.link with hand := some ⟨f, .taken⟩ } }
    runAll (f.bytes.map .rxCharacter) s = some t
    ∧ ∀ i : Instr, i.frame? = some f → i.LengthFits → exec i s = .next t

/-- O7. Encoding a line and decoding the code at the line's width gives the line back, not repaired. -/
def Obligations.LineCodeReadsBack : Prop :=
  ∀ line : RawLine, line.length ≤ 2048 → decodeLine line.length (encodeLine line) = (line, false)

/-- O8. What follows at once (log 7) leaves the settings, the sensors, the sticky flags but REPORT_OVERFLOW, the link
but its queue, the positions, the phase indexes and the shading table alone, and only adds records at the tail of the
outbound queue. It is the consequences one after another, in the order of the list (DEDUCED in log 7), and where none
is left the rules' "at once" holds: no move is to be admitted or to enter RUNNING, no needed domain is OFF, no header
line, white line or stored line waits for room that is there, the load stage has its line and the head its boundary, no
transfer and no start of a channel is due, and the power state goes with the domains. The idle timer starts when the
part has become idle and stops when it no longer is; a document in EJECTING with no sequence asks for DF. The
arbitration, the entry to STARTING (a SCAN move waits there also when the document already stands in NONE or JAMMED:
DEDUCED, log 39; which cause comes first is DEDUCED too, log 16; where the domains are looked at is the model's choice,
log 51) and the entry to RUNNING, where the read of a STORE source begins with all the segments of its first page still to read
(that the lines of a page without one are white is DEDUCED, log 21). A request for a channel is refused in FAULT and with the cover open (FAULT where both
hold: the model's choice, log 32), finds the channel free, or joins the tail of the queue, once; a user that gives up a
channel hands it to the head of the queue, when it has stopped. That RF starts also when a strobe ends without strobe
done is the model's choice (log 66). -/
def Obligations.SettleKeeps : Prop :=
  (∀ s : State, s.Leads s.settle)
  ∧ (∀ s : State, (∀ rule ∈ consequenceRules, rule s = none) → s.settle = s)
  ∧ (∀ (s t : State) (before after : List (State → Option State)) (rule : State → Option State),
    consequenceRules = before ++ rule :: after → (∀ x ∈ before, x s = none) → rule s = some t →
    s.settle = settleFor 511 t ∧ ∀ n, settleFor (n + 1) s = settleFor n t)
  ∧ consequenceRules = [ruleIdleTimer, ruleNeed .scan, ruleNeed .print, ruleNeed .motor, ruleArbitrate,
    ruleFeedGranted, ruleFeedRequest, ruleScanRequest, ruleRun, ruleGapOver, ruleBlankPage, ruleHeader, ruleHandLine,
    ruleStart .df, ruleStart .rf, ruleScanGrant, ruleMeasure, ruleLoad, rulePrintGrant, ruleCut, rulePaperOut,
    rulePrintRun, ruleTransfer, ruleDrained, ruleSleepLost, rulePowerState]
  ∧ (∀ s : State, s.settled = true ↔ ∀ rule ∈ consequenceRules, rule s = none)
  ∧ (∀ s : State,
    let runs := s.power.state ≠ .sleep ∧ s.power.entry = .none ∧ s.idle = true ∧ s.cfg.power.idleTime ≠ 0
    let timer (x : IdleTimer) : Option State := some { s with power := { s.power with idleTimer := x } }
    (runs → s.power.idleTimer = .stopped → ruleIdleTimer s = timer (.running s.cfg.power.idleTime))
    ∧ (¬runs → s.power.idleTimer ≠ .stopped → ruleIdleTimer s = timer .stopped)
    ∧ ((runs ↔ s.power.idleTimer ≠ .stopped) → ruleIdleTimer s = none)
    ∧ (s.settled = true → (runs ↔ s.power.idleTimer ≠ .stopped)))
  ∧ (∀ s : State,
    let p := s.power
    (p.computed = .run ∨ p.computed = .standby)
    ∧ (p.computed = .run ↔ ∃ d, p.domain d = .starting ∨ p.domain d = .on)
    ∧ (p.state ≠ .sleep → p.state ≠ p.computed →
      rulePowerState s = some (({ s with power := { p with state := p.computed } } : State).report 0xE6
        [0, p.computed.code, p.scan.code, p.print.code, p.motor.code, 0, 0xFF]))
    ∧ (p.state = .sleep ∨ p.state = p.computed → rulePowerState s = none))
  ∧ (∀ s : State, ruleArbitrate s = s.admitted?.map fun id => s.enterStarting id)
  ∧ (∀ (s : State) (m : Move),
    let runs (m : Move) : Prop := m.state = .starting ∧ (∀ d, m.needs d = true → s.power.domain d = .on)
      ∧ (m.isPrint = true → s.rf.user = some (.move m.id) ∧ s.rf.releasing = false)
      ∧ (m.isScan = true → s.df.user = some (.move m.id) ∧ s.df.releasing = false ∧ s.feed.doc = .loaded)
    (s.move? m.id = some m → runs m → (∀ n ∈ s.moves, runs n → m.id ≤ n.id) → ruleRun s = some (s.enterRunning m))
    ∧ ((∀ n ∈ s.moves, ¬runs n) → ruleRun s = none))
  ∧ (∀ s : State, s.settled = true →
    s.admitted? = none
    ∧ (∀ d, s.needed d = true → s.power.domain d ≠ .off)
    ∧ (∀ m ∈ s.moves,
      ¬(m.state = .starting ∧ (∀ d, m.needs d = true → s.power.domain d = .on)
        ∧ (m.isPrint = true → s.rf.user = some (.move m.id) ∧ s.rf.releasing = false)
        ∧ (m.isScan = true → s.df.user = some (.move m.id) ∧ s.df.releasing = false ∧ s.feed.doc = .loaded))
      ∧ (m.state = .starting → m.isScan = true → s.feed.doc = .loaded →
        (s.df.user = some (.move m.id) ∧ s.df.releasing = false) ∨ .move m.id ∈ s.df.queue)
      ∧ (m.state = .running → 0 < m.headerLeft → m.room = 0)
      ∧ (m.flowing = true → 0 < m.blankDue → m.headerLeft = 0 → m.room = 0)
      ∧ (∀ r, m.state = .running → m.headerLeft = 0 → m.reader = some r → r.lines = [] ∨ m.room = 0)
      ∧ (s.store.transfer = none → s.store.check = none → s.inputs.pfi = false →
        m.writeDue = false ∧ m.readDue = false))
    ∧ (∀ m, s.serving? = some m →
      (s.print.load = .empty → s.untakenLines m = [])
      ∧ (s.rf.awaitsGrant = true → s.rf.user = some (.move m.id) → s.rf.releasing = false →
        s.print.load = .empty ∨ s.print.strobe ≠ .idle))
    ∧ (∀ ch o, (s.channel ch).startWaiting = some o → s.power.motor = .on → s.feed.cover.debounced = false →
      (s.channel ch).state = .idle ∨ (s.channel ch).state = .holding →
      ch = .rf ∧ s.print.inStrobe = true)
    ∧ (s.feed.doc = .settling → s.feed.settle = .expired → s.feed.cover.debounced = false →
      s.feedHeld = false → (s.df.user = some .feed ∧ s.df.releasing = false) ∨ .feed ∈ s.df.queue)
    ∧ (s.feed.doc = .ejecting → s.feed.seq = .none → s.feedHeld = false →
      (s.df.user = some .feed ∧ s.df.releasing = false) ∨ .feed ∈ s.df.queue)
    ∧ (s.power.state ≠ .sleep →
      (s.power.state = .run ↔ ∃ d, s.power.domain d = .starting ∨ s.power.domain d = .on)))
  ∧ (∀ s : State,
    let waiting := s.pendingMoves
    let before (i : Nat) : List Endpoint := s.claims ++ (waiting.take i).flatMap Move.endpoints
    let blocked (i : Nat) : Bool :=
      (waiting[i]?.map fun m => m.endpoints.any (before i).contains).getD true
    let depth (i : Nat) : Nat := (waiting[i]?.map Move.depth).getD 0
    let held (i : Nat) : Nat :=
      ((List.range i).map fun j => if blocked j then 0 else depth j).sum
    s.freeDepth = 16 - ((s.moves.filter Move.active).map Move.depth).sum
    ∧ s.admitted? = ((List.range waiting.length).find? fun i =>
      !blocked i && decide (depth i + held i ≤ s.freeDepth)).bind fun i => waiting[i]?.map Move.id)
  ∧ (∀ (s : State) (ch : ChannelId),
    let c := s.channel ch
    let asked (u : User) (faulted shut t : State) : Prop :=
      let asks := (c.user = some u ∧ c.releasing = false) ∨ u ∈ c.queue
      let free := c.user = none ∧ c.queue = [] ∧ (c.state = .idle ∨ c.state = .holding)
      (c.state = .fault → t = faulted)
      ∧ (c.state ≠ .fault → s.feed.cover.debounced = true → t = shut)
      ∧ (c.state ≠ .fault → s.feed.cover.debounced = false →
        (asks → t = s)
        ∧ (¬asks → free → t = s.onChannel ch fun c => { c with
          user := some u
          releasing := false
          holdTimer := none })
        ∧ (¬asks → ¬free → t = s.onChannel ch fun c => { c with queue := c.queue ++ [u] }))
    (∀ id, asked (.move id) (s.failMove .motorFault id) (s.failMove .coverOpen id) (s.moveRequest ch id))
    ∧ (ch = .df → asked .feed (s.enterJammed .motorFault) (s.enterJammed .coverOpen) s.feedRequest)
    ∧ (∀ m, (s.moves.map Move.id).Nodup → (s.moves.filter fun n => n.isScan && n.state == .starting) = [m] →
      s.feed.doc = .loaded → ch = .df → ¬(c.user = some (.move m.id) ∧ c.releasing = false) →
      .move m.id ∉ c.queue → ruleScanRequest s = some (s.moveRequest .df m.id)))
  ∧ (∀ (c : Channel) (u : User) (hold : Nat),
    let left : Channel := { c with queue := c.queue.filter fun v => v != u }
    let stops : Channel := { left with
      state := .holding
      run := .none
      holdLatched := hold
      holdTimer := none }
    let passes (stopped : Channel) : Prop :=
      let free : Channel := { stopped with
        user := none
        releasing := false
        startWaiting := none }
      (∀ v rest, left.queue = v :: rest → c.giveUp u hold = { free with
        user := some v
        queue := rest })
      ∧ (left.queue = [] → stopped.state = .idle → c.giveUp u hold = free)
      ∧ (left.queue = [] → stopped.state = .holding → stopped.holdLatched = 0 → c.giveUp u hold = { free with
        state := .idle
        holdTimer := none })
      ∧ (left.queue = [] → stopped.state = .holding → stopped.holdLatched ≠ 0 → c.giveUp u hold = { free with
        holdTimer := some stopped.holdLatched })
    (c.user ≠ some u ∨ c.state = .fault → c.giveUp u hold = left)
    ∧ (c.user = some u →
      (c.state = .idle ∨ c.state = .holding → passes left)
      ∧ (∀ x, c.state = .ramping ∨ c.state = .stopping → c.run = .ramp x → c.giveUp u hold = { left with
        releasing := true
        startWaiting := none
        run := .ramp { x with stopOrdered := x.stopOrdered || decide (c.state = .ramping) } })
      ∧ (∀ x p, c.state = .lineRun → c.run = .line x → x.period = some p → c.giveUp u hold = { left with
        releasing := true
        startWaiting := none
        run := .line { x with stopOrdered := true } })
      ∧ (∀ x, c.run = .line x → c.state = .lineHold ∨ (c.state = .lineRun ∧ x.period = none) → passes stops)))
  ∧ (∀ (s : State) (m : Move), s.move? m.id = some m → m.state = .pending →
    let n : Move := { m with state := .starting }
    let t := s.onMove m.id fun m => { m with state := .starting }
    (m.isPrint = true → s.feed.paper.debounced = false → s.enterStarting m.id = t.failMove .paperOut m.id)
    ∧ (m.isPrint = true → s.feed.paper.debounced = true → s.feed.cover.debounced = true →
      s.enterStarting m.id = t.failMove .coverOpen m.id)
    ∧ ((m.isPrint = true → s.feed.paper.debounced = true ∧ s.feed.cover.debounced = false) →
      ((∃ d, n.needs d = true ∧ s.power.domain d = .fault) →
        s.enterStarting m.id = t.failMove .domainFault m.id)
      ∧ ((∀ d, n.needs d = true → s.power.domain d ≠ .fault) →
        (m.isPrint = false → m.isStoreSink = false → s.enterStarting m.id = t)
        ∧ (m.isPrint = true →
          (s.rf.state = .fault → s.enterStarting m.id = t.failMove .motorFault m.id)
          ∧ (s.rf.state = .idle ∨ s.rf.state = .holding → s.rf.user = none → s.rf.queue = [] →
            s.enterStarting m.id = t.onChannel .rf fun c =>
              { c with
                user := some (.move m.id)
                releasing := false
                holdTimer := none })
          ∧ (s.rf.state ≠ .fault → s.rf.user ≠ none → s.rf.user ≠ some (.move m.id) → .move m.id ∉ s.rf.queue →
            s.enterStarting m.id = t.onChannel .rf fun c => { c with queue := c.queue ++ [.move m.id] }))
        ∧ (∀ doc c auto closes, m.sink = .store doc c auto closes →
          (doc ≠ 0 → s.enterStarting m.id = t)
          ∧ (doc = 0 → 64 ≤ s.store.directory.length →
            s.enterStarting m.id = (t.report 0xE8 [0, 0, 0, 0]).failMove .storeFull m.id)
          ∧ (doc = 0 → s.store.directory.length < 64 →
            (s.enterStarting m.id).move? m.id
              = some { n with sink := .store s.store.newNumber c auto closes })))))
  ∧ ∀ (s : State) (m : Move), s.move? m.id = some m →
    let t := s.enterRunning m
    (∃ r, t.move? m.id = some { m with
        state := .running
        reader := r
        headerLeft := if m.withHeader = true ∧ m.diverted = none then (s.path.header.map HeaderBuffer.count).getD 0
          else 0 }
      ∧ (m.isStoreSource = false → r = m.reader)
      ∧ ∀ doc first count d p, m.source = .store doc first count → s.store.doc? doc = some d →
        d.page? (first + (m.srcPage - 1)) = some p →
        r = some
          { page := p.index
            chain := s.store.chainOf p
            part := some []
            lines := if s.store.chainOf p = [] then List.replicate p.lines none else []
            handed := 0
            white := 0 })
    ∧ (s.link.outbound.length + s.link.reserved < 16 → s.link.reports < 15 →
      s.link.outbound ++ [⟨.report, 0xE2, 0, [byte1 m.number]⟩] <+: t.link.outbound)
    ∧ (m.isScan = false → t.feed = s.feed ∧ t.df = s.df ∧ t.scan = s.scan)
    ∧ (∀ d limit, m.source = .scan d limit →
      t.df = { s.df with startWaiting := some (.line d true) }
      ∧ t.scan = { s.scan with lineCounter := 0 }
      ∧ t.feed = { s.feed with
        doc := .scanning
        seq := .none
        tail := none
        tailSkip := false
        tailOffset := s.cfg.feed.offset })

/-- O9. The state as NRST ends, before FLT of the channels is looked at: every part as the manual gives it for power-on
reset, whatever the straps, the inputs and what the page memory holds. A channel whose FLT is active then enters FAULT
(R43, R186); O10 states that. Values that the manual does not name, as no event reads them before they are set, are the
model's (log 5); the counts shown are those of the headers when the recovery scan begins (log 31). -/
def Obligations.PowerOnValues : Prop :=
  ∀ (p : List Instr) (straps : Straps) (i : Inputs) (m : PageMemory),
    let s := State.powerOn p straps i m
    let n := if straps.hw then 2048 else 1728
    s.link = ⟨.unset, .b125000, none, .hunt, none, none, [],
        ⟨false, false, false, false, false, false, false, false⟩, false⟩
      ∧ (∀ ch, s.channel ch = ⟨.idle, none, false, [], none, 0, 0, none, 0, .none⟩)
      ∧ s.cfg.df = ⟨List.replicate 8 ⟨3200, 1600, 0, 1, 6400⟩, ⟨1600, 0, 1⟩, ⟨2000, 0, 1⟩,
          ⟨3000, 0, 1⟩, false, 1600, 20⟩
      ∧ s.cfg.rf = ⟨List.replicate 8 ⟨2400, 1200, 0, 1, 4800⟩, ⟨1200, 0, 1⟩, ⟨2000, 0, 1⟩,
          ⟨3000, 0, 1⟩, false, 1200, 20⟩
      ∧ s.cfg.feed = ⟨⟨false, 8⟩, ⟨false, 8⟩, ⟨false, 8⟩, ⟨false, 8⟩, 30, 2000, 24, 600⟩
      ∧ s.cfg.scan = ⟨false, 32, 4, false, 5000⟩
      ∧ s.cfg.print = ⟨800, 40, n / 4, 240, 80⟩
      ∧ s.cfg.reserveCode = 0
      ∧ s.cfg.power = ⟨60, false, 12⟩
      ∧ s.feed = ⟨⟨i.sne, false, none, false⟩, ⟨i.sns, false, none, false⟩, ⟨i.snp, false, none, false⟩,
          ⟨i.snc, false, none, false⟩, .none, .stopped, .none, none, false, 0⟩
      ∧ s.paperPresent = false ∧ s.coverOpen = false
      ∧ s.scan = ⟨List.replicate n 63, .idle, 0, .none⟩
      ∧ s.print = ⟨.empty, .idle, .none⟩
      ∧ s.path = ⟨[none, none, none, none], 0, 0, [], none⟩
      ∧ s.power = ⟨.off, .off, .off, 0, .standby, .stopped, .none, false,
          ⟨false, false, false, false, false, false⟩⟩
      ∧ s.store = ⟨m, [], [], 0, [], [], [], none, none, none, 0, 0, 0⟩
      ∧ s.storeStateCode = 0 ∧ s.reserveShown = 0
      ∧ (straps.bkv = false → s.freeShown = 0 ∧ s.retiredShown = 0)
      ∧ (straps.bkv = true →
        let headers (c : HeaderClass) : Nat :=
          ((List.range s.total).filter fun k => (PageMemory.read k m).header.classify s.total == c).length
        s.freeShown = headers .free ∧ s.retiredShown = headers .retired)
      ∧ s.startup = (if straps.bkv then .scan else .format)
      ∧ s.resetPhase = .none ∧ s.held = false ∧ s.straps = straps ∧ s.inputs = i ∧ s.pending = p

/-- O10. NRST stops the part, PFI stops the work on the page memory, and the end of NRST starts every block over what
the page memory holds; a channel whose FLT is active enters FAULT. The header writes begun are completed: those of the
turn in progress and then those of the line being written, or between turns the first of the ones that are due; a
format, and a recovery scan after it, leave the FREE marks made so far. The counts as operands, PFI inactive at the end
of NRST, and that PFI leaves NRST and a second PFI nothing to cut off are the model's choice (log 9), and so are the
stage STRAPS while NRST is active (log 26) and that a memory check cut off leaves the segment under test FREE (log 61).
PFI leaves a memory check, a format and a recovery scan as they are, and they go on: the model's choice (log 73). -/
def Obligations.ResetInputs : Prop :=
  (∀ (s : State) (marked bursts : Nat), s.held = false →
    let first := if s.store.transfer = none then s.store.making ++ s.store.rewrites else s.store.making
    let begun := s.store.memory.writeHeaders ((first.take bursts).map s.store.asWritten)
    let made : Store := { s.store with
      memory := s.store.memory.writeHeaders (s.store.making.map s.store.asWritten)
      making := [] }
    let cut : PageMemory := match s.writing? with
      | some (l, o) => (((made.lineStages l o).take (bursts - first.length)).getLast?.map Store.memory).getD begun
      | none => begun
    let cutOff (st : Store) (m : PageMemory) : Store :=
      { st with
        memory := m
        making := []
        rewrites := []
        transfer := none }
    let base : Store := if s.inputs.pfi = true then s.store else cutOff s.store cut
    let stopped (m : PageMemory) : State :=
      { s with
        held := true
        startup := .straps
        store := { base with memory := m } }
    (s.startup = .format → exec (.nrstAsserted marked bursts) s = .next
      (stopped (base.memory.freeAll (List.range (min marked s.total)))))
    ∧ (s.startup = .scan ∨ s.startup ≠ .format ∧ s.resetPhase = .rebuilding →
      exec (.nrstAsserted marked bursts) s = .next
        (stopped (base.memory.freeAll ((base.memory.scanFrees s.total).take marked))))
    ∧ (s.startup ≠ .format → s.startup ≠ .scan → s.resetPhase ≠ .rebuilding →
      exec (.nrstAsserted marked bursts) s = .next (stopped base.memory))
    ∧ (s.inputs.pfi = true → exec (.pfiAsserted bursts) s = .next s)
    ∧ (s.inputs.pfi = false →
      let t : State := { s with inputs := { s.inputs with pfi := true } }
      (s.power.state = .sleep → exec (.pfiAsserted bursts) s = .next t)
      ∧ (s.power.state ≠ .sleep →
        exec (.pfiAsserted bursts) s = .next { t with store := cutOff s.store cut })))
  ∧ (∀ (s : State) (straps : Straps), s.held = true →
    (s.inputs.fltd = false → s.inputs.fltr = false →
      exec (.powerOnReset straps) s = .next
        (State.powerOn s.pending straps { s.inputs with pfi := false } s.store.memory))
    ∧ ∃ t : State, exec (.powerOnReset straps) s = .next t.settle
      ∧ (t.df.state = .fault ↔ s.inputs.fltd = true)
      ∧ (t.rf.state = .fault ↔ s.inputs.fltr = true))

/-- O11. While NRST is active no command and no event but the end of NRST changes anything but the levels of the
inputs, and every output is inactive: TXD at mark, the head's data, clock, latch and strobes low (log 23). -/
def Obligations.HeldPartStandsStill : Prop :=
  ∀ s : State, s.held = true →
    (∀ i : Instr, (∀ straps, i ≠ .powerOnReset straps) →
      ∃ inputs, exec i s = .next { s with inputs := inputs })
    ∧ (∀ ch, s.phaseOutputs ch = ⟨false, false, false, false⟩)
    ∧ (∀ d, s.enable d = false) ∧ s.lamp = false ∧ s.cutter = false
    ∧ (∀ block, s.strobeLine block = false)
    ∧ s.txd = none ∧ s.headData = none ∧ s.headClock = false ∧ ∀ before : State, s.headLatch before = false

/-! ## The serial link -/

/-- O12. SET_LINK with a legal code records the rate and queues its reply, with the command still in hand; any other is
answered BAD_VALUE. -/
def Obligations.SetLinkOrdersTheRate : Prop :=
  ∀ (s : State) (tag code rsv : Byte), s.Hears →
    (∀ rate : Rate, [Rate.b125000, .b250000, .b500000, .b1000000][code.toNat]? = some rate → rsv = 0 →
      exec (.setLink tag code rsv) s = .next
        { s with link := { s.link with
            hand := some ⟨⟨0x10, tag, [code, rsv]⟩, .replied⟩
            rateChange := some rate
            outbound := s.link.outbound ++ [⟨.linkReply, 0x90, tag, [0x00, code]⟩] } })
    ∧ (3 < code.toNat ∨ rsv ≠ 0 →
      exec (.setLink tag code rsv) s = .next (s.replied 0x10 tag [0x03]))

/-- O13. TXD carries the eligible record as a frame of 11.1. The end of a record takes it out of the queue, and a frame
in hand that had no place is taken, and answered after what else follows (the model's choice, log 2); the end of the
SET_LINK reply sets the rate and READY, completes the command and, when the rate changes, discards a partial frame,
with a report that comes behind the place taken (the model's choice, log 43). That a partial frame goes on when the
rate ordered is the one in force is DEDUCED in log 33. -/
def Obligations.RecordSentLeavesTheQueue : Prop :=
  ∀ (s : State) (before after : List OutRecord) (r : OutRecord), s.held = false →
    s.power.state ≠ .sleep → s.Sends before r after →
    let covered := r.type :: r.tag :: (bytes2 r.payload.length ++ r.payload)
    s.txd = some (0xC3 :: (covered ++ wordBytes (crc16 covered)))
    ∧ (r.kind = .report ∨ r.kind = .reply →
      exec .recordSent s = .next
        ({ s with link := { s.link with
          outbound := before ++ after
          hand := s.link.hand.map (Hand.takenWith (before ++ after).length) } } : State).finish)
    ∧ (r.kind = .linkReply →
      let t : State :=
        { s with link := { s.link with
            outbound := before ++ after
            state := .ready
            rate := s.link.rateChange.getD s.link.rate
            rateChange := none
            hand := s.link.waiting.map fun f => Hand.takenWith (before ++ after).length ⟨f, .untaken⟩
            waiting := none } }
      exec .recordSent s = .next
        (if s.link.parser = .hunt ∨ t.link.rate = s.link.rate then t
          else ({ t with link := { t.link with parser := .hunt } } : State).linkFault .timeout).finish)

/-- O14. Every character by the parser's state: SYNC, the header with its LEN, the payload, the CRC, and what becomes
of a complete frame: in hand, and taken and answered when the queue has a place (in one event, the model's choice, log
2); waiting; or lost to RX_OVERRUN. While the part waits for the mark time after a wake, a character, and so the frame
of a command, is passed over (DEDUCED, log 28). -/
def Obligations.CharactersDriveTheParser : Prop :=
  (∀ s : State, s.held = false → s.power.state ≠ .sleep → s.power.entry = .none → s.link.awaitMark = true →
    (∀ c : Byte, exec (.rxCharacter c) s = .next s)
    ∧ ∀ (i : Instr) (f : Frame), i.frame? = some f → exec i s = .next s)
  ∧ ∀ (s : State) (c : Byte), s.Listens →
    (s.link.parser = .hunt → c ≠ 0xC3 → exec (.rxCharacter c) s = .next s)
    ∧ (s.link.parser = .hunt → c = 0xC3 → exec (.rxCharacter c) s = .next (s.setParser (.header [])))
    ∧ (∀ got, s.link.parser = .header got → got.length < 3 →
      exec (.rxCharacter c) s = .next (s.setParser (.header (got ++ [c]))))
    ∧ (∀ type tag lo, s.link.parser = .header [type, tag, lo] →
      exec (.rxCharacter c) s = .next (
        let len := lo.toNat + 256 * c.toNat
        if len = 0 then s.setParser (.check ⟨type, tag, []⟩ none)
        else if len ≤ 2304 then s.setParser (.payload type tag len [])
        else (s.setParser .hunt).linkFault .tooLong))
    ∧ (∀ type tag len got, s.link.parser = .payload type tag len got → got.length + 1 < len →
      exec (.rxCharacter c) s = .next (s.setParser (.payload type tag len (got ++ [c]))))
    ∧ (∀ type tag len got, s.link.parser = .payload type tag len got → got.length + 1 = len →
      exec (.rxCharacter c) s = .next (s.setParser (.check ⟨type, tag, got ++ [c]⟩ none)))
    ∧ (∀ f, s.link.parser = .check f none →
      exec (.rxCharacter c) s = .next (s.setParser (.check f (some c))))
    ∧ (∀ f lo, s.link.parser = .check f (some lo) →
      exec (.rxCharacter c) s = .next (
        let t := s.setParser .hunt
        if lo.toNat + 256 * c.toNat ≠ (crc16 f.covered).toNat then t.linkFault .badCrc
        else if s.link.hand = none then
          State.checkHand { t with link := { t.link with
            hand := some (Hand.takenWith s.link.outbound.length ⟨f, .untaken⟩) } }
        else if s.link.waiting = none then { t with link := { t.link with waiting := some f } }
        else t.linkFault .rxOverrun))

/-- O15. FRAMING_ERROR, CHARACTER_GAP_EXPIRY and WAKE_DISCARD discard what they find and raise their fault; a framing
error in the wait for the mark time after a wake is passed over (DEDUCED, log 28). A link fault sets its flag and raises its report; a report is admitted at the tail while fewer than 15 reports stand in the
queue and records and reservations number fewer than 16, and is dropped with REPORT_OVERFLOW set otherwise. -/
def Obligations.LinkFaultsAndReports : Prop :=
  (∀ s : State,
    (s.Listens → exec .framingError s = .next ((s.setParser .hunt).linkFault .framing))
    ∧ (s.held = false → s.power.state ≠ .sleep → s.power.entry = .none → s.link.awaitMark = true →
      exec .framingError s = .next s)
    ∧ (s.held = false → s.power.state ≠ .sleep → s.link.parser ≠ .hunt →
      exec .characterGapExpiry s = .next ((s.setParser .hunt).linkFault .timeout))
    ∧ (s.held = false → s.power.state ≠ .sleep → s.link.awaitMark = true →
      exec .wakeDiscard s = .next
        (({ s with link := { s.link with awaitMark := false } } : State).linkFault .wakeDiscard)))
  ∧ (∀ (s : State) (type : Byte) (payload : List Byte),
    s.report type payload =
      { s with link :=
          if (s.link.outbound.filter fun r => r.kind == .report).length < 15
              ∧ s.link.outbound.length
                + (if s.link.hand.map Hand.phase = some .taken ∨ s.link.hand.map Hand.phase = some .handed
                  then 1 else 0) < 16 then
            { s.link with outbound := s.link.outbound ++ [⟨.report, type, 0, payload⟩] }
          else { s.link with sticky := { s.link.sticky with reportOverflow := true } } })
  ∧ (∀ s : State,
    s.linkFault .badCrc = (s.onLink fun l => { l with
      sticky := { l.sticky with badCrc := true } }).report 0xE7 [0]
    ∧ s.linkFault .timeout = (s.onLink fun l => { l with
      sticky := { l.sticky with timeout := true } }).report 0xE7 [1]
    ∧ s.linkFault .rxOverrun = (s.onLink fun l => { l with
      sticky := { l.sticky with rxOverrun := true } }).report 0xE7 [2]
    ∧ s.linkFault .framing = (s.onLink fun l => { l with
      sticky := { l.sticky with framing := true } }).report 0xE7 [3]
    ∧ s.linkFault .wakeDiscard = s.report 0xE7 [4]
    ∧ s.linkFault .tooLong = (s.onLink fun l => { l with
      sticky := { l.sticky with framing := true } }).report 0xE7 [5])

/-- O16. A break empties the queue, drops the partial and the waiting frame, cancels a rate change, completes a
SET_LINK in hand, and leaves the link UNSET at 125000 baud; the lines of READ_LINES replies stand again in their
queues, and the sticky flags stay; then what follows, and the answer to a frame in hand that has its place now (that it
is answered in the same event, behind what else follows, is the model's choice, log 2). That a SET_LINK not yet
answered completes too, and that the marks of every reply removed are cleared, is DEDUCED in log 14. That a break ends
the wait for a mark time is DEDUCED in log 28; the order of a break and the end of a sleep entry (O58) is the model's
choice, log 52. -/
def Obligations.BreakUnsetsTheLink : Prop :=
  ∀ s : State, s.held = false → s.power.state ≠ .sleep → s.power.entry = .none →
    exec .breakDetected s = .next
      ({ s with
        link :=
          { state := .unset
            rate := .b125000
            rateChange := none
            parser := .hunt
            hand := (s.link.hand.filter fun h => h.frame.type != 0x10).map (Hand.takenWith 0)
            waiting := none
            outbound := []
            sticky := s.link.sticky
            awaitMark := false }
        path := { s.path with
          table := s.path.table.map fun e => e.map fun m =>
            { m with queue := m.queue.map fun l => { l with sending := false } } } } : State).finish

/-- O17. LNK's own refusals: in UNSET every command but SET_LINK is answered LINK_UNSET, and in start-up every command
but SET_LINK, GET_STATUS and GET_IDENTITY is answered BOOTING; nothing else changes. -/
def Obligations.LinkRefusesBeforeTheBlocks : Prop :=
  ∀ (s : State) (i : Instr) (f : Frame), s.Hears → i.frame? = some f → i.LengthFits →
    (s.link.state = .unset → f.type ≠ 0x10 → exec i s = .next (s.replied f.type f.tag [0x04]))
    ∧ (s.link.state = .ready → s.startup ≠ .done → f.type ≠ 0x10 → f.type ≠ 0x11 → f.type ≠ 0x12 →
      exec i s = .next (s.replied f.type f.tag [0x05]))

/-- O18. TAKE_COMMAND takes the frame in hand that has a place for its reply, and checks it: an unknown TYPE and a
wrong LEN are answered, any other frame has the effect of its command, and a waiting frame moves into the hand and is
answered in its turn; with no frame to take, as while the queue is full, nothing changes. The model does the same in
every event after which a frame can be taken, so that this event is left with nothing to do (the model's choice, log
2). -/
def Obligations.TakeCommandChecksAndServes : Prop :=
  (∀ (s : State) (f : Frame), s.Serves →
    let t (phase : HandPhase) : State := { s with link := { s.link with hand := some ⟨f, phase⟩ } }
    exec .takeCommand (t .untaken) = exec .takeCommand (t .taken)
    ∧ (∀ i : Instr, i.frame? = some f → i.LengthFits →
      exec .takeCommand (t .taken) = exec i s ∧ ∃ u, exec .takeCommand (t .taken) = .next u)
    ∧ ((∀ e ∈ commandLengths, e.1 ≠ f.type) →
      exec .takeCommand (t .taken) = .next (s.replied f.type f.tag [0x01]))
    ∧ (∀ e ∈ commandLengths, e.1 = f.type →
      f.payload.length < e.2.1 ∨ e.2.2 < f.payload.length →
      exec .takeCommand (t .taken) = .next (s.replied f.type f.tag [0x02]))
    ∧ (∀ g : Frame, (∀ e ∈ commandLengths, e.1 ≠ f.type) →
      let u := s.replied f.type f.tag [0x01]
      exec .takeCommand { t .taken with link := { (t .taken).link with waiting := some g } } = .next
        (State.checkHand { u with link := { u.link with
          hand := some (Hand.takenWith (s.link.outbound.length + 1) ⟨g, .untaken⟩) } })))
  ∧ (∀ s : State, (∀ f, s.link.hand ≠ some ⟨f, .taken⟩) →
    (∀ f, s.link.hand = some ⟨f, .untaken⟩ → 16 ≤ s.link.outbound.length) → exec .takeCommand s = .next s)
  ∧ ∀ s : State, s.Inv → 16 ≤ s.link.outbound.length → exec .takeCommand s = .next s

/-- O19. With the link READY, in start-up and after it, GET_STATUS answers the status record of 11.5 and with clear
option 1 clears the flags; GET_IDENTITY answers the identity record; a wrong option or reserved byte is answered
BAD_VALUE and clears nothing. -/
def Obligations.StatusAndIdentity : Prop :=
  ∀ (s : State) (tag clear rsv : Byte), s.Hears → s.link.state = .ready →
    (clear.toNat ≤ 1 → rsv = 0 →
      let t := s.replied 0x11 tag ([0x00, s.power.state.code, s.power.scan.code, s.power.print.code,
          s.power.motor.code, s.df.state.code, s.rf.state.code]
        ++ bytes4 s.df.position.toNat ++ bytes4 s.rf.position.toNat
        ++ [s.feed.doc.code, markByte s.feed.paper.debounced, markByte s.feed.cover.debounced,
          s.storeStateCode]
        ++ bytes2 s.freeShown ++ bytes2 s.reserveShown ++ bytes2 s.retiredShown
        ++ s.path.table.flatMap (fun e => match e with
          | none => [0, 0xFF, 0xFF]
          | some m => [byte1 m.number, m.state.code, routeCode m.source m.sink])
        ++ [s.link.sticky.byte])
      exec (.getStatus tag clear rsv) s = .next
        (if clear = 1 then
          { t with link := { t.link with
            sticky := ⟨false, false, false, false, false, false, false, false⟩ } }
        else t))
    ∧ (1 < clear.toNat ∨ rsv ≠ 0 →
      exec (.getStatus tag clear rsv) s = .next (s.replied 0x11 tag [0x03]))
    ∧ exec (.getIdentity tag rsv) s = .next (
      if rsv = 0 then
        s.replied 0x12 tag ([0x00, 1] ++ bytes2 s.headWidth ++ bytes2 (s.headWidth / 8)
          ++ [byte1 (s.total / 512)] ++ bytes2 s.total ++ bytes2 s.retiredShown
          ++ [s.storeStateCode, byte1 s.store.docsRecovered] ++ bytes2 s.store.pagesRecovered
          ++ bytes2 s.store.pagesDiscarded ++ [0x07, 0x0F])
      else s.replied 0x12 tag [0x03])

/-! ## The stepping channels -/

/-- O20. SET_PROFILE replaces one profile whatever the channel does, or is answered BAD_VALUE; a ramped move latches
its profile at its start. SET_CHANNEL replaces its three values on a channel without a user and raises each line timing
that is below the new pull-in period; with a user it is refused IN_USE. -/
def Obligations.ProfileAndChannelReplace : Prop :=
  ((∀ (s : State) (tag ch prof : Byte) (ws wt f d k16 rsv : Word16), s.Serves →
    exec (.setProfile tag ch prof ws wt f d k16 rsv) s = .next (
      if 1 < ch.toNat ∨ 7 < prof.toNat ∨ ws.toNat < 40 ∨ wt.toNat < 40 ∨ d.toNat = 0 ∨ 4095 < d.toNat
          ∨ d.toNat ≤ f.toNat ∨ 16383 < k16.toNat ∨ rsv ≠ 0 then
        s.replied 0x30 tag [0x03]
      else
        (s.replied 0x30 tag [0x00]).onChannelCfg (if ch = 0 then .df else .rf) fun c =>
          let p : Profile := ⟨ws.toNat, wt.toNat, f.toNat, d.toNat, k16.toNat⟩
          { c with profiles := c.profiles.set prof.toNat p }))
  ∧ ∀ (cfg : ChannelSettings) (n : Nat) (forward : Bool) (dist : Nat) (c : Channel) (p : Profile),
    cfg.profiles[n]? = some p →
    ∃ x, (c.startOrder cfg (.ramp n forward dist)).run = .ramp x ∧ x.profile = p)
  ∧ ∀ (s : State) (tag ch inv : Byte) (pullIn : Word16) (hold rsv : Byte), s.Serves →
    exec (.setChannel tag ch inv pullIn hold rsv) s = .next (
      let c : ChannelId := if ch = 0 then .df else .rf
      if 1 < ch.toNat ∨ 1 < inv.toNat ∨ pullIn.toNat < 400 ∨ rsv ≠ 0 then s.replied 0x32 tag [0x03]
      else if (s.channel c).user ≠ none then s.replied 0x32 tag [0x07]
      else
        (s.replied 0x32 tag [0x00]).onChannelCfg c fun x =>
          { x with
            invert := inv == 1
            pullIn := pullIn.toNat
            holdCode := hold.toNat
            v1 := { x.v1 with w := max x.v1.w pullIn.toNat }
            v2 := { x.v2 with w := max x.v2.w pullIn.toNat }
            v4 := { x.v4 with w := max x.v4.w pullIn.toNat } })

/-- O21. SET_LINE_TIMING stores W, raised to the pull-in period, with F and D as given, and replies the W stored; a
line run latches its timing at its start. -/
def Obligations.SetLineTimingClamps : Prop :=
  (∀ (s : State) (tag ch dens : Byte) (w f d rsv : Word16), s.Serves →
    exec (.setLineTiming tag ch dens w f d rsv) s = .next (
      let c : ChannelId := if ch = 0 then .df else .rf
      let stored := max w.toNat (s.channelCfg c).pullIn
      if 1 < ch.toNat ∨ 2 < dens.toNat ∨ w.toNat < 40 ∨ d.toNat = 0 ∨ 4095 < d.toNat
          ∨ d.toNat ≤ f.toNat ∨ rsv ≠ 0 then
        s.replied 0x31 tag [0x03]
      else
        (s.replied 0x31 tag (0x00 :: bytes2 stored)).onChannelCfg c fun x =>
          let t : LineTiming := ⟨stored, f.toNat, d.toNat⟩
          if dens = 0 then { x with v1 := t }
          else if dens = 1 then { x with v2 := t }
          else { x with v4 := t }))
  ∧ ∀ (cfg : ChannelSettings) (v : Density) (gated : Bool) (c : Channel),
    ∃ x, (c.startOrder cfg (.line v gated)).run = .line x
      ∧ x.timing = (match v with
        | .v1 => cfg.v1
        | .v2 => cfg.v2
        | .v4 => cfg.v4)

/-- O22. MOVE_STEPS by the cases of R30: the host becomes the user with its order kept for the start, and the reply
carries the position. -/
def Obligations.MoveStepsByCases : Prop :=
  ∀ (s : State) (tag ch prof dir rsv : Byte) (dist : Word16), s.Serves →
    exec (.moveSteps tag ch prof dir rsv dist) s = .next (
      let c : ChannelId := if ch = 0 then .df else .rf
      if 1 < ch.toNat ∨ 7 < prof.toNat ∨ 1 < dir.toNat ∨ dist.toNat = 0 ∨ rsv ≠ 0 then
        s.replied 0x33 tag [0x03]
      else if (s.channel c).state = .fault then s.replied 0x33 tag [0x06]
      else if (s.channel c).user ≠ none then s.replied 0x33 tag [0x07]
      else if s.feed.cover.debounced = true then s.replied 0x33 tag [0x06]
      else
        ((s.replied 0x33 tag (0x00 :: bytes4 (s.channel c).position.toNat)).onChannel c fun x =>
          { x with
            user := some .host
            releasing := false
            holdTimer := none
            startWaiting := some (.ramp prof.toNat (dir == 0) dist.toNat) }).settle)

/-- O23. STOP_CHANNEL by the state of the channel: refused under a move or a feed sequence, a stop ordered for a host
move that steps, a waiting host start dropped, a userless hold ended, no change otherwise. Which state the reply shows
for a ramped move is DEDUCED in log 11, and that a latched hold time of 0 shows IDLE in log 44. CLEAR_FAULT takes a
channel in FAULT to IDLE when its FLT is inactive, is answered BUSY when it is active, and changes nothing otherwise;
the sticky flags stay. -/
def Obligations.StopAndClearByState : Prop :=
  (∀ (s : State) (tag ch rsv : Byte), s.Serves →
    let c : ChannelId := if ch = 0 then .df else .rf
    let x := s.channel c
    let stopped (state : Byte) (f : Channel → Channel) : State :=
      ((s.replied 0x34 tag [0x00, state]).onChannel c f).settle
    (1 < ch.toNat ∨ rsv ≠ 0 → exec (.stopChannel tag ch rsv) s = .next (s.replied 0x34 tag [0x03]))
    ∧ (ch.toNat ≤ 1 → rsv = 0 →
      ((∃ n, x.user = some (.move n)) ∨ x.user = some .feed →
        exec (.stopChannel tag ch rsv) s = .next (s.replied 0x34 tag [0x07]))
      ∧ (x.user = none ∨ x.user = some .host →
        (x.state = .stopping ∨ x.state = .fault →
          exec (.stopChannel tag ch rsv) s = .next (stopped x.state.code id))
        ∧ (x.state = .idle → x.user = none →
          exec (.stopChannel tag ch rsv) s = .next (stopped 0 id))
        ∧ (x.state = .holding → x.user = none →
          exec (.stopChannel tag ch rsv) s = .next
            (stopped 0 fun x => { x with state := .idle, holdTimer := none }))
        ∧ (x.state = .idle ∨ x.state = .holding → x.user = some .host →
          exec (.stopChannel tag ch rsv) s = .next
            (stopped (if x.state = .holding ∧ (x.queue ≠ [] ∨ x.holdLatched ≠ 0) then 1 else 0) fun x =>
              match x.queue with
              | u :: rest =>
                { x with startWaiting := none, user := some u, releasing := false, queue := rest }
              | [] =>
                let y := { x with startWaiting := none, user := none, releasing := false }
                if x.state = .idle then y
                else if x.holdLatched = 0 then { y with state := .idle, holdTimer := none }
                else { y with holdTimer := some x.holdLatched }))
        ∧ (∀ y : RampRun, x.state = .ramping → x.run = .ramp y →
          exec (.stopChannel tag ch rsv) s = .next
            (stopped (if min (y.r - 1) y.a = 0 then 1 else 5) fun x =>
              { x with run := .ramp { y with stopOrdered := true } })))))
  ∧ ∀ (s : State) (tag ch rsv : Byte), s.Serves →
    exec (.clearFault tag ch rsv) s = .next (
      let c : ChannelId := if ch = 0 then .df else .rf
      let flt := if ch = 0 then s.inputs.fltd else s.inputs.fltr
      if 1 < ch.toNat ∨ rsv ≠ 0 then s.replied 0x35 tag [0x03]
      else if (s.channel c).state = .fault ∧ flt = true then s.replied 0x35 tag [0x06]
      else if (s.channel c).state = .fault then
        ((s.replied 0x35 tag [0x00]).onChannel c fun x => { x with state := .idle }).settle
      else (s.replied 0x35 tag [0x00]).settle)

/-- O24. A step moves the position by one in its direction, whatever direction invert is, and the phase index by one in
the direction of rotation; the other channel, the settings and the sensors stay; with the cover open no step is issued
and none begins. The state of the channel after it: RAMPING, STOPPING once a stop has taken effect, HOLDING after the
last step, with the hold timer or the next user; in a line run the next step, the wait for the capture, or the
boundary, where the run ends, changes its gating, holds for its grant or goes on. How an order starts, how gating and
end orders are kept, and the grants of gated lines (the slot that a grant takes is the model's choice, log 38). That an
order of RF held behind a strobe starts also when the strobe ends without strobe done is the model's choice (log 66),
and so is what a change of gating (log 71) and an end order (log 53) do to a run that is still kept as the start
waiting: the change replaces its gating, the end order drops it. -/
def Obligations.StepMovesOneHalfStep : Prop :=
  (∀ (s : State) (ch : ChannelId), s.feed.cover.debounced = true → exec (.channelStep ch) s = .next s)
  ∧ (∀ (s : State) (ch : ChannelId) (forward : Bool), s.held = false → s.power.state ≠ .sleep →
    s.feed.cover.debounced = false →
    ((∃ x : RampRun, (s.channel ch).run = .ramp x ∧ x.forward = forward
        ∧ ((s.channel ch).state = .ramping ∨ (s.channel ch).state = .stopping))
      ∨ (∃ x : LineRun, (s.channel ch).run = .line x ∧ forward = true ∧ x.period ≠ none
        ∧ (s.channel ch).state = .lineRun)) →
    ∃ t, exec (.channelStep ch) s = .next t
      ∧ (t.channel ch).position
        = (if forward then (s.channel ch).position + 1 else (s.channel ch).position - 1)
      ∧ (t.channel ch).phase
        = (if forward = (s.channelCfg ch).invert then (s.channel ch).phase - 1
          else (s.channel ch).phase + 1)
      ∧ (∀ other, other ≠ ch → (t.channel other).position = (s.channel other).position
        ∧ (t.channel other).phase = (s.channel other).phase)
      ∧ t.cfg = s.cfg ∧ t.inputs = s.inputs ∧ t.link.hand = s.link.hand
      ∧ t.link.parser = s.link.parser ∧ t.link.state = s.link.state
      ∧ s.link.outbound <+: t.link.outbound)
  ∧ (∀ (s : State) (ch : ChannelId) (forward : Bool), s.held = false →
    s.power.state ≠ .sleep → s.feed.cover.debounced = false → s.feed.seq = .none →
    let cfg := s.channelCfg ch
    let c := s.channel ch
    let moved : Channel := { c with
      position := if forward then c.position + 1 else c.position - 1
      phase := if forward = cfg.invert then c.phase - 1 else c.phase + 1 }
    let comesTo (next : Channel) : Prop := exec (.channelStep ch) s = .next (s.onChannel ch fun _ => next).settle
    let rests : Channel := { moved with
      state := .holding
      run := .none
      holdLatched := 10 * cfg.holdCode
      holdTimer := none }
    let passes : Prop :=
      (∀ u rest, c.queue = u :: rest → comesTo { rests with
        user := some u
        releasing := false
        queue := rest })
      ∧ (c.queue = [] → cfg.holdCode = 0 → comesTo { rests with
        state := .idle
        user := none
        releasing := false })
      ∧ (c.queue = [] → cfg.holdCode ≠ 0 → comesTo { rests with
        user := none
        releasing := false
        holdTimer := some (10 * cfg.holdCode) })
    let begins (x : LineRun) : LineRun :=
      if x.timing.d ≤ x.acc + x.timing.f then
        { x with
          period := some (x.timing.w + 1)
          acc := x.acc + x.timing.f - x.timing.d }
      else
        { x with
          period := some x.timing.w
          acc := x.acc + x.timing.f }
    (∀ x : RampRun, c.run = .ramp x → c.state = .ramping ∨ c.state = .stopping → x.forward = forward →
      let left := if x.stopOrdered = true then min (x.r - 1) x.a else x.r - 1
      (0 < left → comesTo { moved with
        state := if x.stopOrdered = true then .stopping else .ramping
        run := .ramp (RampRun.plan { x with r := left }) })
      ∧ (left = 0 → c.user = some .host ∨ c.releasing = true → passes))
    ∧ (∀ (x : LineRun) (p : Nat), c.run = .line x → c.state = .lineRun → x.period = some p →
      forward = true →
      let y : LineRun := { x with
        stepsLeft := x.stepsLeft - 1
        period := none }
      (x.stopOrdered = true → (c.releasing = false → comesTo rests) ∧ (c.releasing = true → passes))
      ∧ (x.stopOrdered = false →
        (1 < x.stepsLeft → comesTo { moved with run := .line (begins y) })
        ∧ (x.stepsLeft ≤ 1 → x.waiting = true → comesTo { moved with run := .line y })
        ∧ (x.stepsLeft ≤ 1 → x.waiting = false →
          (x.endOrdered = true → (c.releasing = false → comesTo rests) ∧ (c.releasing = true → passes))
          ∧ (x.endOrdered = false →
            let z : LineRun := { y with
              gated := x.gatingChange.getD x.gated
              gatingChange := none }
            (z.gated = true → comesTo { moved with
              state := .lineHold
              run := .line z })
            ∧ (z.gated = false → comesTo { moved with run := .line (begins { z with
              stepsLeft := match x.density with
                | .v1 => 4
                | .v2 => 2
                | .v4 => 1
              waiting := false }) }))))))
  ∧ (∀ (s : State) (ch : ChannelId) (o : Order), (s.channel ch).startWaiting = some o →
    let stopped := (s.channel ch).state = .idle ∨ (s.channel ch).state = .holding
    (s.power.motor = .on → s.feed.cover.debounced = false → stopped → (ch = .rf → s.print.inStrobe = false) →
      ruleStart ch s = some (s.onChannel ch (Channel.startOrder (s.channelCfg ch) o)))
    ∧ (s.power.motor ≠ .on ∨ s.feed.cover.debounced = true ∨ ¬stopped
        ∨ (ch = .rf ∧ s.print.inStrobe = true) → ruleStart ch s = none))
  ∧ (∀ (cfg : ChannelSettings) (o : Order) (c : Channel),
    let t := c.startOrder cfg o
    t.startWaiting = none ∧ t.holdTimer = none ∧ t.user = c.user ∧ t.position = c.position
      ∧ t.phase = c.phase
      ∧ (∀ n forward dist, o = .ramp n forward dist → t.state = .ramping)
      ∧ (∀ d, o = .line d true → t.state = .lineHold)
      ∧ (∀ d, o = .line d false → t.state = .lineRun))
  ∧ (∀ (c : Channel) (x : LineRun) (gated : Bool) (hold : Nat), c.run = .line x → c.startWaiting = none →
    (c.state = .lineHold → c.releasing = false →
      c.setGating true = { c with run := .line { x with gated := true } }
      ∧ (∃ y : LineRun, c.setGating false = { c with
          state := .lineRun
          run := .line y } ∧ y.gated = false ∧ y.waiting = false ∧ y.stepsLeft = x.density.steps
        ∧ (y.period = some x.timing.w ∨ y.period = some (x.timing.w + 1)))
      ∧ c.endLine hold = { c with
        state := .holding
        run := .none
        holdLatched := hold
        holdTimer := none })
    ∧ (c.state = .lineRun →
      c.setGating gated = { c with run := .line { x with gatingChange := some gated } }
      ∧ c.endLine hold = { c with run := .line { x with endOrdered := true } }
      ∧ (x.gated = true → x.waiting = true → x.period ≠ none →
        c.captureDone hold = { c with run := .line { x with waiting := false } })
      ∧ (x.gated = true → x.waiting = true → x.period = none →
        c.captureDone hold = c.boundary hold { x with waiting := false }
        ∧ ∃ y : LineRun, c.strobeDone = { c with run := .line y } ∧ y.waiting = false
          ∧ (y.period = some x.timing.w ∨ y.period = some (x.timing.w + 1)) ∧ y.stepsLeft = x.stepsLeft)
      ∧ (x.gated = false ∨ x.waiting = false → c.captureDone hold = c ∧ c.strobeDone = c)))
  ∧ (∀ (c : Channel) (d : Density) (before gated : Bool) (hold : Nat), c.startWaiting = some (.line d before) →
    (∀ x, c.run ≠ .line x) →
    c.setGating gated = { c with startWaiting := some (.line d gated) }
    ∧ c.endLine hold = { c with startWaiting := none })
  ∧ (∀ (s : State) (m : Move) (x : LineRun), (s.moves.map Move.id).Nodup → m ∈ s.moves →
    s.df.state = .lineHold → s.df.run = .line x → x.gated = true → s.df.user = some (.move m.id) →
    s.df.releasing = false →
    (m.isScan = true → m.state = .running → 0 < m.room → m.headerLeft = 0 → m.blankDue = 0 →
      m.granted = none → s.scan.lineCounter < 8191 →
      ∃ t, ruleScanGrant s = some t
        ∧ t.df.state = .lineRun
        ∧ (∃ y : LineRun, t.df.run = .line y ∧ y.waiting = true ∧ y.stepsLeft = x.density.steps
          ∧ (y.period = some x.timing.w ∨ y.period = some (x.timing.w + 1)))
        ∧ t.move? m.id = some { m with granted := some s.freeSlot }
        ∧ t.scan.capture = .exposing ⟨s.freeSlot, m.id, s.cfg.scan, s.scan.table, s.scan.lineCounter⟩
        ∧ t.scan.table = s.scan.table ∧ t.scan.lineCounter = s.scan.lineCounter)
    ∧ (m.room = 0 ∨ 0 < m.headerLeft ∨ 0 < m.blankDue ∨ m.state ≠ .running → ruleScanGrant s = none))
  ∧ ∀ (s : State) (m : Move) (x : LineRun), s.serving? = some m → s.rf.state = .lineHold →
    s.rf.run = .line x → x.gated = true → s.rf.user = some (.move m.id) → s.rf.releasing = false →
    (s.print.load = .empty ∨ s.print.strobe ≠ .idle → rulePrintGrant s = none)
    ∧ (s.print.load ≠ .empty → s.print.strobe = .idle →
      rulePrintGrant s = some (s.onChannel .rf fun c => { c with
        state := .lineRun
        run := .line { x with
          stepsLeft := x.density.steps
          waiting := true
          period := none } }).boundaryAtHead)

/-- O25. The position and the phase index of a channel change at a step of that channel and at no other command or
event, but for the end of NRST. -/
def Obligations.PositionChangesOnlyAtSteps : Prop :=
  ∀ (i : Instr) (s t : State) (ch : ChannelId), exec i s = .next t → i ≠ .channelStep ch →
    (∀ straps, i ≠ .powerOnReset straps) →
    (t.channel ch).position = (s.channel ch).position ∧ (t.channel ch).phase = (s.channel ch).phase

/-- O26. The fractional cruise period: from accumulator 0, D cruise steps take D·W + F ticks, the accumulator comes
back to 0, and every period is W or W + 1. The period of a ramped move's step, by the first of the three cases of R27:
deceleration, acceleration, cruise or plateau; the values at the start of the move. -/
def Obligations.StepPeriods : Prop :=
  (∀ w f d : Nat, f < d →
    let acc (k : Nat) : Nat := Nat.rec 0 (fun _ a => (cruisePeriod w f d a).2) k
    ((List.range d).map fun k => (cruisePeriod w f d (acc k)).1).sum = d * w + f
      ∧ acc d = 0
      ∧ ∀ k, acc k < d ∧ ((cruisePeriod w f d (acc k)).1 = w ∨ (cruisePeriod w f d (acc k)).1 = w + 1))
  ∧ (∀ x : RampRun,
    (x.r ≤ x.a →
      x.plan = { x with
        q := min (x.q + x.profile.k16) x.qs
        period := min (x.q + x.profile.k16) x.qs / 16 })
    ∧ (x.a + 1 < x.r → x.qt < x.q →
      x.plan = { x with
        period := x.q / 16
        q := max (x.q - x.profile.k16) x.qt
        a := x.a + 1 })
    ∧ (x.a < x.r → (x.r = x.a + 1 ∨ x.q ≤ x.qt) → x.q = x.qt →
      x.plan = (let y := x.acc + x.profile.f
        if x.profile.d ≤ y then { x with period := x.profile.wt + 1, acc := y - x.profile.d }
        else { x with period := x.profile.wt, acc := y }))
    ∧ (x.a < x.r → (x.r = x.a + 1 ∨ x.q ≤ x.qt) → x.q ≠ x.qt →
      x.plan = { x with period := x.q / 16 }))
  ∧ ∀ (p : Profile) (forward : Bool) (dist : Nat),
    let qs := if p.ws ≤ p.wt ∨ p.k16 = 0 then 16 * p.wt else 16 * p.ws
    RampRun.start p forward dist
      = RampRun.plan ⟨p, forward, qs, 16 * p.wt, qs, 0, dist, 0, 0, false⟩

/-- O27. HOLD_TIMER_EXPIRY takes the channel to IDLE; DRIVER_FAULT enters FAULT with everything released, the sticky
flag set and MOTOR_FAULT raised, and an activation in FAULT, like an FLT that goes inactive, is only the level of the
input. The moves that were user or requester fail; on DF a document that moves or waits for DF is JAMMED, or gone when
no sheet is seen, any other document stays, and on RF the head is empty and a cut ends. That MOTOR_FAULT stands before
the DOC_EVENT of the document is the model's choice (log 46), and so are that an FLT which goes inactive changes the
level alone (log 15) and that no arbitration runs between the ends of several moves (log 67). -/
def Obligations.HoldAndDriverFaultEvents : Prop :=
  ∀ (s : State) (ch : ChannelId), s.held = false → s.power.state ≠ .sleep →
    ((s.channel ch).holdTimer ≠ none →
      exec (.holdTimerExpiry ch) s = .next
        (s.onChannel ch fun c => { c with state := .idle, holdTimer := none }).settle)
    ∧ ((s.channel ch).state ≠ .fault →
      ∃ t : State, exec (.driverFault ch true) s = .next t.settle
        ∧ t.channel ch = { s.channel ch with
          state := .fault
          user := none
          releasing := false
          queue := []
          startWaiting := none
          holdTimer := none
          run := .none }
        ∧ (if ch = .df then t.link.sticky.dfFault else t.link.sticky.rfFault) = true
        ∧ t.inputs = (if ch = .df then { s.inputs with fltd := true }
          else { s.inputs with fltr := true })
        ∧ (s.link.outbound.length + s.link.reserved < 16 → s.link.reports < 15 →
          s.link.outbound ++ [⟨.report, 0xE9, 0, [if ch = .df then 0 else 1]⟩] <+: t.link.outbound)
        ∧ t.cfg = s.cfg ∧ t.scan.table = s.scan.table
        ∧ (∀ m ∈ s.moves, (s.moves.map Move.id).Nodup → m.live = true →
          (s.channel ch).user = some (.move m.id) ∨ .move m.id ∈ (s.channel ch).queue →
          ∃ n, t.move? m.id = some n ∧ n.state = .failed ∧ n.cause = some .motorFault)
        ∧ (ch = .rf → t.print = ⟨.empty, .idle, .none⟩)
        ∧ (ch = .df → s.feedHeld = false →
          let moving := s.feed.doc = .loading ∨ s.feed.doc = .scanning ∨ s.feed.doc = .ejecting
            ∨ (s.feed.doc = .settling ∧ .feed ∈ s.df.queue)
          let sheet := s.feed.docEntry.debounced = true ∨ s.feed.docScan.debounced = true
          (moving → t.feed.doc = if sheet then .jammed else .none) ∧ (¬moving → t.feed.doc = s.feed.doc)))
    ∧ (∀ active : Bool, (s.channel ch).state = .fault ∨ active = false →
      exec (.driverFault ch active) s = .next
        ({ s with inputs := if ch = .df then { s.inputs with fltd := active }
          else { s.inputs with fltr := active } } : State).settle)

/-! ## Document and paper feed -/

/-- O28. SET_FEED replaces every feed setting and forms every asserted reading by the new polarities, or is answered
BAD_VALUE. -/
def Obligations.SetFeedReplaces : Prop :=
  ∀ (s : State) (tag pE pS pP pC dE dS dP dC settle rsv : Byte) (preload offset distance : Word16),
    s.Serves →
    exec (.setFeed tag pE pS pP pC dE dS dP dC settle rsv preload offset distance) s = .next (
      if 1 < pE.toNat ∨ 1 < pS.toNat ∨ 1 < pP.toNat ∨ 1 < pC.toNat ∨ dE.toNat = 0 ∨ dS.toNat = 0
          ∨ dP.toNat = 0 ∨ dC.toNat = 0 ∨ preload.toNat = 0 ∨ distance.toNat = 0 ∨ 1023 < offset.toNat
          ∨ rsv ≠ 0 then
        s.replied 0x36 tag [0x03]
      else
        let sensor (x : Sensor) (reading : Bool) (debounce : Nat) : Sensor :=
          { x with
            reading := reading
            timer :=
              if x.known = false ∨ reading = x.debounced then none
              else if x.timer.isSome then x.timer
              else some debounce }
        let t := s.replied 0x36 tag [0x00]
        { t with
          cfg := { t.cfg with feed :=
            ⟨⟨pE == 1, dE.toNat⟩, ⟨pS == 1, dS.toNat⟩, ⟨pP == 1, dP.toNat⟩, ⟨pC == 1, dC.toNat⟩,
              settle.toNat, preload.toNat, offset.toNat, distance.toNat⟩ }
          feed := { t.feed with
            docEntry := sensor s.feed.docEntry (s.inputs.sne != (pE == 1)) dE.toNat
            docScan := sensor s.feed.docScan (s.inputs.sns != (pS == 1)) dS.toNat
            paper := sensor s.feed.paper (s.inputs.snp != (pP == 1)) dP.toNat
            cover := sensor s.feed.cover (s.inputs.snc != (pC == 1)) dC.toNat } })

/-- O29. EJECT by the cases of R61: a LOADED document becomes EJECTING with cause COMMAND. -/
def Obligations.EjectByCases : Prop :=
  ∀ (s : State) (tag rsv : Byte), s.Serves →
    exec (.eject tag rsv) s = .next (
      if rsv ≠ 0 then s.replied 0x37 tag [0x03]
      else if s.scanBusy then s.replied 0x37 tag [0x07]
      else if s.feed.doc = .none ∨ s.feed.doc = .jammed then s.replied 0x37 tag [0x0F]
      else if s.feed.doc ≠ .loaded ∨ s.feed.cover.debounced = true ∨ s.df.state = .fault then
        s.replied 0x37 tag [0x06]
      else
        ((({ s.replied 0x37 tag [0x00] with feed := { s.feed with doc := .ejecting } } : State).report
          0xE3 [5, 6, 0, 0]).settle))

/-- O30. A change of a sensor input changes the asserted reading by the polarity and starts or stops the debounce
timer; the expiry takes the reading, and a command that can be answered for it is answered after what else follows (the
model's choice, log 2). A DOC_ENTRY taken PRESENT with the document NONE starts to settle, one taken ABSENT while it
settles takes the sheet away, the last document sensor taken ABSENT clears a JAMMED document, the end of the settle
time makes the load due, and the first states after power-on set the document state once both document sensors are
known (DEDUCED in log 13); that a first DOC_SCAN PRESENT lets a shading run go on is the model's choice (log 54). A
DOC_SCAN taken PRESENT acts by the document and its sequence, in a SEEK or an EJECT whose move still waits for MOTOR as
at the start of the sequence, and one taken ABSENT while SEEK decelerates changes nothing (both DEDUCED, log 17). The
sequences: LOAD with its SEEK and its ALIGN, EJECT with its request for DF and the next sheet, and the steps and the
ends of GAP (that the steps which end the last line count too is DEDUCED in log 34), which is over when the run of DF
has become gated. That no arbitration runs between the ends of several moves which a jam fails is the model's choice
(log 67). -/
def Obligations.SensorsAndSheets : Prop :=
  (∀ (s : State) (id : SensorId) (level : Bool), s.held = false → s.power.state ≠ .sleep →
    (s.power.entry = .none → s.inputs.sensor id ≠ level →
      exec (.sensorInputChange id level) s = .next (
        let c := s.cfg.feed.sensor id
        let t : State := { s with inputs := s.inputs.setSensor id level }
        t.onFeed (Feed.onSensor id fun x =>
          { x with
            reading := level != c.polarity
            timer :=
              if x.known = false ∨ (level != c.polarity) = x.debounced then none
              else if x.timer.isSome then x.timer
              else some c.debounce })))
    ∧ ((s.feed.sensor id).timer ≠ none →
      ∃ t : State, exec (.debounceExpiry id) s = .next t.finish
        ∧ t.feed.sensor id = ⟨(s.feed.sensor id).reading, (s.feed.sensor id).reading, none, true⟩
        ∧ (∀ other, other ≠ id → t.feed.sensor other = s.feed.sensor other)
        ∧ t.cfg = s.cfg ∧ t.inputs = s.inputs ∧ t.df.position = s.df.position
        ∧ t.rf.position = s.rf.position ∧ t.scan.table = s.scan.table))
  ∧ (∀ s : State, s.held = false → s.power.state ≠ .sleep →
    (s.feed.docEntry.timer ≠ none → s.feed.docEntry.reading = true → s.feed.doc = .none →
      s.feedHeld = false → s.feed.docEntry.known = true → s.feed.docScan.known = true →
      exec (.debounceExpiry .docEntry) s = .next
        (let t := ({ s with feed := { s.feed with
            docEntry := ⟨true, true, none, true⟩
            doc := .settling } } : State).report 0xE3 [1, 0, 0, 0]
        ({ t with feed := { t.feed with
            settle := if s.cfg.feed.settleCode = 0 then .expired
              else .running (10 * s.cfg.feed.settleCode) } } : State).finish))
    ∧ (s.feed.docEntry.timer ≠ none → s.feedHeld = false → s.feed.docEntry.known = true →
      s.feed.docScan.known = true →
      let t (present : Bool) : State := { s with feed := { s.feed with docEntry := ⟨present, present, none, true⟩ } }
      let comesTo (u : State) : Prop := exec (.debounceExpiry .docEntry) s = .next u.finish
      (s.feed.docEntry.reading = true → s.feed.doc ≠ .none → comesTo (t true))
      ∧ (s.feed.docEntry.reading = false →
        (s.feed.doc = .settling → comesTo (((t false).onChannel .df
          (Channel.giveUp .feed (10 * s.cfg.df.holdCode))).enterNone .removed))
        ∧ (s.feed.doc = .jammed → s.feed.docScan.debounced = false → comesTo ((t false).enterNone .cleared))
        ∧ (s.feed.doc = .jammed → s.feed.docScan.debounced = true → comesTo (t false))
        ∧ (s.feed.doc ≠ .settling → s.feed.doc ≠ .jammed → comesTo (t false))))
    ∧ (∀ ms, s.feed.settle = .running ms →
      exec .settleTimerExpiry s = .next
        ({ s with feed := { s.feed with settle := .expired } } : State).settle)
    ∧ (∀ id, (s.feed.sensor id).known = false → id ≠ .cover ∨ (s.feed.sensor id).reading = false →
      exec (.firstReadingsSteady id) s = .next
        (let t := s.onFeed (Feed.onSensor id fun x => ⟨x.reading, x.reading, none, true⟩)
        if ((id = .docEntry ∧ s.feed.docScan.known = true)
            ∨ (id = .docScan ∧ s.feed.docEntry.known = true)) ∧ s.feedHeld = false ∧ s.feed.doc = .none then
          if t.feed.docScan.debounced = true then
            (({ t with feed := { t.feed with doc := .jammed } } : State).report
              0xE3 [6, 19, 0, 0]).finish
          else if t.feed.docEntry.debounced = true then
            (let u := ({ t with feed := { t.feed with doc := .settling } } : State).report
              0xE3 [1, 19, 0, 0]
            ({ u with feed := { u.feed with
                settle := if s.cfg.feed.settleCode = 0 then .expired
                  else .running (10 * s.cfg.feed.settleCode) } } : State).finish)
          else t.finish
        else t.finish)))
  ∧ (∀ s : State, s.df.user = some .feed → s.df.releasing = false →
    s.df.state = .idle ∨ s.df.state = .holding → s.df.startWaiting = none → s.feedHeld = false →
    (s.feed.doc = .settling →
      let t : State := ({ s with feed := { s.feed with
        settle := .stopped
        doc := .loading } } : State).report 0xE3 [2, 2, 0, 0]
      (s.feed.docScan.debounced = true → ruleFeedGranted s = some (t.beginAlign s.cfg.feed.offset 0))
      ∧ (s.feed.docScan.debounced = false → ruleFeedGranted s = some { t with
        feed := { t.feed with seq := .seek s.cfg.feed.offset none }
        df := { t.df with startWaiting := some (.ramp 1 true s.cfg.feed.preload) } }))
    ∧ (s.feed.doc = .ejecting → s.feed.seq = .none → ruleFeedGranted s = some { s with
      feed := { s.feed with seq := .eject (!s.feed.docScan.debounced) }
      df := { s.df with startWaiting := some (.ramp 2 true s.cfg.feed.ejectDistance) } }))
  ∧ (∀ s : State, s.feed.doc = .ejecting →
    (s.feed.seq = .none → s.feedHeld = false → ¬(s.df.user = some .feed ∧ s.df.releasing = false) →
      .feed ∉ s.df.queue → ruleFeedRequest s = some s.feedRequest)
    ∧ (s.feed.seq ≠ .none ∨ s.feedHeld = true ∨ (s.df.user = some .feed ∧ s.df.releasing = false)
        ∨ .feed ∈ s.df.queue → ruleFeedRequest s = none))
  ∧ (∀ s : State,
    (∀ offset n x, s.feed.seq = .gapAlign offset n → s.df.run = .line x → x.gated = true → s.df.startWaiting = none →
      ruleGapOver s = some { s with feed := { s.feed with seq := .none } })
    ∧ ((∀ offset n, s.feed.seq ≠ .gapAlign offset n) ∨ (∀ x, s.df.run = .line x → x.gated = false)
        ∨ s.df.startWaiting ≠ none → ruleGapOver s = none))
  ∧ (∀ (s : State) (offset d : Nat),
    (d < offset → s.beginAlign offset d = { s with
      feed := { s.feed with seq := .align offset }
      df := { s.df with startWaiting := some (.ramp 1 true (offset - d)) } })
    ∧ (offset ≤ d → s.beginAlign offset d =
      (({ s with feed := { s.feed with
        seq := .none
        doc := .loaded } } : State).report 0xE3 ([3, 4] ++ bytes2 (d - offset))).onChannel .df
          (Channel.giveUp .feed (10 * s.cfg.df.holdCode))))
  ∧ (∀ (s : State) (x : RampRun), s.held = false → s.power.state ≠ .sleep → s.feed.cover.debounced = false →
    s.df.run = .ramp x → s.df.state = .ramping ∨ s.df.state = .stopping →
    x.r ≤ 1 ∨ (x.stopOrdered = true ∧ x.a = 0) → s.df.user = some .feed → s.df.releasing = false →
    let t : State := { s with df := { s.df with
      position := if x.forward then s.df.position + 1 else s.df.position - 1
      phase := if x.forward = s.cfg.df.invert then s.df.phase - 1 else s.df.phase + 1
      state := .holding
      run := .none
      holdLatched := 10 * s.cfg.df.holdCode
      holdTimer := none } }
    (∀ offset d, s.feed.seq = .seek offset (some d) →
      exec (.channelStep .df) s = .next (t.beginAlign offset (d + 1)).settle)
    ∧ (∀ offset, s.feed.seq = .seek offset none →
      exec (.channelStep .df) s = .next (t.enterJammed .preloadTimeout).settle)
    ∧ (∀ offset, s.feed.seq = .align offset →
      exec (.channelStep .df) s = .next (t.beginAlign offset offset).settle)
    ∧ (s.feed.seq = .eject false →
      exec (.channelStep .df) s = .next (t.enterJammed .notCleared).settle)
    ∧ (s.feed.seq = .eject true →
      exec (.channelStep .df) s = .next (((({ t with feed := { t.feed with seq := .none } } : State).onChannel .df
        (Channel.giveUp .feed (10 * s.cfg.df.holdCode))).enterNone .ejected).settle)))
  ∧ (∀ s : State, s.held = false → s.power.state ≠ .sleep → s.feed.docScan.timer ≠ none →
    s.feed.docEntry.known = true → s.feed.docScan.known = true → s.feedHeld = false →
    s.scan.shading = .none →
    let t (present : Bool) (doc : DocState) (seq : FeedSeq) : State := { s with feed := { s.feed with
      docScan := ⟨present, present, none, true⟩
      doc := doc
      seq := seq } }
    let comesTo (u : State) : Prop := exec (.debounceExpiry .docScan) s = .next u.finish
    (s.feed.docScan.reading = true →
      (s.feed.doc = .none → comesTo ((t true .none s.feed.seq).enterJammed .misfeed))
      ∧ (∀ offset, s.feed.doc = .loading → s.feed.seq = .seek offset none → s.df.startWaiting = none →
        comesTo ((t true .loading (.seek offset (some 0))).onChannel .df
          (Channel.stop (10 * s.cfg.df.holdCode))))
      ∧ (s.feed.doc = .ejecting → s.feed.seq = .eject true → s.df.startWaiting = none →
        comesTo (((t true .loading (.seek s.cfg.feed.offset (some 0))).report 0xE3 [2, 3, 0, 0]).onChannel .df
          (Channel.stop (10 * s.cfg.df.holdCode))))
      ∧ (∀ offset preload n, s.feed.doc = .scanning → s.feed.seq = .gapSeek offset preload n → 0 < offset →
        comesTo (t true .scanning (.gapAlign offset 0)))
      ∧ (∀ preload n, s.feed.doc = .scanning → s.feed.seq = .gapSeek 0 preload n →
        comesTo ((t true .scanning (.gapAlign 0 0)).onChannel .df (Channel.setGating true)))
      ∧ (∀ offset, s.feed.doc = .loading → s.feed.seq = .seek offset none → s.df.startWaiting ≠ none →
        comesTo (({ t true .loading s.feed.seq with
          df := { s.df with startWaiting := none } } : State).beginAlign offset 0))
      ∧ (s.feed.doc = .ejecting → s.feed.seq = .eject true → s.df.startWaiting ≠ none →
        comesTo (t true .ejecting (.eject false)))
      ∧ (s.feed.doc ≠ .none → s.feed.seq = .none → comesTo (t true s.feed.doc .none)))
    ∧ (s.feed.docScan.reading = false →
      (s.feed.doc = .loaded → comesTo ((t false .loaded s.feed.seq).enterNone .removed))
      ∧ (s.feed.doc = .jammed → s.feed.docEntry.debounced = false →
        comesTo ((t false .jammed s.feed.seq).enterNone .cleared))
      ∧ (s.feed.doc = .jammed → s.feed.docEntry.debounced = true → comesTo (t false .jammed s.feed.seq))
      ∧ (∀ offset, s.feed.doc = .loading → s.feed.seq = .align offset →
        comesTo ((t false .loading s.feed.seq).enterJammed .misfeed))
      ∧ (∀ offset d, s.feed.doc = .loading → s.feed.seq = .seek offset (some d) →
        comesTo (t false .loading s.feed.seq))
      ∧ (s.feed.doc = .settling → s.feed.seq = .none → comesTo (t false .settling .none))
      ∧ (∀ offset n, s.feed.doc = .scanning → s.feed.seq = .gapAlign offset n →
        comesTo ((t false .scanning s.feed.seq).jamScan .misfeed))
      ∧ (∀ cleared, s.feed.doc = .ejecting → s.feed.seq = .eject cleared →
        comesTo (t false .ejecting (.eject true)))))
  ∧ (∀ (s : State) (x : LineRun), s.held = false → s.power.state ≠ .sleep → s.feed.cover.debounced = false →
    s.df.run = .line x → s.df.state = .lineRun → x.period ≠ none → s.df.releasing = false →
    (∀ offset preload n, s.feed.seq = .gapSeek offset preload n →
      (n + 1 < preload → ∃ t : State, exec (.channelStep .df) s = .next t.settle
        ∧ t.feed = { s.feed with seq := .gapSeek offset preload (n + 1) })
      ∧ (preload ≤ n + 1 → ∃ t : State, exec (.channelStep .df) s = .next (t.jamScan .gapTimeout).settle
        ∧ t.path = s.path ∧ t.df.user = s.df.user))
    ∧ (∀ offset n, s.feed.seq = .gapAlign offset n →
      ∃ t : State, exec (.channelStep .df) s = .next t.settle
        ∧ t.feed = { s.feed with seq := .gapAlign offset (n + 1) }
        ∧ (offset ≤ n + 1 → x.stopOrdered = false → s.df.startWaiting = none →
          (1 < x.stepsLeft → ∃ y : LineRun, t.df.run = .line y ∧ y.gatingChange = some true)
          ∧ (x.stepsLeft ≤ 1 → x.waiting = false → x.endOrdered = false →
            t.df.state = .lineHold ∧ ∃ y : LineRun, t.df.run = .line y ∧ y.gated = true))))
  ∧ ∀ (s : State) (cause : DocCause),
    let sheet := s.feed.docEntry.debounced = true ∨ s.feed.docScan.debounced = true
    let shown (d : DocState) (t : State) : Prop :=
      s.link.outbound.length + s.link.reserved < 16 → s.link.reports < 15 →
        s.link.outbound ++ [⟨.report, 0xE3, 0, [d.code, cause.code, 0, 0]⟩] <+: t.link.outbound
    ((s.enterJammed cause).feed.doc = (if sheet then .jammed else .none)
      ∧ (s.enterJammed cause).feed.seq = .none ∧ (s.enterJammed cause).feed.tail = none
      ∧ shown .jammed (s.enterJammed cause))
    ∧ ((s.jamScan cause).feed.doc = (if sheet then .jammed else .none)
      ∧ (s.jamScan cause).feed.seq = .none ∧ (s.jamScan cause).feed.tail = none
      ∧ shown .jammed (s.jamScan cause)
      ∧ ∀ m ∈ s.moves, m.isScan = true → m.flowing = true → (s.moves.map Move.id).Nodup →
        ∃ n, (s.jamScan cause).move? m.id = some n ∧ n.state = .failed ∧ n.cause = some .docJam)
    ∧ ((s.enterNone cause).feed.doc = (if s.feed.docEntry.debounced = true then .settling else .none)
      ∧ (s.enterNone cause).feed.seq = .none ∧ shown .none (s.enterNone cause))

/-- O31. The cover taken OPEN ends stepping at once: neither channel is left in a stepping state or with a user, a
start waiting or a request, no step is counted, the head and the cut are empty, a document that was moving is JAMMED,
or gone when no sheet is seen, the SCAN and PRINT moves at work fail, a shading run ends, and the change is reported
behind the document's (DEDUCED, log 25). A first reading that finds the cover open does the same without that report
(DEDUCED, log 45). That a channel at rest loses its user and its start waiting too is DEDUCED in log 27, and that a
diverted move goes on in log 47. PAPER taken PRESENT is reported; PAPER taken ABSENT is reported too, the PRINT moves
in STARTING fail, and the move that prints ends its RF run and acts on the paper when RF has stopped, unless its cut is
running; feed and cut stay. The cover taken CLOSED is reported, and a load that waits for it requests DF; with the
cover open it makes no request. A frame that moves into the hand as a SHADE ends is answered after what else follows
(the model's choice, log 2). That no arbitration runs between the ends of several moves is the model's choice too (log
67). -/
def Obligations.CoverOpeningStopsTheMechanism : Prop :=
  (∀ (s : State) (first : Bool), s.held = false → s.power.state ≠ .sleep → s.feedHeld = false →
    s.feed.cover.reading = true →
    (if first then s.feed.cover.known = false else s.feed.cover.timer ≠ none) →
    ∃ t : State, exec (if first then .firstReadingsSteady .cover else .debounceExpiry .cover) s = .next t.finish
      ∧ (∀ ch, (t.channel ch).user = none ∧ (t.channel ch).queue = []
        ∧ (t.channel ch).startWaiting = none
        ∧ ((t.channel ch).state = .idle ∨ (t.channel ch).state = .holding
          ∨ (t.channel ch).state = .fault)
        ∧ (t.channel ch).position = (s.channel ch).position
        ∧ (t.channel ch).phase = (s.channel ch).phase)
      ∧ t.coverOpen = true
      ∧ t.print.load = .empty ∧ t.print.strobe = .idle ∧ t.print.cut = .none
      ∧ (s.feed.doc = .loading ∨ s.feed.doc = .scanning ∨ s.feed.doc = .ejecting →
        t.feed.doc = if s.entryPresent = true ∨ s.scanPresent = true then .jammed else .none)
      ∧ (s.feed.doc = .none ∨ s.feed.doc = .settling ∨ s.feed.doc = .loaded ∨ s.feed.doc = .jammed →
        t.feed.doc = s.feed.doc)
      ∧ (∀ m ∈ s.moves, (s.moves.map Move.id).Nodup →
        (m.active = true → m.isScan = true ∨ m.isPrint = true →
          ∃ n, t.move? m.id = some n ∧ n.state = .failed ∧ n.cause = some .coverOpen)
        ∧ (m.active = false ∨ (m.isScan = false ∧ m.isPrint = false) → t.move? m.id = some m))
      ∧ (s.link.outbound.length + s.link.reserved < 14 → s.link.reports < 13 → first = false →
        ∃ jam : List OutRecord, (∀ r ∈ jam, r.type = 0xE3)
          ∧ s.link.outbound ++ jam ++ [⟨.report, 0xE4, 0, [markByte s.feed.paper.debounced, 1]⟩]
            <+: t.link.outbound)
      ∧ t.scan.shading = .none ∧ t.scan.table = s.scan.table
      ∧ (∀ tag rsv : Byte, s.scan.shading ≠ .none → s.link.hand = some ⟨⟨0x41, tag, [rsv]⟩, .handed⟩ →
        ⟨.reply, 0xC1, tag, [0x06]⟩ ∈ t.link.outbound))
  ∧ (∀ s : State,
    (s.held = false → s.power.state ≠ .sleep → s.feed.cover.timer ≠ none → s.feed.cover.reading = false →
      exec (.debounceExpiry .cover) s = .next
        (({ s with feed := { s.feed with cover := ⟨false, false, none, true⟩ } } : State).report 0xE4
          [markByte s.feed.paper.debounced, 0]).finish)
    ∧ (s.feed.doc = .settling → s.feed.settle = .expired → s.feedHeld = false →
      ¬(s.df.user = some .feed ∧ s.df.releasing = false) → .feed ∉ s.df.queue →
      (s.feed.cover.debounced = true → ruleFeedRequest s = none)
      ∧ (s.feed.cover.debounced = false → ruleFeedRequest s = some s.feedRequest
        ∧ (s.df.state = .idle ∨ s.df.state = .holding → s.df.user = none → s.df.queue = [] →
          s.feedRequest = { s with df := { s.df with
            user := some .feed
            releasing := false
            holdTimer := none } })
        ∧ (s.df.state ≠ .fault → s.df.user ≠ none →
          s.feedRequest = { s with df := { s.df with queue := s.df.queue ++ [.feed] } }))))
  ∧ ∀ s : State, s.held = false → s.power.state ≠ .sleep → s.feed.paper.timer ≠ none →
    let u (present : Bool) : State := { s with feed := { s.feed with paper := ⟨present, present, none, true⟩ } }
    let told (present : Bool) : State :=
      (u present).report 0xE4 [markByte present, markByte s.feed.cover.debounced]
    (s.feed.paper.reading = true → exec (.debounceExpiry .paper) s = .next (told true).finish)
    ∧ (s.feed.paper.reading = false → ∃ t : State, exec (.debounceExpiry .paper) s = .next t.finish
      ∧ (told false).link.outbound <+: t.link.outbound
      ∧ ((s.moves.map Move.id).Nodup → t.feed = (u false).feed ∧ t.print.cut = s.print.cut)
      ∧ (∀ m ∈ s.moves, (s.moves.map Move.id).Nodup → m.isPrint = true → m.state = .starting →
        ∃ n, t.move? m.id = some n ∧ n.state = .failed ∧ n.cause = some .paperOut)
      ∧ ∀ m, s.serving? = some m → (s.moves.map Move.id).Nodup →
        (s.print.cut ≠ .none → t.move? m.id = some m)
        ∧ (s.print.cut = .none → t.move? m.id = some { m with paperOut := true }
          ∧ ∀ x : LineRun, s.rf.run = .line x → s.rf.user = some (.move m.id) → s.rf.releasing = false →
            (s.rf.state = .lineRun → t.rf.state = .lineRun ∧ t.rf.run = .line { x with endOrdered := true })
            ∧ (s.rf.state = .lineHold → t.rf.state = .holding ∧ t.rf.run = .none
              ∧ t.rf.user = some (.move m.id))))

/-! ## Scanning -/

/-- O32. SET_SCAN and SET_PRINT replace their five settings, are refused IN_USE under a move of their unit at work, or
are answered BAD_VALUE. -/
def Obligations.ScanAndPrintSettingsReplace : Prop :=
  (∀ (s : State) (tag mode t b inv : Byte) (exposure rsv : Word16), s.Serves →
    exec (.setScan tag mode t b inv exposure rsv) s = .next (
      if 1 < mode.toNat ∨ 1 < inv.toNat ∨ t.toNat = 0 ∨ 63 < t.toNat ∨ 31 < b.toNat
          ∨ exposure.toNat < 1000 ∨ 40000 < exposure.toNat ∨ rsv ≠ 0 then
        s.replied 0x40 tag [0x03]
      else if s.scanBusy then s.replied 0x40 tag [0x07]
      else
        { s.replied 0x40 tag [0x00] with
          cfg := { s.cfg with
            scan := ⟨mode == 1, t.toNat, b.toNat, inv == 1, exposure.toNat⟩ } }))
  ∧ ∀ (s : State) (tag : Byte) (ts tg m margin pulse rsv : Word16), s.Serves →
    exec (.setPrint tag ts tg m margin pulse rsv) s = .next (
      if ts.toNat < 200 ∨ 2500 < ts.toNat ∨ 500 < tg.toNat ∨ m.toNat = 0 ∨ s.headWidth < m.toNat
          ∨ 4095 < margin.toNat ∨ pulse.toNat < 20 ∨ 500 < pulse.toNat ∨ rsv ≠ 0 then
        s.replied 0x42 tag [0x03]
      else if s.printBusy then s.replied 0x42 tag [0x07]
      else
        { s.replied 0x42 tag [0x00] with
          cfg := { s.cfg with
            print := ⟨ts.toNat, tg.toNat, m.toNat, margin.toNat, pulse.toNat⟩ } })

/-- O33. SHADE by the cases of R76; accepted, its command stays in hand with its place reserved while the run waits. -/
def Obligations.ShadeByCases : Prop :=
  ∀ (s : State) (tag rsv : Byte), s.Serves →
    exec (.shade tag rsv) s = .next (
      if rsv ≠ 0 then s.replied 0x41 tag [0x03]
      else if s.feed.docScan.debounced = true then s.replied 0x41 tag [0x10]
      else if s.scanBusy = true ∨ s.feed.cover.debounced = true then s.replied 0x41 tag [0x06]
      else if s.power.scan = .fault then s.replied 0x41 tag [0x12]
      else
        ({ s with
          link := { s.link with hand := some ⟨⟨0x41, tag, [rsv]⟩, .handed⟩ }
          scan := { s.scan with shading := .waiting s.cfg.scan } } : State).settle)

/-- O34. A dot of a captured line in TEXT mode is black when its shaded value is below T, at every position of every
line; T is 1 to 63, and 32 at power-on. -/
def Obligations.TextModeDecides : Prop :=
  (∀ (c : ScanSettings) (y i : Nat) (table : List Nat) (pixels : List Pixel) (p : Pixel) (w : Nat),
    c.halftone = false → pixels[i]? = some p → table[i]? = some w →
    let v := shadePixel (if c.invert then 63 - p.toNat else p.toNat) c.black w
    (captureLine c y table pixels)[i]? = some (decide (v < c.threshold))
      ∧ (c.threshold = 1 → ((captureLine c y table pixels)[i]? = some true ↔ v = 0))
      ∧ (c.threshold = 63 → ((captureLine c y table pixels)[i]? = some false ↔ v = 63)))
  ∧ (∀ s : State, s.Inv → 1 ≤ s.cfg.scan.threshold ∧ s.cfg.scan.threshold ≤ 63)
  ∧ ∀ straps, (Settings.powerOn straps).scan.threshold = 32

/-- O35. The shading stage: 0 at or below B, 63 for a reference at or below B, and otherwise the lesser of 63 and
floor((v − B)·63/(W − B)), for every v, B and W. A dot at position x of line y in HALFTONE mode is black when its
shaded value is below 2 + 4·m, with m the entry of the matrix of R69. -/
def Obligations.ShadingAndHalftone : Prop :=
  (∀ v b w : Nat,
    (v ≤ b → shadePixel v b w = 0)
    ∧ (b < v → w ≤ b → shadePixel v b w = 63)
    ∧ (b < v → b < w → shadePixel v b w = min 63 ((v - b) * 63 / (w - b)))
    ∧ shadePixel v b w ≤ 63
    ∧ (b < w → w ≤ v → shadePixel v b w = 63))
  ∧ ∀ (c : ScanSettings) (y i : Nat) (table : List Nat) (pixels : List Pixel) (p : Pixel) (w : Nat),
    c.halftone = true → pixels[i]? = some p → table[i]? = some w →
    ∃ row m, [[0, 8, 2, 10], [12, 4, 14, 6], [3, 11, 1, 9], [15, 7, 13, 5]][y % 4]? = some row
      ∧ row[i % 4]? = some m
      ∧ (captureLine c y table pixels)[i]? = some (decide
        (shadePixel (if c.invert then 63 - p.toNat else p.toNat) c.black w < 2 + 4 * m))

/-- O36. EXPOSURE_END begins the writing of the capture; CAPTURE_DONE hands the line to its move and raises the line
counter, or drops it when the move has ended or its slot is gone; DF is told in either case. The settings and the
shading table are those at its start. The tail count begins when DOC_SCAN is taken ABSENT and falls at each capture
done; at its end the page ends: the last line takes the mark, or a white line is due, and a further sheet or the end of
the source follows. The count 1 of an empty page, the passing over of the line under way, and the jam at line 8191 with
no tail count whatever DOC_SCAN is are DEDUCED (logs 20, 22, 35). A further edge of DOC_SCAN sets the tail count
afresh. The white line of an empty scan page enters, of the move's line width, with the page-end mark and a slot of its
own (which one is the model's choice, log 38), counts as taken, and the header lines of the page after it come due.
That a frame which such an event lets be answered is answered behind what else follows is the model's choice (log 2).
-/
def Obligations.CaptureEvents : Prop :=
  (∀ (s : State) (ctx : CaptureCtx), s.held = false → s.power.state ≠ .sleep →
    (s.scan.capture = .exposing ctx →
      exec .exposureEnd s = .next { s with scan := { s.scan with capture := .writing ctx } })
    ∧ (∀ pixels : List Pixel, s.scan.capture = .writing ctx → pixels.length = s.headWidth →
      let line := captureLine ctx.settings ctx.y ctx.table pixels
      let t : State := { s with scan := { s.scan with capture := .idle } }
      ((s.move? ctx.move = none
          ∨ ∃ m, s.move? ctx.move = some m ∧ (m.flowing = false ∨ m.granted ≠ some ctx.slot)) →
        exec (.captureDone pixels) s = .next
          (t.onChannel .df (Channel.captureDone s.cfg.df.holdTime)).settle)
      ∧ (∀ m, s.move? ctx.move = some m → m.flowing = true → m.granted = some ctx.slot →
        s.feed.tail = none → s.scan.lineCounter + 1 < 8191 →
        exec (.captureDone pixels) s = .next
          ((({ t with scan := { t.scan with lineCounter := s.scan.lineCounter + 1 } } : State).onMove
            ctx.move (Move.enter s.headWidth ctx.slot (scanDensity m) line false)).onChannel .df
              (Channel.captureDone s.cfg.df.holdTime)).settle)
      ∧ (∀ m, s.move? ctx.move = some m → m.flowing = true → m.granted = some ctx.slot →
        let n := m.enter s.headWidth ctx.slot (scanDensity m) line false
        let u (tail : Option Nat) : State := ({ t with
          scan := { t.scan with lineCounter := s.scan.lineCounter + 1 }
          feed := { t.feed with
            tail := tail
            tailSkip := if tail = none then s.feed.tailSkip else false } } : State).onMove ctx.move
              (Move.enter s.headWidth ctx.slot (scanDensity m) line false)
        (s.feed.tail = none → 8191 ≤ s.scan.lineCounter + 1 →
          exec (.captureDone pixels) s = .next
            (((u none).jamScan .pageLong).onChannel .df (Channel.captureDone s.cfg.df.holdTime)).settle)
        ∧ (∀ k, s.feed.tail = some k →
          let left := if s.feed.tailSkip = true then k else k - 1
          exec (.captureDone pixels) s = .next
            ((if left = 0 ∨ 8191 ≤ s.scan.lineCounter + 1 then (u (some left)).pageEnd n else u (some left)).onChannel
              .df (Channel.captureDone s.cfg.df.holdTime)).settle))))
  ∧ (∀ (s : State) (m : Move), s.held = false → s.power.state ≠ .sleep → s.scanning? = some m →
    s.feed.docScan.timer ≠ none → s.feed.docScan.reading = false → s.feed.docEntry.known = true →
    s.feed.docScan.known = true → s.feedHeld = false → s.feed.doc = .scanning → s.feed.seq = .none →
    s.df.gatedRun = true →
    let steps := match scanDensity m with
      | .v1 => 4
      | .v2 => 2
      | .v4 => 1
    let n := (s.feed.tailOffset + steps - 1) / steps
    let t : State := { s with feed := { s.feed with
      docScan := ⟨false, false, none, true⟩
      tail := some n
      tailSkip := s.df.captureOutstanding } }
    exec (.debounceExpiry .docScan) s = .next
      (if n = 0 ∧ s.df.captureOutstanding = false then t.pageEnd m else t).finish)
  ∧ (∀ (s : State) (m : Move) (d : Density) (limit : Nat), s.move? m.id = some m → m.source = .scan d limit →
    let width := if m.isPrint = true ∨ m.diverted ≠ none then s.headWidth
      else if m.reduce = true then 1728 else s.headWidth
    let headers := if m.withHeader = true ∧ m.diverted = none then (s.path.header.map HeaderBuffer.count).getD 0 else 0
    (s.blankPage m).move? m.id = some { m with
      blankDue := m.blankDue - 1
      headerLeft := if 1 < m.blankDue ∨ m.state = .running then headers else 0
      queue := m.queue ++ [⟨s.freeSlot, m.target, List.replicate width false, true, .ready, false⟩]
      counters := { m.counters with taken := m.counters.taken + 1 } })
  ∧ (∀ (s : State) (m : Move),
    let due (m : Move) : Prop := (m.state = .running ∨ m.state = .draining) ∧ 0 < m.blankDue ∧ m.headerLeft = 0
      ∧ 0 < m.room
    (s.move? m.id = some m → due m → (∀ n ∈ s.moves, due n → m.id ≤ n.id) → ruleBlankPage s = some (s.blankPage m))
    ∧ ((∀ n ∈ s.moves, ¬due n) → ruleBlankPage s = none))
  ∧ ∀ (s : State) (m : Move) (d : Density) (limit : Nat), s.move? m.id = some m → m.source = .scan d limit →
    let t := s.pageEnd m
    let further := s.feed.docEntry.debounced = true ∧ (limit = 0 ∨ m.srcPage < limit)
    let offset := s.cfg.feed.offset
    t.scan.lineCounter = 0 ∧ t.feed.tail = none
      ∧ (s.link.outbound.length + s.link.reserved < 16 → s.link.reports < 15 →
        s.link.outbound ++ [⟨.report, 0xE5, 0,
          [byte1 m.number, 0] ++ bytes2 m.srcPage ++ bytes2 (max m.srcLines 1)⟩] <+: t.link.outbound)
      ∧ ∃ n, t.move? m.id = some n
        ∧ n.blankDue = m.blankDue + (if m.srcLines = 0 then 1 else 0)
        ∧ (∀ before l, 0 < m.srcLines → m.queue = before ++ [l] →
          ∃ e, n.queue = before ++ [e] ∧ e.pageEnd = true ∧ e.state = .ready ∧ e.slot = l.slot)
        ∧ (further → n.state = m.state ∧ n.srcPage = m.srcPage + 1 ∧ n.srcLines = 0
          ∧ t.feed.doc = s.feed.doc
          ∧ t.feed.seq = (if s.feed.docScan.debounced = true then .gapAlign offset 0
            else .gapSeek offset s.cfg.feed.preload 0)
          ∧ t.df.startWaiting = some (.line d (s.feed.docScan.debounced && decide (offset = 0))))
        ∧ (¬further → n.state = .draining ∧ t.feed.doc = .ejecting)

/-- O37. A shading run that waits begins to measure, with its latched settings and every sum 0, when SCAN is ON and no
capture is under way. A line of a shading run adds its pixels to the sums; the eighth ends the run with floor(sum/8) at
every position, or keeps the old table when more than N/8 positions are weak, and queues the reply of the SHADE in
hand; a frame that waits moves into the hand and is answered after what else follows (the model's choice, log 2). A run
under way ends with the table unchanged and its reply when DOC_SCAN is taken PRESENT, and one that waits when the lamp
is not lit; the cover ends it as O31 says. Where that reply stands beside the DOC_EVENT or the DOMAIN_FAULT of the same
event is not stated: it is the model's choice (logs 55 and 56). -/
def Obligations.ShadingRunMeasures : Prop :=
  (∀ (s : State) (tag rsv : Byte), s.held = false → s.power.state ≠ .sleep →
    s.link.hand = some ⟨⟨0x41, tag, [rsv]⟩, .handed⟩ →
    let ends (i : Instr) (code : Byte) : Prop := ∃ t : State, exec i s = .next t.finish
      ∧ t.scan.shading = .none ∧ t.scan.table = s.scan.table
      ∧ ⟨.reply, 0xC1, tag, [code]⟩ ∈ t.link.outbound
    (s.scan.shading ≠ .none → s.feed.docScan.timer ≠ none → s.feed.docScan.reading = true →
      ends (.debounceExpiry .docScan) 0x10)
    ∧ (∀ (c : ScanSettings) (reading : Pixel), s.scan.shading = .waiting c → s.power.scan = .starting →
      (if s.cfg.scan.invert then 63 - reading.toNat else reading.toNat) ≤ s.cfg.scan.black →
      ends (.lampWarmUpExpiry reading) 0x12))
  ∧ (∀ s : State,
    (∀ c : ScanSettings, s.scan.shading = .waiting c →
      (s.power.scan = .on → s.scan.capture = .idle → ruleMeasure s = some { s with scan := { s.scan with
        shading := .measuring c 0 (List.replicate s.headWidth 0) } })
      ∧ (s.power.scan ≠ .on ∨ s.scan.capture ≠ .idle → ruleMeasure s = none))
    ∧ ((∀ c : ScanSettings, s.scan.shading ≠ .waiting c) → ruleMeasure s = none))
  ∧ ∀ (s : State) (c : ScanSettings) (count : Nat) (sums : List Nat) (pixels : List Pixel),
    s.held = false → s.power.state ≠ .sleep → s.scan.shading = .measuring c count sums →
    pixels.length = s.headWidth →
    let now := List.zipWith
      (fun n (p : Pixel) => n + (if c.invert then 63 - p.toNat else p.toNat)) sums pixels
    let whites := now.map (· / 8)
    let weak := (whites.filter fun w => decide (w < c.black + 8)).length
    (count + 1 < 8 →
      exec (.shadingLineRead pixels) s = .next
        ({ s with scan := { s.scan with shading := .measuring c (count + 1) now } } : State).finish)
    ∧ (∀ tag : Byte, 8 ≤ count + 1 → s.link.hand = some ⟨⟨0x41, tag, [0]⟩, .handed⟩ →
      exec (.shadingLineRead pixels) s = .next
        ({ s with
          scan := { s.scan with
            shading := .none
            table := if s.headWidth / 8 < weak then s.scan.table else whites }
          link := { s.link with
            hand := s.link.waiting.map fun f => Hand.takenWith (s.link.outbound.length + 1) ⟨f, .untaken⟩
            waiting := none
            outbound := s.link.outbound ++ [⟨.reply, 0xC1, tag,
              (if s.headWidth / 8 < weak then 0x14 else 0x00) :: bytes2 weak⟩] } } : State).finish)

/-! ## The recording head -/

/-- O38. The phase list of a line: consecutive blocks in order, each in at most one phase and left out only when it has
no black dot, every phase with a black dot and its true sum, one block alone in a phase above the limit, and a phase
that a further black block would have taken above the limit before the next one begins. -/
def Obligations.StrobePhases : Prop :=
  ∀ (limit : Nat) (counts : List Nat), counts.length = 8 →
    let phases := phaseList limit counts
    phases.length ≤ 8
      ∧ (∀ p ∈ phases, 0 < p.sum ∧ p.sum = (p.blocks.map fun b => counts.getD b 0).sum
        ∧ (∃ first, p.blocks = (List.range p.blocks.length).map (first + ·))
        ∧ (limit < p.sum → ∃ b, p.blocks = [b]))
      ∧ (∀ i p q, phases[i]? = some p → phases[i + 1]? = some q →
        limit < p.sum + counts.getD (q.blocks.headD 0) 0)
      ∧ (phases.flatMap Phase.blocks).Pairwise (· < ·)
      ∧ (∀ b, b < 8 → 0 < counts.getD b 0 → b ∈ phases.flatMap Phase.blocks)
      ∧ (isHeavy limit counts = true ↔ ∃ c ∈ counts, limit < c)
      ∧ (phases = [] ↔ ∀ c ∈ counts, c = 0)

/-- O39. The events of the head: a load completes, or lets the waiting boundary strobe; a phase goes through its strobe
time and its gap to the next, and the last one ends the strobe; the cutter pulse ends, and the page of the serving move
is complete, printed for its stored document, ends the move that has nothing left, or acts on the paper (also when it
was taken ABSENT for this page and is PRESENT again, DEDUCED in log 36). The load stage takes the oldest line not yet
taken; a boundary latches it, waits for its load, or delivers a white line at once; the cut follows the page end with
its margin. With RF at rest under it, the serving move orders a gated run at its target density for its next page, or
acts on the paper-out when no cut is due or running. Strobe done delivers the head line of its move: it leaves the
queue, the move counts it, a heavy line once more, and a page end is due for its cut; the line of a move that has ended
delivers nothing. That the header rewrites of a printed page are due and not yet made is the model's choice (log 9). -/
def Obligations.HeadEvents : Prop :=
  (∀ s : State, s.held = false → s.power.state ≠ .sleep →
    (∀ l, s.print.load = .loading l →
      exec .loadComplete s = .next
        ({ s with print :=
            if s.print.strobe = .latchWait then
              { s.print with
                load := .empty
                strobe := .strobing l (l.counts.any fun c => decide (s.cfg.print.limit < c))
                  (phaseList s.cfg.print.limit l.counts) false s.cfg.print.strobe s.cfg.print.gap }
            else { s.print with load := .loaded l } } : State).settle)
    ∧ (∀ l heavy phases strobe gap, s.print.strobe = .strobing l heavy phases false strobe gap →
      0 < gap →
      exec .phaseTimerExpiry s = .next
        ({ s with print := { s.print with
            strobe := .strobing l heavy phases true strobe gap } } : State).settle)
    ∧ (∀ l heavy p q rest inGap strobe gap,
      s.print.strobe = .strobing l heavy (p :: q :: rest) inGap strobe gap → inGap = true ∨ gap = 0 →
      exec .phaseTimerExpiry s = .next
        ({ s with print := { s.print with
            strobe := .strobing l heavy (q :: rest) false strobe gap } } : State).settle)
    ∧ (∀ l heavy p inGap strobe gap, s.print.strobe = .strobing l heavy [p] inGap strobe gap →
      inGap = true ∨ gap = 0 →
      exec .phaseTimerExpiry s = .next
        (({ s with print := { s.print with strobe := .idle } } : State).strobeDone l heavy).settle)
    ∧ (∀ pulse, s.print.cut = .pulse pulse →
      exec .cutterPulseEnd s = .next s.cutDone.settle
      ∧ (s.serving? = none → s.cutDone = { s with print := { s.print with cut := .none } })
      ∧ (∀ m, s.serving? = some m → s.move? m.id = some m →
        let complete (m : Move) : Move := { m with counters := { m.counters with
          pagesCompleted := m.counters.pagesCompleted + 1
          curPage := m.counters.curPage + 1
          curLines := 0 } }
        let t := (({ s with print := { s.print with cut := .none } } : State).report 0xE5
          ([byte1 m.number, 2] ++ bytes2 m.counters.curPage ++ bytes2 m.counters.curLines)).onMove m.id complete
        let u : State := match m.source with
          | .store doc first _ =>
            (t.onStore (Store.pagePrinted doc (first + (m.counters.curPage - 1)))).testAutoDelete doc
          | _ => t
        let spent := m.state = .draining ∧ m.queue = [] ∧ m.blankDue = 0
        let paperOut := m.paperOut = true ∨ s.feed.paper.debounced = false
        (spent → s.cutDone = u.endMove m.id .done none false)
        ∧ (¬spent → paperOut → s.cutDone = u.actOnPaperOut (complete m))
        ∧ (¬spent → ¬paperOut → s.cutDone = u))))
  ∧ (∀ (st : Store) (number index : Nat) (d : Document) (p : Page), st.doc? number = some d →
    d.page? index = some p →
    let after := st.pagePrinted number index
    (p.printed = true → after = st)
    ∧ (p.printed = false → after.map = st.map ∧ after.memory = st.memory ∧ st.rewrites <+: after.rewrites
      ∧ ∃ e, after.doc? number = some e ∧ e.page? index = some { p with printed := true } ∧ e.closed = d.closed
        ∧ (e.hold = true ↔ d.hold = true
          ∧ ¬(d.closed = true ∧ ∀ q ∈ d.pages, q.index = index ∨ q.printed = true))))
  ∧ (∀ (s : State) (l : HeadLine) (heavy : Bool),
    (∀ (m : Move) (q : SlotLine) (rest : List SlotLine), s.move? l.move = some m → m.isPrint = true →
      m.flowing = true → m.queue = q :: rest → q.slot = l.slot →
      ∃ n, (s.strobeDone l heavy).move? l.move = some n ∧ n.queue = rest
        ∧ n.counters.delivered = m.counters.delivered + 1
        ∧ n.counters.curLines = m.counters.curLines + 1
        ∧ n.counters.heavy = m.counters.heavy + (if heavy then 1 else 0)
        ∧ (l.pageEnd = true → n.cutDue = true))
    ∧ (s.move? l.move = none ∨ (∃ m, s.move? l.move = some m ∧ m.flowing = false) →
      s.strobeDone l heavy = s.onChannel .rf Channel.strobeDone))
  ∧ (∀ (s : State) (m : Move) (l : SlotLine) (rest : List SlotLine), s.serving? = some m →
    s.print.load = .empty → s.untakenLines m = l :: rest →
    let size := s.headWidth / 8
    let counts := (List.range 8).map fun b => (((l.dots.drop (b * size)).take size).filter id).length
    let line : HeadLine := ⟨m.id, l.slot, counts, l.pageEnd⟩
    ruleLoad s = some { s with print := { s.print with
      load := if ∀ c ∈ counts, c = 0 then .loaded line else .loading line } })
  ∧ (∀ (s : State) (l : HeadLine),
    (s.print.load = .loading l →
      s.boundaryAtHead = { s with print := { s.print with strobe := .latchWait } })
    ∧ (s.print.load = .loaded l → (∀ c ∈ l.counts, c = 0) →
      s.boundaryAtHead = ({ s with print := { s.print with load := .empty } } : State).strobeDone l false)
    ∧ (s.print.load = .loaded l → (∃ c ∈ l.counts, c ≠ 0) →
      s.boundaryAtHead = { s with print := { s.print with
        load := .empty
        strobe := .strobing l (l.counts.any fun c => decide (s.cfg.print.limit < c))
          (phaseList s.cfg.print.limit l.counts) false s.cfg.print.strobe s.cfg.print.gap } }))
  ∧ (∀ (s : State) (m : Move), s.serving? = some m → m.cutDue = true → s.print.cut = .none →
    s.rf.user = some (.move m.id) → s.rf.releasing = false →
    s.rf.state = .idle ∨ s.rf.state = .holding → s.rf.startWaiting = none →
    let t := s.onMove m.id fun m => { m with cutDue := false }
    ruleCut s = some (
      if s.cfg.print.margin = 0 then { t with print := { t.print with cut := .pulse s.cfg.print.pulse } }
      else { t with
        print := { t.print with cut := .feed s.cfg.print.pulse }
        rf := { t.rf with startWaiting := some (.ramp 1 true s.cfg.print.margin) } }))
  ∧ (∀ s : State,
    (∀ m, s.serving? = some m →
      let rests := s.rf.user = some (.move m.id) ∧ s.rf.releasing = false
        ∧ (s.rf.state = .idle ∨ s.rf.state = .holding) ∧ s.rf.startWaiting = none
      let stands := rests ∧ m.cutDue = false ∧ s.print.cut = .none
      let more := m.state = .running ∨ m.queue ≠ [] ∨ 0 < m.blankDue
      (stands → m.paperOut = false → more →
        rulePrintRun s = some { s with rf := { s.rf with startWaiting := some (.line m.target true) } })
      ∧ (¬(stands ∧ m.paperOut = false ∧ more) → rulePrintRun s = none)
      ∧ (stands → m.paperOut = true → rulePaperOut s = some (s.actOnPaperOut m))
      ∧ (¬(stands ∧ m.paperOut = true) → rulePaperOut s = none)
      ∧ (¬(rests ∧ m.cutDue = true ∧ s.print.cut = .none) → ruleCut s = none))
    ∧ (s.serving? = none → rulePrintRun s = none ∧ rulePaperOut s = none ∧ ruleCut s = none))
  ∧ ∀ (s : State) (x : RampRun) (id pulse : Nat), s.held = false → s.power.state ≠ .sleep →
    s.rf.run = .ramp x → s.rf.state = .ramping → x.r = 1 → s.rf.user = some (.move id) →
    s.rf.releasing = false → s.print.cut = .feed pulse → s.feed.cover.debounced = false →
    ∃ t : State, exec (.channelStep .rf) s = .next t.settle
      ∧ t.print = { s.print with cut := .pulse pulse }
      ∧ t.rf.state = .holding ∧ t.rf.user = some (.move id) ∧ t.path = s.path

/-! ## Lines -/

/-- O40. The reduction takes 2048 dots to 1728: of each 32 dots those at 3, 9, 16, 22 and 28 are dropped, and a dropped
black dot darkens the dot to its right; a 1728-dot line is unchanged. -/
def Obligations.ReductionDropsFiveInThirtyTwo : Prop :=
  ∀ line : RawLine,
    (line.length = 2048 →
      (reduceLine line).length = 1728
      ∧ ∀ g k p : Nat, g < 64 →
        ([0, 1, 2, 4, 5, 6, 7, 8, 10, 11, 12, 13, 14, 15, 17, 18, 19, 20, 21, 23, 24, 25, 26, 27, 29,
          30, 31][k]? = some p) →
        (reduceLine line)[27 * g + k]? = some
          (line.getD (32 * g + p) false
            || ([4, 10, 17, 23, 29].contains p && line.getD (32 * g + p - 1) false)))
    ∧ (line.length = 1728 → reduceLine line = line)

/-- O41. The output pins, while NRST is not active: the phase outputs in the pattern of the phase index, off in IDLE
and FAULT; the enables and LAMP; the strobe lines of the blocks of the phase under way; the dots of the line that is
shifted, with the head clock; the latch, in the event that latches a line; the cutter; TXD at mark with nothing to
send. That they are functions of the state, and what of a waveform they show, is the model's choice (log 23). -/
def Obligations.OutputsFollowTheState : Prop :=
  ∀ s : State, s.held = false →
    (∀ ch,
      let c := s.channel ch
      let out := s.phaseOutputs ch
      let index := c.phase.toNat
      (c.state = .idle ∨ c.state = .fault → out = ⟨false, false, false, false⟩)
      ∧ (c.state ≠ .idle → c.state ≠ .fault →
        (out.a = true ↔ index = 7 ∨ index = 0 ∨ index = 1) ∧ (out.b = true ↔ index = 1 ∨ index = 2 ∨ index = 3)
        ∧ (out.c = true ↔ index = 3 ∨ index = 4 ∨ index = 5) ∧ (out.d = true ↔ index = 5 ∨ index = 6 ∨ index = 7)))
    ∧ (∀ d, s.enable d = true ↔ s.power.domain d = .starting ∨ s.power.domain d = .on)
    ∧ (s.lamp = true ↔ s.power.scan = .starting ∨ s.power.scan = .on)
    ∧ (let powered := s.power.print = .starting ∨ s.power.print = .on
      let strobes (t : State) (l : HeadLine) : Prop :=
        ∃ heavy phases inGap strobe gap, t.print.strobe = .strobing l heavy phases inGap strobe gap
      (∀ block, s.strobeLine block = true ↔ powered ∧ ∃ l heavy p rest strobe gap,
        s.print.strobe = .strobing l heavy (p :: rest) false strobe gap ∧ block ∈ p.blocks)
      ∧ (∀ l m before q after, s.print.load = .loading l → powered → s.move? l.move = some m →
        m.queue = before ++ q :: after → q.slot = l.slot → (∀ x ∈ before, x.slot ≠ l.slot) →
        s.headData = some q.dots ∧ s.headClock = true)
      ∧ (¬powered ∨ (∀ l, s.print.load ≠ .loading l) → s.headData = none ∧ s.headClock = false)
      ∧ ∀ before : State, s.headLatch before = true ↔ powered ∧ ∃ l, strobes s l ∧ ¬strobes before l)
    ∧ (s.cutter = true ↔ (s.power.motor = .starting ∨ s.power.motor = .on) ∧ ∃ pulse, s.print.cut = .pulse pulse)
    ∧ (s.power.state = .sleep ∨ (∀ r ∈ s.link.outbound, s.link.state = .unset ∧ r.kind = .report) → s.txd = none)

/-- O42. The decoder: a line that fails structurally (its last byte is not 255, an earlier byte is 208 or more, or a
makeup byte is not followed by a run byte) is white and repaired; one that does not is fitted to its width by the sum
of its runs. -/
def Obligations.DecoderRepairs : Prop :=
  ∀ (w : Nat) (coded : List Byte),
    (decodeLine w coded).1.length = w
    ∧ (decodeRuns 0 false coded = none → decodeLine w coded = (List.replicate w false, true))
    ∧ (∀ runs, decodeRuns 0 false coded = some runs →
      ((decodeLine w coded).2 = true ↔ runs.sum ≠ w)
      ∧ (runs.sum ≤ w → (decodeLine w coded).1
        = expandRuns false runs ++ List.replicate (w - runs.sum) false)
      ∧ (w < runs.sum → (decodeLine w coded).1 = (expandRuns false runs).take w))
    ∧ (decodeRuns 0 false coded ≠ none ↔
      coded.getLast? = some 255
        ∧ (∀ i b, coded[i]? = some b → i + 1 < coded.length → b.toNat < 208)
        ∧ ∀ i a b, coded[i]? = some a → coded[i + 1]? = some b → 192 ≤ a.toNat → b.toNat < 192)

/-! ## Moves -/

/-- O43. START_MOVE accepted: the reply carries the number and the state shown (DEDUCED in log 30), and the record
enters the lowest empty entry, or that of the move that ended earliest, PENDING with its counters at 0 and page 1; its
number is the first one after the last number taken, 1 after 255, that no other entry holds. Refused, the reply carries
the result alone. -/
def Obligations.StartMoveAcceptsOrRefuses : Prop :=
  (∀ (s : State) (tag source sink depth target reduce header fallback close f8 f9 : Byte) (f10 : Word16)
      (f12 f13 : Byte) (f14 : Word16) (f16 f17 : Byte), s.Serves →
    let i := Instr.startMove tag source sink depth target reduce header fallback close f8 f9 f10 f12 f13
      f14 f16 f17
    let asked := requestOf source sink depth target reduce header fallback close f8 f9 f10 f12 f13 f14
      f16 f17
    (asked = none → exec i s = .next (s.replied 0x50 tag [0x03]))
    ∧ ∀ r, asked = some r →
      (∀ x, s.moveProblem r = some x → exec i s = .next (s.replied 0x50 tag [x.code]))
      ∧ (s.moveProblem r = none →
        ∀ f, i.frame? = some f →
          let shown := ((s.inHand f).onPath (Path.accept r)).shownState s.path.nextId
          exec i s = .next
            (((s.replied 0x50 tag [0x00, byte1 s.path.numberFor, shown.code]).onPath
              (Path.accept r)).settle)
          ∧ (shown = .pending ↔ (s.onPath (Path.accept r)).admitted? ≠ some s.path.nextId)
          ∧ (shown = .pending ∨ shown = .starting ∨ shown = .failed)))
  ∧ (∀ (p : Path) (r : MoveRequest) (e : Nat),
    (p.table.findIdx? Option.isNone = some e
      ∨ (p.table.findIdx? Option.isNone = none ∧ ∃ id, p.endings.head? = some id
        ∧ p.table.findIdx? (fun x => x.map Move.id == some id) = some e)) →
    (p.accept r).table = p.table.set e (some
      { id := p.nextId
        number := p.numberFor
        source := r.source
        sink := r.sink
        depth := r.depth
        target := r.target
        reduce := r.reduce
        withHeader := r.withHeader
        fallback := r.fallback
        state := .pending
        cause := none
        counters := ⟨0, 0, 0, 0, 0, 0, 0, 0, 0, 1, 0⟩
        diverted := none
        queue := []
        granted := none
        merge := 0
        headerLeft := 0
        srcPage := 1
        srcLines := 0
        blankDue := 0
        cutDue := false
        paperOut := false
        reader := none })
    ∧ (p.accept r).lastNumber = p.numberFor ∧ (p.accept r).nextId = p.nextId + 1
    ∧ (p.accept r).header = p.header
    ∧ (let others := (p.table.set e none).filterMap fun x => x.map Move.number
      let next (n : Nat) : Nat := if 255 ≤ n then 1 else n + 1
      others.length ≤ 3 →
      ∃ k ≤ 3, p.numberFor = next^[k + 1] p.lastNumber ∧ p.numberFor ∉ others
        ∧ ∀ j < k, next^[j + 1] p.lastNumber ∈ others))

/-- O44. The checks of START_MOVE: the fields that make a request, and the first case of R121 that refuses one. That an
OPEN page of a STORE source is refused with BAD_VALUE is DEDUCED in log 19. -/
def Obligations.StartMoveChecks : Prop :=
  (∀ (source sink depth target reduce header fallback close f8 f9 : Byte) (f10 : Word16) (f12 f13 : Byte)
      (f14 : Word16) (f16 f17 : Byte) (r : MoveRequest),
    requestOf source sink depth target reduce header fallback close f8 f9 f10 f12 f13 f14 f16 f17 = some r ↔
      (r.depth = depth.toNat ∧ 2 ≤ r.depth ∧ r.depth ≤ 12 ∧ f17 = 0 ∧ target = r.target.code
        ∧ reduce = markByte r.reduce ∧ header = markByte r.withHeader ∧ fallback = markByte r.fallback
        ∧ close = markByte r.close
        ∧ (match r.source with
          | .scan d limit => source = 0 ∧ f8 = d.code ∧ f9.toNat = limit ∧ f10 = 0 ∧ f12 = 0
          | .linkIn w d => source = 1 ∧ f8 = d.code ∧ f9 = 0 ∧ f10.toNat = w ∧ (w = 1728 ∨ w = 2048) ∧ f12 = 0
          | .store doc first count =>
            source = 2 ∧ f8 = 0 ∧ f9.toNat = count ∧ 1 ≤ count ∧ f10.toNat = doc ∧ f12.toNat = first)
        ∧ (match r.sink with
          | .print => sink = 0 ∧ f13 = 0 ∧ f14 = 0 ∧ f16 = 0
          | .linkOut => sink = 1 ∧ f13 = 0 ∧ f14 = 0 ∧ f16 = 0
          | .store doc c auto closes => sink = 2 ∧ f14.toNat = doc ∧ closes = r.close
            ∧ (doc = 0 → f13 = c.code ∧ f16 = markByte auto)
            ∧ (doc ≠ 0 → f13 = 0 ∧ f16 = 0 ∧ c = .received ∧ auto = false))))
  ∧ ∀ (s : State) (r : MoveRequest),
    let linkIn := match r.source with
      | .linkIn _ _ => true
      | _ => false
    let fromStore := match r.source with
      | .store _ _ _ => true
      | _ => false
    let scan := match r.source with
      | .scan _ _ => true
      | _ => false
    let toStore := match r.sink with
      | .store _ _ _ _ => true
      | _ => false
    let density := match r.source with
      | .scan d _ => some d
      | .linkIn _ d => some d
      | .store _ _ _ => none
    (s.moveProblem r =
      if (linkIn = true ∧ r.sink = .linkOut) ∨ (fromStore = true ∧ toStore = true) then some .badRoute
      else if (r.withHeader = true ∧ toStore = true)
          ∨ (r.fallback = true ∧ (linkIn = false ∨ r.sink ≠ .print))
          ∨ (r.close = true ∧ toStore = false)
          ∨ (density.any fun d => decide (d.rank < r.target.rank)) = true then some .badValue
      else (s.sourceProblem r).orElse fun _ => (s.sinkProblem r).orElse fun _ =>
        if scan = true ∧ (s.feed.doc = .none ∨ s.feed.doc = .jammed) then some .notLoaded
        else if (s.path.table.all fun e => e.any Move.live) = true then some .tableFull
        else none)
    ∧ (∀ doc first count, r.source = .store doc first count →
      (s.sourceProblem r = some .noSuchDoc ↔ s.store.doc? doc = none)
      ∧ (s.sourceProblem r = none ↔ ∃ d, s.store.doc? doc = some d ∧ ∀ i < count, ∃ p,
        d.page? (first + i) = some p ∧ p.condition = .complete ∧ r.target.rank ≤ p.density.rank)
      ∧ (s.sourceProblem r = none ∨ s.sourceProblem r = some .noSuchDoc
        ∨ s.sourceProblem r = some .badValue))
    ∧ (∀ doc c auto closes, r.sink = .store doc c auto closes → doc ≠ 0 →
      s.sinkProblem r = (match s.store.doc? doc with
        | none => some .noSuchDoc
        | some d =>
          if d.closed = true then some .badValue
          else if (s.moves.any fun m => m.live && m.sinkDoc? == some doc) = true then some .inUse
          else none))
    ∧ (fromStore = false → s.sourceProblem r = none)
    ∧ ((toStore = false ∨ ∃ c auto closes, r.sink = .store 0 c auto closes) → s.sinkProblem r = none)

/-- O45. ABORT_MOVE and MOVE_STATUS: the abort of a live move, once, with its lines discarded and MOVE_DONE raised; the
record of a move, whose entry is emptied when it has ended. A move that ends in PENDING leaves the store as it is, also
a document that it would close at its end (DEDUCED in log 72). -/
def Obligations.AbortAndStatus : Prop :=
  (∀ (s : State) (tag num rsv : Byte), s.Serves →
    (s.moveNumbered? num.toNat = none →
      exec (.abortMove tag num rsv) s = .next (s.replied 0x51 tag [0x09])
      ∧ exec (.moveStatus tag num rsv) s = .next (s.replied 0x52 tag [0x09]))
    ∧ ∀ m, s.moveNumbered? num.toNat = some m →
      (rsv ≠ 0 →
        exec (.abortMove tag num rsv) s = .next (s.replied 0x51 tag [0x03])
        ∧ exec (.moveStatus tag num rsv) s = .next (s.replied 0x52 tag [0x03]))
      ∧ (rsv = 0 →
        (m.live = false → exec (.abortMove tag num rsv) s = .next (s.replied 0x51 tag [0x0C]))
        ∧ (m.live = true → exec (.abortMove tag num rsv) s = .next
          (((s.replied 0x51 tag [0x00]).endMove m.id .aborted none false).settle))
        ∧ exec (.moveStatus tag num rsv) s = .next (
          let c := m.counters
          let record := [byte1 m.number, m.state.code, causeCode m.cause, routeCode m.source m.sink,
              markByte m.diverted.isSome, 0]
            ++ bytes2 (m.diverted.getD 0) ++ bytes4 c.taken ++ bytes4 c.headerLines ++ bytes4 c.delivered
            ++ bytes4 m.queue.length ++ bytes4 c.merged ++ bytes4 c.discarded ++ bytes4 c.repaired
            ++ bytes4 c.heavy ++ bytes4 c.damaged ++ bytes4 c.pagesCompleted ++ bytes4 c.curPage
            ++ bytes4 c.curLines
          let t := s.replied 0x52 tag (0x00 :: record)
          if m.live = true then t
          else { t with path := { t.path with
            table := t.path.table.map fun e => if e.map Move.id = some m.id then none else e
            endings := t.path.endings.filter fun n => n != m.id } })))
  ∧ ∀ (s : State) (id : Nat) (m : Move) (outcome : MoveState) (cause : Option MoveCause),
    s.move? id = some m →
    (m.live = false → s.endMove id outcome cause false = s)
    ∧ (∀ doc c auto closes inReset, m.state = .pending → m.sink = .store doc c auto closes → m.isStoreSource = false →
      (∀ d, s.store.doc? doc = some d → d.closed = false) →
      (s.endMove id outcome cause inReset).store = s.store)
    ∧ (m.live = true → outcome = .done ∨ outcome = .aborted ∨ outcome = .failed →
      let n : Move := { m with
        state := outcome
        cause := cause
        counters := { m.counters with discarded := m.counters.discarded + m.queue.length }
        queue := []
        granted := none
        merge := 0
        headerLeft := 0
        blankDue := 0
        cutDue := false
        paperOut := false
        reader := none }
      let t := s.endMove id outcome cause false
      t.move? id = some n
        ∧ t.path.endings = s.path.endings ++ [id]
        ∧ (∀ ch, (s.channel ch).state ≠ .fault → (t.channel ch).user = some (.move id) →
          (t.channel ch).releasing = true)
        ∧ t.cfg = s.cfg ∧ t.df.position = s.df.position ∧ t.rf.position = s.rf.position
        ∧ (s.link.outbound.length + s.link.reserved < 16 → s.link.reports < 15 →
          s.link.outbound ++ [⟨.report, 0xE1, 0, moveRecord n⟩] <+: t.link.outbound))

/-- O46. LINE_DATA by the cases of R137, each reply with the room; an accepted line is decoded and enters the queue of
its move, END_PAGE begins the next source page and END_MOVE ends the source (the room right after it enters is DEDUCED
in log 30, the slot it takes is the model's choice, log 38). -/
def Obligations.LineDataByCases : Prop :=
  ∀ (s : State) (tag num endPage endMove rsv : Byte) (coded : List Byte), s.Serves →
    1 ≤ coded.length → coded.length ≤ 2300 →
    let i := Instr.lineData tag num endPage endMove rsv coded
    (s.moveNumbered? num.toNat = none → exec i s = .next (s.replied 0x53 tag [0x09, 0]))
    ∧ ∀ m, s.moveNumbered? num.toNat = some m →
      let room := if m.state = .running ∨ m.state = .draining then
          m.depth - (m.queue.length + if m.granted = none then 0 else 1) else 0
      let ends := endPage = 1 ∨ endMove = 1
      let bad := 1 < endPage.toNat ∨ 1 < endMove.toNat ∨ rsv ≠ 0 ∨ m.isLinkIn = false
      let closed := m.state ≠ .pending ∧ m.state ≠ .starting ∧ m.state ≠ .running
      let full := m.state ≠ .running ∨ room = 0 ∨ 0 < m.headerLeft
      (bad → exec i s = .next (s.replied 0x53 tag [0x03, byte1 room]))
      ∧ (¬bad → closed → exec i s = .next (s.replied 0x53 tag [0x0C, byte1 room]))
      ∧ (¬bad → ¬closed → full → exec i s = .next (s.replied 0x53 tag [0x0B, byte1 room]))
      ∧ (¬bad → ¬closed → ¬full → ¬ends → 8190 ≤ m.srcLines →
        exec i s = .next (s.replied 0x53 tag [0x13, byte1 room]))
      ∧ (¬bad → ¬closed → ¬full → ends ∨ m.srcLines < 8190 →
        ∃ left : Byte,
          exec i s = .next
            ((s.replied 0x53 tag [0x00, left]).acceptLine m coded (endPage == 1) (endMove == 1)).settle
          ∧ (∀ w d, m.source = .linkIn w d → s.move? m.id = some m →
            let line := decodeLine w coded
            let entered := (if line.2 = true then
                { m with counters := { m.counters with repaired := m.counters.repaired + 1 } } else m).enter
              s.headWidth s.freeSlot d line.1 (endPage == 1 || endMove == 1)
            ∃ n, (s.acceptLine m coded (endPage == 1) (endMove == 1)).move? m.id = some n
              ∧ left = byte1 n.shownRoom
              ∧ n.queue = entered.queue ∧ n.counters = entered.counters
              ∧ n.counters.taken = m.counters.taken + 1
              ∧ n.state = (if endMove = 1 then .draining else .running)
              ∧ n.srcPage = (if endPage = 1 ∧ endMove = 0 then m.srcPage + 1 else m.srcPage)))

/-- O47. The centering of a 1728-dot line, the fitting to the head, and the merge of the lines of a group. A line that
enters a queue: it takes a slot of its own and stands READY at the merge factor 1; in an open group it is merged into
the line at the tail, and the group closes at its factor. A line of the SCAN source that closes is HELD_BACK, and
becomes READY as the next line of its page enters. -/
def Obligations.LinesEnterTheQueue : Prop :=
  (∀ line : RawLine, line.length = 1728 →
    centreLine line = List.replicate 160 false ++ line ++ List.replicate 160 false)
  ∧ (∀ line : RawLine, line.length = 2048 → centreLine line = line)
  ∧ (∀ (head : Nat) (line : RawLine), line.length = head → fitLine head line = line)
  ∧ (∀ line : RawLine, line.length = 2048 → fitLine 1728 line = reduceLine line)
  ∧ (∀ line : RawLine, line.length = 1728 → fitLine 2048 line = centreLine line)
  ∧ (∀ a b : RawLine, a.length = b.length → (mergeLines a b).length = a.length
    ∧ ∀ i, (mergeLines a b).getD i false = (a.getD i false || b.getD i false))
  ∧ ∀ (m : Move) (head slot : Nat) (density : Density) (dots : RawLine) (pageEnd : Bool),
    let line := if m.reduce = true then reduceLine dots else dots
    let n := m.enter head slot density dots pageEnd
    n.counters.taken = m.counters.taken + 1 ∧ n.srcLines = m.srcLines + 1 ∧ n.granted = none
      ∧ n.state = m.state ∧ n.source = m.source ∧ n.sink = m.sink
      ∧ (m.merge = 0 → n.queue.length = m.queue.length + 1
        ∧ n.counters.merged = m.counters.merged
        ∧ (m.isScan = false → mergeFactor density m.target = 1 ∨ pageEnd = true →
          (∀ x ∈ m.queue, x.state ≠ .heldBack) →
          n.merge = 0 ∧ n.queue = m.queue ++ [⟨slot, m.target,
            if m.isPrint = true ∨ m.diverted ≠ none then fitLine head line else line, pageEnd, .ready, false⟩])
        ∧ (∀ before l, m.queue = before ++ [l] → l.state = .heldBack →
          (∀ x ∈ before, x.state ≠ .heldBack) → n.queue.take m.queue.length = before ++ [{ l with
            dots := if m.isPrint = true ∨ m.diverted ≠ none then fitLine head l.dots else l.dots
            state := .ready }])
        ∧ (m.isScan = true → mergeFactor density m.target = 1 → pageEnd = false →
          n.merge = 0 ∧ n.queue.drop m.queue.length = [⟨slot, m.target, line, false, .heldBack, false⟩])
        ∧ (mergeFactor density m.target ≠ 1 → pageEnd = false →
          (∀ x ∈ m.queue, x.state ≠ .heldBack) →
          n.merge = 1 ∧ n.queue = m.queue ++ [⟨slot, m.target, line, false, .opened, false⟩]))
      ∧ (∀ (before : List SlotLine) (l : SlotLine), 0 < m.merge → m.queue = before ++ [l] →
        n.counters.merged = m.counters.merged + 1 ∧ n.queue.length = m.queue.length
        ∧ (m.isScan = false → mergeFactor density m.target ≤ m.merge + 1 ∨ pageEnd = true →
          n.merge = 0 ∧ n.queue = before ++ [{ l with
            dots := if m.isPrint = true ∨ m.diverted ≠ none then fitLine head (mergeLines l.dots line)
              else mergeLines l.dots line
            pageEnd := pageEnd
            state := .ready }])
        ∧ (m.isScan = true → mergeFactor density m.target ≤ m.merge + 1 → pageEnd = false →
          n.merge = 0 ∧ n.queue = before ++ [{ l with
            dots := mergeLines l.dots line
            state := .heldBack }])
        ∧ (m.merge + 1 < mergeFactor density m.target → pageEnd = false →
          n.merge = m.merge + 1 ∧ n.queue = before ++ [{ l with dots := mergeLines l.dots line }]))

/-- O48. READ_LINES by the cases of R139: the lines placed, as many as fit, take the sending mark, and the reply
carries them; the end of the reply delivers them one after another, completes the pages they end, and ends the move
with the finished mark. That the mark is clear while the white line of an empty page is due is DEDUCED in log 48; that
a frame in hand takes the place which the reply leaves before PAGE_EVENT and MOVE_DONE are raised is the model's choice
(log 43), and so is that it is answered after what else follows (log 2). -/
def Obligations.ReadLinesSendsAndDelivers : Prop :=
  (∀ (s : State) (tag num k rsv : Byte), s.Serves →
    let i := Instr.readLines tag num k rsv
    (s.moveNumbered? num.toNat = none → exec i s = .next (s.replied 0x54 tag [0x09]))
    ∧ ∀ m, s.moveNumbered? num.toNat = some m →
      let bad := k.toNat = 0 ∨ 32 < k.toNat ∨ rsv ≠ 0 ∨ m.sink ≠ .linkOut
      (bad → exec i s = .next (s.replied 0x54 tag [0x03]))
      ∧ (¬bad → m.live = false → exec i s = .next (s.replied 0x54 tag [0x0C]))
      ∧ (¬bad → m.state = .pending ∨ m.state = .starting →
        exec i s = .next (s.queued ⟨.linesReply m.id 0 false, 0xD4, tag,
          [0x00, byte1 m.number, 0, 0, 0, 0, m.target.code, 0]⟩))
      ∧ (¬bad → m.state = .running ∨ m.state = .draining →
        let placed := m.placed k.toNat
        let finished := decide (m.state = .draining ∧ m.blankDue = 0 ∧ placed.length = m.queue.length)
        let width := (placed.head?.map fun x => x.1.dots.length).getD 0
        let slots := placed.map fun x => x.1.slot
        exec i s = .next
          ((s.queued ⟨.linesReply m.id placed.length finished, 0xD4, tag,
            [0x00, byte1 m.number, byte1 placed.length, markByte finished] ++ bytes2 width ++ [m.target.code, 0]
              ++ placed.flatMap fun x => bytes2 x.2.length ++ [markByte x.1.pageEnd] ++ x.2⟩).onMove m.id
            fun n => { n with queue := n.queue.map fun l =>
              { l with sending := l.sending || slots.contains l.slot } })))
  ∧ (∀ (m : Move) (k : Nat),
    let placed := m.placed k
    let waiting := m.queue.dropWhile SlotLine.sending
    placed.length ≤ k
      ∧ placed.map Prod.fst <+: waiting
      ∧ (∀ x ∈ placed, x.1.state = .ready ∧ x.2 = encodeLine x.1.dots
        ∧ x.1.dots.length = (waiting.headD x.1).dots.length)
      ∧ 8 + (placed.map fun x => x.2.length + 3).sum ≤ 2304
      ∧ (∀ l rest, waiting = l :: rest → l.state = .ready → 0 < k → l.dots.length ≤ 2048 → placed ≠ [])
      ∧ (∀ l, placed.length < k → waiting[placed.length]? = some l →
        l.state ≠ .ready ∨ l.dots.length ≠ (waiting.headD l).dots.length
          ∨ 2304 < 8 + (placed.map fun x => x.2.length + 3).sum + ((encodeLine l.dots).length + 3)))
  ∧ ∀ (s : State) (before after : List OutRecord) (r : OutRecord) (id count : Nat) (finished : Bool),
    s.held = false → s.power.state ≠ .sleep → s.Sends before r after → r.kind = .linesReply id count finished →
    let t : State := { s with link := { s.link with
      outbound := before ++ after
      hand := s.link.hand.map (Hand.takenWith (before ++ after).length) } }
    exec .recordSent s = .next (t.linesSent id count finished).finish
    ∧ (s.move? id = none ∨ (∃ m, s.move? id = some m ∧ m.flowing = false) →
      t.linesSent id count finished = t)
    ∧ (∀ m, s.move? id = some m → m.flowing = true → m.sink = .linkOut → finished = false →
      count ≤ m.queue.length → (∀ l ∈ m.queue.take count, l.pageEnd = false) →
      ∃ n, (t.linesSent id count finished).move? id = some n ∧ n.queue = m.queue.drop count
        ∧ n.counters = { m.counters with
          delivered := m.counters.delivered + count
          curLines := m.counters.curLines + count })
    ∧ (∀ m l rest, s.move? id = some m → m.flowing = true → m.sink = .linkOut → m.queue = l :: rest →
      l.pageEnd = true →
      t.linesSent id 1 false = (t.report 0xE5
        ([byte1 m.number, 3] ++ bytes2 m.counters.curPage ++ bytes2 (m.counters.curLines + 1))).onMove id
          fun m => { m with
            queue := m.queue.tail
            counters := { m.counters with
              delivered := m.counters.delivered + 1
              pagesCompleted := m.counters.pagesCompleted + 1
              curPage := m.counters.curPage + 1
              curLines := 0 } })
    ∧ (∀ m n, s.move? id = some m → m.flowing = true → m.sink = .linkOut →
      t.linesSent id (n + 1) false = (t.linesSent id n false).linesSent id 1 false)
    ∧ (∀ m, s.move? id = some m → m.flowing = true → m.sink = .linkOut → finished = true →
      ∃ n, (t.linesSent id count finished).move? id = some n ∧ n.state = .done)

/-- O49. LOAD_HEADER by the cases of R116; a header line of a page is the line of the buffer in its turn, decoded,
fitted to the move's width, and stands READY in the queue without the page-end mark. A page that begins sets the prefix
count, and the next header line is emitted when there is room. That a header line of 1728 dots is centred to a line
width of 2048 whatever the sink is DEDUCED in log 37, and the slot taken is the model's choice (log 38). -/
def Obligations.HeaderLoadsAndEmits : Prop :=
  (∀ (s : State) (tag : Byte) (width rsv : Word16) (code : List Byte), s.Serves →
    1 ≤ code.length → code.length ≤ 2048 →
    let ends := (code.filter fun b => b == 255).length
    exec (.loadHeader tag width rsv code) s = .next (
      if (width.toNat ≠ 1728 ∧ width.toNat ≠ 2048) ∨ rsv ≠ 0 ∨ code.getLast? ≠ some 255 ∨ 32 < ends then
        s.replied 0x55 tag [0x03]
      else if (s.moves.any fun m => m.live && m.withHeader) = true then s.replied 0x55 tag [0x07]
      else
        let t := s.replied 0x55 tag [0x00, byte1 ends]
        { t with path := { t.path with header := some ⟨width.toNat, ends, code⟩ } }))
  ∧ (∀ h : HeaderBuffer, (h.code.getLast? = some 255 → h.lines.flatten = h.code)
    ∧ h.lines.length = (h.code.filter fun b => b == 255).length
    ∧ ∀ l ∈ h.lines, l.getLast? = some 255 ∧ 255 ∉ l.dropLast)
  ∧ (∀ (s : State) (m : Move) (h : HeaderBuffer), s.path.header = some h →
    s.oldestMove? (fun m => (m.state == .running || m.state == .draining && decide (0 < m.blankDue))
      && decide (0 < m.headerLeft) && decide (0 < m.room)) = some m →
    ruleHeader s = some (s.onMove m.id (Move.emitHeader h (s.lineWidth m) s.headWidth s.freeSlot)))
  ∧ (∀ (m : Move) (lines : Nat), m.blankDue = 0 →
    (m.nextSourcePage lines).headerLeft = (if m.withHeader = true ∧ m.diverted = none then lines else 0)
      ∧ (m.nextSourcePage lines).srcPage = m.srcPage + 1 ∧ (m.nextSourcePage lines).srcLines = 0)
  ∧ ∀ (h : HeaderBuffer) (width head slot : Nat) (m : Move),
    let n := m.emitHeader h width head slot
    let line := decodeLine h.width (h.lines.getD (h.count - m.headerLeft) [])
    let dots := if h.width = width then line.1 else if width = 1728 then reduceLine line.1
      else centreLine line.1
    n.headerLeft = m.headerLeft - 1
      ∧ n.queue = m.queue ++ [⟨slot, m.target,
        if m.isPrint = true ∨ m.diverted ≠ none then fitLine head dots else dots, false, .ready, false⟩]
      ∧ n.counters = { m.counters with
        headerLines := m.counters.headerLines + 1
        repaired := m.counters.repaired + (if line.2 = true then 1 else 0) }
      ∧ n.srcLines = m.srcLines

/-! ## The page store -/

/-- O50. CREATE_DOC and SET_RESERVE; LIST_DOCS and DOC_INFO answer from the directory and change nothing. A new
document has the lowest number above the last one that no document holds, or the lowest number no document holds, and
stands OPEN with no pages, held when RECEIVED; an operand out of range comes before a full directory (DEDUCED, log 49),
which is answered with no STORE_EVENT (the model's choice, log 75). A paper-out with FALLBACK creates one too: the
move's sink becomes that document and the page it goes on with is opened at once, the rest of a page partly printed
with its start offset, the lines delivered whatever their number (the model's choice, log 58), a page with none
delivered without one; a move whose page index is above 255 has been diverted and fails with STORE_FULL (DEDUCED, log
74); with no room for a document or a page the move fails with PAPER_OUT after a STORE_EVENT (DEDUCED, log 40), a latch
that waits for its load is dropped (DEDUCED, log 12), and without FALLBACK it fails at once; the end of a diverted move
closes its document. -/
def Obligations.DocumentsAreCreatedAndListed : Prop :=
  (∀ (s : State) (tag cls auto rsv : Byte), s.Serves →
    (2 < cls.toNat ∨ 1 < auto.toNat ∨ rsv ≠ 0 →
      exec (.createDoc tag cls auto rsv) s = .next (s.replied 0x60 tag [0x03]))
    ∧ (cls.toNat ≤ 2 → auto.toNat ≤ 1 → rsv = 0 →
      (64 ≤ s.store.directory.length →
        exec (.createDoc tag cls auto rsv) s = .next (s.replied 0x60 tag [0x0E]))
      ∧ (s.store.directory.length < 64 →
        ∃ number : Nat, 1 ≤ number ∧ number ≤ 65535
          ∧ (∀ d ∈ s.store.directory, d.number ≠ number)
          ∧ (s.store.lastDoc < number →
            ∀ k, s.store.lastDoc < k → k < number → ∃ d ∈ s.store.directory, d.number = k)
          ∧ (number ≤ s.store.lastDoc →
            (∀ k, s.store.lastDoc < k → k ≤ 65535 → ∃ d ∈ s.store.directory, d.number = k)
            ∧ ∀ k, 1 ≤ k → k < number → ∃ d ∈ s.store.directory, d.number = k)
          ∧ exec (.createDoc tag cls auto rsv) s = .next (
            let t := s.replied 0x60 tag (0x00 :: bytes2 number)
            let c : DocClass := if cls = 0 then .received else if cls = 1 then .outgoing else .copySpool
            { t with store := { t.store with
              directory := t.store.directory ++ [⟨number, c, false, cls == 0, auto == 1, []⟩]
              lastDoc := number } }))))
  ∧ (∀ (s : State) (tag code rsv : Byte), s.Serves →
    exec (.setReserve tag code rsv) s = .next (
      if 4 < code.toNat ∨ rsv ≠ 0 then s.replied 0x66 tag [0x03]
      else
        let segments := if code = 0 then 0 else if code = 1 then s.total / 16 else if code = 2 then s.total / 8
          else if code = 3 then s.total / 4 else s.total / 2
        let t := s.replied 0x66 tag (0x00 :: bytes2 segments)
        { t with cfg := { t.cfg with reserveCode := code.toNat } }))
  ∧ (∀ (s : State) (tag start rsv : Byte), s.Serves →
    exec (.listDocs tag start rsv) s = .next (
      if 63 < start.toNat ∨ rsv ≠ 0 then s.replied 0x64 tag [0x03]
      else
        let shown := (s.store.directory.drop start.toNat).take 16
        s.replied 0x64 tag (0x00 :: byte1 s.store.directory.length :: byte1 shown.length
          :: shown.flatMap fun d => bytes2 d.number ++ [d.cls.code, markByte d.closed, markByte d.hold,
            markByte d.autoDelete, markByte (s.referenced d.number), byte1 d.pages.length,
            byte1 (d.pages.filter Page.printed).length, 0])))
  ∧ (∀ (s : State) (tag : Byte) (doc : Word16) (start rsv : Byte), s.Serves →
    exec (.docInfo tag doc start rsv) s = .next (
      if doc.toNat = 0 ∨ 254 < start.toNat ∨ rsv ≠ 0 then s.replied 0x65 tag [0x03]
      else
        match s.store.directory.find? fun d => d.number == doc.toNat with
        | none => s.replied 0x65 tag [0x0A]
        | some d =>
          let shown := (d.pages.drop start.toNat).take 64
          s.replied 0x65 tag (0x00 :: bytes2 d.number ++ [d.cls.code, markByte d.closed, markByte d.hold,
              markByte d.autoDelete, byte1 (d.pages.filter Page.printed).length, byte1 d.pages.length,
              byte1 shown.length, 0]
            ++ shown.flatMap fun p => byte1 p.index :: bytes2 p.width ++ [p.density.code] ++ bytes2 p.lines
              ++ bytes4 p.bytes ++ bytes2 (p.first.getD 0xFFFF) ++ bytes2 p.segments ++ [p.condition.code]
              ++ bytes2 (p.startOffset.getD 0) ++ bytes2 p.damaged ++ [markByte p.printed])))
  ∧ (∀ (s : State) (m : Move), s.move? m.id = some m →
    let t := s.actOnPaperOut m
    let pages := (s.store.directory.map fun d => d.pages.length).sum
    let doc := s.store.newNumber
    let opened : Page := ⟨m.counters.curPage, s.headWidth, m.target, 0, 0, none, 0, .opened,
      if m.counters.curLines = 0 then none else some m.counters.curLines, 0, false⟩
    let switched (written : List Page) (writes : List OpenPage) : State := ({ s with
      store := { s.store with
        directory := s.store.directory ++ [⟨doc, .received, false, true, false, written⟩]
        lastDoc := doc
        openPages := s.store.openPages ++ writes }
      print := ⟨.empty, if s.print.strobe = .latchWait then .idle else s.print.strobe, .none⟩
      rf := s.rf.giveUp (.move m.id) (10 * s.cfg.rf.holdCode) } : State).onMove m.id fun m =>
        { m with
          sink := .store doc .received false false
          diverted := some doc
          headerLeft := 0
          cutDue := false
          paperOut := false }
    (m.fallback = false ∨ m.isLinkIn = false → t = s.failMove .paperOut m.id)
    ∧ (m.fallback = true → m.isLinkIn = true →
      (64 ≤ s.store.directory.length ∨ 256 ≤ pages →
        t = (s.report 0xE8 [0, 0, 0, 0]).failMove .paperOut m.id)
      ∧ (s.store.directory.length < 64 → pages < 256 →
        (m.counters.curPage ≤ 255 →
          t = switched [opened] [⟨doc, m.counters.curPage, none, 0, 0, false, []⟩])
        ∧ (255 < m.counters.curPage →
          t = ((switched [] []).report 0xE8 (0x00 :: bytes2 doc ++ [0x00])).failMove .storeFull m.id))))
  ∧ ∀ (s : State) (m : Move) (doc : Nat) (c : DocClass) (auto closes : Bool) (d : Document)
      (outcome : MoveState) (cause : Option MoveCause), s.move? m.id = some m → m.active = true →
    m.isLinkIn = true → m.sink = .store doc c auto closes → doc ≠ 0 → m.diverted = some doc →
    s.store.doc? doc = some d → d.autoDelete = false →
    ∃ e, (s.endMove m.id outcome cause false).store.doc? doc = some e ∧ e.closed = true
      ∧ (s.endMove m.id outcome cause false).store.openPage? doc = none

/-- O51. CLOSE_DOC, DELETE_DOC and RELEASE_DOC by their cases; a deleted document leaves the directory, every other
document stays, and every segment of its pages becomes FREE: its mark is written, page by page and the first segment of
each first, and the free count rises by one for each. That the header writes left are made first, and the marks in the
same step, is the model's choice (log 69). A hold that clears has the rewrite of the last segment of the lowest page
due, with the attributes then in force (made at the next turn: the model's choice, log 9). -/
def Obligations.DocumentsCloseReleaseAndGo : Prop :=
  (∀ (s : State) (tag : Byte) (doc : Word16) (rsv : Byte), s.Serves →
    (doc.toNat = 0 ∨ rsv ≠ 0 →
      exec (.closeDoc tag doc rsv) s = .next (s.replied 0x61 tag [0x03])
      ∧ exec (.deleteDoc tag doc rsv) s = .next (s.replied 0x62 tag [0x03])
      ∧ exec (.releaseDoc tag doc rsv) s = .next (s.replied 0x63 tag [0x03]))
    ∧ (doc.toNat ≠ 0 → rsv = 0 →
      (s.store.doc? doc.toNat = none →
        exec (.closeDoc tag doc rsv) s = .next (s.replied 0x61 tag [0x0A])
        ∧ exec (.deleteDoc tag doc rsv) s = .next (s.replied 0x62 tag [0x0A])
        ∧ exec (.releaseDoc tag doc rsv) s = .next (s.replied 0x63 tag [0x0A]))
      ∧ ∀ d, s.store.doc? doc.toNat = some d →
        exec (.closeDoc tag doc rsv) s = .next (
          if (s.moves.any fun m => m.live && m.sinkDoc? == some doc.toNat) = true then
            s.replied 0x61 tag [0x07]
          else if d.closed = true then s.replied 0x61 tag [0x00]
          else ((s.replied 0x61 tag [0x00]).onStore (Store.close doc.toNat)).testAutoDelete doc.toNat)
        ∧ exec (.deleteDoc tag doc rsv) s = .next (
          if d.hold = true then s.replied 0x62 tag [0x0D]
          else if s.referenced doc.toNat = true then s.replied 0x62 tag [0x07]
          else (s.replied 0x62 tag [0x00]).onStore (Store.delete doc.toNat))
        ∧ exec (.releaseDoc tag doc rsv) s = .next (
          if d.hold = true then
            ((s.replied 0x63 tag [0x00]).onStore (Store.clearHold doc.toNat)).testAutoDelete doc.toNat
          else s.replied 0x63 tag [0x00])))
  ∧ (∀ (s : State) (doc : Nat), s.testAutoDelete doc =
    (match s.store.doc? doc with
    | none => s
    | some d =>
      if d.autoDelete = true ∧ d.hold = false ∧ d.closed = true ∧ (∀ p ∈ d.pages, p.printed = true)
          ∧ s.referenced doc = false then s.onStore (Store.delete doc)
      else s))
  ∧ ∀ (st : Store) (doc : Nat) (d : Document), st.doc? doc = some d →
    (st.delete doc).directory = st.directory.filter (fun e => e.number != doc)
    ∧ (st.delete doc).lastDoc = st.lastDoc
    ∧ (st.delete doc).making = [] ∧ (st.delete doc).rewrites = []
    ∧ (∀ n, (∀ p ∈ d.pages, n ∉ st.chainOf p) → mapRead n (st.delete doc).map = mapRead n st.map)
    ∧ (let segments := d.pages.flatMap fun p => st.chainOf p
      let flushed := st.memory.writeHeaders ((st.making ++ st.rewrites).map st.asWritten)
      segments.Nodup →
        (∀ n ∈ segments, mapRead n (st.delete doc).map = none)
        ∧ (st.delete doc).memory
          = flushed.writeHeaders (segments.map fun n => (n, .raw (List.replicate 16 0xFF)))
        ∧ (st.memory.wf = true → ∀ n, PageMemory.read n (st.delete doc).memory
          = if n ∈ segments then ⟨.raw (List.replicate 16 0xFF), []⟩ else PageMemory.read n flushed)
        ∧ (∀ total, (st.map.map Prod.fst).Nodup → st.map.length ≤ total → (∀ n ∈ segments, mapRead n st.map ≠ none) →
          (st.delete doc).freeCount total = st.freeCount total + segments.length))
    ∧ (∃ e, (st.clearHold doc).doc? doc = some e ∧ e.hold = false ∧ e.closed = d.closed ∧ e.pages = d.pages)
    ∧ (d.pages = [] → (st.clearHold doc).rewrites = st.rewrites)
    ∧ (∀ (p : Page) (rest : List Page) (n : Nat) (h : UsedHeader), d.pages = p :: rest →
      p.condition ≠ .opened → (st.chainOf p).getLast? = some n → st.headerAt n = .used h →
      (st.clearHold doc).rewrites = st.rewrites ++ [(n, .used { h with
        last := some ⟨p.width, p.density, p.lines, p.condition, p.startOffset, p.damaged, p.printed, d.cls, false,
          d.autoDelete, (d.pages.filter Page.printed).length⟩ })])
    ∧ ∃ e, (st.close doc).doc? doc = some e ∧ e.closed = true ∧ (st.close doc).openPage? doc = none

/-- O52. A line is taken for writing with the segments it needs: allocated, the lowest FREE ones first, while the free
count exceeds the reserve, or is above 0 for a RECEIVED document; refused, the page closes TRUNCATED and the move
fails. STORE_LINE_WRITTEN completes the line of the move whose turn it is: it is delivered, the turn passes, and with
the page-end mark the page closes COMPLETE. A line that fits in the open segment goes behind the bytes of that segment,
in the line code, and no other segment changes; a line that goes on into the next segment leaves that one's header
written before the one before it closes, and so does one that goes on through two; the page counts it. A line for which
no page is open opens one first, with the next index, or fails with STORE_FULL and page 0. A page that closes takes its
condition, and its last header the LAST mark, the attributes and the check of the bytes up to the end of its last whole
line: in the write itself, or for a page cut short at the next turn (the model's choice, log 9). A header that was due
is written with the attributes as they stand when it is written, and with those it was due with when its page has gone
(the model's choice, log 9). A line abandoned returns its segments to FREE. -/
def Obligations.LinesAreWritten : Prop :=
  (∀ (s : State) (id : Nat) (m : Move) (l : SlotLine) (rest : List SlotLine) (doc : Nat), s.held = false →
    s.power.state ≠ .sleep → s.store.transfer = some id → s.move? id = some m → m.queue = l :: rest →
    m.sinkDoc? = some doc → m.flowing = true → l.state = .ready →
    exec .storeLineWritten s = .next (s.writeLine m l).settle)
  ∧ (∀ (s : State) (m : Move) (l : SlotLine) (rest : List SlotLine) (doc : Nat) (o : OpenPage),
    s.move? m.id = some m → m.queue = l :: rest → m.sinkDoc? = some doc → s.store.openPage? doc = some o →
    let t := s.writeLine m l
    let st : Store := { s.store with
      memory := s.store.memory.writeHeaders (s.store.making.map s.store.asWritten)
      making := []
      transfer := none
      turn := some m.id }
    (l.pageEnd = false →
      t.store = st.writeLine o (encodeLine l.dots) ∧ t.link = s.link
      ∧ ∃ n, t.move? m.id = some n ∧ n.queue = rest
        ∧ n.counters = { m.counters with
          delivered := m.counters.delivered + 1
          curLines := m.counters.curLines + 1 })
    ∧ (l.pageEnd = true → m.state = .running →
      t.store = (st.writeLine o (encodeLine l.dots)).closePage doc .complete
      ∧ t.link = s.link.report 0xE5
        ([byte1 m.number, 1] ++ bytes2 m.counters.curPage ++ bytes2 (m.counters.curLines + 1))
      ∧ ∃ n, t.move? m.id = some n ∧ n.queue = rest
        ∧ n.counters = { m.counters with
          delivered := m.counters.delivered + 1
          pagesCompleted := m.counters.pagesCompleted + 1
          curPage := m.counters.curPage + 1
          curLines := 0 }))
  ∧ (∀ (st : Store) (o : OpenPage) (coded : List Byte),
    let after := st.writeLine o coded
    (after.doc? o.doc = none ↔ st.doc? o.doc = none)
    ∧ (∀ d p, st.doc? o.doc = some d → d.page? o.index = some p →
      ∃ e, after.doc? o.doc = some e ∧ e.page? o.index = some { p with
        lines := p.lines + 1
        bytes := p.bytes + coded.length })
    ∧ (∀ n, st.memory.wf = true → o.seg = some n → o.allocated = [] → 1 ≤ coded.length →
      after.memory.read n = ⟨(st.memory.read n).header, (st.memory.read n).data ++ coded⟩
      ∧ (∀ k, k ≠ n → after.memory.read k = st.memory.read k)
      ∧ after.map = st.map
      ∧ st.byteStages coded false o.allocated o = [])
    ∧ (∀ n k, st.memory.wf = true → o.seg = some n → o.allocated = [k] → k ≠ n →
      let data := (st.memory.read n).data
      let room := 2032 - data.length
      let header (seq : Nat) (next : Option Nat) (written : List Byte) (ends : Nat) (continued : Bool) : SegHeader :=
        .used ⟨o.doc, o.index, seq, next, written.length, ends, continued, crc16 written, none⟩
      let opened := header (o.seq + 1) none [] 0 (decide (0 < room))
      let closed := header o.seq (some k) (data ++ coded.take room) o.lineEnds o.continued
      data.length ≤ 2032 → room < coded.length →
      after.memory.read n = ⟨closed, data ++ coded.take room⟩
      ∧ after.memory.read k = ⟨opened, coded.drop room⟩
      ∧ (∀ j, j ≠ n → j ≠ k → after.memory.read j = st.memory.read j)
      ∧ (∀ x, st.openPage? o.doc = some x → after.openPage? o.doc = some
        ⟨o.doc, o.index, some k, o.seq + 1, 1, decide (0 < room), []⟩)
      ∧ ∃ first second, st.byteStages coded false [k] { o with allocated := [] } = [first, second]
        ∧ (first.memory.read k).header = opened
        ∧ (first.memory.read n).header = (st.memory.read n).header
        ∧ (second.memory.read k).header = opened ∧ (second.memory.read n).header = closed)
    ∧ (∀ n k j, st.memory.wf = true → o.seg = some n → o.allocated = [k, j] → k ≠ n → j ≠ n →
      j ≠ k →
      let data := (st.memory.read n).data
      let room := 2032 - data.length
      let middle := (coded.drop room).take 2032
      let header (seq : Nat) (next : Option Nat) (written : List Byte) (ends : Nat) (continued : Bool) : SegHeader :=
        .used ⟨o.doc, o.index, seq, next, written.length, ends, continued, crc16 written, none⟩
      data.length ≤ 2032 → room + 2032 < coded.length →
      after.memory.read n
        = ⟨header o.seq (some k) (data ++ coded.take room) o.lineEnds o.continued, data ++ coded.take room⟩
      ∧ after.memory.read k = ⟨header (o.seq + 1) (some j) middle 0 (decide (0 < room)), middle⟩
      ∧ after.memory.read j = ⟨header (o.seq + 2) none [] 0 true, coded.drop (room + 2032)⟩
      ∧ (∀ i, i ≠ n → i ≠ k → i ≠ j → after.memory.read i = st.memory.read i))
    ∧ (∀ k, st.memory.wf = true → o.seg = none → o.allocated = [k] →
      after.memory.read k = ⟨.used ⟨o.doc, o.index, 0, none, 0, 0, false, crc16 [], none⟩, coded⟩
      ∧ (∀ j, j ≠ k → after.memory.read j = st.memory.read j)
      ∧ mapRead k after.map = some (.used o.doc o.index 0 none)
      ∧ (∀ x, st.openPage? o.doc = some x → after.openPage? o.doc = some
        ⟨o.doc, o.index, some k, 0, 1, false, []⟩)
      ∧ (st.byteStages coded false [k] { o with allocated := [] }).length = 1))
  ∧ (∀ (s : State) (m : Move) (l : SlotLine) (doc : Nat), s.store.openPage? doc = none →
    let failed := (s.report 0xE8 ([0] ++ bytes2 doc ++ [0])).failMove .storeFull m.id
    (s.store.doc? doc = none → s.takeLine m l doc = failed)
    ∧ ∀ d, s.store.doc? doc = some d →
      let index := (d.pages.getLast?.map fun p => p.index + 1).getD m.counters.curPage
      let fits := index ≤ 255 ∧ d.pages.length < 255
        ∧ (s.store.directory.map fun d => d.pages.length).sum < 256
      let width := if m.diverted ≠ none then s.headWidth else s.lineWidth m
      let page : Page := ⟨index, width, m.target, 0, 0, none, 0, .opened, none, 0, false⟩
      (¬fits → s.takeLine m l doc = failed)
      ∧ (fits → s.takeLine m l doc = State.takeLine m l doc
        { s with store := { s.store with
          directory := s.store.directory.map fun e =>
            if e.number = doc then { e with pages := e.pages ++ [page] } else e
          openPages := s.store.openPages ++ [⟨doc, index, none, 0, 0, false, []⟩] } }))
  ∧ (∀ (st : Store) (doc : Nat) (o : OpenPage) (d : Document) (p : Page) (condition : PageCondition),
    st.memory.wf = true → st.openPage? doc = some o → st.doc? doc = some d → d.page? o.index = some p →
    let after := st.closePage doc condition
    after.openPage? doc = none ∧ after.map = st.map
    ∧ (∃ e, after.doc? doc = some e ∧ e.page? o.index = some { p with condition := condition }
      ∧ e.closed = d.closed ∧ e.hold = d.hold)
    ∧ (o.seg = none → after.memory = st.memory ∧ after.rewrites = st.rewrites)
    ∧ ∀ n, o.seg = some n →
      let seg := st.memory.read n
      o.lineEnds ≤ (seg.data.filter fun b => b == 255).length →
      ∃ whole, whole <+: seg.data ∧ (whole.filter fun b => b == 255).length = o.lineEnds
        ∧ (whole = [] ∨ whole.getLast? = some 255)
        ∧ (let header : SegHeader := .used ⟨o.doc, o.index, o.seq, none, whole.length, o.lineEnds, o.continued,
            crc16 whole, some ⟨p.width, p.density, p.lines, condition, p.startOffset, p.damaged, p.printed, d.cls,
              d.hold, d.autoDelete, (d.pages.filter Page.printed).length⟩⟩
          (condition = .complete → after.rewrites = st.rewrites
            ∧ after.memory.read n = ⟨header, seg.data⟩
            ∧ ∀ k, k ≠ n → after.memory.read k = st.memory.read k)
          ∧ (condition ≠ .complete → after.memory = st.memory ∧ after.rewrites = st.rewrites ++ [(n, header)])))
  ∧ (∀ (st : Store) (n : Nat),
    (∀ bytes, st.asWritten (n, .raw bytes) = (n, .raw bytes))
    ∧ ∀ h : UsedHeader,
      (h.last = none → st.asWritten (n, .used h) = (n, .used h))
      ∧ (st.doc? h.doc = none → st.asWritten (n, .used h) = (n, .used h))
      ∧ ∀ d p, h.last ≠ none → st.doc? h.doc = some d → d.page? h.page = some p → p.condition ≠ .opened →
        (st.chainOf p).getLast? = some n →
        st.asWritten (n, .used h) = (n, .used { h with
          last := some ⟨p.width, p.density, p.lines, p.condition, p.startOffset, p.damaged, p.printed, d.cls, d.hold,
            d.autoDelete, (d.pages.filter Page.printed).length⟩ }))
  ∧ (∀ (st : Store) (o x : OpenPage), st.openPage? o.doc = some x →
    let after := st.abandonLine o
    after.memory = st.memory
    ∧ after.rewrites = st.rewrites ++ o.allocated.map (fun n => (n, .raw (List.replicate 16 0xFF)))
    ∧ (∀ n, mapRead n after.map = if n ∈ o.allocated then none else mapRead n st.map)
    ∧ after.openPage? o.doc = some { o with allocated := [] }
    ∧ ∀ d p, st.doc? o.doc = some d → d.page? o.index = some p →
      ∃ e, after.doc? o.doc = some e ∧ e.page? o.index = some { p with
        first := if p.segments ≤ o.allocated.length then none else p.first
        segments := p.segments - o.allocated.length })
  ∧ (∀ (s : State) (m : Move) (l : SlotLine) (doc : Nat) (o : OpenPage), s.store.openPage? doc = some o →
    let d := s.store.doc? doc
    let room := match o.seg with
      | none => 0
      | some n => 2032 - (s.store.memory.read n).data.length
    let need := ((encodeLine l.dots).length - room + 2031) / 2032
    let free := s.total - s.store.map.length
    let lines := ((d.bind fun d => d.pages.find? fun p => p.index == o.index).map Page.lines).getD 0
    let refused := 8191 ≤ lines ∨ (if d.map Document.cls = some .received then free < need
      else need ≠ 0 ∧ free < s.reserve + need)
    (refused → s.takeLine m l doc
      = (({ s with store := s.store.closePage doc .truncated } : State).report 0xE8
        ([0] ++ bytes2 doc ++ [byte1 o.index])).failMove .storeFull m.id)
    ∧ (¬refused → s.takeLine m l doc = { s with store := { s.store.allocate s.total need o with
      transfer := some m.id } }))
  ∧ ∀ (st : Store) (total count : Nat) (o : OpenPage),
    let taken := (st.freeSegments total).take count
    let after := st.allocate total count o
    (∀ n ∈ taken, n < total ∧ mapRead n st.map = none ∧ ∀ k < n, mapRead k st.map = none → k ∈ taken)
    ∧ (∀ (i : Nat) (n : Nat), taken[i]? = some n → mapRead n after.map
      = some (.used o.doc o.index (if o.seg = none then i else o.seq + 1 + i) none))
    ∧ (∀ n, n ∉ taken → mapRead n after.map = mapRead n st.map)
    ∧ after.memory = st.memory
    ∧ (∀ x, st.openPage? o.doc = some x → after.openPage? o.doc = some { o with allocated := taken })
    ∧ (∀ d p, st.doc? o.doc = some d → d.page? o.index = some p →
      ∃ e, after.doc? o.doc = some e ∧ e.page? o.index = some { p with
        first := if p.first = none then taken.head? else p.first
        segments := p.segments + taken.length })

/-- O53. STORE_SEGMENT_READ reads the next segment of a page and compares its check: good, the lines it holds are read;
bad, the sticky flag is set, STORE_EVENT is raised, and every line with a byte in it is handed white. The turn passes
when the read has completed a line, or the chain is at its end, and lines that are missing there are handed white
(DEDUCED in log 21). The lines of a segment: the first joins the bytes begun in the segment before, and is white when
those stood in a bad one. The oldest RUNNING move with a line read, no header line due and room is handed it. A line
read is decoded at its page's width and enters the queue with the lowest FREE slot (the model's choice, log 38), a
white one is counted damaged, and the last line of the page takes the mark; the damaged count of the page is raised
when the read ends with that line, and by no read that is cut short (the model's choice, log 57), and the read of the
next page named then begins with all its segments still to read. A transfer that is due begins for the move whose turn it is, the next in acceptance order after the one served last, or the oldest; the
header writes that are due are made in it before its own (their moment is the model's choice, log 9, and so is that
none begins while PFI is active). -/
def Obligations.SegmentsAreReadAndChecked : Prop :=
  (∀ (s : State) (id : Nat) (m : Move) (r : Reader) (upsets : List (Nat × Byte)) (n : Nat) (chain : List Nat)
      (h : UsedHeader),
    s.held = false → s.power.state ≠ .sleep → s.store.transfer = some id → s.move? id = some m →
    m.readDue = true → m.reader = some r → r.chain = n :: chain →
    let made : Store := { s.store with
      memory := s.store.memory.writeHeaders (s.store.making.map s.store.asWritten)
      making := [] }
    let st : Store := made.upset n upsets
    (st.memory.read n).header = .used h →
    let data := (st.memory.read n).data.take h.bytes
    let lines := ((s.sourcePage? m).map Page.lines).getD 0
    let t (r : Reader) : State :=
      let read := r.fill lines
      ({ s with store :=
        if read.lines = [] ∧ chain ≠ [] then st
        else { st with
          transfer := none
          turn := some m.id } } : State).onMove m.id fun m => { m with reader := some read }
    (crc16 data = h.check → data.length = h.bytes →
      exec (.storeSegmentRead upsets) s = .next (t (({ r with chain := chain }).good h.continued data)).settle)
    ∧ (crc16 data ≠ h.check ∨ data.length ≠ h.bytes →
      exec (.storeSegmentRead upsets) s = .next
        ((({ t { r with
            chain := chain
            part := none
            lines := r.lines ++ List.replicate h.lineEnds none } with
          link := { s.link with sticky := { s.link.sticky with checkError := true } } } : State).report 0xE8
            ([2] ++ bytes2 m.sourceDoc ++ [byte1 r.page])).settle)))
  ∧ (∀ (r : Reader) (continued : Bool) (lines : List (List Byte)) (tail : List Byte),
    (∀ l ∈ lines, l.getLast? = some 255 ∧ 255 ∉ l.dropLast) → 255 ∉ tail →
    let part : Option (List Byte) := if continued then r.part else some []
    (lines = [] → r.good continued tail = { r with part := part.map fun p => p ++ tail })
    ∧ ∀ l more, lines = l :: more → r.good continued (lines.flatten ++ tail) = { r with
      part := some tail
      lines := r.lines ++ (part.map fun p => p ++ l) :: more.map some })
  ∧ (∀ (r : Reader) (lines : Nat),
    (r.chain ≠ [] → r.fill lines = r)
    ∧ (r.chain = [] → r.fill lines = { r with
      lines := r.lines ++ List.replicate (lines - (r.handed + r.lines.length)) none }))
  ∧ (∀ (s : State) (m : Move) (r : Reader) (line : Option (List Byte)) (more : List (Option (List Byte)))
      (p : Page), s.move? m.id = some m → r.lines = line :: more → s.sourcePage? m = some p →
    let last := decide (p.lines ≤ r.handed + 1)
    let read := match line with
      | none => (List.replicate p.width false, false)
      | some coded => decodeLine p.width coded
    let entered := (if read.2 = true then
        { m with counters := { m.counters with repaired := m.counters.repaired + 1 } } else m).enter
      s.headWidth s.freeSlot p.density read.1 last
    let missing := if line = none then 1 else 0
    let left : Reader := { r with
      lines := more
      handed := r.handed + 1
      white := r.white + missing }
    let t := s.handLine m r line
    ∃ n, t.move? m.id = some n ∧ n.queue = entered.queue ∧ n.merge = entered.merge
      ∧ n.counters = { entered.counters with damaged := entered.counters.damaged + missing }
      ∧ (last = false → n.reader = some left ∧ n.state = m.state ∧ n.srcPage = m.srcPage ∧ t.store = s.store)
      ∧ (last = true → t.store = s.store.endRead m.sourceDoc r.page left.white
        ∧ (m.srcPage < m.sourcePages → n.state = m.state ∧ n.srcPage = m.srcPage + 1
          ∧ ∀ q, t.sourcePage? n = some q → n.reader = some
            { page := q.index
              chain := t.store.chainOf q
              part := some []
              lines := if t.store.chainOf q = [] then List.replicate q.lines none else []
              handed := 0
              white := 0 })
        ∧ (m.sourcePages ≤ m.srcPage → n.state = .draining ∧ n.reader = none)))
  ∧ (∀ (s : State) (m : Move),
    let waits (m : Move) : Prop := m.state = .running ∧ m.headerLeft = 0 ∧ 0 < m.room
      ∧ ∃ r, m.reader = some r ∧ r.lines ≠ []
    (∀ r line more, s.move? m.id = some m → waits m → (∀ n ∈ s.moves, waits n → m.id ≤ n.id) →
      m.reader = some r → r.lines = line :: more → ruleHandLine s = some (s.handLine m r line))
    ∧ ((∀ n ∈ s.moves, ¬waits n) → ruleHandLine s = none))
  ∧ (∀ (st : Store) (number index white : Nat) (d : Document) (p : Page), st.doc? number = some d →
    d.page? index = some p →
    let after := st.endRead number index white
    (white ≤ p.damaged → after = st)
    ∧ (p.damaged < white → after.memory = st.memory ∧ st.rewrites <+: after.rewrites
      ∧ (∃ e, after.doc? number = some e ∧ e.page? index = some { p with damaged := white })
      ∧ ∀ n h, (st.chainOf p).getLast? = some n → st.headerAt n = .used h → p.condition ≠ .opened →
        ∃ attrs : LastAttrs, attrs.damaged = white ∧ attrs.lines = p.lines
          ∧ after.rewrites = st.rewrites ++ [(n, .used { h with last := some attrs })]))
  ∧ (∀ (s : State) (id : Nat),
    let due (m : Move) : Prop := m.writeDue = true ∨ m.readDue = true
    (s.nextTransfer? = some id → ∃ m ∈ s.moves, m.id = id ∧ due m
      ∧ ∀ n ∈ s.moves, due n →
        (s.store.turn = none → id ≤ n.id)
        ∧ ∀ turn, s.store.turn = some turn →
          (turn < id → turn < n.id → id ≤ n.id) ∧ (id ≤ turn → n.id ≤ turn ∧ id ≤ n.id))
    ∧ (s.nextTransfer? = none ↔ ∀ m ∈ s.moves, ¬due m))
  ∧ (∀ s : State,
    (s.store.transfer = none → s.store.check = none → s.inputs.pfi = false →
      ruleTransfer s = s.nextTransfer?.map fun id => s.beginTransfer id)
    ∧ (s.store.transfer ≠ none ∨ s.store.check ≠ none ∨ s.inputs.pfi = true → ruleTransfer s = none))
  ∧ ∀ (s : State) (m : Move), s.move? m.id = some m →
    let t : State := { s with store := { s.store with
      making := s.store.making ++ s.store.rewrites
      rewrites := [] } }
    (∀ l rest doc, m.writeDue = true → m.queue = l :: rest → m.sinkDoc? = some doc →
      s.beginTransfer m.id = t.takeLine m l doc)
    ∧ (m.writeDue = false → s.beginTransfer m.id = { t with store := { t.store with transfer := some m.id } })

/-- O54. CHECK_STORE begins a check of the FREE segments and keeps its place for the late reply; SEGMENT_TESTED tests
the next FREE segment, and MEMORY_CHECK_DONE ends the check with the counts, or ends start-up. That header writes which
are due are made as the check begins is the model's choice (log 9), and so are that a frame which then moves into the
hand is answered after what else follows (log 2) and that a check begins and goes on while PFI is active (log 73). -/
def Obligations.MemoryIsChecked : Prop :=
  (∀ (s : State) (tag rsv : Byte), s.Serves →
    exec (.checkStore tag rsv) s = .next (
      if rsv ≠ 0 then s.replied 0x67 tag [0x03]
      else if (s.moves.any fun m => m.live
          && (m.isStoreSource || m.isStoreSink || (m.isLinkIn && m.isPrint && m.fallback))) = true then
        s.replied 0x67 tag [0x07]
      else
        (({ s.inHand ⟨0x67, tag, [rsv]⟩ with store := { s.store with
          memory := s.store.memory.writeHeaders ((s.store.making ++ s.store.rewrites).map s.store.asWritten)
          making := []
          rewrites := []
          check := some ⟨0, 0, 0⟩ } } : State).settle)))
  ∧ (∀ (s : State) (c : CheckRun) (n : Nat) (passed : Bool), s.held = false → s.power.state ≠ .sleep →
    s.store.check = some c → n < s.total → c.next ≤ n → mapRead n s.store.map = none →
    (∀ k, c.next ≤ k → k < n → mapRead k s.store.map ≠ none) →
    let st := s.store
    exec (.segmentTested passed) s = .next (
      if passed = true then
        { s with store := { st with
          memory := st.memory.write n Segment.blank
          check := some ⟨n + 1, c.tested + 1, c.retired⟩ } }
      else
        let t : State := { s with store := { st with
          memory := st.memory.write n ⟨.raw retiredMark, []⟩
          map := mapSet n .retired st.map
          check := some ⟨n + 1, c.tested + 1, c.retired + 1⟩ } }
        if s.storeStateCode = 1 ∧ t.storeStateCode = 2 then t.report 0xE8 [1, 0, 0, 0] else t)
    ∧ mapRead n (mapSet n .retired st.map) = some .retired
    ∧ (∀ k, k ≠ n → mapRead k (mapSet n .retired st.map) = mapRead k st.map)
    ∧ (∀ k seg, k ≠ n → PageMemory.read k (st.memory.write n seg) = PageMemory.read k st.memory))
  ∧ ∀ (s : State) (c : CheckRun), s.held = false → s.power.state ≠ .sleep → s.store.check = some c →
    (∀ n, c.next ≤ n → n < s.total → mapRead n s.store.map ≠ none) →
    let t : State := { s with store := { s.store with check := none } }
    (s.startup = .check →
      exec .memoryCheckDone s = .next (({ t with startup := .done } : State).reportBootDone.finish))
    ∧ (∀ tag rsv : Byte, s.startup = .done → s.link.hand = some ⟨⟨0x67, tag, [rsv]⟩, .handed⟩ →
      exec .memoryCheckDone s = .next
        (({ t with link := { t.link with
            hand := t.link.waiting.map fun f => Hand.takenWith (t.link.outbound.length + 1) ⟨f, .untaken⟩
            waiting := none
            outbound := t.link.outbound ++ [⟨.reply, 0xE7, tag,
              0x00 :: bytes2 c.tested ++ bytes2 c.retired⟩] } } : State).finish))

/-! ## Power, start-up and reset -/

/-- O55. SET_POWER and DOMAIN by their cases: the idle timer starts afresh; a domain needed by work is refused, and
otherwise starts or goes OFF. The state that DOMAIN ON shows is DEDUCED in log 29. A need on a domain in OFF starts it.
That SCAN stands in STARTING with a warm-up of 0 too, until LAMP_WARM_UP_EXPIRY, is the model's choice (log 63). With
its domain OFF, the head's data, clock, latch and strobe lines are low, CUT is low, and LAMP is out (log 23). -/
def Obligations.PowerCommandsByCases : Prop :=
  (∀ (s : State) (tag idle auto warm rsv : Byte), s.Serves →
    let t := s.replied 0x20 tag [0x00]
    (1 < auto.toNat ∨ rsv ≠ 0 →
      exec (.setPower tag idle auto warm rsv) s = .next (s.replied 0x20 tag [0x03]))
    ∧ (auto.toNat ≤ 1 → rsv = 0 →
      exec (.setPower tag idle auto warm rsv) s = .next
        { t with
          cfg := { t.cfg with power := ⟨idle.toNat, auto == 1, warm.toNat⟩ }
          power := { t.power with
            idleTimer := if s.idle = true ∧ idle ≠ 0 then .running idle.toNat else .stopped } }))
  ∧ (∀ (s : State) (tag dom action rsv : Byte), s.Serves →
    exec (.domain tag dom action rsv) s = .next (
      let d : DomainId := if dom = 0 then .scan else if dom = 1 then .print else .motor
      if 2 < dom.toNat ∨ 1 < action.toNat ∨ rsv ≠ 0 then s.replied 0x21 tag [0x03]
      else if s.needed d = true then s.replied 0x21 tag [0x07]
      else if action = 1 then
        if s.power.domain d = .on then s.replied 0x21 tag [0x00, 2]
        else if s.power.domain d = .starting then s.replied 0x21 tag [0x00, 1]
        else ((s.replied 0x21 tag [0x00, 1]).startDomain d).settle
      else if s.power.domain d = .off then s.replied 0x21 tag [0x00, 0]
      else ((s.replied 0x21 tag [0x00, 0]).domainOff d).settle))
  ∧ (∀ s : State,
    s.startDomain .scan = { s with power := { s.power with
      scan := .starting
      warmUp := 10 * s.cfg.power.warmUpCode } }
    ∧ s.startDomain .print = { s with power := { s.power with
      print := if s.inputs.hpg = true then .on else .starting } }
    ∧ s.startDomain .motor = { s with power := { s.power with motor := .starting } }
    ∧ s.domainOff .scan = { s with
      power := { s.power with scan := .off }
      scan := { s.scan with capture := .idle } }
    ∧ s.domainOff .print = { s with
      power := { s.power with print := .off }
      print := { s.print with
        load := .empty
        strobe := .idle } }
    ∧ (s.domainOff .motor).power = { s.power with motor := .off }
    ∧ (s.domainOff .motor).print = { s.print with cut := .none }
    ∧ (∀ ch, (s.channel ch).state = .holding → ((s.domainOff .motor).channel ch).state = .idle)
    ∧ (∀ ch, ((s.domainOff .motor).channel ch).position = (s.channel ch).position))
  ∧ (∀ (s : State) (d : DomainId),
    ruleNeed d s = (if s.needed d = true ∧ s.power.domain d = .off then some (s.startDomain d) else none))
  ∧ (∀ s : State,
    (s.power.print = .off ∨ s.power.print = .fault →
      s.headData = none ∧ s.headClock = false ∧ (∀ before : State, s.headLatch before = false)
      ∧ ∀ block, s.strobeLine block = false)
    ∧ (s.power.motor = .off → s.cutter = false)
    ∧ (s.power.scan = .off ∨ s.power.scan = .fault → s.lamp = false))
  ∧ ∀ s : State,
    (s.needed .scan = true ↔
      (∃ m ∈ s.moves, m.isScan = true ∧ m.active = true) ∨ s.scan.shading ≠ .none)
    ∧ (s.needed .print = true ↔ ∃ m ∈ s.moves, m.isPrint = true ∧ m.active = true)
    ∧ (s.needed .motor = true ↔
      (∃ m ∈ s.moves, (m.isScan = true ∨ m.isPrint = true) ∧ m.active = true)
        ∨ s.df.user ≠ none ∨ s.rf.user ≠ none)

/-- O56. The ends of the domains' starts, and their faults: a lamp that is not lit, HPG that does not come or goes
away. A domain in FAULT is reported with the states as they stand after the event, and the moves that need it fail with
DOMAIN_FAULT. That the report stands before the reply of a SHADE which the same fault ends is the model's choice (log
56), and so are that a frame waiting behind that SHADE is answered in the same event, behind what else follows (log 2),
and that no arbitration runs between the ends of several moves (log 67). -/
def Obligations.DomainEvents : Prop :=
  (∀ s : State, s.held = false → s.power.state ≠ .sleep →
    (∀ reading : Pixel, s.power.scan = .starting →
      exec (.lampWarmUpExpiry reading) s = .next (
        let v := if s.cfg.scan.invert then 63 - reading.toNat else reading.toNat
        if s.cfg.scan.black < v then
          ({ s with power := { s.power with scan := .on } } : State).finish
        else (s.domainFault .scan).finish))
    ∧ (∀ active : Bool,
      let t : State := { s with inputs := { s.inputs with hpg := active } }
      exec (.hpgChange active) s = .next (
        if active = true ∧ s.power.print = .starting then
          ({ t with power := { t.power with print := .on } } : State).settle
        else if active = false ∧ s.power.print = .on then (t.domainFault .print).settle
        else t.settle))
    ∧ (s.power.print = .starting → exec .printStartTimeout s = .next (s.domainFault .print).settle)
    ∧ (s.power.motor = .starting →
      exec .motorStartDone s = .next
        ({ s with power := { s.power with motor := .on } } : State).settle))
  ∧ ∀ (s : State) (d : DomainId), s.power.state ≠ .sleep →
    let t := s.domainFault d
    t.power.domain d = .fault
      ∧ (∀ id m, s.move? id = some m → m.needs d = true →
        ∃ n, t.move? id = some n ∧ n.state = .failed ∧ n.cause = some .domainFault)
      ∧ (∀ id m, s.move? id = some m → (∀ n ∈ s.moves, n.id = id → n.needs d = false) →
        t.move? id = some m)
      ∧ (d = .print → t.print.load = .empty ∧ t.print.strobe = .idle)
      ∧ (let p := (s.faultDomain d s.power).settle.power
        (s.link.outbound.length + s.link.reserved < 16 → s.link.reports < 15 →
          s.link.outbound ++ [⟨.report, 0xE6, 0,
            [1, p.state.code, p.scan.code, p.print.code, p.motor.code, 0, d.code]⟩] <+: t.link.outbound)
        ∧ ((s.faultDomain d s.power).settled = true →
          p = { s.power.setDomain d .fault with state := (s.power.setDomain d .fault).computed }))

/-- O57. SLEEP and IDLE_TIMER_EXPIRY: a sleep entry switches every domain off, reports, and drains the queue; an idle
timer that does not lead to sleep switches every domain off. A SLEEP that is answered while a frame waits or the parser
is outside HUNT is refused BUSY; the frame that waits moves into the hand and is answered in its turn (the event in
which they are answered is the model's choice, log 2). That a parser which waits for the mark after a wake counts as in
HUNT at the expiry is the model's choice (log 64). -/
def Obligations.SleepEntryBegins : Prop :=
  (∀ (s : State) (tag rsv : Byte), s.Serves →
    exec (.sleep tag rsv) s = .next (
      if rsv ≠ 0 then s.replied 0x22 tag [0x03]
      else if s.idle = true ∧ s.df.state ≠ .fault ∧ s.rf.state ≠ .fault then
        (s.replied 0x22 tag [0x00]).beginSleep.settle
      else s.replied 0x22 tag [0x06]))
  ∧ (∀ (s : State) (tag rsv : Byte), s.link.state = .ready → s.startup = .done →
    s.link.hand = some ⟨⟨0x22, tag, [rsv]⟩, .taken⟩ → s.link.waiting ≠ none ∨ s.link.parser ≠ .hunt →
    let t : State := { s with link := { s.link with
      outbound := s.link.outbound ++ [⟨.reply, 0xA2, tag, [if rsv ≠ 0 then 0x03 else 0x06]⟩]
      hand := s.link.waiting.map fun f => Hand.takenWith (s.link.outbound.length + 1) ⟨f, .untaken⟩
      waiting := none } }
    s.checkHand = t ∧ s.serve = t.checkHand
    ∧ (s.held = false → s.power.state ≠ .sleep → exec .takeCommand s = .next t.checkHand))
  ∧ (∀ s : State,
    s.idle = true ↔ (∀ m ∈ s.moves, m.live = false) ∧ s.df.user = none ∧ s.rf.user = none
      ∧ s.scan.shading = .none
      ∧ s.feed.doc ≠ .settling ∧ s.feed.doc ≠ .loading ∧ s.feed.doc ≠ .ejecting
      ∧ s.store.check = none ∧ s.startup = .done ∧ s.resetPhase ≠ .rebuilding)
  ∧ (∀ s : State, s.power.state ≠ .sleep →
    s.beginSleep = (({ s.allDomainsOff with power :=
      { s.power with
        scan := .off
        print := .off
        motor := .off
        state := .standby
        idleTimer := .stopped
        entry := .draining
        causes := ⟨false, false, false, false, false, false⟩ } } : State).report 0xE6
          [2, 1, 0, 0, 0, 0, 0xFF]))
  ∧ ∀ (s : State) (sec : Nat), s.held = false → s.power.state ≠ .sleep →
    s.power.idleTimer = .running sec →
    let t : State := { s with power := { s.power with idleTimer := .expired } }
    exec .idleTimerExpiry s = .next (
      if s.cfg.power.autoSleep = true ∧ s.df.state ≠ .fault ∧ s.rf.state ≠ .fault ∧ s.link.hand = none
          ∧ s.link.waiting = none ∧ s.link.parser = .hunt then
        t.beginSleep.settle
      else t.allDomainsOff.settle)

/-- O58. Into SLEEP and out of it: the drain of an entry ends when nothing is left to send, the clocks stop with the
header writes made and no debounce left, a cause begins the wake and later ones join it (WAKE, a character or a
command, a break, a change of a sensor input but SNS, as rows of their own or as WAKE_CAUSE), and the wake completes
with its report, the break or the mark wait of the link, the sensors, whose readings are formed from the inputs and
whose debounce starts afresh, the driver faults, DF's before RF's (the model's choice, log 59), and the idle timer
afresh. A cause before the clocks stop cancels the entry: WAKE, a character or a command, a framing error, a break, a
change of a sensor input but SNS, and, with no cause, the end of idleness and a channel fault. That a BREAK brings the
cause RXD is DEDUCED in log 25, that a break ends the wait for the mark in log 28. That the report of an entry which a
break cancels goes with the queue is the model's choice (log 52), and so are that the stop of the clocks makes the
header writes that are due (log 9), ends the wait for the mark with no WAKE_DISCARD (log 64) and leaves a record queued
since the drain ended in the queue (log 65), and that a frame which the wake lets be answered is answered behind what
else follows (log 2). -/
def Obligations.SleepAndWake : Prop :=
  (∀ s : State,
    let afresh (id : SensorId) : Sensor :=
      let x := s.feed.sensor id
      let reading := s.inputs.sensor id != (s.cfg.feed.sensor id).polarity
      { x with
        reading := reading
        timer := if x.known = false ∨ reading = x.debounced then none else some (s.cfg.feed.sensor id).debounce }
    s.restartDebounce = { s with feed := { s.feed with
      docEntry := afresh .docEntry
      docScan := afresh .docScan
      paper := afresh .paper
      cover := afresh .cover } }
    ∧ s.restartIdle = { s with power := { s.power with
      idleTimer := if s.power.state = .sleep ∨ s.power.entry ≠ .none ∨ s.idle = false ∨ s.cfg.power.idleTime = 0 then
        .stopped else .running s.cfg.power.idleTime } }
    ∧ ∀ ch, let level := match ch with
        | .df => s.inputs.fltd
        | .rf => s.inputs.fltr
      (level = false ∨ (s.channel ch).state = .fault → s.lookAtFlt ch = s)
      ∧ (level = true → s.held = false → s.power.state ≠ .sleep →
        exec (.driverFault ch true) s = .next (s.lookAtFlt ch).settle))
  ∧ ∀ s : State, s.held = false →
    (s.power.state ≠ .sleep → s.power.entry = .stopping →
      let x (y : Sensor) : Sensor := { y with timer := none }
      exec .sleepClocksStop s = .next
        { s with
          store := { s.store with
            memory := s.store.memory.writeHeaders ((s.store.making ++ s.store.rewrites).map s.store.asWritten)
            making := []
            rewrites := [] }
          feed := { s.feed with
            docEntry := x s.feed.docEntry
            docScan := x s.feed.docScan
            paper := x s.feed.paper
            cover := x s.feed.cover }
          link := { s.link with awaitMark := false }
          power := { s.power with
            state := .sleep
            entry := .none
            waking := false
            idleTimer := .stopped
            causes := ⟨false, false, false, false, false, false⟩ } })
    ∧ (s.power.state ≠ .sleep → s.power.entry = .none → exec .wakeInput s = .next s)
    ∧ (s.power.state ≠ .sleep → s.power.entry ≠ .none →
      let cancelled (causes : Byte) : State :=
        ((({ s with power := { s.power with
          state := s.power.computed
          entry := .none } } : State).report 0xE6
            [3, s.power.computed.code, s.power.scan.code, s.power.print.code, s.power.motor.code, causes,
              0xFF]).restartIdle)
      exec .wakeInput s = .next (cancelled 0x20)
      ∧ (∀ c : Byte, exec (.rxCharacter c) s = exec (.rxCharacter c) (cancelled 0x02))
      ∧ (∀ i f, i.frame? = some f → exec i s = exec i (cancelled 0x02))
      ∧ exec .framingError s = exec .framingError (cancelled 0x02)
      ∧ exec .breakDetected s = exec .breakDetected (cancelled 0x03)
      ∧ (∀ level : Bool,
        (s.inputs.sne ≠ level →
          exec (.sensorInputChange .docEntry level) s = exec (.sensorInputChange .docEntry level) (cancelled 0x04))
        ∧ (s.inputs.snc ≠ level →
          exec (.sensorInputChange .cover level) s = exec (.sensorInputChange .cover level) (cancelled 0x08))
        ∧ (s.inputs.snp ≠ level →
          exec (.sensorInputChange .paper level) s = exec (.sensorInputChange .paper level) (cancelled 0x10)))
      ∧ (s.idle = false ∨ s.df.state = .fault ∨ s.rf.state = .fault → ruleSleepLost s = some (cancelled 0x00))
      ∧ (s.idle = true → s.df.state ≠ .fault → s.rf.state ≠ .fault → ruleSleepLost s = none)
      ∧ (s.power.entry = .draining →
        ruleDrained s = if ∀ r ∈ s.link.outbound, s.link.state = .unset ∧ r.kind = .report then
          some { s with power := { s.power with entry := .stopping } } else none))
    ∧ (s.power.state = .sleep →
      let c := s.power.causes
      let woken (inputs : Inputs) (causes : WakeCauses) : State :=
        { s with
          inputs := inputs
          power := { s.power with
            waking := true
            causes := causes } }
      (∀ i : Instr, i = .wakeInput ∨ i = .wakeCause .wake →
        exec i s = .next (woken s.inputs { c with wake := true }))
      ∧ (∀ i : Instr, i = .wakeCause .rxd ∨ (∃ b, i = .rxCharacter b) ∨ i = .framingError ∨ (∃ f, i.frame? = some f) →
        exec i s = .next (woken s.inputs { c with rxd := true }))
      ∧ (∀ i : Instr, i = .wakeCause .breakSeen ∨ i = .breakDetected →
        exec i s = .next (woken s.inputs { c with
          breakSeen := true
          rxd := true }))
      ∧ (∀ i : Instr, i = .wakeCause .docEntry ∨ i = .sensorInputChange .docEntry (!s.inputs.sne) →
        exec i s = .next (woken { s.inputs with sne := !s.inputs.sne } { c with docEntry := true }))
      ∧ (∀ i : Instr, i = .wakeCause .paper ∨ i = .sensorInputChange .paper (!s.inputs.snp) →
        exec i s = .next (woken { s.inputs with snp := !s.inputs.snp } { c with paper := true }))
      ∧ (∀ i : Instr, i = .wakeCause .cover ∨ i = .sensorInputChange .cover (!s.inputs.snc) →
        exec i s = .next (woken { s.inputs with snc := !s.inputs.snc } { c with cover := true }))
      ∧ exec (.sensorInputChange .docScan (!s.inputs.sns)) s
        = .next { s with inputs := { s.inputs with sns := !s.inputs.sns } }
      ∧ ∀ id, exec (.sensorInputChange id (s.inputs.sensor id)) s = .next s)
    ∧ (s.power.state = .sleep → s.power.waking = true →
      exec .wakeComplete s = .next (((((s.wakeLink).restartDebounce.lookAtFlt .df).lookAtFlt .rf).restartIdle).finish)
      ∧ (s.power.causes.breakSeen = false →
        s.wakeLink =
          let t : State := { s with power := { s.power with
            state := .standby
            waking := false } }
          let u := t.report 0xE6 [4, 1, s.power.scan.code, s.power.print.code, s.power.motor.code,
            s.power.causes.byte, 0xFF]
          { u with
            power := { u.power with causes := ⟨false, false, false, false, false, false⟩ }
            link := { u.link with awaitMark := s.power.causes.rxd } })
      ∧ (s.power.causes.breakSeen = true → s.wakeLink.link.state = .unset
        ∧ s.wakeLink.link.rate = .b125000 ∧ s.wakeLink.link.parser = .hunt
        ∧ s.wakeLink.link.awaitMark = false ∧ s.wakeLink.power.state = .standby))

/-- O59. RESET ends every move ABORTED, with its lines discarded and MOVE_DONE in acceptance order, cancels all work
and stops both channels, with their queues and starts gone; its stopping phase ends when both have stopped: the
document state is set from the sensors, with DOC_EVENT when it differs and the settle timer of a sheet that stands in
the entry, under FULL from the states taken at once and with PAPER_EVENT, SOFT answers, and FULL returns every setting
and rebuilds the store. That no arbitration runs between the aborts is DEDUCED (log 62), and that PAPER_EVENT stands
before DOC_EVENT too (log 70). That a frame which then moves into the hand is answered after what else follows is the
model's choice (log 2). -/
def Obligations.ResetStopsAndReturns : Prop :=
  (∀ (s : State) (tag kind rsv : Byte), s.Serves →
    (1 < kind.toNat ∨ rsv ≠ 0 → exec (.reset tag kind rsv) s = .next (s.replied 0x23 tag [0x03]))
    ∧ (kind.toNat ≤ 1 → rsv = 0 →
      ∃ t : State, exec (.reset tag kind rsv) s = .next t.settle
        ∧ t.resetPhase = .stopping (kind == 1)
        ∧ t.link.hand = some ⟨⟨0x23, tag, [kind, rsv]⟩, .handed⟩
        ∧ (∀ id m, t.move? id = some m → m.live = false)
        ∧ (let aborted (m : Move) : Move := { m with
            state := .aborted
            cause := none
            counters := { m.counters with discarded := m.counters.discarded + m.queue.length }
            queue := []
            granted := none
            merge := 0
            headerLeft := 0
            blankDue := 0
            cutDue := false
            paperOut := false
            reader := none }
          (s.moves.map Move.id).Nodup →
            (∀ m ∈ s.moves, t.move? m.id = some (if m.live = true then aborted m else m))
            ∧ ∀ live : List Move, live.Pairwise (fun a b => a.id < b.id) →
              (∀ m, m ∈ live ↔ m ∈ s.moves ∧ m.live = true) → s.link.outbound.length + live.length < 16 →
              t.link.outbound = s.link.outbound
                ++ live.map fun m => ⟨.report, 0xE1, 0, moveRecord (aborted m)⟩)
        ∧ t.scan.capture = .idle ∧ t.scan.lineCounter = 0
        ∧ t.print = ⟨.empty, .idle, .none⟩
        ∧ t.feed.seq = .none ∧ t.feed.settle = .stopped ∧ t.feed.doc = s.feed.doc
        ∧ t.cfg = s.cfg ∧ t.power = s.power ∧ t.scan.table = s.scan.table
        ∧ (∀ ch, (t.channel ch).position = (s.channel ch).position)
        ∧ ∀ ch, (t.channel ch).queue = [] ∧ (t.channel ch).startWaiting = none
          ∧ ((s.channel ch).state = .fault → (t.channel ch).state = .fault)
          ∧ ((s.channel ch).state = .idle → (t.channel ch).state = .idle ∧ (t.channel ch).user = none)
          ∧ ((s.channel ch).state = .holding ∨ (s.channel ch).state = .lineRun ∨ (s.channel ch).state = .lineHold →
            ((t.channel ch).state = .holding ∨ (t.channel ch).state = .idle) ∧ (t.channel ch).user = none)
          ∧ (∀ x, (s.channel ch).state = .ramping ∨ (s.channel ch).state = .stopping →
            (s.channel ch).run = .ramp x →
            (t.channel ch).state = (s.channel ch).state ∧ (t.channel ch).releasing = true
            ∧ (t.channel ch).run = .ramp { x with
              stopOrdered := x.stopOrdered || decide ((s.channel ch).state = .ramping) })))
  ∧ (∀ s : State, s.held = false → s.power.state ≠ .sleep → s.df.stopped = true → s.rf.stopped = true →
    (∀ tag rsv : Byte, s.resetPhase = .stopping false →
      s.link.hand = some ⟨⟨0x23, tag, [0, rsv]⟩, .handed⟩ →
      let t : State := { s.setDocAfterReset with resetPhase := .none }
      exec .resetStopped s = .next
        (({ t with link := { t.link with
          hand := t.link.waiting.map fun f => Hand.takenWith (t.link.outbound.length + 1) ⟨f, .untaken⟩
          waiting := none
          outbound := t.link.outbound ++ [⟨.reply, 0xA3, tag, [0x00, 0x00]⟩] } } : State).finish))
    ∧ (s.resetPhase = .stopping true →
      ∃ t : State, exec .resetStopped s = .next t.finish
        ∧ t.resetPhase = .rebuilding ∧ t.cfg = Settings.powerOn s.straps
        ∧ t.path.header = none ∧ t.scan.table = List.replicate s.headWidth 63
        ∧ t.feed.docEntry = ⟨s.inputs.sne, s.inputs.sne, none, true⟩
        ∧ t.feed.docScan = ⟨s.inputs.sns, s.inputs.sns, none, true⟩
        ∧ t.feed.paper = ⟨s.inputs.snp, s.inputs.snp, none, true⟩
        ∧ t.feed.cover = ⟨s.inputs.snc, s.inputs.snc, none, true⟩
        ∧ (let doc : DocState :=
            if s.inputs.sns = true then (if s.feed.doc = .loaded then .loaded else .jammed)
            else if s.inputs.sne = true then .settling else .none
          let changed := s.inputs.snp ≠ s.feed.paper.debounced ∨ s.inputs.snc ≠ s.feed.cover.debounced
          t.feed.doc = doc
          ∧ t.feed.settle = (if doc = .settling then .running 300 else s.feed.settle)
          ∧ (s.link.outbound.length + s.link.reserved < 15 → s.link.reports < 14 →
            t.link.outbound = s.link.outbound
              ++ (if changed then [⟨.report, 0xE4, 0, [markByte s.inputs.snp, markByte s.inputs.snc]⟩] else [])
              ++ (if doc = s.feed.doc then [] else [⟨.report, 0xE3, 0, [doc.code, 18, 0, 0]⟩])))))
  ∧ ∀ s : State,
    let doc : DocState :=
      if s.feed.docScan.debounced = true then (if s.feed.doc = .loaded then .loaded else .jammed)
      else if s.feed.docEntry.debounced = true then .settling else .none
    let t := if doc = s.feed.doc then s
      else ({ s with feed := { s.feed with doc := doc } } : State).report 0xE3 [doc.code, 18, 0, 0]
    s.setDocAfterReset = if doc = .settling then { t with feed := { t.feed with
      settle := if s.cfg.feed.settleCode = 0 then .expired else .running (10 * s.cfg.feed.settleCode) } } else t

/-- O60. FORMAT_DONE and RECOVERY_SCAN_DONE: a format leaves every segment FREE and begins the memory check; a recovery
scan ends start-up with BOOT_DONE, or begins the check when the strap asks for it, and under RESET FULL it answers the
command, and the next frame in hand after what else follows (the model's choice, log 2); that this frame has its place
before BOOT_DONE, which is dropped when there is no further one, is the model's choice too (log 68). What the scan
recovers: the chains walked from the first segments, the whole ones, the one of each page that is not beaten, the page
and document records they give, within the limits of the directory; the segments it frees, and the segment map. That
the attributes of a LAST header do not class it is DEDUCED in log 50; that a document left out for the limits counts
neither in the documents recovered nor in the last document number is the model's choice (log 60), and so is that both
go on while PFI is active (log 73). -/
def Obligations.StoreIsFormattedOrRecovered : Prop :=
  (∀ s : State, s.held = false → s.power.state ≠ .sleep →
    (s.startup = .format →
      exec .formatDone s = .next
        ({ s with
          startup := .check
          store := { s.store with
            memory := s.store.memory.freeAll (List.range s.total)
            map := []
            directory := []
            lastDoc := 0
            openPages := []
            making := []
            rewrites := []
            check := some ⟨0, 0, 0⟩
            docsRecovered := 0
            pagesRecovered := 0
            pagesDiscarded := 0 } } : State).settle)
    ∧ (s.startup = .scan →
      let st := s.store.recover s.total
      exec .recoveryScanDone s = .next (
        if s.straps.mt = true then
          ({ s with
            startup := .check
            store := { st with check := some ⟨0, 0, 0⟩ } } : State).settle
        else
          let t : State := { s with
            startup := .done
            store := st }
          (t.report 0xE0 ([t.storeStateCode, byte1 st.docsRecovered] ++ bytes2 st.pagesRecovered
            ++ bytes2 st.pagesDiscarded)).settle))
    ∧ (∀ tag rsv : Byte, s.startup = .done → s.resetPhase = .rebuilding →
      s.link.hand = some ⟨⟨0x23, tag, [1, rsv]⟩, .handed⟩ →
      let st := s.store.recover s.total
      let t : State := { s with
        resetPhase := .none
        store := st
        link := { s.link with
          hand := s.link.waiting.map fun f => Hand.takenWith (s.link.outbound.length + 1) ⟨f, .untaken⟩
          waiting := none
          outbound := s.link.outbound ++ [⟨.reply, 0xA3, tag, [0x00, 0x01]⟩] } }
      exec .recoveryScanDone s = .next
        (t.report 0xE0 ([t.storeStateCode, byte1 st.docsRecovered] ++ bytes2 st.pagesRecovered
          ++ bytes2 st.pagesDiscarded)).finish))
  ∧ (∀ (m : PageMemory) (total n : Nat), m.wf = true → n < total →
    PageMemory.read n (m.freeAll (List.range total)) = Segment.blank)
  ∧ (∀ (m : PageMemory) (total : Nat),
    let chains := m.chains total
    (chains.map Chain.first = (List.range total).filter fun n => match (m.read n).header.classify total with
      | .used h => h.seq == 0
      | _ => false)
    ∧ (∀ c ∈ chains,
      (∀ l ∈ c.links, (m.read l.1).header = .used l.2 ∧ l.1 < total)
      ∧ (∀ i a b, c.links[i]? = some a → c.links[i + 1]? = some b →
        a.2.next = some b.1 ∧ b.2.doc = a.2.doc ∧ b.2.page = a.2.page ∧ b.2.seq = a.2.seq + 1)
      ∧ (c.whole = true → ∃ (n : Nat) (h : UsedHeader) (attrs : LastAttrs), c.links.getLast? = some (n, h)
        ∧ h.next = none ∧ h.last = some attrs ∧ attrs.inRange = true
        ∧ (c.links.map fun l => l.2.lineEnds).sum = attrs.lines
        ∧ (∀ l ∈ c.links, crc16 ((m.read l.1).data.take l.2.bytes) = l.2.check
          ∧ l.2.bytes ≤ (m.read l.1).data.length)
        ∧ ∀ l, c.links.head? = some l → l.2.continued = false)
      ∧ (∀ n h attrs, c.links.length ≤ total → c.links.getLast? = some (n, h) → h.next = none →
        h.last = some attrs → attrs.inRange = true → (c.links.map fun l => l.2.lineEnds).sum = attrs.lines →
        (∀ l ∈ c.links, crc16 ((m.read l.1).data.take l.2.bytes) = l.2.check
          ∧ l.2.bytes ≤ (m.read l.1).data.length) →
        (∀ l, c.links.head? = some l → l.2.continued = false) → c.whole = true)))
  ∧ (∀ (cs : List Chain) (c : Chain),
    c ∈ winners cs ↔ c ∈ cs ∧ c.whole = true ∧ ∀ o ∈ cs, o.whole = true → o.doc = c.doc → o.page = c.page →
      o.links.length < c.links.length ∨ (o.links.length = c.links.length ∧ c.first ≤ o.first))
  ∧ (∀ (st : Store) (total : Nat), st.making = [] → st.rewrites = [] →
    let after := st.recover total
    let won := winners (st.memory.chains total)
    after.directory.length ≤ 64
    ∧ (after.directory.map fun d => d.pages.length).sum ≤ 256
    ∧ (∀ d ∈ after.directory, d.closed = true
      ∧ (∀ p ∈ d.pages, ∃ c ∈ won, c.doc = d.number ∧ c.pageRecord = some p)
      ∧ (d.pages.map Page.index).Pairwise (· ≤ ·)
      ∧ ∃ c ∈ won, ∃ attrs, c.doc = d.number ∧ c.attrs? = some attrs
        ∧ d.pages.head?.map Page.index = some c.page ∧ d.cls = attrs.cls ∧ d.hold = attrs.hold
        ∧ d.autoDelete = attrs.autoDelete)
    ∧ (after.directory.map Document.number).Pairwise (· < ·)
    ∧ ((won.map Chain.doc).dedup.length ≤ 64 → won.length ≤ 256 →
      ∀ c ∈ won, ∃ d ∈ after.directory, d.number = c.doc ∧ ∃ p ∈ d.pages, c.pageRecord = some p)
    ∧ (∀ d ∈ after.directory, d.number ≤ after.lastDoc)
    ∧ (after.lastDoc = 0 ∨ ∃ d ∈ after.directory, d.number = after.lastDoc)
    ∧ after.openPages = [] ∧ after.making = [] ∧ after.rewrites = []
    ∧ after.docsRecovered = after.directory.length
    ∧ after.pagesRecovered = (won.filter fun c => after.directory.any fun d => d.number == c.doc).length
    ∧ after.pagesDiscarded = (st.memory.chains total).length - after.pagesRecovered
    ∧ (st.memory.wf = true → ∀ n < total,
      let kept := won.any fun c =>
        (after.directory.any fun d => d.number == c.doc) && (c.links.map Prod.fst).contains n
      (kept = true → after.memory.read n = st.memory.read n
        ∧ ∃ h, (st.memory.read n).header = .used h
          ∧ mapRead n after.map = some (.used h.doc h.page h.seq h.next))
      ∧ (kept = false → (st.memory.read n).header.classify total = .retired →
        after.memory.read n = st.memory.read n ∧ mapRead n after.map = some .retired)
      ∧ (kept = false → (st.memory.read n).header.classify total ≠ .retired →
        (after.memory.read n).header = .raw (List.replicate 16 0xFF) ∧ mapRead n after.map = none)))
  ∧ (∀ (c : Chain) (a : LastAttrs), c.attrs? = some a →
    c.pageRecord = some ⟨c.page, a.width, a.density, a.lines, (c.links.map fun l => l.2.bytes).sum, some c.first,
      c.links.length, a.condition, a.startOffset, a.damaged, a.printed⟩)
  ∧ ∀ (total : Nat),
    (∀ bytes : List Byte, bytes.length = 16 →
      (SegHeader.raw bytes).classify total =
        (if 12 ≤ ((List.zip bytes retiredMark).filter fun x => x.1 == x.2).length then .retired
        else if bytes = List.replicate 16 0xFF then .free
        else .unreadable))
    ∧ ∀ h : UsedHeader, (SegHeader.used h).classify total =
      (if 1 ≤ h.doc ∧ h.doc ≤ 65535 ∧ 1 ≤ h.page ∧ h.page ≤ 255 ∧ h.bytes ≤ 2032
          ∧ (∀ n ∈ h.next, n < total) then .used h
      else .unreadable)

end Statements
end

