-- ==== Sys2Proof/Laws/State.lean ====
section
/-! SUPPORT. Each field of the state after each update of one block: a later proof cites these and unfolds
no record update. -/

namespace Sys2Proof.Machine

section onLink

variable (f : Link → Link) (s : State)

@[simp] theorem State.onLink_pending : (s.onLink f).pending = s.pending := rfl
@[simp] theorem State.onLink_straps : (s.onLink f).straps = s.straps := rfl
@[simp] theorem State.onLink_held : (s.onLink f).held = s.held := rfl
@[simp] theorem State.onLink_startup : (s.onLink f).startup = s.startup := rfl
@[simp] theorem State.onLink_resetPhase : (s.onLink f).resetPhase = s.resetPhase := rfl
@[simp] theorem State.onLink_inputs : (s.onLink f).inputs = s.inputs := rfl
@[simp] theorem State.onLink_cfg : (s.onLink f).cfg = s.cfg := rfl
@[simp] theorem State.onLink_link : (s.onLink f).link = f s.link := rfl
@[simp] theorem State.onLink_df : (s.onLink f).df = s.df := rfl
@[simp] theorem State.onLink_rf : (s.onLink f).rf = s.rf := rfl
@[simp] theorem State.onLink_feed : (s.onLink f).feed = s.feed := rfl
@[simp] theorem State.onLink_scan : (s.onLink f).scan = s.scan := rfl
@[simp] theorem State.onLink_print : (s.onLink f).print = s.print := rfl
@[simp] theorem State.onLink_path : (s.onLink f).path = s.path := rfl
@[simp] theorem State.onLink_store : (s.onLink f).store = s.store := rfl
@[simp] theorem State.onLink_power : (s.onLink f).power = s.power := rfl

end onLink

section onFeed

variable (f : Feed → Feed) (s : State)

@[simp] theorem State.onFeed_pending : (s.onFeed f).pending = s.pending := rfl
@[simp] theorem State.onFeed_straps : (s.onFeed f).straps = s.straps := rfl
@[simp] theorem State.onFeed_held : (s.onFeed f).held = s.held := rfl
@[simp] theorem State.onFeed_startup : (s.onFeed f).startup = s.startup := rfl
@[simp] theorem State.onFeed_resetPhase : (s.onFeed f).resetPhase = s.resetPhase := rfl
@[simp] theorem State.onFeed_inputs : (s.onFeed f).inputs = s.inputs := rfl
@[simp] theorem State.onFeed_cfg : (s.onFeed f).cfg = s.cfg := rfl
@[simp] theorem State.onFeed_link : (s.onFeed f).link = s.link := rfl
@[simp] theorem State.onFeed_df : (s.onFeed f).df = s.df := rfl
@[simp] theorem State.onFeed_rf : (s.onFeed f).rf = s.rf := rfl
@[simp] theorem State.onFeed_feed : (s.onFeed f).feed = f s.feed := rfl
@[simp] theorem State.onFeed_scan : (s.onFeed f).scan = s.scan := rfl
@[simp] theorem State.onFeed_print : (s.onFeed f).print = s.print := rfl
@[simp] theorem State.onFeed_path : (s.onFeed f).path = s.path := rfl
@[simp] theorem State.onFeed_store : (s.onFeed f).store = s.store := rfl
@[simp] theorem State.onFeed_power : (s.onFeed f).power = s.power := rfl

end onFeed

section onScan

variable (f : Scan → Scan) (s : State)

@[simp] theorem State.onScan_pending : (s.onScan f).pending = s.pending := rfl
@[simp] theorem State.onScan_straps : (s.onScan f).straps = s.straps := rfl
@[simp] theorem State.onScan_held : (s.onScan f).held = s.held := rfl
@[simp] theorem State.onScan_startup : (s.onScan f).startup = s.startup := rfl
@[simp] theorem State.onScan_resetPhase : (s.onScan f).resetPhase = s.resetPhase := rfl
@[simp] theorem State.onScan_inputs : (s.onScan f).inputs = s.inputs := rfl
@[simp] theorem State.onScan_cfg : (s.onScan f).cfg = s.cfg := rfl
@[simp] theorem State.onScan_link : (s.onScan f).link = s.link := rfl
@[simp] theorem State.onScan_df : (s.onScan f).df = s.df := rfl
@[simp] theorem State.onScan_rf : (s.onScan f).rf = s.rf := rfl
@[simp] theorem State.onScan_feed : (s.onScan f).feed = s.feed := rfl
@[simp] theorem State.onScan_scan : (s.onScan f).scan = f s.scan := rfl
@[simp] theorem State.onScan_print : (s.onScan f).print = s.print := rfl
@[simp] theorem State.onScan_path : (s.onScan f).path = s.path := rfl
@[simp] theorem State.onScan_store : (s.onScan f).store = s.store := rfl
@[simp] theorem State.onScan_power : (s.onScan f).power = s.power := rfl

end onScan

section onPrint

variable (f : Print → Print) (s : State)

@[simp] theorem State.onPrint_pending : (s.onPrint f).pending = s.pending := rfl
@[simp] theorem State.onPrint_straps : (s.onPrint f).straps = s.straps := rfl
@[simp] theorem State.onPrint_held : (s.onPrint f).held = s.held := rfl
@[simp] theorem State.onPrint_startup : (s.onPrint f).startup = s.startup := rfl
@[simp] theorem State.onPrint_resetPhase : (s.onPrint f).resetPhase = s.resetPhase := rfl
@[simp] theorem State.onPrint_inputs : (s.onPrint f).inputs = s.inputs := rfl
@[simp] theorem State.onPrint_cfg : (s.onPrint f).cfg = s.cfg := rfl
@[simp] theorem State.onPrint_link : (s.onPrint f).link = s.link := rfl
@[simp] theorem State.onPrint_df : (s.onPrint f).df = s.df := rfl
@[simp] theorem State.onPrint_rf : (s.onPrint f).rf = s.rf := rfl
@[simp] theorem State.onPrint_feed : (s.onPrint f).feed = s.feed := rfl
@[simp] theorem State.onPrint_scan : (s.onPrint f).scan = s.scan := rfl
@[simp] theorem State.onPrint_print : (s.onPrint f).print = f s.print := rfl
@[simp] theorem State.onPrint_path : (s.onPrint f).path = s.path := rfl
@[simp] theorem State.onPrint_store : (s.onPrint f).store = s.store := rfl
@[simp] theorem State.onPrint_power : (s.onPrint f).power = s.power := rfl

end onPrint

section onPath

variable (f : Path → Path) (s : State)

@[simp] theorem State.onPath_pending : (s.onPath f).pending = s.pending := rfl
@[simp] theorem State.onPath_straps : (s.onPath f).straps = s.straps := rfl
@[simp] theorem State.onPath_held : (s.onPath f).held = s.held := rfl
@[simp] theorem State.onPath_startup : (s.onPath f).startup = s.startup := rfl
@[simp] theorem State.onPath_resetPhase : (s.onPath f).resetPhase = s.resetPhase := rfl
@[simp] theorem State.onPath_inputs : (s.onPath f).inputs = s.inputs := rfl
@[simp] theorem State.onPath_cfg : (s.onPath f).cfg = s.cfg := rfl
@[simp] theorem State.onPath_link : (s.onPath f).link = s.link := rfl
@[simp] theorem State.onPath_df : (s.onPath f).df = s.df := rfl
@[simp] theorem State.onPath_rf : (s.onPath f).rf = s.rf := rfl
@[simp] theorem State.onPath_feed : (s.onPath f).feed = s.feed := rfl
@[simp] theorem State.onPath_scan : (s.onPath f).scan = s.scan := rfl
@[simp] theorem State.onPath_print : (s.onPath f).print = s.print := rfl
@[simp] theorem State.onPath_path : (s.onPath f).path = f s.path := rfl
@[simp] theorem State.onPath_store : (s.onPath f).store = s.store := rfl
@[simp] theorem State.onPath_power : (s.onPath f).power = s.power := rfl

end onPath

section onStore

variable (f : Store → Store) (s : State)

@[simp] theorem State.onStore_pending : (s.onStore f).pending = s.pending := rfl
@[simp] theorem State.onStore_straps : (s.onStore f).straps = s.straps := rfl
@[simp] theorem State.onStore_held : (s.onStore f).held = s.held := rfl
@[simp] theorem State.onStore_startup : (s.onStore f).startup = s.startup := rfl
@[simp] theorem State.onStore_resetPhase : (s.onStore f).resetPhase = s.resetPhase := rfl
@[simp] theorem State.onStore_inputs : (s.onStore f).inputs = s.inputs := rfl
@[simp] theorem State.onStore_cfg : (s.onStore f).cfg = s.cfg := rfl
@[simp] theorem State.onStore_link : (s.onStore f).link = s.link := rfl
@[simp] theorem State.onStore_df : (s.onStore f).df = s.df := rfl
@[simp] theorem State.onStore_rf : (s.onStore f).rf = s.rf := rfl
@[simp] theorem State.onStore_feed : (s.onStore f).feed = s.feed := rfl
@[simp] theorem State.onStore_scan : (s.onStore f).scan = s.scan := rfl
@[simp] theorem State.onStore_print : (s.onStore f).print = s.print := rfl
@[simp] theorem State.onStore_path : (s.onStore f).path = s.path := rfl
@[simp] theorem State.onStore_store : (s.onStore f).store = f s.store := rfl
@[simp] theorem State.onStore_power : (s.onStore f).power = s.power := rfl

end onStore

section onPower

variable (f : Power → Power) (s : State)

@[simp] theorem State.onPower_pending : (s.onPower f).pending = s.pending := rfl
@[simp] theorem State.onPower_straps : (s.onPower f).straps = s.straps := rfl
@[simp] theorem State.onPower_held : (s.onPower f).held = s.held := rfl
@[simp] theorem State.onPower_startup : (s.onPower f).startup = s.startup := rfl
@[simp] theorem State.onPower_resetPhase : (s.onPower f).resetPhase = s.resetPhase := rfl
@[simp] theorem State.onPower_inputs : (s.onPower f).inputs = s.inputs := rfl
@[simp] theorem State.onPower_cfg : (s.onPower f).cfg = s.cfg := rfl
@[simp] theorem State.onPower_link : (s.onPower f).link = s.link := rfl
@[simp] theorem State.onPower_df : (s.onPower f).df = s.df := rfl
@[simp] theorem State.onPower_rf : (s.onPower f).rf = s.rf := rfl
@[simp] theorem State.onPower_feed : (s.onPower f).feed = s.feed := rfl
@[simp] theorem State.onPower_scan : (s.onPower f).scan = s.scan := rfl
@[simp] theorem State.onPower_print : (s.onPower f).print = s.print := rfl
@[simp] theorem State.onPower_path : (s.onPower f).path = s.path := rfl
@[simp] theorem State.onPower_store : (s.onPower f).store = s.store := rfl
@[simp] theorem State.onPower_power : (s.onPower f).power = f s.power := rfl

end onPower

section onChannel

variable (ch : ChannelId) (f : Channel → Channel) (s : State)

@[simp] theorem State.onChannel_pending : (s.onChannel ch f).pending = s.pending := by cases ch <;> rfl
@[simp] theorem State.onChannel_straps : (s.onChannel ch f).straps = s.straps := by cases ch <;> rfl
@[simp] theorem State.onChannel_held : (s.onChannel ch f).held = s.held := by cases ch <;> rfl
@[simp] theorem State.onChannel_startup : (s.onChannel ch f).startup = s.startup := by cases ch <;> rfl
@[simp] theorem State.onChannel_resetPhase : (s.onChannel ch f).resetPhase = s.resetPhase := by cases ch <;> rfl
@[simp] theorem State.onChannel_inputs : (s.onChannel ch f).inputs = s.inputs := by cases ch <;> rfl
@[simp] theorem State.onChannel_cfg : (s.onChannel ch f).cfg = s.cfg := by cases ch <;> rfl
@[simp] theorem State.onChannel_link : (s.onChannel ch f).link = s.link := by cases ch <;> rfl
@[simp] theorem State.onChannel_feed : (s.onChannel ch f).feed = s.feed := by cases ch <;> rfl
@[simp] theorem State.onChannel_scan : (s.onChannel ch f).scan = s.scan := by cases ch <;> rfl
@[simp] theorem State.onChannel_print : (s.onChannel ch f).print = s.print := by cases ch <;> rfl
@[simp] theorem State.onChannel_path : (s.onChannel ch f).path = s.path := by cases ch <;> rfl
@[simp] theorem State.onChannel_store : (s.onChannel ch f).store = s.store := by cases ch <;> rfl
@[simp] theorem State.onChannel_power : (s.onChannel ch f).power = s.power := by cases ch <;> rfl
@[simp] theorem State.onChannel_df_df : (s.onChannel .df f).df = f s.df := rfl
@[simp] theorem State.onChannel_df_rf : (s.onChannel .df f).rf = s.rf := rfl
@[simp] theorem State.onChannel_rf_df : (s.onChannel .rf f).df = s.df := rfl
@[simp] theorem State.onChannel_rf_rf : (s.onChannel .rf f).rf = f s.rf := rfl
@[simp] theorem State.onChannel_channel : (s.onChannel ch f).channel ch = f (s.channel ch) := by
  cases ch <;> rfl
@[simp] theorem State.channel_df : s.channel .df = s.df := rfl
@[simp] theorem State.channel_rf : s.channel .rf = s.rf := rfl

end onChannel

section onMove

variable (id : Nat) (f : Move → Move) (s : State)

@[simp] theorem State.onMove_pending : (s.onMove id f).pending = s.pending := rfl
@[simp] theorem State.onMove_straps : (s.onMove id f).straps = s.straps := rfl
@[simp] theorem State.onMove_held : (s.onMove id f).held = s.held := rfl
@[simp] theorem State.onMove_startup : (s.onMove id f).startup = s.startup := rfl
@[simp] theorem State.onMove_resetPhase : (s.onMove id f).resetPhase = s.resetPhase := rfl
@[simp] theorem State.onMove_inputs : (s.onMove id f).inputs = s.inputs := rfl
@[simp] theorem State.onMove_cfg : (s.onMove id f).cfg = s.cfg := rfl
@[simp] theorem State.onMove_link : (s.onMove id f).link = s.link := rfl
@[simp] theorem State.onMove_df : (s.onMove id f).df = s.df := rfl
@[simp] theorem State.onMove_rf : (s.onMove id f).rf = s.rf := rfl
@[simp] theorem State.onMove_feed : (s.onMove id f).feed = s.feed := rfl
@[simp] theorem State.onMove_scan : (s.onMove id f).scan = s.scan := rfl
@[simp] theorem State.onMove_print : (s.onMove id f).print = s.print := rfl
@[simp] theorem State.onMove_path : (s.onMove id f).path = s.path.onMove id f := rfl
@[simp] theorem State.onMove_store : (s.onMove id f).store = s.store := rfl
@[simp] theorem State.onMove_power : (s.onMove id f).power = s.power := rfl

end onMove

section report

variable (type : Byte) (payload : List Byte) (s : State)

@[simp] theorem State.report_pending : (s.report type payload).pending = s.pending := rfl
@[simp] theorem State.report_straps : (s.report type payload).straps = s.straps := rfl
@[simp] theorem State.report_held : (s.report type payload).held = s.held := rfl
@[simp] theorem State.report_startup : (s.report type payload).startup = s.startup := rfl
@[simp] theorem State.report_resetPhase : (s.report type payload).resetPhase = s.resetPhase := rfl
@[simp] theorem State.report_inputs : (s.report type payload).inputs = s.inputs := rfl
@[simp] theorem State.report_cfg : (s.report type payload).cfg = s.cfg := rfl
@[simp] theorem State.report_link : (s.report type payload).link = s.link.report type payload := rfl
@[simp] theorem State.report_df : (s.report type payload).df = s.df := rfl
@[simp] theorem State.report_rf : (s.report type payload).rf = s.rf := rfl
@[simp] theorem State.report_feed : (s.report type payload).feed = s.feed := rfl
@[simp] theorem State.report_scan : (s.report type payload).scan = s.scan := rfl
@[simp] theorem State.report_print : (s.report type payload).print = s.print := rfl
@[simp] theorem State.report_path : (s.report type payload).path = s.path := rfl
@[simp] theorem State.report_store : (s.report type payload).store = s.store := rfl
@[simp] theorem State.report_power : (s.report type payload).power = s.power := rfl

end report

section onChannelCfg

variable (ch : ChannelId) (f : ChannelSettings → ChannelSettings) (s : State)

@[simp] theorem State.onChannelCfg_pending : (s.onChannelCfg ch f).pending = s.pending := by
  cases ch <;> rfl
@[simp] theorem State.onChannelCfg_straps : (s.onChannelCfg ch f).straps = s.straps := by
  cases ch <;> rfl
@[simp] theorem State.onChannelCfg_held : (s.onChannelCfg ch f).held = s.held := by
  cases ch <;> rfl
@[simp] theorem State.onChannelCfg_startup : (s.onChannelCfg ch f).startup = s.startup := by
  cases ch <;> rfl
@[simp] theorem State.onChannelCfg_resetPhase : (s.onChannelCfg ch f).resetPhase = s.resetPhase := by
  cases ch <;> rfl
@[simp] theorem State.onChannelCfg_inputs : (s.onChannelCfg ch f).inputs = s.inputs := by
  cases ch <;> rfl
@[simp] theorem State.onChannelCfg_link : (s.onChannelCfg ch f).link = s.link := by
  cases ch <;> rfl
@[simp] theorem State.onChannelCfg_df : (s.onChannelCfg ch f).df = s.df := by
  cases ch <;> rfl
@[simp] theorem State.onChannelCfg_rf : (s.onChannelCfg ch f).rf = s.rf := by
  cases ch <;> rfl
@[simp] theorem State.onChannelCfg_feed : (s.onChannelCfg ch f).feed = s.feed := by
  cases ch <;> rfl
@[simp] theorem State.onChannelCfg_scan : (s.onChannelCfg ch f).scan = s.scan := by
  cases ch <;> rfl
@[simp] theorem State.onChannelCfg_print : (s.onChannelCfg ch f).print = s.print := by
  cases ch <;> rfl
@[simp] theorem State.onChannelCfg_path : (s.onChannelCfg ch f).path = s.path := by
  cases ch <;> rfl
@[simp] theorem State.onChannelCfg_store : (s.onChannelCfg ch f).store = s.store := by
  cases ch <;> rfl
@[simp] theorem State.onChannelCfg_power : (s.onChannelCfg ch f).power = s.power := by
  cases ch <;> rfl
@[simp] theorem State.onChannelCfg_channelCfg :
    (s.onChannelCfg ch f).channelCfg ch = f (s.channelCfg ch) := by cases ch <;> rfl

end onChannelCfg

section setParser

variable (p : Parser) (s : State)

@[simp] theorem State.setParser_link : (s.setParser p).link = { s.link with parser := p } := rfl
@[simp] theorem State.setParser_power : (s.setParser p).power = s.power := rfl
@[simp] theorem State.setParser_held : (s.setParser p).held = s.held := rfl

end setParser

/-! ## The link after a report -/

section linkReport

variable (type : Byte) (payload : List Byte) (l : Link)

@[simp] theorem Link.report_state : (l.report type payload).state = l.state := by
  unfold Link.report; split <;> rfl
@[simp] theorem Link.report_rate : (l.report type payload).rate = l.rate := by
  unfold Link.report; split <;> rfl
@[simp] theorem Link.report_rateChange : (l.report type payload).rateChange = l.rateChange := by
  unfold Link.report; split <;> rfl
@[simp] theorem Link.report_parser : (l.report type payload).parser = l.parser := by
  unfold Link.report; split <;> rfl
@[simp] theorem Link.report_hand : (l.report type payload).hand = l.hand := by
  unfold Link.report; split <;> rfl
@[simp] theorem Link.report_waiting : (l.report type payload).waiting = l.waiting := by
  unfold Link.report; split <;> rfl
@[simp] theorem Link.report_awaitMark : (l.report type payload).awaitMark = l.awaitMark := by
  unfold Link.report; split <;> rfl

end linkReport

end Sys2Proof.Machine
end

