-- ==== Sys2Proof/Laws/Channel.lean ====
section
/-! SUPPORT. What each operation on a stepping channel keeps: the step periods stay in their bounds and
the run values go with the state (R18, R26 to R28), and only a step moves the position (R20). -/

namespace Sys2Proof.Machine

/-! ## Step periods -/

theorem cruisePeriod_bounds {w f d acc : Nat} (hf : f < d) (ha : acc < d) :
    w ≤ (cruisePeriod w f d acc).1 ∧ (cruisePeriod w f d acc).1 ≤ w + 1
      ∧ (cruisePeriod w f d acc).2 < d := by
  unfold cruisePeriod
  split <;> simp <;> omega

/-- A planned step keeps the bounds of R28, from run values whose period has not been planned yet. -/
theorem RampRun.plan_ok (x : RampRun) (hq : x.qt = 16 * x.profile.wt) (h1 : x.qt ≤ x.q)
    (h2 : x.q ≤ x.qs)
    (h3 : x.qs = x.qt ∨ x.qs = 16 * x.profile.ws ∧ x.profile.wt < x.profile.ws)
    (h4 : x.profile.f < x.profile.d) (h5 : x.acc < x.profile.d) : x.plan.Ok := by
  have hc := cruisePeriod_bounds (w := x.profile.wt) h4 h5
  unfold RampRun.plan
  dsimp only
  split
  · refine ⟨hq, ?_, ?_, h3, h4, h5, ?_, ?_⟩ <;> dsimp only <;> omega
  · split
    · refine ⟨hq, ?_, ?_, h3, h4, h5, ?_, ?_⟩ <;> dsimp only <;> omega
    · split
      · refine ⟨hq, h1, h2, h3, h4, hc.2.2, hc.1, ?_⟩
        dsimp only; omega
      · refine ⟨hq, h1, h2, h3, h4, h5, ?_, ?_⟩ <;> dsimp only <;> omega

theorem RampRun.plan_Ok (x : RampRun) (h : x.Ok) : x.plan.Ok :=
  x.plan_ok h.target h.floor h.ceiling h.start h.fraction h.acc

theorem RampRun.start_Ok (p : Profile) (h : p.Valid) (forward : Bool) (distance : Nat) :
    (RampRun.start p forward distance).Ok := by
  obtain ⟨_, _, hf, _⟩ := h
  unfold RampRun.start
  dsimp only
  apply RampRun.plan_ok <;> dsimp only
  · split <;> omega
  · exact Nat.le_refl _
  · split <;> omega
  · omega
  · omega

theorem LineRun.plan_Ok (x : LineRun) (h1 : 400 ≤ x.timing.w) (h2 : x.timing.f < x.timing.d)
    (h3 : x.acc < x.timing.d) : x.plan.Ok := by
  have hc := cruisePeriod_bounds (w := x.timing.w) h2 h3
  exact ⟨h1, h2, hc.2.2, hc.1, hc.2.1⟩

theorem ChannelSettings.profile_Valid (c : ChannelSettings) (h : c.Valid) (n : Nat) :
    (c.profile n).Valid := by
  unfold ChannelSettings.profile
  rcases Nat.lt_or_ge n c.profiles.length with hn | hn
  · have : c.profiles.getD n ⟨40, 40, 0, 1, 0⟩ = c.profiles[n] := by
      simp [List.getD, hn]
    rw [this]
    exact h.2.1 _ (List.getElem_mem hn)
  · have : c.profiles.getD n ⟨40, 40, 0, 1, 0⟩ = ⟨40, 40, 0, 1, 0⟩ := by
      simp [List.getD, hn]
    rw [this]
    decide

theorem ChannelSettings.timing_Valid (c : ChannelSettings) (h : c.Valid) (d : Density) :
    (c.timing d).Valid c.pullIn := by
  cases d
  · exact h.2.2.1
  · exact h.2.2.2.1
  · exact h.2.2.2.2.1

/-- The line timing latched at the start of a run is at or above the pull-in period (R24, R25, R36). -/
theorem LineRun.start_Ok (c : ChannelSettings) (h : c.Valid) (d : Density) (gated : Bool) :
    (LineRun.start d (c.timing d) gated).Ok := by
  have ht := c.timing_Valid h d
  have hp := h.2.2.2.2.2.1
  obtain ⟨h1, _, h2, _, h3⟩ := ht
  exact ⟨by dsimp [LineRun.start]; omega, h3, by dsimp [LineRun.start]; omega, trivial⟩

/-! ## Every operation -/

/-- A channel comes from another without a step: the position and the phase index are kept, and so is
`Channel.Ok` while the settings are in range. -/
structure Channel.Mild (cfg : ChannelSettings) (c c' : Channel) : Prop where
  phase : c'.phase = c.phase
  position : c'.position = c.position
  ok : cfg.Valid → c.Ok → c'.Ok

theorem Channel.Mild.refl (cfg : ChannelSettings) (c : Channel) : c.Mild cfg c :=
  ⟨rfl, rfl, fun _ h => h⟩

theorem Channel.Mild.trans {cfg : ChannelSettings} {a b c : Channel} (h : a.Mild cfg b)
    (k : b.Mild cfg c) : a.Mild cfg c :=
  ⟨k.phase.trans h.phase, k.position.trans h.position, fun v x => k.ok v (h.ok v x)⟩

section mild

variable (cfg : ChannelSettings) (c : Channel)

/-- Fields that no bound speaks of. -/
theorem Channel.mild_of_same (c' : Channel) (h1 : c'.phase = c.phase)
    (h2 : c'.position = c.position) (h3 : c'.state = c.state) (h4 : c'.run = c.run)
    (h5 : c'.holdTimer = c.holdTimer ∨ c'.holdTimer = none) : c.Mild cfg c' := by
  refine ⟨h1, h2, fun _ h => ?_⟩
  unfold Channel.Ok at h ⊢
  rw [h3, h4]
  cases hs : c.state <;> simp only [hs] at h ⊢ <;> simp_all

theorem Channel.startHold_mild : c.Mild cfg c.startHold := by
  refine ⟨?_, ?_, fun _ h => ?_⟩
  · unfold Channel.startHold; split <;> [split <;> rfl; rfl]
  · unfold Channel.startHold; split <;> [split <;> rfl; rfl]
  · unfold Channel.startHold
    split
    · rename_i hs
      split <;> simp_all [Channel.Ok]
    · exact h

theorem Channel.enterHolding_mild (hold : Nat) : c.Mild cfg (c.enterHolding hold) :=
  ⟨rfl, rfl, fun _ _ => rfl⟩

theorem Channel.passOn_mild : c.Mild cfg c.passOn := by
  unfold Channel.passOn
  split
  · exact Channel.mild_of_same cfg c _ rfl rfl rfl rfl (.inl rfl)
  · refine .trans ?_ (Channel.startHold_mild cfg _)
    exact Channel.mild_of_same cfg c _ rfl rfl rfl rfl (.inl rfl)

theorem Channel.settleHolding_mild : c.Mild cfg c.settleHolding := by
  unfold Channel.settleHolding
  split
  · exact Channel.passOn_mild cfg c
  · exact Channel.Mild.refl cfg c

theorem Channel.halt_mild (hold : Nat) : c.Mild cfg (c.enterHolding hold).settleHolding :=
  (c.enterHolding_mild cfg hold).trans (Channel.settleHolding_mild cfg _)

theorem Channel.request_mild (u : User) (cover : Bool) : c.Mild cfg (c.request u cover) := by
  unfold Channel.request
  split
  · exact Channel.Mild.refl cfg c
  · split
    · exact Channel.mild_of_same cfg c _ rfl rfl rfl rfl (.inr rfl)
    · exact Channel.mild_of_same cfg c _ rfl rfl rfl rfl (.inl rfl)
    · exact Channel.Mild.refl cfg c

theorem Channel.withdraw_mild (u : User) : c.Mild cfg (c.withdraw u) :=
  Channel.mild_of_same cfg c _ rfl rfl rfl rfl (.inl rfl)

theorem Channel.order_mild (o : Order) : c.Mild cfg (c.order o) :=
  Channel.mild_of_same cfg c _ rfl rfl rfl rfl (.inl rfl)

/-- The run values change, in bounds, with the channel in the same mode. -/
theorem Channel.ramp_mild (x y : RampRun) (h : c.run = .ramp x) (hy : x.Ok → y.Ok) :
    c.Mild cfg { c with run := .ramp y } := by
  refine ⟨rfl, rfl, fun _ k => ?_⟩
  unfold Channel.Ok at k ⊢
  cases hs : c.state <;> simp [hs, h] at k ⊢ <;> exact ⟨k.1, hy k.2⟩

theorem Channel.line_mild (x y : LineRun) (h : c.run = .line x) (hy : x.Ok → y.Ok) :
    c.Mild cfg { c with run := .line y } := by
  refine ⟨rfl, rfl, fun _ k => ?_⟩
  unfold Channel.Ok at k ⊢
  cases hs : c.state <;> simp [hs, h] at k ⊢ <;> exact ⟨k.1, hy k.2⟩

/-- The same within line mode, with a new state. -/
theorem Channel.lineMode_mild (x y : LineRun) (h : c.run = .line x) (hy : x.Ok → y.Ok)
    (st : ChanState) (hst : st = .lineRun ∨ st = .lineHold) :
    c.Mild cfg { c with state := st, run := .line y } := by
  refine ⟨rfl, rfl, fun _ k => ?_⟩
  unfold Channel.Ok at k ⊢
  rcases hst with rfl | rfl <;> cases hs : c.state <;> simp [hs, h] at k ⊢ <;>
    exact ⟨k.1, hy k.2⟩

theorem Channel.stopRamp_mild : c.Mild cfg c.stopRamp := by
  unfold Channel.stopRamp
  split
  · rename_i x hx
    split
    · exact Channel.ramp_mild cfg c x _ hx fun h => ⟨h.1, h.2, h.3, h.4, h.5, h.6, h.7, h.8⟩
    · exact Channel.Mild.refl cfg c
  · exact Channel.Mild.refl cfg c

theorem Channel.stopLine_mild (hold : Nat) : c.Mild cfg (c.stopLine hold) := by
  unfold Channel.stopLine
  split
  · rename_i x hx
    split
    · exact Channel.line_mild cfg c x _ hx fun h => ⟨h.1, h.2, h.3, h.4⟩
    · split
      · exact c.halt_mild cfg hold
      · exact Channel.Mild.refl cfg c
  · exact Channel.Mild.refl cfg c

theorem Channel.stop_mild (hold : Nat) : c.Mild cfg (c.stop hold) :=
  have h : c.Mild cfg { c with startWaiting := none } :=
    Channel.mild_of_same cfg c _ rfl rfl rfl rfl (.inl rfl)
  (h.trans (Channel.stopRamp_mild cfg _)).trans (Channel.stopLine_mild cfg _ hold)

theorem Channel.release_mild (hold : Nat) : c.Mild cfg (c.release hold) := by
  unfold Channel.release
  split
  · refine .trans ?_ (Channel.passOn_mild cfg _)
    exact Channel.mild_of_same cfg c _ rfl rfl rfl rfl (.inl rfl)
  · refine .trans ?_ (Channel.passOn_mild cfg _)
    exact Channel.mild_of_same cfg c _ rfl rfl rfl rfl (.inl rfl)
  · exact Channel.Mild.refl cfg c
  · refine .trans ?_ (Channel.stop_mild cfg _ hold)
    exact Channel.mild_of_same cfg c _ rfl rfl rfl rfl (.inl rfl)

theorem Channel.giveUp_mild (u : User) (hold : Nat) : c.Mild cfg (c.giveUp u hold) := by
  unfold Channel.giveUp
  split
  · exact (c.withdraw_mild cfg u).trans (Channel.release_mild cfg _ hold)
  · exact c.withdraw_mild cfg u

theorem Channel.coverStop_mild (hold : Nat) : c.Mild cfg (c.coverStop hold) := by
  unfold Channel.coverStop
  dsimp only
  have h0 : c.Mild cfg { c with user := none, releasing := false, queue := [], startWaiting := none } :=
    Channel.mild_of_same cfg c _ rfl rfl rfl rfl (.inl rfl)
  split
  · exact h0
  · exact h0
  · split
    · exact h0
    · exact h0.trans (Channel.startHold_mild cfg _)
  · exact (h0.trans (Channel.enterHolding_mild cfg _ hold)).trans (Channel.startHold_mild cfg _)

theorem Channel.enterFault_mild : c.Mild cfg c.enterFault := ⟨rfl, rfl, fun _ _ => ⟨rfl, rfl⟩⟩

theorem Channel.resetStop_mild (hold : Nat) : c.Mild cfg (c.resetStop hold) := by
  unfold Channel.resetStop
  dsimp only
  have h0 : c.Mild cfg { c with queue := [], startWaiting := none } :=
    Channel.mild_of_same cfg c _ rfl rfl rfl rfl (.inl rfl)
  split
  · split
    · exact h0.trans (Channel.passOn_mild cfg _)
    · exact h0
  · split
    · exact h0.trans (Channel.passOn_mild cfg _)
    · exact h0
  · refine .trans ?_ (Channel.stopRamp_mild cfg _)
    exact Channel.mild_of_same cfg c _ rfl rfl rfl rfl (.inl rfl)
  · refine .trans ?_ (Channel.stopRamp_mild cfg _)
    exact Channel.mild_of_same cfg c _ rfl rfl rfl rfl (.inl rfl)
  · refine .trans ?_ (Channel.halt_mild cfg _ hold)
    exact Channel.mild_of_same cfg c _ rfl rfl rfl rfl (.inl rfl)
  · refine .trans ?_ (Channel.halt_mild cfg _ hold)
    exact Channel.mild_of_same cfg c _ rfl rfl rfl rfl (.inl rfl)
  · exact h0

theorem Channel.motorOff_mild : c.Mild cfg c.motorOff := by
  unfold Channel.motorOff
  split
  · rename_i hs
    refine ⟨rfl, rfl, fun _ h => ?_⟩
    simp_all [Channel.Ok]
  · exact Channel.Mild.refl cfg c

theorem Channel.dropLineWaiting_mild : c.Mild cfg c.dropLineWaiting := by
  unfold Channel.dropLineWaiting
  split
  · exact Channel.mild_of_same cfg c _ rfl rfl rfl rfl (.inl rfl)
  · exact Channel.Mild.refl cfg c

theorem Channel.endRun_mild (hold : Nat) : c.Mild cfg (c.endRun hold) := by
  unfold Channel.endRun
  split
  · rename_i x hx
    split
    · exact Channel.halt_mild cfg c hold
    · exact Channel.line_mild cfg c x _ hx fun h => ⟨h.1, h.2, h.3, h.4⟩
  · exact Channel.Mild.refl cfg c

theorem Channel.endLine_mild (hold : Nat) : c.Mild cfg (c.endLine hold) :=
  (c.dropLineWaiting_mild cfg).trans (Channel.endRun_mild cfg _ hold)

theorem Channel.gateWaiting_mild (gated : Bool) : c.Mild cfg (c.gateWaiting gated) := by
  unfold Channel.gateWaiting
  split
  · exact Channel.mild_of_same cfg c _ rfl rfl rfl rfl (.inl rfl)
  · exact Channel.Mild.refl cfg c

theorem LineRun.fresh_Ok {x : LineRun} (h : x.Ok) (n : Nat) (w : Bool) :
    { x with stepsLeft := n, waiting := w }.plan.Ok :=
  LineRun.plan_Ok _ h.slowEnough h.fraction h.acc

theorem Channel.gateRun_mild (gated : Bool) : c.Mild cfg (c.gateRun gated) := by
  unfold Channel.gateRun
  split
  · rename_i x hx
    split
    · split
      · exact Channel.line_mild cfg c x _ hx fun h => ⟨h.1, h.2, h.3, h.4⟩
      · refine Channel.lineMode_mild cfg c x _ hx ?_ _ (.inl rfl)
        exact fun h => LineRun.plan_Ok _ h.slowEnough h.fraction h.acc
    · exact Channel.line_mild cfg c x _ hx fun h => ⟨h.1, h.2, h.3, h.4⟩
  · exact Channel.Mild.refl cfg c

theorem Channel.setGating_mild (gated : Bool) : c.Mild cfg (c.setGating gated) :=
  (c.gateWaiting_mild cfg gated).trans (Channel.gateRun_mild cfg _ gated)

theorem Channel.boundary_mild (hold : Nat) (x y : LineRun) (hx : c.run = .line x)
    (hy : x.Ok → y.Ok) : c.Mild cfg (c.boundary hold y) := by
  unfold Channel.boundary
  split
  · exact c.halt_mild cfg hold
  · dsimp only
    split
    · refine Channel.lineMode_mild cfg c x _ hx ?_ _ (.inr rfl)
      intro h
      exact ⟨(hy h).1, (hy h).2, (hy h).3, (hy h).4⟩
    · refine Channel.lineMode_mild cfg c x _ hx ?_ _ (.inl rfl)
      intro h
      exact LineRun.plan_Ok _ (hy h).1 (hy h).2 (hy h).3

theorem Channel.beginCapture_mild : c.Mild cfg c.beginCapture := by
  unfold Channel.beginCapture
  split
  · rename_i x hx
    exact Channel.lineMode_mild cfg c x _ hx (fun h => LineRun.fresh_Ok h _ _) _ (.inl rfl)
  · exact Channel.Mild.refl cfg c

theorem Channel.beginStrobe_mild : c.Mild cfg c.beginStrobe := by
  unfold Channel.beginStrobe
  split
  · rename_i x hx
    refine Channel.lineMode_mild cfg c x _ hx ?_ _ (.inl rfl)
    intro h
    exact ⟨h.1, h.2, h.3, trivial⟩
  · exact Channel.Mild.refl cfg c

theorem Channel.captureDone_mild (hold : Nat) : c.Mild cfg (c.captureDone hold) := by
  unfold Channel.captureDone
  split
  · rename_i x hx
    split
    · dsimp only
      split
      · exact Channel.boundary_mild cfg c hold x _ hx fun h => ⟨h.1, h.2, h.3, h.4⟩
      · exact Channel.line_mild cfg c x _ hx fun h => ⟨h.1, h.2, h.3, h.4⟩
    · exact Channel.Mild.refl cfg c
  · exact Channel.Mild.refl cfg c

theorem Channel.strobeDone_mild : c.Mild cfg c.strobeDone := by
  unfold Channel.strobeDone
  split
  · rename_i x hx
    split
    · exact Channel.line_mild cfg c x _ hx fun h => LineRun.plan_Ok _ h.slowEnough h.fraction h.acc
    · exact Channel.Mild.refl cfg c
  · exact Channel.Mild.refl cfg c

theorem Channel.startOrder_mild (o : Order) : c.Mild cfg (c.startOrder cfg o) := by
  unfold Channel.startOrder
  dsimp only
  split
  · exact ⟨rfl, rfl, fun v _ => ⟨rfl, _, rfl, RampRun.start_Ok _ (cfg.profile_Valid v _) _ _⟩⟩
  · split
    · exact ⟨rfl, rfl, fun v _ => ⟨rfl, _, rfl, LineRun.start_Ok cfg v _ _⟩⟩
    · exact ⟨rfl, rfl, fun v _ =>
        ⟨rfl, _, rfl, LineRun.fresh_Ok (LineRun.start_Ok cfg v _ _) _ _⟩⟩

theorem Channel.hostMove_mild (o : Order) : c.Mild cfg (c.hostMove o) :=
  Channel.mild_of_same cfg c _ rfl rfl rfl rfl (.inr rfl)

theorem Channel.hostStop_mild : c.Mild cfg c.hostStop := by
  have h0 : c.Mild cfg { c with startWaiting := none } :=
    Channel.mild_of_same cfg c _ rfl rfl rfl rfl (.inl rfl)
  have hrelease := h0.trans (Channel.passOn_mild cfg _)
  have hidle : ∀ _ : c.state = .holding, c.Mild cfg { c with state := .idle, holdTimer := none } :=
    fun hs => ⟨rfl, rfl, fun _ h => by simp_all [Channel.Ok]⟩
  unfold Channel.hostStop
  split
  · exact c.stopRamp_mild cfg
  · split
    · exact hrelease
    · split
      · exact hidle (by assumption)
      · exact Channel.Mild.refl cfg c
  · split
    · exact hrelease
    · exact hidle (by assumption)
  · exact Channel.Mild.refl cfg c

theorem Channel.clearFault_mild : c.Mild cfg c.clearFault := by
  unfold Channel.clearFault
  split
  · exact ⟨rfl, rfl, fun _ h => by simp_all [Channel.Ok]⟩
  · exact Channel.Mild.refl cfg c

theorem Channel.passOn_ok (hs : c.state = .holding) (hr : c.run = .none) : c.passOn.Ok := by
  unfold Channel.passOn
  split
  · unfold Channel.Ok; simp [hs, hr]
  · unfold Channel.startHold
    dsimp only
    rw [if_pos hs]
    split
    · exact ⟨hr, rfl⟩
    · unfold Channel.Ok; simp [hs, hr]

/-- A hold timer that runs stands behind HOLDING, so its end leaves no run behind. -/
theorem Channel.holdOver_ok (h : c.Ok) (ht : c.holdTimer.isSome = true) : c.holdOver.Ok := by
  unfold Channel.Ok Channel.holdOver at *
  cases hs : c.state <;> simp_all

/-! ## The step -/

theorem Channel.issue_ok (invert forward : Bool) (h : c.Ok) : (c.issue invert forward).Ok := h

theorem Channel.stepRamp_ok (x : RampRun) (hx : c.run = .ramp x) (h : c.Ok) :
    (c.stepRamp cfg x).Ok := by
  have hk : c.holdTimer = none ∧ x.Ok := by
    unfold Channel.Ok at h
    cases hs : c.state <;> simp_all
  unfold Channel.stepRamp
  dsimp only
  split
  · rfl
  · have hp : ({ x with r := x.toGo } : RampRun).plan.Ok :=
      RampRun.plan_ok _ hk.2.1 hk.2.2 hk.2.3 hk.2.4 hk.2.5 hk.2.6
    generalize ({ x with r := x.toGo } : RampRun).plan = y at hp ⊢
    cases x.stopOrdered
    · exact ⟨hk.1, y, rfl, hp⟩
    · exact ⟨hk.1, y, rfl, hp⟩

theorem Channel.stepLine_ok (x : LineRun) (hx : c.run = .line x) (h : c.Ok) :
    (c.stepLine cfg x).Ok := by
  have hk : c.holdTimer = none ∧ x.Ok ∧ (c.state = .lineRun ∨ c.state = .lineHold) := by
    unfold Channel.Ok at h
    cases hs : c.state <;> simp_all
  obtain ⟨ht, hxo, hst⟩ := hk
  have hy : ({ x with stepsLeft := x.stepsLeft - 1, period := none } : LineRun).Ok :=
    ⟨hxo.slowEnough, hxo.fraction, hxo.acc, trivial⟩
  have halt : Channel.Ok ((c.issue cfg.invert true).enterHolding cfg.holdTime).settleHolding := by
    unfold Channel.settleHolding
    split
    · exact Channel.passOn_ok _ rfl rfl
    · rfl
  have line : ∀ y : LineRun, y.Ok → Channel.Ok { c.issue cfg.invert true with run := .line y } := by
    intro y hy
    unfold Channel.Ok
    rcases hst with hs | hs <;>
      simp only [Channel.issue, hs] <;> exact ⟨ht, y, rfl, hy⟩
  unfold Channel.stepLine
  dsimp only
  split
  · exact halt
  · split
    · exact line _ (LineRun.plan_Ok _ hy.slowEnough hy.fraction hy.acc)
    · split
      · exact line _ hy
      · unfold Channel.boundary
        split
        · exact halt
        · dsimp only
          split
          · exact ⟨ht, _, rfl, hy.1, hy.2, hy.3, trivial⟩
          · exact ⟨ht, _, rfl, LineRun.plan_Ok _ hy.1 hy.2 hy.3⟩

end mild

end Sys2Proof.Machine
end

