-- ==== Sys2Proof/Laws/Memory.lean ====
section
/-! SUPPORT. The page memory keeps its canonical form under every operation, and reads as it was written. -/

namespace Sys2Proof.Machine

/-! ## One write -/

theorem risingFrom_mono {lo lo' : Nat} (h : lo' ≤ lo) (m : PageMemory) (hm : risingFrom lo m = true) :
    risingFrom lo' m = true := by
  cases m with
  | nil => rfl
  | cons e rest =>
    obtain ⟨k, seg⟩ := e
    simp only [risingFrom, Bool.and_eq_true, decide_eq_true_eq] at hm ⊢
    exact ⟨⟨by omega, hm.1.2⟩, hm.2⟩

theorem risingFrom_write (n : Nat) (seg : Segment) (m : PageMemory) :
    ∀ lo, lo ≤ n → risingFrom lo m = true → risingFrom lo (m.write n seg) = true := by
  induction m with
  | nil =>
    intro lo hlo _
    by_cases hb : seg = Segment.blank <;>
      simp [PageMemory.write, risingFrom, hb, hlo]
  | cons e rest ih =>
    obtain ⟨k, old⟩ := e
    intro lo hlo hm
    simp only [risingFrom, Bool.and_eq_true, decide_eq_true_eq, bne_iff_ne] at hm
    obtain ⟨⟨hk, hold⟩, hrest⟩ := hm
    unfold PageMemory.write
    split
    · rename_i hnk
      split
      · simp [risingFrom, hk, hold, hrest]
      · rename_i hb
        simp only [risingFrom, Bool.and_eq_true, decide_eq_true_eq, bne_iff_ne]
        exact ⟨⟨hlo, hb⟩, ⟨by omega, hold⟩, hrest⟩
    · rename_i hnk
      split
      · rename_i hnk'
        split
        · exact risingFrom_mono (by omega) rest hrest
        · rename_i hb
          simp only [risingFrom, Bool.and_eq_true, decide_eq_true_eq, bne_iff_ne]
          exact ⟨⟨hlo, hb⟩, hnk' ▸ hrest⟩
      · simp only [risingFrom, Bool.and_eq_true, decide_eq_true_eq, bne_iff_ne]
        exact ⟨⟨hk, hold⟩, ih (k + 1) (by omega) hrest⟩

/-- A write keeps the canonical form. -/
theorem PageMemory.wf_write (n : Nat) (seg : Segment) (m : PageMemory) (h : m.wf = true) :
    (m.write n seg).wf = true := risingFrom_write n seg m 0 (Nat.zero_le n) h

/-- A number below every listed one reads as a FREE segment. -/
theorem PageMemory.read_below (n : Nat) (m : PageMemory) :
    ∀ lo, n < lo → risingFrom lo m = true → m.read n = Segment.blank := by
  induction m with
  | nil => intros; rfl
  | cons e rest ih =>
    obtain ⟨k, seg⟩ := e
    intro lo hlo hm
    simp only [risingFrom, Bool.and_eq_true, decide_eq_true_eq] at hm
    unfold PageMemory.read
    rw [if_neg (by omega)]
    exact ih (k + 1) (by omega) hm.2

theorem PageMemory.read_write_from (n k : Nat) (seg : Segment) (m : PageMemory) :
    ∀ lo, risingFrom lo m = true → (m.write n seg).read k = if k = n then seg else m.read k := by
  induction m with
  | nil =>
    intro lo _
    unfold PageMemory.write
    split
    · rename_i hb
      split <;> simp_all [PageMemory.read]
    · by_cases h : k = n
      · simp [PageMemory.read, h]
      · simp [PageMemory.read, h, Ne.symm h]
  | cons e rest ih =>
    obtain ⟨j, old⟩ := e
    intro lo hm
    simp only [risingFrom, Bool.and_eq_true, decide_eq_true_eq, bne_iff_ne] at hm
    obtain ⟨⟨_, _⟩, hrest⟩ := hm
    have below : ∀ i, i ≤ j → PageMemory.read i rest = Segment.blank := fun i hi =>
      PageMemory.read_below i rest (j + 1) (by omega) hrest
    unfold PageMemory.write
    by_cases h1 : n < j
    · rw [if_pos h1]
      by_cases hb : seg = Segment.blank
      · rw [if_pos hb]
        by_cases hk : k = n
        · subst hk
          rw [if_pos rfl]
          unfold PageMemory.read
          rw [if_neg (by omega), below k (by omega), hb]
        · rw [if_neg hk]
      · rw [if_neg hb]
        by_cases hk : k = n
        · simp [PageMemory.read, hk]
        · simp [PageMemory.read, hk, Ne.symm hk]
    · rw [if_neg h1]
      by_cases h2 : n = j
      · subst h2
        rw [if_pos rfl]
        by_cases hb : seg = Segment.blank
        · rw [if_pos hb]
          by_cases hk : k = n
          · subst hk; rw [if_pos rfl, below k (Nat.le_refl k), hb]
          · simp [PageMemory.read, hk, Ne.symm hk]
        · rw [if_neg hb]
          by_cases hk : k = n
          · simp [PageMemory.read, hk]
          · simp [PageMemory.read, hk, Ne.symm hk]
      · rw [if_neg h2]
        unfold PageMemory.read
        by_cases hk : j = k
        · subst hk; rw [if_pos rfl, if_pos rfl, if_neg (Ne.symm h2)]
        · rw [if_neg hk, if_neg hk, ih (j + 1) hrest]

/-- A segment that has been written reads as written, every other one as before. -/
theorem PageMemory.read_write (n k : Nat) (seg : Segment) (m : PageMemory) (h : m.wf = true) :
    (m.write n seg).read k = if k = n then seg else m.read k :=
  PageMemory.read_write_from n k seg m 0 h

/-! ## Every operation of the store -/

theorem PageMemory.wf_writeHeader (n : Nat) (x : SegHeader) (m : PageMemory) (h : m.wf = true) :
    (m.writeHeader n x).wf = true := PageMemory.wf_write n _ m h

theorem PageMemory.wf_free (n : Nat) (m : PageMemory) (h : m.wf = true) : (m.free n).wf = true :=
  PageMemory.wf_write n _ m h

theorem PageMemory.wf_writeHeaders (ws : List (Nat × SegHeader)) (m : PageMemory)
    (h : m.wf = true) : (m.writeHeaders ws).wf = true := by
  unfold PageMemory.writeHeaders
  induction ws generalizing m with
  | nil => exact h
  | cons w ws ih => exact ih _ (PageMemory.wf_writeHeader _ _ _ h)

theorem PageMemory.wf_freeAll (ns : List Nat) (m : PageMemory) (h : m.wf = true) :
    (m.freeAll ns).wf = true := by
  unfold PageMemory.freeAll
  induction ns generalizing m with
  | nil => exact h
  | cons n ns ih => exact ih _ (PageMemory.wf_free _ _ h)

/-- The FREE mark is a header write. -/
theorem PageMemory.free_eq_writeHeader (n : Nat) (m : PageMemory) :
    m.free n = m.writeHeader n (.raw freeMark) := by
  simp [PageMemory.free, PageMemory.writeHeader, Segment.withHeader]

theorem PageMemory.freeAll_eq_writeHeaders (ns : List Nat) (m : PageMemory) :
    m.freeAll ns = m.writeHeaders (ns.map fun n => (n, .raw freeMark)) := by
  simp only [PageMemory.freeAll, PageMemory.writeHeaders, List.foldl_map, PageMemory.free_eq_writeHeader]

/-- After the FREE mark has been written into segments, those read blank and every other one as before. -/
theorem PageMemory.read_freeAll (k : Nat) (ns : List Nat) (m : PageMemory) (h : m.wf = true) :
    (m.freeAll ns).read k = if k ∈ ns then Segment.blank else m.read k := by
  induction ns generalizing m with
  | nil => rfl
  | cons n ns ih =>
    rw [show m.freeAll (n :: ns) = (m.free n).freeAll ns from rfl, ih _ (PageMemory.wf_free _ _ h)]
    simp only [PageMemory.free, PageMemory.read_write _ _ _ _ h, List.mem_cons]
    split_ifs <;> simp_all

/-- A segment that joins the free set is FREE in the map, and every other one is as before. -/
theorem mapRead_mapFree (n k : Nat) (m : List (Nat × SegUse)) :
    mapRead k (mapFree n m) = if k = n then none else mapRead k m := by
  induction m with
  | nil => simp [mapFree, mapRead]
  | cons e rest ih =>
    obtain ⟨j, u⟩ := e
    unfold mapFree at ih ⊢
    by_cases hj : j = n
    · subst hj
      simp only [List.filter_cons, bne_self_eq_false, Bool.false_eq_true, if_false, ih, mapRead]
      split_ifs <;> simp_all
    · simp only [List.filter_cons, bne_iff_ne.mpr hj, if_true, mapRead, ih]
      split_ifs <;> simp_all

/-- What the marks of a deletion do: they are written, and the segments leave the map; nothing else changes. -/
theorem Store.foldl_markFree (ns : List Nat) (st : Store) :
    ns.foldl (fun st n => st.markFree n) st
      = { st with
        memory := st.memory.freeAll ns
        map := ns.foldl (fun m n => mapFree n m) st.map } := by
  induction ns generalizing st with
  | nil => rfl
  | cons n ns ih => exact ih (st.markFree n)

/-- What freeing a page does. -/
theorem Store.freePage_eq (p : Page) (st : Store) :
    st.freePage p
      = { st with
        memory := st.memory.freeAll (st.chainOf p)
        map := (st.chainOf p).foldl (fun m n => mapFree n m) st.map } :=
  Store.foldl_markFree _ st

/-- A chain is followed alike through two maps that agree on its segments. -/
theorem Store.chainFrom_congr (st u : Store) : ∀ (fuel : Nat) (n : Option Nat),
    (∀ k ∈ st.chainFrom fuel n, mapRead k u.map = mapRead k st.map) → u.chainFrom fuel n = st.chainFrom fuel n
  | 0, _, _ => rfl
  | _ + 1, none, _ => rfl
  | fuel + 1, some n, h => by
    have hn : u.nextOf n = st.nextOf n := by
      unfold Store.nextOf; rw [h n (List.mem_cons_self ..)]
    show n :: u.chainFrom fuel (u.nextOf n) = n :: st.chainFrom fuel (st.nextOf n)
    rw [hn, Store.chainFrom_congr st u fuel _ fun k hk => h k (List.mem_cons_of_mem _ hk)]

/-- Segments that join the free set are FREE in the map, and every other one is as before. -/
theorem mapRead_foldl_mapFree (k : Nat) (ns : List Nat) (m : List (Nat × SegUse)) :
    mapRead k (ns.foldl (fun m n => mapFree n m) m) = if k ∈ ns then none else mapRead k m := by
  induction ns generalizing m with
  | nil => rfl
  | cons n ns ih =>
    rw [List.foldl_cons, ih, mapRead_mapFree]
    simp only [List.mem_cons]
    split_ifs <;> simp_all

/-- What freeing pages does, when no segment is in two of their chains. -/
theorem Store.foldl_freePage (st : Store) : ∀ (pages : List Page) (u : Store),
    (pages.flatMap fun p => st.chainOf p).Nodup →
    (∀ k ∈ pages.flatMap fun p => st.chainOf p, mapRead k u.map = mapRead k st.map) →
    pages.foldl (fun u p => u.freePage p) u
      = { u with
        memory := u.memory.freeAll (pages.flatMap fun p => st.chainOf p)
        map := (pages.flatMap fun p => st.chainOf p).foldl (fun m n => mapFree n m) u.map }
  | [], _, _, _ => rfl
  | p :: pages, u, hn, hu => by
    rw [List.flatMap_cons] at hn hu
    obtain ⟨_, hn2, hd⟩ := List.nodup_append.mp hn
    have hc : u.chainOf p = st.chainOf p :=
      Store.chainFrom_congr st u _ _ fun k hk => hu k (List.mem_append_left _ hk)
    rw [List.foldl_cons, Store.freePage_eq, hc, Store.foldl_freePage st pages _ hn2]
    · simp only [List.flatMap_cons, PageMemory.freeAll, List.foldl_append]
    · intro k hk
      rw [mapRead_foldl_mapFree, if_neg fun h => hd k h k hk rfl, hu k (List.mem_append_right _ hk)]

/-- What a deletion does, when no segment is in two chains of the document (R160). -/
theorem Store.delete_eq (st : Store) (number : Nat) (d : Document) (h : st.doc? number = some d)
    (hn : (d.pages.flatMap fun p => st.chainOf p).Nodup) :
    st.delete number
      = { st.flush with
        memory := st.flush.memory.freeAll (d.pages.flatMap fun p => st.chainOf p)
        map := (d.pages.flatMap fun p => st.chainOf p).foldl (fun m n => mapFree n m) st.map
        directory := st.directory.filter fun d => d.number != number } := by
  unfold Store.delete
  rw [h]
  dsimp only
  rw [Store.foldl_freePage st d.pages st.flush hn fun _ _ => rfl]
  rfl

section store

variable (st : Store) (h : st.memory.wf = true)
include h

theorem Store.wf_madeWrites (ws : List (Nat × SegHeader)) : (st.madeWrites ws).wf = true :=
  PageMemory.wf_writeHeaders _ _ h

theorem Store.wf_flush : st.flush.memory.wf = true := Store.wf_madeWrites st h _

theorem Store.wf_makeWrites : st.makeWrites.memory.wf = true := Store.wf_madeWrites st h _

theorem Store.wf_closeSegment (o : OpenPage) (next : Nat) :
    (st.closeSegment o next).memory.wf = true := by
  unfold Store.closeSegment
  split
  · exact h
  · exact PageMemory.wf_writeHeader _ _ _ h

theorem Store.wf_openSegment (n : Nat) (o : OpenPage) : (st.openSegment n o).memory.wf = true :=
  PageMemory.wf_write _ _ _ h

theorem Store.wf_takeSegment (n : Nat) (o : OpenPage) (c : Bool) :
    (st.takeSegment n o c).2.memory.wf = true :=
  Store.wf_closeSegment _ (Store.wf_openSegment st h _ _) _ _

theorem Store.wf_appendData (o : OpenPage) (bytes : List Byte) :
    (st.appendData o bytes).memory.wf = true := by
  unfold Store.appendData
  split
  · exact h
  · exact PageMemory.wf_write _ _ _ h

omit h in
theorem Store.wf_writeBytes (ns : List Nat) : ∀ (bytes : List Byte) (inLine : Bool) (o : OpenPage)
    (st : Store), st.memory.wf = true →
      (Store.writeBytes bytes inLine ns o st).2.memory.wf = true := by
  induction ns with
  | nil =>
    intro bytes inLine o st h
    exact Store.wf_appendData st h _ _
  | cons n ns ih =>
    intro bytes inLine o st h
    exact ih _ _ _ _ (Store.wf_takeSegment _ (Store.wf_appendData _ h _ _) _ _ _)

theorem Store.wf_writeLine (o : OpenPage) (coded : List Byte) :
    (st.writeLine o coded).memory.wf = true := Store.wf_writeBytes _ _ _ _ _ h

omit h in
theorem Store.allocate_memory (total count : Nat) (o : OpenPage) :
    (st.allocate total count o).memory = st.memory := rfl

omit h in
theorem Store.foldl_memory {α : Type} (f : Store → α → Store) (hf : ∀ st a, (f st a).memory = st.memory)
    (l : List α) (st : Store) : (l.foldl f st).memory = st.memory := by
  induction l generalizing st with
  | nil => rfl
  | cons a l ih => exact (ih _).trans (hf _ _)

omit h in
theorem Store.abandonLine_memory (o : OpenPage) : (st.abandonLine o).memory = st.memory :=
  Store.foldl_memory (fun st n => st.freeSegment n) (fun _ _ => rfl) _ st

omit h in
/-- Every state that a line write passes through keeps the canonical form. -/
theorem Store.wf_byteStages (ns : List Nat) : ∀ (bytes : List Byte) (inLine : Bool) (o : OpenPage)
    (st : Store), st.memory.wf = true →
      ∀ t ∈ Store.byteStages bytes inLine ns o st, t.memory.wf = true := by
  induction ns with
  | nil => intro bytes inLine o st _ t ht; exact absurd ht (by simp [Store.byteStages])
  | cons n ns ih =>
    intro bytes inLine o st h t ht
    have ha := Store.wf_appendData st h o (bytes.take (st.openRoom o))
    have hk := Store.wf_takeSegment _ ha n o (inLine || decide (0 < st.openRoom o))
    unfold Store.byteStages at ht
    dsimp only at ht
    rcases List.mem_cons.mp ht with rfl | ht
    · exact Store.wf_openSegment _ ha _ _
    · split at ht
      · rcases List.mem_cons.mp ht with rfl | ht
        · exact hk
        · exact ih _ _ _ _ hk t ht
      · exact ih _ _ _ _ hk t ht

theorem Store.wf_closeLast (o : OpenPage) (a : LastAttrs) (c : PageCondition) :
    (st.closeLast o a c).memory.wf = true := by
  unfold Store.closeLast
  split
  · exact h
  · split
    · exact PageMemory.wf_writeHeader _ _ _ h
    · exact h

theorem Store.wf_closePage (doc : Nat) (c : PageCondition) :
    (st.closePage doc c).memory.wf = true := by
  unfold Store.closePage
  split
  · exact h
  · dsimp only
    split
    · exact h
    · split
      · exact h
      · exact Store.wf_closeLast _ (by exact h) _ _ _

omit h in
theorem Store.rewritePage_memory (number index : Nat) :
    (st.rewritePage number index).memory = st.memory := by
  unfold Store.rewritePage
  repeat (first | rfl | split)

omit h in
theorem Store.rewriteLowest_memory (number : Nat) : (st.rewriteLowest number).memory = st.memory := by
  unfold Store.rewriteLowest
  split
  · rfl
  · exact Store.rewritePage_memory st _ _

theorem Store.wf_clearHold (number : Nat) : (st.clearHold number).memory.wf = true := by
  unfold Store.clearHold
  rw [Store.rewriteLowest_memory]
  exact h

theorem Store.wf_testHold (number : Nat) : (st.testHold number).memory.wf = true := by
  unfold Store.testHold
  split
  · exact h
  · split
    · exact Store.wf_clearHold st h _
    · exact h

theorem Store.wf_pagePrinted (number index : Nat) :
    (st.pagePrinted number index).memory.wf = true := by
  unfold Store.pagePrinted
  split
  · exact h
  · split
    · exact h
    · dsimp only
      split
      · rw [Store.rewritePage_memory]; exact h
      · rw [Store.rewriteLowest_memory, Store.rewritePage_memory]; exact h

omit h in
theorem Store.wf_foldl {α : Type} (f : Store → α → Store)
    (hf : ∀ st a, st.memory.wf = true → (f st a).memory.wf = true) (l : List α) (st : Store)
    (h : st.memory.wf = true) : (l.foldl f st).memory.wf = true := by
  induction l generalizing st with
  | nil => exact h
  | cons a l ih => exact ih _ (hf _ _ h)

theorem Store.wf_freePage (p : Page) : (st.freePage p).memory.wf = true := by
  rw [Store.freePage_eq]
  exact PageMemory.wf_freeAll _ _ h

theorem Store.wf_delete (number : Nat) : (st.delete number).memory.wf = true := by
  unfold Store.delete
  split
  · exact h
  · exact Store.wf_foldl _ (fun _ _ h => Store.wf_freePage _ h _) _ _ (Store.wf_flush st h)

theorem Store.wf_testAutoDelete (number : Nat) (r : Bool) :
    (st.testAutoDelete number r).memory.wf = true := by
  unfold Store.testAutoDelete
  split
  · exact h
  · split
    · exact Store.wf_delete st h _
    · exact h

theorem Store.wf_close (number : Nat) : (st.close number).memory.wf = true := by
  unfold Store.close
  exact Store.wf_testHold (Store.onDoc _ _ _) (Store.wf_closePage st h _ _) _

theorem Store.wf_dropTransfer (m : Move) : (st.dropTransfer m).memory.wf = true := by
  unfold Store.dropTransfer
  dsimp only
  have h1 : (if st.transfer = some m.id then { st with transfer := none } else st).memory.wf = true := by
    split <;> exact h
  generalize (if st.transfer = some m.id then { st with transfer := none } else st) = u at h1 ⊢
  split
  · exact h1
  · split
    · exact h1
    · rw [Store.abandonLine_memory]; exact h1

theorem Store.wf_endWriter (m : Move) : (st.endWriter m).memory.wf = true := by
  unfold Store.endWriter
  split
  · split
    · exact Store.wf_close st h _
    · exact Store.wf_closePage st h _ _
  · exact h

theorem Store.wf_lineStages (l : SlotLine) (o : OpenPage) :
    ∀ t ∈ st.lineStages l o, t.memory.wf = true := by
  intro t ht
  unfold Store.lineStages at ht
  rcases List.mem_append.mp ht with ht | ht
  · exact Store.wf_byteStages _ _ _ _ _ h t ht
  · split at ht
    · rw [List.mem_singleton.mp ht]
      exact Store.wf_closePage _ (Store.wf_writeLine _ h _ _) _ _
    · exact absurd ht (by simp)

theorem Store.wf_upset (n : Nat) (u : List (Nat × Byte)) : (st.upset n u).memory.wf = true :=
  PageMemory.wf_write _ _ _ h

theorem Store.wf_endRead (number index white : Nat) :
    (st.endRead number index white).memory.wf = true := by
  unfold Store.endRead
  split
  · exact h
  · split
    · rw [Store.rewritePage_memory]; exact h
    · exact h

theorem Store.wf_testSegment (n : Nat) (passed : Bool) (c : CheckRun) :
    (st.testSegment n passed c).memory.wf = true := by
  unfold Store.testSegment
  split
  · exact PageMemory.wf_free _ _ h
  · exact PageMemory.wf_write _ _ _ h

theorem Store.wf_format (total : Nat) : (st.format total).memory.wf = true :=
  PageMemory.wf_freeAll _ _ h

theorem Store.wf_recover (total : Nat) : (st.recover total).memory.wf = true :=
  PageMemory.wf_freeAll _ _ (Store.wf_flush st h)

end store

theorem reset_memory_wf : State.reset.store.memory.wf = true := rfl

end Sys2Proof.Machine
end

