-- ==== Sys2Proof/Laws/Moves.lean ====
section
/-! SUPPORT. What the operations on the record of a move do to the bounds of the move table and of the line slots:
`Move.Steps` says once what such an operation may change, and `Path.Ok` follows from it. -/

namespace Sys2Proof.Machine

/-! ## What an operation on one record may do -/

/-- A record comes from another by an operation that takes the slots `taken`: its names and its depth stay, a move
that is not at work does not come to work, and it is in its bounds if it was before. -/
structure Move.Steps (taken : List Nat) (m n : Move) : Prop where
  id : n.id = m.id
  number : n.number = m.number
  depth : n.depth = m.depth
  active : n.active = true → m.active = true
  slots : ∀ a, n.slots.count a ≤ m.slots.count a + taken.count a
  ok : m.Ok → n.Ok

/-- The parts of a record that its bounds speak of. -/
def Move.shape (m : Move) : Nat × Nat × Nat × MoveState × Option Nat × List Nat × Nat × Nat × Nat × Nat × Nat :=
  (m.id, m.number, m.depth, m.state, m.granted, m.queue.map SlotLine.slot, m.counters.taken,
    m.counters.headerLines, m.counters.delivered, m.counters.merged, m.counters.discarded)

/-- A record that changes in other parts only. -/
theorem Move.Steps.of_shape {m n : Move} (h : n.shape = m.shape) : m.Steps [] n := by
  simp only [Move.shape, Prod.mk.injEq] at h
  obtain ⟨h1, h2, h3, h4, h5, h6, h7, h8, h9, h10, h11⟩ := h
  have hs : n.slots = m.slots := by simp only [Move.slots, h5, h6]
  have hl : n.queue.length = m.queue.length := by simpa using congrArg List.length h6
  refine ⟨h1, h2, h3, fun h => ?_, fun a => by simp [hs], fun h => ⟨?_, ?_, ?_, fun k => ?_, ?_⟩⟩
  · simpa only [Move.active, h4] using h
  · rw [h2]; exact h.number
  · rw [h3]; exact h.depth
  · rw [hs, h3]; exact h.room
  · rw [hs]; exact h.still (by simpa only [Move.flowing, h4] using k)
  · have := h.lines
    unfold Counters.Balanced at this ⊢
    rw [h7, h8, h9, h10, h11, hl]; exact this

/-- One operation after another. -/
theorem Move.Steps.then {a b : List Nat} {l m n : Move} (h : l.Steps a m) (k : m.Steps b n) : l.Steps (a ++ b) n where
  id := k.id.trans h.id
  number := k.number.trans h.number
  depth := k.depth.trans h.depth
  active w := h.active (k.active w)
  slots x := by
    have h1 := h.slots x
    have h2 := k.slots x
    rw [List.count_append]
    omega
  ok w := k.ok (h.ok w)

theorem Move.flowing_active {m : Move} (h : m.flowing = true) : m.active = true := by
  simp only [Move.flowing, Move.active, Bool.or_eq_true] at *
  tauto

/-- The state of a record at work becomes another in which its lines flow. -/
theorem Move.Steps.flows {m n : Move} (ha : m.active = true) (hf : n.flowing = true)
    (h : { n with state := m.state }.shape = m.shape) : m.Steps [] n := by
  have k := Move.Steps.of_shape h
  refine ⟨k.id, k.number, k.depth, fun _ => ha, k.slots, fun w => ?_⟩
  have w := k.ok w
  exact ⟨w.number, w.depth, w.room, fun e => absurd (hf.symm.trans e) (by decide), w.lines⟩

/-- A move ends: its queue is discarded (R112, R132). -/
theorem Move.ended_steps (o : MoveState) (c : Option MoveCause) (m : Move)
    (ho : (m.ended o c).active = false) : m.Steps [] (m.ended o c) where
  id := rfl
  number := rfl
  depth := rfl
  active w := absurd (ho.symm.trans w) (by decide)
  slots a := by simp [Move.slots, Move.ended]
  ok h := by
    refine ⟨h.number, h.depth, Nat.zero_le _, fun _ => rfl, ?_⟩
    have := h.lines
    simp only [Counters.Balanced, Move.ended, List.length_nil] at this ⊢
    omega

/-- The head line is delivered (R110). -/
theorem Move.deliver_steps (heavy : Bool) (m : Move) (h : m.queue ≠ []) : m.Steps [] (m.deliver heavy) := by
  obtain ⟨l, rest, e⟩ := List.exists_cons_of_ne_nil h
  have hs : m.slots = l.slot :: (m.deliver heavy).slots := by simp [Move.slots, Move.deliver, e]
  refine ⟨rfl, rfl, rfl, fun h => h, fun a => ?_, fun w => ⟨w.number, w.depth, ?_, fun k => ?_, ?_⟩⟩
  · rw [hs, List.count_cons]; omega
  · have := w.room
    rw [hs, List.length_cons] at this
    exact Nat.le_of_succ_le this
  · exact absurd (w.still k) (by simp [hs])
  · have := w.lines
    simp only [Counters.Balanced, Move.deliver, e, List.length_cons, List.tail_cons] at this ⊢
    omega

theorem mapLast_map {α β : Type} (g : α → β) (f : α → α) (h : ∀ a, g (f a) = g a) (l : List α) :
    (mapLast f l).map g = l.map g := by
  induction l with
  | nil => rfl
  | cons a l ih =>
    cases l with
    | nil => simp [mapLast, h]
    | cons b l => simpa [mapLast] using ih

theorem Move.closeGroup_shape (head : Nat) (pageEnd : Bool) (m : Move) : (m.closeGroup head pageEnd).shape = m.shape := by
  have : (m.closeGroup head pageEnd).queue.map SlotLine.slot = m.queue.map SlotLine.slot :=
    mapLast_map _ _ (fun l => by dsimp only; split <;> rfl) _
  simp only [Move.shape, this]
  rfl

theorem Move.endScanPage_shape (head : Nat) (m : Move) : (m.endScanPage head).shape = m.shape := by
  have : (m.endScanPage head).queue.map SlotLine.slot = m.queue.map SlotLine.slot :=
    mapLast_map SlotLine.slot (fun l => { m.makeReady head l with pageEnd := true }) (fun _ => rfl) _
  simp only [Move.shape, this]
  rfl

theorem Move.promote_shape (head : Nat) (m : Move) : (m.promote head).shape = m.shape := by
  have : (m.promote head).queue.map SlotLine.slot = m.queue.map SlotLine.slot := by
    simp only [Move.promote, List.map_map]
    exact List.map_congr_left fun l _ => by simp only [Function.comp]; split <;> rfl
  simp only [Move.shape, this]
  rfl

theorem Move.markSending_shape (slots : List Nat) (m : Move) : (m.markSending slots).shape = m.shape := by
  have : (m.markSending slots).queue.map SlotLine.slot = m.queue.map SlotLine.slot := by
    simp only [Move.markSending, List.map_map]
    exact List.map_congr_left fun l _ => by simp only [Function.comp]; split <;> rfl
  simp only [Move.shape, this]
  rfl

theorem Move.clearSending_shape (m : Move) : m.clearSending.shape = m.shape := by
  have : m.clearSending.queue.map SlotLine.slot = m.queue.map SlotLine.slot := by
    simp only [Move.clearSending, List.map_map]
    rfl
  simp only [Move.shape, this]
  rfl

theorem Move.countRepair_shape (b : Bool) (m : Move) : (m.countRepair b).shape = m.shape := by
  unfold Move.countRepair
  split <;> rfl

/-- Lines enter the queue of a record whose lines flow (R106, R108). -/
theorem Move.Steps.entered {taken : List Nat} {m n : Move} (hf : m.flowing = true) (h1 : n.id = m.id)
    (h2 : n.number = m.number) (h3 : n.depth = m.depth) (h4 : n.state = m.state)
    (hs : ∀ a, n.slots.count a ≤ m.slots.count a + taken.count a) (hk : m.Ok → n.slots.length ≤ m.depth)
    (hl : m.counters.Balanced m.queue.length → n.counters.Balanced n.queue.length) : m.Steps taken n := by
  refine ⟨h1, h2, h3, fun h => ?_, hs, fun w => ⟨?_, ?_, ?_, fun k => ?_, hl w.lines⟩⟩
  · simpa only [Move.active, h4] using h
  · rw [h2]; exact w.number
  · rw [h3]; exact w.depth
  · rw [h3]; exact hk w
  · rw [Move.flowing, h4] at k
    exact absurd (hf.symm.trans k) (by decide)

theorem Move.slots_length (m : Move) : m.slots.length = m.slotsHeld := by
  cases e : m.granted <;> simp [Move.slots, Move.slotsHeld, e]

/-- A slot is given at the tail of the queue: the one granted, or one that the move has room for. -/
structure Move.Gives (slot : Nat) (taken : List Nat) (m : Move) : Prop where
  flows : m.flowing = true
  slot : ∀ a, [slot].count a ≤ m.granted.toList.count a + taken.count a
  room : m.Ok → m.queue.length + 1 ≤ m.depth

theorem Move.gives_free {m : Move} (slot : Nat) (hf : m.flowing = true) (hr : 0 < m.room) : m.Gives slot [slot] :=
  ⟨hf, fun a => by omega, fun _ => by
    have : m.queue.length ≤ m.slotsHeld := Nat.le_add_right _ _
    rw [Move.room] at hr
    omega⟩

theorem Move.gives_granted {m : Move} {slot : Nat} (hf : m.flowing = true) (hg : m.granted = some slot) :
    m.Gives slot [] :=
  ⟨hf, fun a => by simp [hg], fun w => by
    have := w.room
    simpa [Move.slots, hg] using this⟩

/-- A source line enters: it takes the slot given, or none when it joins the open group (R106, R108). -/
theorem Move.enter_steps {taken : List Nat} {slot : Nat} (head : Nat) (density : Density) (dots : RawLine)
    (pageEnd : Bool) (m : Move) (h : m.Gives slot taken) :
    m.Steps taken (m.enter head slot density dots pageEnd) := by
  have close : ∀ n : Move, m.Steps taken n → m.Steps taken
      (if pageEnd || decide (mergeFactor density m.target ≤ n.merge) then n.closeGroup head pageEnd else n) := by
    intro n h
    split
    · simpa using h.then (.of_shape (n.closeGroup_shape head pageEnd))
    · exact h
  unfold Move.enter
  dsimp only
  split
  · have hq : ∀ x : Move, (x.promote head).queue.map SlotLine.slot = x.queue.map SlotLine.slot := fun x =>
      congrArg (fun y => y.2.2.2.2.2.1) (x.promote_shape head)
    have hl : ∀ x : Move, (x.promote head).queue.length = x.queue.length := fun x => by
      simpa using congrArg List.length (hq x)
    have hg : ∀ x : Move, (x.promote head).granted = x.granted := fun _ => rfl
    refine close _ (.entered h.flows rfl rfl rfl rfl (fun a => ?_) (fun w => ?_) fun w => ?_)
    · have := h.slot a
      simp only [Move.slots, List.map_append, hq, hg, List.map_cons, List.map_nil, Option.toList_none,
        List.append_nil, List.count_append]
      omega
    · have := h.room w
      simpa [Move.slots, hl, hg] using this
    · simp only [Counters.Balanced, Move.promote, List.length_append, List.length_map, List.length_singleton] at w ⊢
      omega
  · generalize e : mapLast _ m.queue = q
    have hq : q.map SlotLine.slot = m.queue.map SlotLine.slot := by
      rw [← e]
      apply mapLast_map
      exact fun _ => rfl
    have hl : q.length = m.queue.length := by simpa using congrArg List.length hq
    refine close _ (.entered h.flows rfl rfl rfl rfl (fun a => ?_) (fun w => ?_) fun w => ?_)
    · simp only [Move.slots, hq, Option.toList_none, List.append_nil, List.count_append]
      omega
    · have := h.room w
      simp only [Move.slots, List.length_append, List.length_map, hl, Option.toList_none, List.length_nil]
      omega
    · simp only [Counters.Balanced, hl] at w ⊢
      omega

/-- The name and the state of a record that a line enters. -/
theorem Move.enter_same (head slot : Nat) (density : Density) (dots : RawLine) (pageEnd : Bool) (m : Move) :
    (m.enter head slot density dots pageEnd).id = m.id
      ∧ (m.enter head slot density dots pageEnd).state = m.state := by
  constructor
  all_goals
    unfold Move.enter
    dsimp only
    repeat' split
    all_goals rfl

theorem Move.countRepair_same (b : Bool) (m : Move) : (m.countRepair b).id = m.id ∧ (m.countRepair b).state = m.state := by
  unfold Move.countRepair
  split <;> exact ⟨rfl, rfl⟩

/-- A line enters the FREE slot, with a repair counted (R101, R108). -/
theorem Move.received_steps (head slot : Nat) (density : Density) (dots : RawLine) (pageEnd repaired : Bool) (m : Move)
    (hf : m.flowing = true) (hr : 0 < m.room) :
    m.Steps [slot] ((m.countRepair repaired).enter head slot density dots pageEnd) := by
  have e := m.countRepair_shape repaired
  have hf2 : (m.countRepair repaired).flowing = true := by
    rw [Move.flowing, (m.countRepair_same repaired).2]; exact hf
  have hr2 : 0 < (m.countRepair repaired).room := by
    simp only [Move.shape, Prod.mk.injEq] at e
    obtain ⟨_, _, e3, _, e5, e6, _⟩ := e
    have := congrArg List.length e6
    simp only [List.length_map] at this
    simpa only [Move.room, Move.slotsHeld, e3, e5, this] using hr
  exact (Move.Steps.of_shape e).then (Move.enter_steps head density dots pageEnd _ (Move.gives_free slot hf2 hr2))

/-- A line that the store has read enters, with the reader as it is left and a damaged line counted (R155). -/
def Move.handed (head slot : Nat) (density : Density) (dots : RawLine) (last repaired : Bool) (r : Reader)
    (damaged : Nat) (m : Move) : Move :=
  let m := (m.countRepair repaired).enter head slot density dots last
  { m with
    reader := some r
    counters := { m.counters with damaged := m.counters.damaged + damaged } }

theorem Move.handed_same (head slot : Nat) (density : Density) (dots : RawLine) (last repaired : Bool) (r : Reader)
    (damaged : Nat) (m : Move) : (m.handed head slot density dots last repaired r damaged).id = m.id
      ∧ (m.handed head slot density dots last repaired r damaged).state = m.state :=
  ⟨(Move.enter_same _ _ _ _ _ _).1.trans (m.countRepair_same repaired).1,
    (Move.enter_same _ _ _ _ _ _).2.trans (m.countRepair_same repaired).2⟩

theorem Move.handed_steps (head slot : Nat) (density : Density) (dots : RawLine) (last repaired : Bool) (m : Move)
    (r : Reader) (damaged : Nat) (hf : m.flowing = true) (hr : 0 < m.room) :
    m.Steps [slot] (m.handed head slot density dots last repaired r damaged) :=
  (m.received_steps head slot density dots last repaired hf hr).then (.of_shape rfl)

/-- A line that takes a slot of its own besides one granted: a header line, or a white line (R114, R129). -/
theorem Move.Steps.append {m n : Move} (slot : Nat) (hf : m.flowing = true) (hr : 0 < m.room)
    (h1 : n.id = m.id) (h2 : n.number = m.number) (h3 : n.depth = m.depth) (h4 : n.state = m.state)
    (h5 : n.granted = m.granted) (h6 : n.queue.map SlotLine.slot = m.queue.map SlotLine.slot ++ [slot])
    (hl : m.counters.Balanced m.queue.length → n.counters.Balanced (m.queue.length + 1)) : m.Steps [slot] n := by
  have hq : n.queue.length = m.queue.length + 1 := by simpa using congrArg List.length h6
  refine .entered hf h1 h2 h3 h4 (fun a => ?_) (fun _ => ?_) fun w => hq ▸ hl w
  · simp only [Move.slots, h5, h6, List.count_append]
    omega
  · rw [Move.slots_length]
    simp only [Move.room, Move.slotsHeld] at hr ⊢
    rw [hq, h5]
    omega

theorem Move.emitHeader_steps (h : HeaderBuffer) (width head slot : Nat) (m : Move) (hf : m.flowing = true)
    (hr : 0 < m.room) : m.Steps [slot] (m.emitHeader h width head slot) := by
  have e := m.countRepair_shape (headerLine h width head (h.count - m.headerLeft) m.fitsHead).2
  simp only [Move.shape, Prod.mk.injEq] at e
  obtain ⟨e1, e2, e3, e4, e5, e6, e7, e8, e9, e10, e11⟩ := e
  refine .append slot hf hr e1 e2 e3 e4 e5 ?_ fun w => ?_
  · simp [Move.emitHeader]
  · simp only [Counters.Balanced, Move.emitHeader, e7, e9, e10, e11] at w ⊢
    omega

theorem Move.enterBlank_steps (head width slot headerLines : Nat) (m : Move) (hf : m.flowing = true)
    (hr : 0 < m.room) : m.Steps [slot] (m.enterBlank head width slot headerLines) := by
  refine .append slot hf hr rfl rfl rfl rfl rfl ?_ fun w => ?_
  · simp [Move.enterBlank]
  · simp only [Counters.Balanced, Move.enterBlank] at w ⊢
    omega

/-- A slot is granted for a capture (R108). -/
theorem Move.grant_steps (slot : Nat) (m : Move) (hf : m.flowing = true) (hr : 0 < m.room)
    (hg : m.granted = none) : m.Steps [slot] { m with granted := some slot } := by
  refine .entered hf rfl rfl rfl rfl (fun a => ?_) (fun _ => ?_) fun w => w
  · simp [Move.slots, hg]
  · simp only [Move.room, Move.slotsHeld, hg] at hr
    simp [Move.slots] at hr ⊢
    omega

/-! ## Records by their place in the order of acceptance -/

theorem Path.moves_onMove (id : Nat) (f : Move → Move) (p : Path) :
    (p.onMove id f).moves = p.moves.map fun m => if m.id = id then f m else m := by
  simp only [Path.moves, Path.onMove, List.filterMap_map, List.map_filterMap]
  exact List.filterMap_congr fun e _ => by cases e <;> rfl

/-- In a table in its bounds the record found by its place is the only one with that place. -/
theorem Path.Ok.only {s : State} (h : s.path.Ok) {m : Move} (hm : m ∈ s.moves) : s.move? m.id = some m := by
  have hn : (s.moves.map Move.id).Nodup := h.names
  unfold State.move?
  revert hn hm
  generalize s.moves = l
  induction l with
  | nil => intro hm; cases hm
  | cons a l ih =>
    intro hm hn
    rw [List.map_cons, List.nodup_cons] at hn
    rw [List.find?_cons]
    rcases List.mem_cons.mp hm with rfl | hm
    · simp
    · have : (a.id == m.id) = false := by
        simpa using fun e : a.id = m.id => hn.1 (e ▸ List.mem_map_of_mem hm)
      rw [this]
      exact ih hm hn.2

theorem State.move?_mem {s : State} {id : Nat} {m : Move} (h : s.move? id = some m) : m ∈ s.moves ∧ m.id = id := by
  unfold State.move? at h
  exact ⟨List.mem_of_find?_eq_some h, by simpa using List.find?_some h⟩

/-- A record found by its place, after a change of that record that keeps the place. -/
theorem State.move?_onMove {s : State} {id : Nat} {f : Move → Move} (k : ∀ m, (f m).id = m.id) :
    (s.onMove id f).move? id = (s.move? id).map f := by
  show ((s.path.onMove id f).moves.find? fun m => m.id == id) = (s.path.moves.find? fun m => m.id == id).map f
  rw [Path.moves_onMove]
  generalize s.path.moves = l
  induction l with
  | nil => rfl
  | cons a l ih =>
    rw [List.map_cons, List.find?_cons, List.find?_cons]
    by_cases e : a.id = id
    · simp [e, k]
    · have w : (a.id == id) = false := by simpa using e
      rw [if_neg e, w]
      exact ih

/-! ## A whole table after a change of one record -/

section oneRecord

variable {id : Nat} {f : Move → Move} {taken : List Nat}

theorem map_other {ms : List Move} (h : id ∉ ms.map Move.id) :
    (ms.map fun m => if m.id = id then f m else m) = ms := by
  induction ms with
  | nil => rfl
  | cons m ms ih =>
    simp only [List.map_cons, List.mem_cons, not_or] at h ⊢
    rw [if_neg (Ne.symm h.1), ih h.2]

theorem depth_onMove (more : Nat) {ms : List Move} (hn : (ms.map Move.id).Nodup)
    (k : ∀ m ∈ ms, m.id = id → (f m).depth = m.depth ∧ ((f m).active = true → m.active = true ∨ m.depth ≤ more)) :
    (((ms.map fun m => if m.id = id then f m else m).filter Move.active).map Move.depth).sum
      ≤ ((ms.filter Move.active).map Move.depth).sum + more := by
  induction ms with
  | nil => exact Nat.zero_le _
  | cons m ms ih =>
    rw [List.map_cons, List.nodup_cons] at hn
    by_cases e : m.id = id
    · rw [List.map_cons, if_pos e, map_other (e ▸ hn.1)]
      obtain ⟨hd, ha⟩ := k m (by simp) e
      rw [List.filter_cons, List.filter_cons]
      by_cases hf : (f m).active = true <;> by_cases hm : m.active = true <;>
        simp only [hf, hm, if_true, if_false, List.map_cons, List.sum_cons, hd, Bool.false_eq_true]
      · omega
      · have := (ha hf).resolve_left hm
        omega
      · omega
      · omega
    · have := ih hn.2 fun n hm => k n (by simp [hm])
      rw [List.map_cons, if_neg e, List.filter_cons, List.filter_cons]
      split
      · simp only [List.map_cons, List.sum_cons]; omega
      · exact this

theorem slots_onMove {ms : List Move} (hn : (ms.map Move.id).Nodup)
    (k : ∀ m ∈ ms, m.id = id → ∀ a, (f m).slots.count a ≤ m.slots.count a + taken.count a) (a : Nat) :
    ((ms.map fun m => if m.id = id then f m else m).flatMap Move.slots).count a
      ≤ (ms.flatMap Move.slots).count a + taken.count a := by
  induction ms with
  | nil => exact Nat.zero_le _
  | cons m ms ih =>
    rw [List.map_cons, List.nodup_cons] at hn
    by_cases e : m.id = id
    · rw [List.map_cons, if_pos e, map_other (e ▸ hn.1)]
      have := k m (by simp) e a
      simp only [List.flatMap_cons, List.count_append]
      omega
    · have := ih hn.2 fun n hm => k n (by simp [hm])
      rw [List.map_cons, if_neg e]
      simp only [List.flatMap_cons, List.count_append]
      omega

end oneRecord

/-- The bounds of a table, its slots given by their counts. -/
theorem Path.Ok.of_counts {p : Path} (h1 : p.table.length = 4) (h2 : (p.moves.map Move.id).Nodup)
    (h3 : ∀ m ∈ p.moves, m.id < p.nextId) (h4 : (p.moves.map Move.number).Nodup) (h5 : ∀ m ∈ p.moves, m.Ok)
    (h6 : ((p.moves.filter Move.active).map Move.depth).sum ≤ 16)
    (h7 : ∀ a, (p.moves.flatMap Move.slots).count a ≤ if a < 16 then 1 else 0) : p.Ok :=
  ⟨h1, h2, h3, h4, h5, h6,
    List.nodup_iff_count_le_one.mpr fun a => (h7 a).trans (by split <;> omega),
    fun n hn => by
      have := List.count_pos_iff.mpr hn
      have := h7 n
      split at this <;> omega⟩

theorem Path.Ok.counts {p : Path} (h : p.Ok) (a : Nat) :
    (p.moves.flatMap Move.slots).count a ≤ if a < 16 then 1 else 0 := by
  have h1 := List.nodup_iff_count_le_one.mp h.slots a
  split
  · exact h1
  · rename_i ha
    exact (List.count_eq_zero.mpr fun k => ha (h.range a k)).le

/-- One record of a table changes, and the depths at work stay within the slots; the slots taken are FREE ones. -/
theorem Path.Ok.change {p : Path} (h : p.Ok) {taken : List Nat} (id : Nat) (f : Move → Move)
    (free : ∀ a ∈ taken, a < 16 ∧ a ∉ p.moves.flatMap Move.slots) (once : taken.Nodup)
    (k : ∀ m ∈ p.moves, m.id = id → (f m).id = m.id ∧ (f m).number = m.number ∧ (f m).Ok
      ∧ ∀ a, (f m).slots.count a ≤ m.slots.count a + taken.count a)
    (hd : (((p.onMove id f).moves.filter Move.active).map Move.depth).sum ≤ 16) : (p.onMove id f).Ok := by
  have hid : ∀ {α : Type} (g : Move → α), (∀ m ∈ p.moves, m.id = id → g (f m) = g m) →
      (p.onMove id f).moves.map g = p.moves.map g := by
    intro α g hg
    rw [Path.moves_onMove, List.map_map]
    refine List.map_congr_left fun m hm => ?_
    simp only [Function.comp]
    split
    · exact hg m hm ‹_›
    · rfl
  have hmem : ∀ n ∈ (p.onMove id f).moves, ∃ m ∈ p.moves, n = m ∨ m.id = id ∧ n = f m := by
    intro n hn
    rw [Path.moves_onMove, List.mem_map] at hn
    obtain ⟨m, hm, e⟩ := hn
    refine ⟨m, hm, ?_⟩
    split at e
    · exact .inr ⟨‹_›, e.symm⟩
    · exact .inl e.symm
  refine .of_counts ?_ ?_ ?_ ?_ ?_ hd fun a => ?_
  · simp [Path.onMove, h.entries]
  · rw [hid Move.id fun m hm e => (k m hm e).1]; exact h.names
  · intro n hn
    obtain ⟨m, hm, rfl | ⟨e, rfl⟩⟩ := hmem n hn
    · exact h.next n hm
    · rw [(k m hm e).1]; exact h.next m hm
  · rw [hid Move.number fun m hm e => (k m hm e).2.1]; exact h.numbers
  · intro n hn
    obtain ⟨m, hm, rfl | ⟨e, rfl⟩⟩ := hmem n hn
    · exact h.moves n hm
    · exact (k m hm e).2.2.1
  · rw [Path.moves_onMove]
    refine (slots_onMove h.names (fun m hm e => (k m hm e).2.2.2) a).trans ?_
    have h1 := h.counts a
    by_cases ha : a ∈ taken
    · obtain ⟨h2, h3⟩ := free a ha
      have := List.nodup_iff_count_le_one.mp once a
      rw [List.count_eq_zero.mpr h3]
      simpa [h2] using this
    · rw [List.count_eq_zero.mpr ha]
      exact h1

/-- One record of a table changes, within what `Move.Steps` gives. -/
theorem Path.Ok.onMove {p : Path} (h : p.Ok) {taken : List Nat} (id : Nat) (f : Move → Move)
    (free : ∀ a ∈ taken, a < 16 ∧ a ∉ p.moves.flatMap Move.slots) (once : taken.Nodup)
    (k : ∀ m ∈ p.moves, m.id = id → m.Steps taken (f m)) : (p.onMove id f).Ok := by
  refine h.change id f free once
    (fun m hm e => ⟨(k m hm e).id, (k m hm e).number, (k m hm e).ok (h.moves m hm), (k m hm e).slots⟩) ?_
  rw [Path.moves_onMove]
  exact (depth_onMove 0 h.names fun m hm e =>
    ⟨(k m hm e).depth, fun w => .inl ((k m hm e).active w)⟩).trans (by have := h.depth; omega)

/-- A PENDING move whose depth fits enters STARTING (R107, R123). -/
theorem Path.Ok.enters {p : Path} (h : p.Ok) {m : Move} (hm : m ∈ p.moves) (hp : m.state = .pending)
    (hd : m.depth + ((p.moves.filter Move.active).map Move.depth).sum ≤ 16) :
    (p.onMove m.id fun m => { m with state := .starting }).Ok := by
  have only : ∀ n ∈ p.moves, n.id = m.id → n = m := fun n hn e =>
    List.inj_on_of_nodup_map h.names hn hm e
  refine h.change (taken := []) m.id _ nofun .nil (fun n hn e => ?_) ?_
  · rw [only n hn e]
    have w := h.moves m hm
    exact ⟨rfl, rfl, ⟨w.number, w.depth, w.room, fun _ => w.still (by rw [Move.flowing, hp]; rfl), w.lines⟩,
      fun _ => Nat.le_refl _⟩
  · rw [Path.moves_onMove]
    have := depth_onMove (id := m.id) (f := fun m => { m with state := .starting }) m.depth h.names
      fun n hn e => ⟨rfl, fun _ => .inr (by rw [only n hn e])⟩
    omega

/-- A table that differs in other parts only. -/
theorem Path.Ok.same {p q : Path} (h : p.Ok) (e1 : q.table = p.table) (e2 : q.nextId = p.nextId) : q.Ok := by
  have e : q.moves = p.moves := by rw [Path.moves, e1]
  refine ⟨e1 ▸ h.entries, ?_, ?_, ?_, ?_, ?_, ?_, ?_⟩ <;> rw [e]
  · exact h.names
  · rw [e2]; exact h.next
  · exact h.numbers
  · exact h.moves
  · exact h.depth
  · exact h.slots
  · exact h.range

/-- Every record of a table changes in parts that the bounds do not speak of. -/
theorem Path.Ok.mapAll {p q : Path} (h : p.Ok) (f : Move → Move) (k : ∀ m, (f m).shape = m.shape)
    (e1 : q.table = p.table.map fun e => e.map f) (e2 : q.nextId = p.nextId) : q.Ok := by
  have e : q.moves = p.moves.map f := by
    simp only [Path.moves, e1, List.filterMap_map, List.map_filterMap]
    exact List.filterMap_congr fun e _ => by cases e <;> rfl
  have part : ∀ {α : Type} (g : Move → α), (∀ m, g (f m) = g m) → q.moves.map g = p.moves.map g := by
    intro α g hg
    rw [e, List.map_map]
    exact List.map_congr_left fun m _ => hg m
  have step := fun m => Move.Steps.of_shape (k m)
  have hslots : ∀ m, (f m).slots = m.slots := fun m => by
    have := k m
    simp only [Move.shape, Prod.mk.injEq] at this
    simp only [Move.slots, this.2.2.2.2.1, this.2.2.2.2.2.1]
  have hactive : ∀ m, (f m).active = m.active := fun m => by
    have := k m
    simp only [Move.shape, Prod.mk.injEq] at this
    simp only [Move.active, this.2.2.2.1]
  have all : q.moves.flatMap Move.slots = p.moves.flatMap Move.slots := by
    rw [List.flatMap_def, List.flatMap_def, part _ hslots]
  refine ⟨by simp [e1, h.entries], ?_, fun m hm => ?_, ?_, fun m hm => ?_, ?_, all ▸ h.slots, all ▸ h.range⟩
  · rw [part Move.id fun m => (step m).id]; exact h.names
  · rw [e] at hm
    obtain ⟨n, hn, rfl⟩ := List.mem_map.mp hm
    rw [(step n).id, e2]; exact h.next n hn
  · rw [part Move.number fun m => (step m).number]; exact h.numbers
  · rw [e] at hm
    obtain ⟨n, hn, rfl⟩ := List.mem_map.mp hm
    exact (step n).ok (h.moves n hn)
  · rw [e, List.filter_map, List.map_map]
    have : Move.active ∘ f = Move.active := funext hactive
    have less : Move.depth ∘ f = Move.depth := funext fun m => (step m).depth
    rw [this, less]
    exact h.depth

theorem Path.powerOn_Ok : Path.powerOn.Ok := by
  have e : Path.powerOn.moves = [] := rfl
  refine ⟨rfl, ?_, ?_, ?_, ?_, ?_, ?_, ?_⟩ <;> simp [e]

/-! ## A move accepted, and a record emptied (R118, R119) -/

/-- The search for a number ends within four, at one that none of three records holds. -/
theorem nextNumber_spec (held : List Nat) (hl : held.length ≤ 3) (n : Nat) :
    nextNumber held 4 n ∉ held ∧ 1 ≤ nextNumber held 4 n ∧ nextNumber held 4 n ≤ 255 := by
  have hs : ∀ n : Nat, 1 ≤ (if 255 ≤ n then 1 else n + 1) ∧ (if 255 ≤ n then 1 else n + 1) ≤ 255 := by
    intro n; split <;> omega
  simp only [nextNumber]
  generalize e1 : (if 255 ≤ n then 1 else n + 1) = a
  generalize e2 : (if 255 ≤ a then 1 else a + 1) = b
  generalize e3 : (if 255 ≤ b then 1 else b + 1) = c
  generalize e4 : (if 255 ≤ c then 1 else c + 1) = d
  have ha := hs n; have hb := hs a; have hc := hs b; have hd := hs c
  rw [e1] at ha; rw [e2] at hb; rw [e3] at hc; rw [e4] at hd
  by_cases h1 : a ∈ held
  · by_cases h2 : b ∈ held
    · by_cases h3 : c ∈ held
      · have h4 : d ∉ held := by
          intro h4
          have hn : [a, b, c, d].Nodup := by
            simp only [List.nodup_cons, List.mem_cons, List.not_mem_nil, or_false, not_or, not_false_eq_true,
              List.nodup_nil, and_true]
            split at e2 <;> split at e3 <;> split at e4 <;> omega
          have : [a, b, c, d] ⊆ held := by
            intro x hx
            simp only [List.mem_cons, List.not_mem_nil, or_false] at hx
            rcases hx with rfl | rfl | rfl | rfl <;> assumption
          have := (hn.subperm this).length_le
          simp only [List.length_cons, List.length_nil] at this
          omega
        simp [h1, h2, h3, h4, hd]
      · simp [h1, h2, h3, hc]
    · simp [h1, h2, hb]
  · simp [h1, ha]

/-- The records of a table with one entry taken: the new record and those of the other entries. -/
theorem moves_set (x : Move) (table : List (Option Move)) (i : Nat) (hi : i < table.length) :
    ((table.set i (some x)).filterMap id).Perm (x :: (table.set i none).filterMap id) := by
  induction table generalizing i with
  | nil => exact absurd hi (by simp)
  | cons e table ih =>
    cases i with
    | zero => simp
    | succ i =>
      have := ih i (by simpa using hi)
      cases e with
      | none => simpa using this
      | some m => simpa using (this.cons m).trans (.swap x m _)

theorem moves_clear (table : List (Option Move)) (i : Nat) :
    ((table.set i none).filterMap id).Sublist (table.filterMap id) := by
  induction table generalizing i with
  | nil => simp
  | cons e table ih =>
    cases i with
    | zero => cases e <;> simp
    | succ i => cases e <;> simpa using ih i

theorem moves_clear_length (table : List (Option Move)) (i : Nat) (hi : i < table.length) :
    ((table.set i none).filterMap id).length + 1 ≤ table.length := by
  induction table generalizing i with
  | nil => exact absurd hi (by simp)
  | cons e table ih =>
    cases i with
    | zero => simpa using List.length_filterMap_le id table
    | succ i =>
      have := ih i (by simpa using hi)
      cases e with
      | none => exact Nat.le_succ_of_le this
      | some _ => exact Nat.succ_le_succ this

theorem Path.entryFor_lt {p : Path} (h : p.table.length = 4) : p.entryFor < p.table.length := by
  unfold Path.entryFor
  split
  · rename_i i e
    exact (List.findIdx?_eq_some_iff_findIdx_eq.mp e).1
  · cases e : (p.endings.head?.bind fun id => p.entryOf id) with
    | none => rw [h]; decide
    | some i =>
      rw [Option.bind_eq_some_iff] at e
      obtain ⟨id, _, e⟩ := e
      exact (List.findIdx?_eq_some_iff_findIdx_eq.mp e).1

theorem count_flatMap_le {l k : List Move} (h : l.Sublist k) (a : Nat) :
    (l.flatMap Move.slots).count a ≤ (k.flatMap Move.slots).count a := by
  induction h with
  | slnil => exact Nat.le_refl _
  | cons m _ ih => rw [List.flatMap_cons, List.count_append]; omega
  | cons_cons m _ ih => rw [List.flatMap_cons, List.flatMap_cons, List.count_append, List.count_append]; omega

/-- Fewer records, with the same four entries. -/
theorem Path.Ok.fewer {p q : Path} (h : p.Ok) (he : q.table.length = 4) (hn : q.nextId = p.nextId)
    (hs : q.moves.Sublist p.moves) : q.Ok := by
  refine .of_counts he ((hs.map _).nodup h.names) (fun m hm => hn ▸ h.next m (hs.subset hm))
    ((hs.map _).nodup h.numbers) (fun m hm => h.moves m (hs.subset hm)) ?_
    fun a => (count_flatMap_le hs a).trans (h.counts a)
  exact (((hs.filter _).map _).sum_le_sum fun _ _ => Nat.zero_le _).trans h.depth

/-- START_MOVE takes an entry, with a name and a number that no other record has (R119). -/
theorem Path.Ok.accept {p : Path} (h : p.Ok) (r : MoveRequest) (hr : 2 ≤ r.depth ∧ r.depth ≤ 12) :
    (p.accept r).Ok := by
  have hi := Path.entryFor_lt h.entries
  have hp : (p.accept r).moves.Perm
      (r.record p.numberFor p.nextId :: (p.table.set p.entryFor none).filterMap id) := moves_set _ _ _ hi
  have ho : Path.Ok { p with table := p.table.set p.entryFor none } :=
    h.fewer (by simp [h.entries]) rfl (moves_clear p.table p.entryFor)
  have hlen := moves_clear_length p.table p.entryFor hi
  have hnum : p.otherNumbers p.entryFor = ((p.table.set p.entryFor none).filterMap id).map Move.number := by
    simp only [Path.otherNumbers, List.map_filterMap]
    rfl
  obtain ⟨h1, h2⟩ := nextNumber_spec (p.otherNumbers p.entryFor)
    (by rw [hnum, List.length_map]; have := h.entries; omega) p.lastNumber
  have e : (p.accept r).nextId = p.nextId + 1 := rfl
  refine .of_counts (by simp [Path.accept, h.entries]) ?_ (fun m hm => ?_) ?_ (fun m hm => ?_) ?_ fun a => ?_
  · rw [(hp.map Move.id).nodup_iff, List.map_cons, List.nodup_cons]
    refine ⟨fun hm => ?_, ho.names⟩
    obtain ⟨m, hm, e⟩ := List.mem_map.mp hm
    exact absurd (ho.next m hm) (by rw [e]; exact Nat.lt_irrefl _)
  · rw [e]
    rcases List.mem_cons.mp (hp.subset hm) with rfl | hm
    · exact Nat.lt_succ_self _
    · exact Nat.lt_succ_of_lt (ho.next m hm)
  · rw [(hp.map Move.number).nodup_iff, List.map_cons, List.nodup_cons]
    exact ⟨fun hm => h1 ((congrArg (p.numberFor ∈ ·) hnum).mpr hm), ho.numbers⟩
  · rcases List.mem_cons.mp (hp.subset hm) with rfl | hm
    · exact ⟨h2, hr, Nat.zero_le _, fun _ => rfl, rfl⟩
    · exact ho.moves m hm
  · rw [((hp.filter Move.active).map Move.depth).sum_eq]
    exact ho.depth
  · rw [(hp.flatMap_right Move.slots).count_eq]
    exact ho.counts a

/-- A record is read after its end, and its entry is emptied (R118). -/
theorem Path.Ok.clear {p : Path} (h : p.Ok) (n : Nat) : (p.clear n).Ok := by
  refine h.fewer (by simp [Path.clear, h.entries]) rfl ?_
  simp only [Path.moves, Path.clear]
  generalize p.table = table
  induction table with
  | nil => simp
  | cons e table ih =>
    cases e with
    | none => simpa using ih
    | some m =>
      by_cases e : m.id = n
      · simpa [e] using ih.cons m
      · simpa [e] using ih

/-! ## The FREE slot (R107) -/

/-- A move whose room is above 0 always finds a FREE slot (R107). -/
theorem Path.Ok.freeSlot {s : State} (h : s.path.Ok) {m : Move} (hm : m ∈ s.moves) (ha : m.active = true)
    (hr : 0 < m.room) : s.freeSlot < 16 ∧ s.freeSlot ∉ s.path.moves.flatMap Move.slots := by
  have fits : ∀ ms : List Move, (∀ m ∈ ms, m.Ok) → (ms.flatMap Move.slots).length
      ≤ ((ms.filter Move.active).map Move.depth).sum := by
    intro ms hk
    induction ms with
    | nil => exact Nat.le_refl _
    | cons m ms ih =>
      have h1 := ih fun n hn => hk n (by simp [hn])
      have h2 := hk m (by simp)
      rw [List.flatMap_cons, List.length_append, List.filter_cons]
      split
      · rw [List.map_cons, List.sum_cons]
        have := h2.room
        omega
      · rename_i hn
        rw [h2.still (by simpa using fun e => hn (Move.flowing_active e))]
        simpa using h1
  have less : (s.path.moves.flatMap Move.slots).length < 16 := by
    obtain ⟨l, k, e⟩ := List.append_of_mem (show m ∈ s.path.moves from hm)
    have hd := h.depth
    have hl := fits l fun n hn => h.moves n (by rw [e]; simp [hn])
    have hk := fits k fun n hn => h.moves n (by rw [e]; simp [hn])
    rw [e, List.filter_append, List.filter_cons, if_pos ha, List.map_append, List.sum_append, List.map_cons,
      List.sum_cons] at hd
    rw [e, List.flatMap_append, List.length_append, List.flatMap_cons, List.length_append, Move.slots_length]
    rw [Move.room] at hr
    omega
  have found : ((List.range Config.lineSlots).find? fun n => !(s.slotsUsed.contains n)).isSome = true := by
    rw [List.find?_isSome]
    refine Classical.byContradiction fun hn => ?_
    have sub : List.range 16 ⊆ s.path.moves.flatMap Move.slots := fun n hr =>
      Classical.byContradiction fun w => hn ⟨n, hr, by simpa using show n ∉ s.slotsUsed from w⟩
    have := (List.nodup_range.subperm sub).length_le
    rw [List.length_range] at this
    omega
  obtain ⟨n, e⟩ := Option.isSome_iff_exists.mp found
  have e2 : s.freeSlot = n := by rw [State.freeSlot, e]; rfl
  rw [e2]
  exact ⟨by simpa [Config.lineSlots] using List.mem_of_find?_eq_some e, fun w => by
    have k := List.find?_some e
    have w : n ∈ s.slotsUsed := w
    simp [w] at k⟩

end Sys2Proof.Machine
end

