-- ==== Sys2Proof/Laws/Follows.lean ====
section
/-! SUPPORT. What follows from a command or an event (log 7) is made of few changes: one block's own state, a
report. `Follows` says so once, for every operation of the blocks and for `State.settle`; what such changes
keep is said once of `Follows`. -/

namespace Sys2Proof.Machine

/-- A state comes from another by changes of a kind that consequences make. What such a change to the move table
keeps may rest on `w`: that the table was in its bounds where they began. -/
inductive Follows (w : Prop) : State → State → Prop where
  | refl (s : State) : Follows w s s
  | trans {s t u : State} : Follows w s t → Follows w t u → Follows w s u
  | feed (s : State) (f : Feed) (h1 : f.docEntry = s.feed.docEntry)
      (h2 : f.docScan = s.feed.docScan) (h3 : f.paper = s.feed.paper)
      (h4 : f.cover = s.feed.cover) : Follows w s { s with feed := f }
  | scan (s : State) (c : Scan) (h : c.table = s.scan.table) : Follows w s { s with scan := c }
  | print (s : State) (p : Print) : Follows w s { s with print := p }
  | path (s : State) (p : Path) (h : w → s.path.Ok → p.Ok) : Follows w s { s with path := p }
  | power (s : State) (p : Power) : Follows w s { s with power := p }
  | store (s : State) (st : Store) (h : s.store.memory.wf = true → st.memory.wf = true) :
      Follows w s { s with store := st }
  | df (s : State) (c : Channel) (h : s.df.Mild s.cfg.df c) : Follows w s { s with df := c }
  | rf (s : State) (c : Channel) (h : s.rf.Mild s.cfg.rf c) : Follows w s { s with rf := c }
  | report (s : State) (type : Byte) (payload : List Byte) : Follows w s (s.report type payload)

/-! ## What every such change keeps -/

theorem Link.report_reserved (type : Byte) (payload : List Byte) (l : Link) :
    (l.report type payload).reserved = l.reserved := by
  unfold Link.report
  split <;> rfl

theorem Link.report_grows (type : Byte) (payload : List Byte) (l : Link) :
    l.outbound <+: (l.report type payload).outbound := by
  unfold Link.report
  split
  · exact List.prefix_append _ _
  · exact List.prefix_refl _

/-- A report enters only where a place is free, so it keeps the link's bounds (R9). -/
theorem Link.report_Ok (type : Byte) (payload : List Byte) (l : Link) (h : l.Ok) :
    (l.report type payload).Ok := by
  refine ⟨?_, fun f hf => ?_, by simpa using h.order, by simpa using h.parser⟩
  · rw [Link.report_reserved]
    unfold Link.report
    split
    · rename_i ha
      simp only [Link.admits, Bool.and_eq_true, decide_eq_true_eq] at ha
      simp only [List.length_append, List.length_cons, List.length_nil]
      omega
    · exact h.places
  · exact Nat.le_trans (h.untaken f (by simpa using hf)) (Link.report_grows type payload l).length_le

theorem Follows.keeps {w : Prop} {s t : State} (h : Follows w s t) (hw : w) : s.Inv → t.Inv := by
  induction h with
  | refl => exact fun h => h
  | trans _ _ h1 h2 => exact fun h => h2 (h1 h)
  | feed => exact fun h => ⟨h.settings, h.link, h.df, h.rf, h.path, h.memory⟩
  | scan => exact fun h => ⟨h.settings, h.link, h.df, h.rf, h.path, h.memory⟩
  | print => exact fun h => ⟨h.settings, h.link, h.df, h.rf, h.path, h.memory⟩
  | path _ _ k => exact fun h => ⟨h.settings, h.link, h.df, h.rf, k hw h.path, h.memory⟩
  | power => exact fun h => ⟨h.settings, h.link, h.df, h.rf, h.path, h.memory⟩
  | store _ _ k => exact fun h => ⟨h.settings, h.link, h.df, h.rf, h.path, k h.memory⟩
  | df _ _ k => exact fun h => ⟨h.settings, h.link, k.ok h.settings.1 h.df, h.rf, h.path, h.memory⟩
  | rf _ _ k => exact fun h => ⟨h.settings, h.link, h.df, k.ok h.settings.2.1 h.rf, h.path, h.memory⟩
  | report => exact fun h => ⟨h.settings, Link.report_Ok _ _ _ h.link, h.df, h.rf, h.path, h.memory⟩

theorem Follows.inv {s t : State} (h : Follows s.path.Ok s t) : s.Inv → t.Inv := fun k => h.keeps k.path k

/-- The move table stays in its bounds. -/
theorem Follows.pathOk {w : Prop} {s t : State} (h : Follows w s t) (hw : w) : s.path.Ok → t.path.Ok := by
  induction h with
  | trans _ _ h1 h2 => exact fun h => h2 (h1 h)
  | path _ _ k => exact k hw
  | _ => exact fun h => h

/-- What rests on more is kept where less is given. -/
theorem Follows.weaken {w v : Prop} {s t : State} (h : Follows v s t) (k : w → v) : Follows w s t := by
  induction h with
  | refl s => exact .refl s
  | trans _ _ h1 h2 => exact h1.trans h2
  | feed s f h1 h2 h3 h4 => exact .feed s f h1 h2 h3 h4
  | scan s c h => exact .scan s c h
  | print s p => exact .print s p
  | path s p h => exact .path s p fun x => h (k x)
  | power s p => exact .power s p
  | store s st h => exact .store s st h
  | df s c h => exact .df s c h
  | rf s c h => exact .rf s c h
  | report s type payload => exact .report s type payload

theorem Follows.leads {w : Prop} {s t : State} (h : Follows w s t) : s.Leads t := by
  induction h with
  | refl => exact ⟨rfl, List.prefix_refl _⟩
  | trans _ _ h1 h2 => exact ⟨h2.kept.trans h1.kept, h1.queue.trans h2.queue⟩
  | feed _ _ h1 h2 h3 h4 =>
    exact ⟨by simp only [State.kept, h1, h2, h3, h4], List.prefix_refl _⟩
  | scan _ _ h => exact ⟨by simp only [State.kept, h], List.prefix_refl _⟩
  | print => exact ⟨rfl, List.prefix_refl _⟩
  | path => exact ⟨rfl, List.prefix_refl _⟩
  | power => exact ⟨rfl, List.prefix_refl _⟩
  | store => exact ⟨rfl, List.prefix_refl _⟩
  | df _ _ k => exact ⟨by simp only [State.kept, k.phase, k.position], List.prefix_refl _⟩
  | rf _ _ k => exact ⟨by simp only [State.kept, k.phase, k.position], List.prefix_refl _⟩
  | report s type payload =>
    refine ⟨?_, Link.report_grows _ _ _⟩
    have e : ({ (s.link.report type payload).sticky with reportOverflow := false } : Sticky)
        = { s.link.sticky with reportOverflow := false } := by
      unfold Link.report; split <;> rfl
    simp [State.kept, e]

/-! ## One block's operation, after others -/

section steps

variable {w : Prop} {s t : State} (h : Follows w s t)
include h

theorem Follows.onFeed (f : Feed → Feed) (h1 : (f t.feed).docEntry = t.feed.docEntry)
    (h2 : (f t.feed).docScan = t.feed.docScan) (h3 : (f t.feed).paper = t.feed.paper)
    (h4 : (f t.feed).cover = t.feed.cover) : Follows w s (t.onFeed f) :=
  h.trans (.feed t _ h1 h2 h3 h4)

theorem Follows.onScan (f : Scan → Scan) (k : (f t.scan).table = t.scan.table) :
    Follows w s (t.onScan f) := h.trans (.scan t _ k)

theorem Follows.onPrint (f : Print → Print) : Follows w s (t.onPrint f) := h.trans (.print t _)

theorem Follows.onPath (f : Path → Path) (k : w → t.path.Ok → (f t.path).Ok) : Follows w s (t.onPath f) :=
  h.trans (.path t _ k)

/-- One record changes, and no slot is taken. -/
theorem Follows.onMove (id : Nat) (f : Move → Move)
    (k : w → t.path.Ok → ∀ m, t.move? id = some m → m.Steps [] (f m)) : Follows w s (t.onMove id f) :=
  h.trans (.path t _ fun x y => y.onMove id f (by simp) .nil fun m hm e => k x y m (e ▸ y.only hm))

/-- One record changes in parts that its bounds do not speak of. -/
theorem Follows.onMoveParts (id : Nat) (f : Move → Move) (k : ∀ m, (f m).shape = m.shape) :
    Follows w s (t.onMove id f) := h.onMove id f fun _ _ m _ => .of_shape (k m)

/-- The record of a move, wherever one stands under its name, is at work. -/
abbrev State.Working (w : Prop) (id : Nat) (t : State) : Prop :=
  w → ∀ n, t.move? id = some n → n.active = true

/-- The record of a move, wherever one stands under its name, has its lines flow and has room. -/
abbrev State.Roomy (w : Prop) (id : Nat) (t : State) : Prop :=
  w → ∀ n, t.move? id = some n → n.flowing = true ∧ 0 < n.room

/-- One record takes the FREE slot, with room for it. -/
theorem Follows.takeSlot (id : Nat) (f : Move → Move) (g : t.Roomy w id)
    (k : w → ∀ m, t.move? id = some m → m.flowing = true → 0 < m.room → m.Steps [t.freeSlot] (f m)) :
    Follows w s (t.onMove id f) := by
  refine h.trans (.path t _ fun x y => ?_)
  by_cases e : ∃ m, t.move? id = some m
  · obtain ⟨m, e⟩ := e
    obtain ⟨g1, g2⟩ := g x m e
    have free := y.freeSlot (State.move?_mem e).1 (Move.flowing_active g1) g2
    refine y.onMove id f (fun a ha => List.mem_singleton.mp ha ▸ free) (List.nodup_singleton _) fun n hn hi => ?_
    obtain ⟨g1, g2⟩ := g x n (hi ▸ y.only hn)
    exact k x n (hi ▸ y.only hn) g1 g2
  · exact y.onMove (taken := []) id f (by simp) .nil fun n hn hi => absurd ⟨n, hi ▸ y.only hn⟩ e

theorem Follows.onPower (f : Power → Power) : Follows w s (t.onPower f) := h.trans (.power t _)

theorem Follows.onStore (f : Store → Store)
    (k : t.store.memory.wf = true → (f t.store).memory.wf = true) : Follows w s (t.onStore f) :=
  h.trans (.store t _ k)

theorem Follows.onChannel (ch : ChannelId) (f : Channel → Channel)
    (k : ∀ cfg c, Channel.Mild cfg c (f c)) : Follows w s (t.onChannel ch f) := by
  cases ch
  · exact h.trans (.df t _ (k _ _))
  · exact h.trans (.rf t _ (k _ _))

theorem Follows.raise (type : Byte) (payload : List Byte) : Follows w s (t.report type payload) :=
  h.trans (.report t _ _)

theorem Follows.giveUp (ch : ChannelId) (u : User) (hold : Nat) :
    Follows w s (t.onChannel ch (Channel.giveUp u hold)) :=
  h.onChannel ch _ fun cfg c => c.giveUp_mild cfg u hold

theorem Follows.order (ch : ChannelId) (o : Order) : Follows w s (t.onChannel ch (Channel.order o)) :=
  h.onChannel ch _ fun cfg c => c.order_mild cfg o

omit h in
theorem Follows.foldl {α : Type} (f : State → α → State) (k : ∀ t a, Follows w t (f t a)) (l : List α)
    {s t : State} (h : Follows w s t) : Follows w s (l.foldl f t) := by
  induction l generalizing t with
  | nil => exact h
  | cons a l ih => exact ih (h.trans (k t a))

/-! ## Records -/

theorem Follows.reportMoveDone (m : Move) : Follows w s (t.reportMoveDone m) := h.raise _ _
theorem Follows.reportMoveStarted (m : Move) : Follows w s (t.reportMoveStarted m) := h.raise _ _
theorem Follows.reportPaper : Follows w s t.reportPaper := h.raise _ _
theorem Follows.reportPage (n : Nat) (m : PageMark) (p l : Nat) : Follows w s (t.reportPage n m p l) :=
  h.raise _ _
theorem Follows.reportPowerOf (p : Power) (k : PowerKind) : Follows w s (t.reportPowerOf p k) :=
  h.raise _ _
theorem Follows.reportPower (k : PowerKind) : Follows w s (t.reportPower k) := h.raise _ _
theorem Follows.reportStore (k : StoreKind) (d p : Nat) : Follows w s (t.reportStore k d p) :=
  h.raise _ _
theorem Follows.reportMotorFault (ch : ChannelId) : Follows w s (t.reportMotorFault ch) := h.raise _ _
theorem Follows.reportBootDone : Follows w s t.reportBootDone := h.raise _ _

/-! ## The page path and the end of a move -/

theorem Follows.setDoc (d : DocState) (c : DocCause) (o : Nat) : Follows w s (t.setDoc d c o) :=
  (h.onFeed _ rfl rfl rfl rfl).raise _ _

theorem Follows.testAutoDelete (doc : Nat) : Follows w s (t.testAutoDelete doc) :=
  h.onStore _ fun k => Store.wf_testAutoDelete _ k _ _

theorem Follows.completeSinkPage (id : Nat) (m : PageMark) : Follows w s (t.completeSinkPage id m) := by
  unfold State.completeSinkPage
  split
  · exact h
  · exact (h.reportPage _ _ _ _).onMoveParts _ _ (by exact fun _ => rfl)

theorem Follows.giveUpChannels (u : User) : Follows w s (t.giveUpChannels u) :=
  (h.giveUp .df u _).giveUp .rf u _

theorem Follows.ejectPartScanned (m : Move) : Follows w s (t.ejectPartScanned m) := by
  unfold State.ejectPartScanned
  split
  · exact (h.onFeed _ rfl rfl rfl rfl).setDoc _ _ _
  · exact h

theorem Follows.stopWork (m : Move) : Follows w s (t.stopWork m) := by
  unfold State.stopWork
  split
  · split
    · exact (h.onPrint _).onStore _ fun k => Store.wf_endWriter _ (Store.wf_dropTransfer _ k _) _
    · exact h.onStore _ fun k => Store.wf_endWriter _ (Store.wf_dropTransfer _ k _) _
  · exact h

theorem Follows.endMove (id : Nat) (o : MoveState) (c : Option MoveCause) (r : Bool)
    (ho : ∀ m : Move, (m.ended o c).active = false) : Follows w s (t.endMove id o c r) := by
  unfold State.endMove
  split
  · exact h
  · rename_i m _
    split
    · dsimp only
      have h1 := Follows.foldl (fun s d => State.testAutoDelete d s)
        (fun t d => (Follows.refl t).testAutoDelete d) m.documents
        (((h.stopWork m).onMove id (Move.ended o c) fun _ _ n _ => n.ended_steps o c (ho n)).onPath
          (fun p => { p with endings := p.endings ++ [id] }) fun _ k => k.same rfl rfl)
      split
      · exact h1.reportMoveDone _
      · exact ((h1.giveUpChannels _).reportMoveDone _).ejectPartScanned _
    · exact h

theorem Follows.failMove (c : MoveCause) (id : Nat) : Follows w s (t.failMove c id) :=
  h.endMove _ _ _ _ fun _ => rfl

theorem Follows.failWhere (p : Move → Bool) (c : MoveCause) : Follows w s (t.failWhere p c) :=
  Follows.foldl _ (fun t id => (Follows.refl t).failMove c id) _ h

theorem Follows.storeFull (id doc page : Nat) : Follows w s (t.storeFull id doc page) :=
  (h.reportStore _ _ _).failMove _ _

theorem Follows.endIfDrained (id : Nat) : Follows w s (t.endIfDrained id) := by
  unfold State.endIfDrained
  split
  · exact h
  · split
    · exact h.endMove _ _ _ _ fun _ => rfl
    · exact h

/-! ## Power control -/

theorem Follows.syncPower : Follows w s t.syncPower := by
  unfold State.syncPower
  split
  · exact (h.onPower _).reportPower _
  · exact h

theorem Follows.startDomain (d : DomainId) : Follows w s (t.startDomain d) := by
  unfold State.startDomain
  split <;> exact h.onPower _

theorem Follows.domainOff (d : DomainId) : Follows w s (t.domainOff d) := by
  unfold State.domainOff
  dsimp only
  split
  · exact (h.onPower _).onScan _ rfl
  · exact (h.onPower _).onPrint _
  · exact (((h.onPower _).onPrint _).onChannel .df _ fun cfg c => c.motorOff_mild cfg).onChannel .rf _
      fun cfg c => c.motorOff_mild cfg

theorem Follows.allDomainsOff : Follows w s t.allDomainsOff :=
  ((h.domainOff .scan).domainOff .print).domainOff .motor

theorem Follows.restartIdle : Follows w s t.restartIdle := by
  unfold State.restartIdle
  exact (h.onPower _).onPower _

theorem Follows.beginSleep : Follows w s t.beginSleep :=
  (h.allDomainsOff.onPower _).reportPower _

theorem Follows.cancelSleep (c : WakeCauses) : Follows w s (t.cancelSleep c) := by
  unfold State.cancelSleep
  split
  · exact h
  · exact ((h.onPower _).reportPower _).restartIdle

theorem Follows.causeTaken (c : WakeCause) : Follows w s (t.causeTaken c) := h.cancelSleep _

theorem Follows.causeDetected (c : WakeCause) : Follows w s (t.causeDetected c) := by
  unfold State.causeDetected
  split
  · exact h
  · exact h.onPower _

/-! ## Feed control -/

theorem Follows.startSettle : Follows w s t.startSettle := h.onFeed _ rfl rfl rfl rfl

theorem Follows.arrive : Follows w s t.arrive := (h.setDoc _ _ _).startSettle

theorem Follows.enterNone (c : DocCause) : Follows w s (t.enterNone c) := by
  unfold State.enterNone
  dsimp only
  split
  · exact (((h.onFeed _ rfl rfl rfl rfl).setDoc _ _ _).arrive).failWhere _ _
  · exact ((h.onFeed _ rfl rfl rfl rfl).setDoc _ _ _).failWhere _ _

theorem Follows.jam (c : DocCause) : Follows w s (t.jam c) := by
  unfold State.jam
  dsimp only
  split
  · exact ((h.onFeed _ rfl rfl rfl rfl).setDoc _ _ _).giveUp _ _ _
  · exact (((h.onFeed _ rfl rfl rfl rfl).setDoc _ _ _).giveUp _ _ _).setDoc _ _ _

theorem Follows.enterJammed (c : DocCause) : Follows w s (t.enterJammed c) := (h.jam c).failWhere _ _

theorem Follows.jamScan (c : DocCause) : Follows w s (t.jamScan c) := (h.enterJammed c).failWhere _ _

theorem Follows.beginAlign (o d : Nat) : Follows w s (t.beginAlign o d) := by
  unfold State.beginAlign
  split
  · exact (h.onFeed _ rfl rfl rfl rfl).order _ _
  · exact ((h.onFeed _ rfl rfl rfl rfl).setDoc _ _ _).giveUp _ _ _

theorem Follows.beginLoad : Follows w s t.beginLoad := by
  unfold State.beginLoad
  dsimp only
  split
  · exact ((h.onFeed _ rfl rfl rfl rfl).setDoc _ _ _).beginAlign _ _
  · exact (((h.onFeed _ rfl rfl rfl rfl).setDoc _ _ _).onFeed _ rfl rfl rfl rfl).order _ _

theorem Follows.beginEject : Follows w s t.beginEject := (h.onFeed _ rfl rfl rfl rfl).order _ _

theorem Follows.feedRampEnded : Follows w s t.feedRampEnded := by
  unfold State.feedRampEnded
  split
  · exact h.beginAlign _ _
  · exact h.enterJammed _
  · exact ((h.onFeed _ rfl rfl rfl rfl).setDoc _ _ _).giveUp _ _ _
  · exact ((h.onFeed _ rfl rfl rfl rfl).giveUp _ _ _).enterNone _
  · exact h.enterJammed _
  · exact h

omit h in
theorem Feed.countStep_sensors (f : Feed) : f.countStep.docEntry = f.docEntry
    ∧ f.countStep.docScan = f.docScan ∧ f.countStep.paper = f.paper
    ∧ f.countStep.cover = f.cover := by
  unfold Feed.countStep
  split <;> exact ⟨rfl, rfl, rfl, rfl⟩

theorem Follows.countStep : Follows w s (t.onFeed Feed.countStep) := by
  obtain ⟨h1, h2, h3, h4⟩ := t.feed.countStep_sensors
  exact h.onFeed _ h1 h2 h3 h4

theorem Follows.setGating (ch : ChannelId) (g : Bool) :
    Follows w s (t.onChannel ch (Channel.setGating g)) :=
  h.onChannel ch _ fun cfg c => c.setGating_mild cfg g

theorem Follows.gapGate : Follows w s t.gapGate := by
  unfold State.gapGate
  split
  · split
    · exact h.setGating _ _
    · exact h
  · exact h

theorem Follows.gapTimeout : Follows w s t.gapTimeout := by
  unfold State.gapTimeout
  split
  · split
    · exact h.jamScan _
    · exact h
  · exact h

theorem Follows.blankPage (m : Move) (g : t.Roomy w m.id) : Follows w s (t.blankPage m) :=
  h.takeSlot _ _ g fun _ n _ hf hr => n.enterBlank_steps _ _ _ _ hf hr

omit h in
/-- A change of a record that keeps its state keeps a move at work. -/
theorem State.Working.onMove {id : Nat} (f : Move → Move) (hid : ∀ m, (f m).id = m.id)
    (hs : ∀ m, (f m).state = m.state) {t : State} (g : ∀ n, t.move? id = some n → n.active = true) (n : Move)
    (e : (t.onMove id f).move? id = some n) : n.active = true := by
  rw [State.move?_onMove hid, Option.map_eq_some_iff] at e
  obtain ⟨m, e, rfl⟩ := e
  simpa only [Move.active, hs] using g m e

theorem Follows.scanPageEnded (m : Move) : Follows w s (t.scanPageEnded m) := by
  unfold State.scanPageEnded
  dsimp only
  split
  · exact (h.onMoveParts _ _ (by exact fun _ => rfl)).reportPage _ _ _ _
  · exact (h.onMoveParts _ _ fun n => n.endScanPage_shape _).reportPage _ _ _ _

omit h in
theorem State.Working.scanPageEnded (m : Move) {t : State} (g : ∀ n, t.move? m.id = some n → n.active = true) :
    ∀ n, (t.scanPageEnded m).move? m.id = some n → n.active = true := by
  unfold State.scanPageEnded
  dsimp only
  split
  · exact fun n e => State.Working.onMove (fun n => { n with blankDue := n.blankDue + 1 }) (fun _ => rfl) (fun _ => rfl) g n e
  · exact fun n e => State.Working.onMove (Move.endScanPage t.headWidth) (fun _ => rfl) (fun _ => rfl) g n e

theorem Follows.beginGap (m : Move) : Follows w s (t.beginGap m) :=
  ((h.onFeed _ rfl rfl rfl rfl).order _ _).gapGate

theorem Follows.endLine (ch : ChannelId) (hold : Nat) :
    Follows w s (t.onChannel ch (Channel.endLine hold)) :=
  h.onChannel ch _ fun cfg c => c.endLine_mild cfg hold

theorem Follows.pageEnd (m : Move) (g : t.Working w m.id) :
    Follows w s (t.pageEnd m) := by
  unfold State.pageEnd
  dsimp only
  have h1 := (((h.onFeed (fun f => { f with tail := none, tailSkip := false }) rfl rfl rfl rfl).endLine
    .df t.cfg.df.holdTime).onScan (fun c => { c with lineCounter := 0 }) rfl).scanPageEnded m
  split
  · exact (h1.onMoveParts _ _ (by exact fun _ => rfl)).beginGap _
  · refine (h1.onMove _ _ fun x _ n e => ?_).setDoc _ _ _
    exact .flows (State.Working.scanPageEnded m (by exact g x) n e) rfl rfl

theorem Follows.scanLineCounted (m : Move) (g : t.Working w m.id) :
    Follows w s (t.scanLineCounted m) := by
  unfold State.scanLineCounted
  split
  · rename_i n _
    dsimp only
    generalize (if t.feed.tailSkip = true then n else n - 1) = left
    have h1 := h.onFeed (fun f => { f with tail := some left, tailSkip := false }) rfl rfl rfl rfl
    split
    · exact h1.pageEnd _ g
    · exact h1
  · split
    · exact h.jamScan _
    · exact h

theorem Follows.tailSeen (m : Move) (g : t.Working w m.id) :
    Follows w s (t.tailSeen m) := by
  unfold State.tailSeen
  dsimp only
  have h1 := h.onFeed (fun f => { f with
    tail := some ((t.feed.tailOffset + ((scanDensity m).steps - 1)) / (scanDensity m).steps)
    tailSkip := t.df.captureOutstanding }) rfl rfl rfl rfl
  split
  · exact h1.pageEnd _ g
  · exact h1

theorem Follows.entryTakenPresent : Follows w s t.entryTakenPresent := by
  unfold State.entryTakenPresent
  split
  · exact h.arrive
  · exact h

theorem Follows.entryTakenAbsent : Follows w s t.entryTakenAbsent := by
  unfold State.entryTakenAbsent
  split
  · exact (h.giveUp _ _ _).enterNone _
  · split
    · exact h
    · exact h.enterNone _
  · exact h

theorem Follows.scanTakenPresent : Follows w s t.scanTakenPresent := by
  unfold State.scanTakenPresent
  split
  · exact h.enterJammed _
  · split
    · refine Follows.beginAlign (h.onChannel .df _ ?_) _ _
      exact fun cfg c => Channel.mild_of_same cfg c _ rfl rfl rfl rfl (.inl rfl)
    · exact (h.onFeed _ rfl rfl rfl rfl).onChannel .df _ fun cfg c => c.stop_mild cfg _
  · split
    · exact h.onFeed _ rfl rfl rfl rfl
    · exact ((h.onFeed _ rfl rfl rfl rfl).setDoc _ _ _).onChannel .df _ fun cfg c => c.stop_mild cfg _
  · exact (h.onFeed _ rfl rfl rfl rfl).gapGate
  · exact h

theorem Follows.scanTakenAbsent (hw : w → t.path.Ok) : Follows w s t.scanTakenAbsent := by
  unfold State.scanTakenAbsent
  split
  · exact h.enterNone _
  · split
    · exact h
    · exact h.enterNone _
  · exact h.enterJammed _
  · exact h.jamScan _
  · exact h.onFeed _ rfl rfl rfl rfl
  · split
    · rename_i m e
      split
      · refine h.tailSeen m fun x n hn => ?_
        have k := List.find?_some e
        rw [(hw x).only (List.mem_of_find?_eq_some e)] at hn
        cases hn
        exact Move.flowing_active (by simpa using (Bool.and_eq_true _ _ ▸ k : _ ∧ _).2)
      · exact h
    · exact h
  · exact h

theorem Follows.paperTakenAbsent : Follows w s t.paperTakenAbsent := by
  unfold State.paperTakenAbsent
  dsimp only
  split
  · exact (h.reportPaper).failWhere _ _
  · split
    · exact (((h.reportPaper).failWhere _ _).onMoveParts _ _ (by exact fun _ => rfl)).endLine _ _
    · exact (h.reportPaper).failWhere _ _

theorem Follows.feedMotorFault (q : Bool) : Follows w s (t.feedMotorFault q) := by
  unfold State.feedMotorFault
  split
  · exact h.jam _
  · exact h.jam _
  · exact h.jam _
  · split
    · exact h.jam _
    · exact h
  · exact h

/-! ## The head -/

theorem Follows.takeLoad (m : Move) (l : SlotLine) : Follows w s (t.takeLoad m l) := by
  unfold State.takeLoad
  exact h.onPrint _

theorem Follows.deliverHead (l : HeadLine) (heavy : Bool) : Follows w s (t.deliverHead l heavy) := by
  unfold State.deliverHead
  split
  · rename_i held
    have h1 := h.onMove l.move (Move.deliver heavy) fun _ _ n e => n.deliver_steps heavy fun q => by
      simp [State.headLineHeld, e, q] at held
    dsimp only
    split
    · exact (h1.onMoveParts _ _ (by exact fun _ => rfl)).endLine _ _
    · exact h1
  · exact h

theorem Follows.strobeDone (l : HeadLine) (heavy : Bool) : Follows w s (t.strobeDone l heavy) :=
  (h.deliverHead l heavy).onChannel .rf _ fun cfg c => c.strobeDone_mild cfg

theorem Follows.latch (l : HeadLine) : Follows w s (t.latch l) := by
  unfold State.latch
  exact h.onPrint _

theorem Follows.boundaryAtHead : Follows w s t.boundaryAtHead := by
  unfold State.boundaryAtHead
  split
  · split
    · exact (h.onPrint _).strobeDone _ _
    · exact h.latch _
  · exact h.onPrint _
  · exact h

theorem Follows.loadComplete : Follows w s t.loadComplete := by
  unfold State.loadComplete
  split
  · split
    · exact h.latch _
    · exact h.onPrint _
  · exact h

theorem Follows.phaseEnd : Follows w s t.phaseEnd := by
  unfold State.phaseEnd
  split
  · split
    · exact h.onPrint _
    · split
      · exact (h.onPrint _).strobeDone _ _
      · exact h.onPrint _
  · exact h

theorem Follows.beginCut (m : Move) : Follows w s (t.beginCut m) := by
  unfold State.beginCut
  dsimp only
  split
  · exact (h.onMoveParts _ _ (by exact fun _ => rfl)).onPrint _
  · exact ((h.onMoveParts _ _ (by exact fun _ => rfl)).onPrint _).order _ _

theorem Follows.cutFeedEnded : Follows w s t.cutFeedEnded := by
  unfold State.cutFeedEnded
  split
  · exact h.onPrint _
  · exact h

theorem Follows.countPrinted (m : Move) : Follows w s (t.countPrinted m) := by
  unfold State.countPrinted
  split
  · exact h
  · exact (h.onStore _ fun k => Store.wf_pagePrinted _ k _ _).testAutoDelete _

theorem Follows.openPageFor (m : Move) (doc : Nat) (o : Option Nat) :
    Follows w s (t.openPageFor m doc o) := by
  unfold State.openPageFor
  split
  · exact h.storeFull _ _ _
  · split
    · exact h.onStore _ fun k => k
    · exact h.storeFull _ _ _

theorem Follows.switchToStore (m : Move) : Follows w s (t.switchToStore m) := by
  unfold State.switchToStore
  dsimp only
  have h1 := (((h.onStore (Store.create .received false) fun k => k).onPrint Print.stopServing).onMoveParts m.id
    (Move.divert (t.onStore (Store.create .received false)).store.lastDoc) fun _ => rfl).giveUp .rf (.move m.id)
      t.cfg.rf.holdTime
  split
  · exact h1
  · exact h1.openPageFor _ _ _

theorem Follows.actOnPaperOut (m : Move) : Follows w s (t.actOnPaperOut m) := by
  unfold State.actOnPaperOut
  split
  · split
    · exact (h.reportStore _ _ _).failMove _ _
    · exact h.switchToStore _
  · exact h.failMove _ _

theorem Follows.cutDone : Follows w s t.cutDone := by
  unfold State.cutDone
  dsimp only
  split
  · exact h.onPrint _
  · rename_i m _
    have h1 := (((h.onPrint (fun p => { p with cut := .none })).completeSinkPage m.id
      .printedAndCut).countPrinted m).endIfDrained m.id
    split
    · exact h1
    · split
      · exact h1.actOnPaperOut _
      · exact h1

/-! ## Moves -/

theorem Follows.moveRequest (ch : ChannelId) (id : Nat) : Follows w s (t.moveRequest ch id) := by
  unfold State.moveRequest
  split
  · exact h.failMove _ _
  · exact h.failMove _ _
  · exact h.onChannel ch _ fun cfg c => c.request_mild cfg _ _

theorem Follows.makeSinkDoc (m : Move) : Follows w s (t.makeSinkDoc m) := by
  unfold State.makeSinkDoc
  split
  · split
    · exact h.storeFull _ _ _
    · exact (h.onStore (Store.create _ _) fun k => k).onMoveParts _ _ (by exact fun _ => rfl)
  · exact h

theorem Follows.enterStarting (id : Nat) (g : w → t.path.Ok → ∀ m, t.move? id = some m → m.state = .pending
    ∧ m.depth + ((t.moves.filter Move.active).map Move.depth).sum ≤ 16) : Follows w s (t.enterStarting id) := by
  unfold State.enterStarting
  dsimp only
  have h1 : Follows w s (t.onMove id fun m => { m with state := .starting }) := by
    refine h.trans (.path t _ fun x y => ?_)
    by_cases e : ∃ m, t.move? id = some m
    · obtain ⟨m, e⟩ := e
      obtain ⟨hm, rfl⟩ := State.move?_mem e
      obtain ⟨g1, g2⟩ := g x y m e
      exact y.enters hm g1 g2
    · exact y.onMove (taken := []) id _ (by simp) .nil fun n hn hi => absurd ⟨n, hi ▸ y.only hn⟩ e
  split
  · exact h1
  · split
    · exact h1.failMove _ _
    · split
      · exact h1.failMove _ _
      · split
        · exact h1.failMove _ _
        · split
          · exact (h1.makeSinkDoc _).moveRequest _ _
          · exact h1.makeSinkDoc _

theorem Follows.startReading (id : Nat) : Follows w s (t.startReading id) := by
  unfold State.startReading
  split
  · exact h
  · split
    · exact h
    · exact h.onMoveParts _ _ (by exact fun _ => rfl)

theorem Follows.enterRunning (m : Move) (g : t.Working w m.id) : Follows w s (t.enterRunning m) := by
  unfold State.enterRunning
  dsimp only
  have h1 := (h.onMove m.id
    (fun n => { n with state := .running, headerLeft := m.prefixCount t.headerLines })
    fun x _ n e => .flows (g x n e) rfl rfl).reportMoveStarted m
  have h2 := ((((h1.order .df (.line (scanDensity m) true)).onScan
    (fun c => { c with lineCounter := 0 }) rfl).onFeed (fun f =>
      { f with tailOffset := t.cfg.feed.offset, tail := none, tailSkip := false, seq := .none })
    rfl rfl rfl rfl).setDoc .scanning .scan 0)
  split
  · split
    · exact h2.startReading _
    · exact h1.startReading _
  · split
    · exact h2
    · exact h1

theorem Follows.emitHeader (m : Move) (g : t.Roomy w m.id) : Follows w s (t.emitHeader m) := by
  unfold State.emitHeader
  split
  · exact h.onMoveParts _ _ (by exact fun _ => rfl)
  · exact h.takeSlot _ _ g fun _ n _ hf hr => n.emitHeader_steps _ _ _ _ hf hr

theorem Follows.pageRead (m : Move) (r : Reader) (g : t.Working w m.id) : Follows w s (t.pageRead m r) := by
  unfold State.pageRead
  dsimp only
  have h1 := h.onStore (Store.endRead m.sourceDoc r.page r.white) fun k =>
    Store.wf_endRead _ k _ _ _
  split
  · exact (h1.onMoveParts _ _ (by exact fun _ => rfl)).startReading _
  · exact h1.onMove _ _ fun x _ n e => .flows (g x n e) rfl rfl

theorem Follows.handLine (m : Move) (r : Reader) (l : ReadLine) (g : t.Roomy w m.id) :
    Follows w s (t.handLine m r l) := by
  have k := fun (last repaired : Bool) (dots : RawLine) (r : Reader) (d : Nat) =>
    h.takeSlot m.id (Move.handed t.headWidth t.freeSlot (t.sourceDensity m) dots last repaired r d) g
      fun _ n _ hf hr => n.handed_steps _ _ _ _ _ _ r d hf hr
  have q := fun (last repaired : Bool) (dots : RawLine) (r : Reader) (d : Nat) (x : w) =>
    State.Working.onMove (t := t) (id := m.id)
      (Move.handed t.headWidth t.freeSlot (t.sourceDensity m) dots last repaired r d)
      (fun n => (n.handed_same _ _ _ _ _ _ _ _).1) (fun n => (n.handed_same _ _ _ _ _ _ _ _).2)
      fun n e => Move.flowing_active (g x n e).1
  unfold State.handLine
  dsimp only
  split
  · exact (k _ _ _ _ _).pageRead _ _ (q _ _ _ _ _)
  · split
    · exact (k _ _ _ _ _).pageRead _ _ (q _ _ _ _ _)
    · exact k _ _ _ _ _

theorem Follows.truncate (m : Move) (doc page : Nat) : Follows w s (t.truncate m doc page) :=
  (h.onStore _ fun k => Store.wf_closePage _ k _ _).storeFull _ _ _

theorem Follows.allocateLine (m : Move) (l : SlotLine) (doc : Nat) (o : OpenPage) :
    Follows w s (t.allocateLine m l doc o) := by
  unfold State.allocateLine
  dsimp only
  repeat' split
  all_goals first
    | exact h.truncate _ _ _
    | exact h.onStore _ fun k => k

theorem Follows.takeLine (m : Move) (l : SlotLine) (doc : Nat) : Follows w s (t.takeLine m l doc) := by
  unfold State.takeLine
  dsimp only
  repeat' split
  all_goals first
    | exact h.openPageFor _ _ _
    | exact h
    | exact (h.openPageFor _ _ _).allocateLine _ _ _ _
    | exact h.allocateLine _ _ _ _

theorem Follows.beginTransfer (id : Nat) : Follows w s (t.beginTransfer id) := by
  unfold State.beginTransfer
  dsimp only
  have h1 := h.onStore Store.takeWrites fun k => k
  repeat' split
  all_goals first
    | exact h1
    | exact h1.takeLine _ _ _
    | exact h1.onStore (fun st => { st with transfer := some id }) fun k => k

theorem Follows.lineWritten (m : Move) (l : SlotLine) (doc : Nat) (o : OpenPage)
    (g : w → ∀ n, t.move? m.id = some n → n.queue ≠ []) : Follows w s (t.lineWritten m l doc o) := by
  unfold State.lineWritten
  dsimp only
  have h1 := (h.onStore (Store.writeLine o (encodeLine l.dots)) fun k => Store.wf_writeLine _ k _ _).onMove m.id
    (Move.deliver false) fun x _ n e => n.deliver_steps false (g x n e)
  split
  · exact ((h1.onStore _ fun k => Store.wf_closePage _ k _ _).completeSinkPage _ _).endIfDrained _
  · exact h1

theorem Follows.writeLine (m : Move) (l : SlotLine) (g : w → ∀ n, t.move? m.id = some n → n.queue ≠ []) :
    Follows w s (t.writeLine m l) := by
  unfold State.writeLine
  dsimp only
  have h1 := (h.onStore Store.makeWrites fun k => Store.wf_makeWrites _ k).onStore
    (Store.endTransfer m.id) fun k => k
  split
  · exact h1
  · exact h1.lineWritten _ _ _ _ g

theorem Follows.acceptLine (m : Move) (coded : List Byte) (p e : Bool) (g : t.Roomy w m.id) :
    Follows w s (t.acceptLine m coded p e) := by
  unfold State.acceptLine
  dsimp only
  have h1 := h.takeSlot m.id (fun n => (n.countRepair (decodeLine (t.sourceWidth m) coded).2).enter t.headWidth
    t.freeSlot (t.sourceDensity n) (decodeLine (t.sourceWidth m) coded).1 (p || e)) g
      fun _ n _ hf hr => n.received_steps _ _ _ _ _ _ hf hr
  split
  · refine h1.onMove _ (fun n => { n with state := .draining }) fun x _ n en =>
      .flows (State.Working.onMove _ ?_ ?_ (fun n e => ?_) n en) rfl rfl
    · exact fun n => (Move.enter_same _ _ _ _ _ _).1.trans (n.countRepair_same _).1
    · exact fun n => (Move.enter_same _ _ _ _ _ _).2.trans (n.countRepair_same _).2
    · exact Move.flowing_active (g x n e).1
  · split
    · exact h1.onMoveParts _ _ (by exact fun _ => rfl)
    · exact h1

theorem Follows.lineSent (id : Nat) : Follows w s (t.lineSent id) := by
  unfold State.lineSent
  split
  · exact h
  · rename_i m e
    split
    · exact h
    · rename_i l hl
      have h1 := h.onMove id (Move.deliver false) fun _ _ n en => n.deliver_steps false fun q => by
        rw [e] at en
        cases en
        simp [q] at hl
      dsimp only
      split
      · exact h1.completeSinkPage _ _
      · exact h1

theorem Follows.linesSent (id count : Nat) (finished : Bool) :
    Follows w s (t.linesSent id count finished) := by
  unfold State.linesSent
  split
  · exact h
  · split
    · dsimp only
      have h1 := Follows.foldl (fun s (_ : Nat) => State.lineSent id s)
        (fun t _ => (Follows.refl t).lineSent id) (List.range count) h
      split
      · exact h1.endMove _ _ _ _ fun _ => rfl
      · exact h1
    · exact h

theorem Follows.feedRequest : Follows w s t.feedRequest := by
  unfold State.feedRequest
  split
  · exact h.enterJammed _
  · exact h.enterJammed _
  · exact h.onChannel .df _ fun cfg c => c.request_mild cfg _ _

theorem Follows.beginScanLine (m : Move) (g : t.Roomy w m.id)
    (k : w → ∀ n, t.move? m.id = some n → n.granted = none) : Follows w s (t.beginScanLine m) := by
  unfold State.beginScanLine
  refine Follows.onScan (Follows.onChannel (h.takeSlot _ _ g fun x n e hf hr =>
    n.grant_steps _ hf hr (k x n e)) .df _ fun cfg c => c.beginCapture_mild cfg) _ ?_
  rfl

end steps

/-! ## Every consequence -/

theorem doWhen_follows {w : Prop} {c : Bool} {f : State → State} (k : ∀ s, Follows w s (f s)) {s t : State}
    (e : s.doWhen c f = some t) : Follows w s t := by
  unfold State.doWhen at e
  split at e
  · cases e; exact k s
  · exact absurd e (by simp)

theorem mem_sortNat (n : Nat) (l : List Nat) : n ∈ sortNat l ↔ n ∈ l := by
  have insert : ∀ (a : Nat) (l : List Nat), n ∈ insertNat a l ↔ n = a ∨ n ∈ l := by
    intro a l
    induction l with
    | nil => simp [insertNat]
    | cons b l ih =>
      unfold insertNat
      split
      · simp
      · simp only [List.mem_cons, ih]; tauto
  induction l with
  | nil => simp [sortNat]
  | cons a l ih =>
    show n ∈ insertNat a (sortNat l) ↔ _
    rw [insert, List.mem_cons]
    exact or_congr_right ih

/-- The oldest move with a property has it, and stands under its name. -/
theorem State.oldestMove?_spec {s : State} (h : s.path.Ok) {p : Move → Bool} {m : Move}
    (e : s.oldestMove? p = some m) : s.move? m.id = some m ∧ p m = true := by
  unfold State.oldestMove? at e
  rw [Option.bind_eq_some_iff] at e
  obtain ⟨id, e1, e2⟩ := e
  obtain ⟨_, rfl⟩ := State.move?_mem e2
  refine ⟨e2, ?_⟩
  have hm := List.mem_of_head? e1
  rw [State.moveIds, mem_sortNat, List.mem_map] at hm
  obtain ⟨n, hn, hi⟩ := hm
  rw [List.mem_filter] at hn
  have := h.only hn.1
  rw [hi, e2] at this
  cases this
  exact hn.2

/-- The least of a list stands first once it is sorted. -/
theorem head?_sortNat (l : List Nat) (k : Nat) (h : k ∈ l) (least : ∀ n ∈ l, k ≤ n) : (sortNat l).head? = some k := by
  have insert : ∀ (a : Nat) (l : List Nat), (insertNat a l).head? = some ((l.head?.map (min a)).getD a) := by
    intro a l
    cases l with
    | nil => rfl
    | cons b l =>
      unfold insertNat
      split
      · rename_i h; simp [h]
      · rename_i h; simp; omega
  have first : ∀ l : List Nat, ∀ b, (sortNat l).head? = some b → b ∈ l ∧ ∀ n ∈ l, b ≤ n := by
    intro l
    induction l with
    | nil => intro b h; cases h
    | cons a l ih =>
      intro b e
      refine ⟨(mem_sortNat b (a :: l)).mp (List.mem_of_head? e), ?_⟩
      have e : (insertNat a (sortNat l)).head? = some b := e
      rw [insert] at e
      cases hs : (sortNat l).head? with
      | none =>
        have none (n : Nat) : n ∉ l := by
          rw [← mem_sortNat, List.head?_eq_none_iff.mp hs]
          exact List.not_mem_nil
        simp only [hs, Option.map_none, Option.getD_none, Option.some.injEq] at e
        intro n hn
        rcases List.mem_cons.mp hn with rfl | hn
        · omega
        · exact absurd hn (none n)
      | some c =>
        simp only [hs, Option.map_some, Option.getD_some, Option.some.injEq] at e
        intro n hn
        rcases List.mem_cons.mp hn with rfl | hn
        · omega
        · have := (ih c hs).2 n hn
          omega
  cases hs : (sortNat l).head? with
  | none =>
    rw [← mem_sortNat, List.head?_eq_none_iff.mp hs] at h
    cases h
  | some b =>
    have := (first l b hs).2 k h
    have := least b (first l b hs).1
    congr 1
    omega

/-- The move with a property that stands under its name and is the oldest one with it. -/
theorem State.oldestMove?_eq_some {s : State} {p : Move → Bool} {m : Move} (h : s.move? m.id = some m)
    (k : p m = true) (oldest : ∀ n ∈ s.moves, p n = true → m.id ≤ n.id) : s.oldestMove? p = some m := by
  unfold State.oldestMove? State.moveIds
  rw [head?_sortNat _ m.id]
  · exact h
  · exact List.mem_map_of_mem (List.mem_filter.mpr ⟨(State.move?_mem h).1, k⟩)
  · intro n hn
    obtain ⟨x, hx, rfl⟩ := List.mem_map.mp hn
    obtain ⟨hm, hp⟩ := List.mem_filter.mp hx
    exact oldest x hm hp

/-- There is no oldest move with a property that none has. -/
theorem State.oldestMove?_eq_none {s : State} {p : Move → Bool} (h : ∀ n ∈ s.moves, p n = false) :
    s.oldestMove? p = none := by
  have : s.moves.filter p = [] := List.filter_eq_nil_iff.mpr fun n hn => by simp [h n hn]
  unfold State.oldestMove? State.moveIds
  rw [this]
  rfl

/-- What the arbitration admits is a PENDING move whose depth fits (R123). -/
theorem State.admitted?_spec {s : State} (h : s.path.Ok) {id : Nat} (e : s.admitted? = some id) (m : Move)
    (hm : s.move? id = some m) : m.state = .pending
      ∧ m.depth + ((s.moves.filter Move.active).map Move.depth).sum ≤ 16 := by
  have first : ∀ (free : Nat) (ms : List Move) (taken : List Endpoint) (held : Nat),
      firstAdmitted free taken held ms = some id → ∃ n ∈ ms, n.id = id ∧ n.depth ≤ free := by
    intro free ms
    induction ms with
    | nil => intro _ _ e; cases e
    | cons n ms ih =>
      intro taken held e
      unfold firstAdmitted at e
      split at e
      · obtain ⟨x, hx, k⟩ := ih _ _ e
        exact ⟨x, by simp [hx], k⟩
      · split at e
        · cases e
          exact ⟨n, by simp, rfl, by omega⟩
        · obtain ⟨x, hx, k⟩ := ih _ _ e
          exact ⟨x, by simp [hx], k⟩
  obtain ⟨n, hn, rfl, hd⟩ := first _ _ _ _ e
  simp only [State.pendingMoves, List.mem_filterMap, State.moveIds, mem_sortNat, List.mem_map, List.mem_filter] at hn
  obtain ⟨_, ⟨x, ⟨hx, hp⟩, rfl⟩, hn⟩ := hn
  have e := h.only hx
  rw [hn] at e
  cases e
  rw [hn] at hm
  cases hm
  have h1 := (h.moves m hx).depth.1
  have h2 := h.depth
  simp only [State.freeDepth, Config.lineSlots] at hd
  refine ⟨by simpa using hp, ?_⟩
  show m.depth + ((s.path.moves.filter Move.active).map Move.depth).sum ≤ 16
  have h3 : (s.moves.filter Move.active) = s.path.moves.filter Move.active := rfl
  rw [h3] at hd
  omega

theorem forMove_follows {p : Move → Bool} {f : Move → State → State} {s : State}
    (k : ∀ m, (s.path.Ok → s.move? m.id = some m ∧ p m = true) → Follows s.path.Ok s (f m s)) {t : State}
    (e : s.forMove p f = some t) : Follows s.path.Ok s t := by
  unfold State.forMove at e
  rw [Option.map_eq_some_iff] at e
  obtain ⟨m, e, rfl⟩ := e
  exact k m fun h => State.oldestMove?_spec h e

/-- Each consequence is made of changes of the kind that `Follows` lists. -/
theorem consequence_follows {r : State → Option State} (hr : r ∈ consequenceRules) {s t : State}
    (e : r s = some t) : Follows s.path.Ok s t := by
  simp only [consequenceRules, List.mem_cons, List.not_mem_nil, or_false] at hr
  rcases hr with rfl | rfl | rfl | rfl | rfl | rfl | rfl | rfl | rfl | rfl | rfl | rfl | rfl | rfl
    | rfl | rfl | rfl | rfl | rfl | rfl | rfl | rfl | rfl | rfl | rfl | rfl
  · exact doWhen_follows (fun s => (Follows.refl s).onPower _) e
  · exact doWhen_follows (fun s => (Follows.refl s).startDomain _) e
  · exact doWhen_follows (fun s => (Follows.refl s).startDomain _) e
  · exact doWhen_follows (fun s => (Follows.refl s).startDomain _) e
  · unfold ruleArbitrate at e
    rw [Option.map_eq_some_iff] at e
    obtain ⟨id, e, rfl⟩ := e
    exact (Follows.refl s).enterStarting id fun _ h => State.admitted?_spec h e
  · refine doWhen_follows (fun s => ?_) e
    split
    · exact (Follows.refl s).beginLoad
    · exact (Follows.refl s).beginEject
  · exact doWhen_follows (fun s => (Follows.refl s).feedRequest) e
  · exact forMove_follows (fun m _ => (Follows.refl s).moveRequest _ _) e
  · refine forMove_follows (fun m g => (Follows.refl s).enterRunning m fun h n hn => ?_) e
    obtain ⟨g1, g2⟩ := g h
    rw [g1] at hn
    cases hn
    simp only [State.canRun, Bool.and_eq_true] at g2
    simp [Move.active, g2.1.1.1]
  · exact doWhen_follows (fun s => (Follows.refl s).onFeed _ rfl rfl rfl rfl) e
  · refine forMove_follows (fun m g => (Follows.refl s).blankPage m fun h n hn => ?_) e
    obtain ⟨g1, g2⟩ := g h
    rw [g1] at hn
    cases hn
    simp only [Bool.and_eq_true, decide_eq_true_eq] at g2
    exact ⟨g2.1.1.1, g2.2⟩
  · refine forMove_follows (fun m g => (Follows.refl s).emitHeader m fun h n hn => ?_) e
    obtain ⟨g1, g2⟩ := g h
    rw [g1] at hn
    cases hn
    simp only [Bool.and_eq_true, decide_eq_true_eq] at g2
    refine ⟨?_, g2.2⟩
    have := g2.1.1
    simp only [Move.flowing, Bool.or_eq_true, Bool.and_eq_true] at this ⊢
    tauto
  · refine forMove_follows (fun m g => ?_) e
    split
    · exact Follows.refl s
    · refine (Follows.refl s).handLine m _ _ fun h n hn => ?_
      obtain ⟨g1, g2⟩ := g h
      rw [g1] at hn
      cases hn
      simp only [Move.lineWaiting, Bool.and_eq_true, decide_eq_true_eq] at g2
      exact ⟨by simp [Move.flowing, g2.1.1.1], g2.1.2⟩
  · unfold ruleStart at e
    split at e
    · exact absurd e (by simp)
    · exact doWhen_follows (fun s => (Follows.refl s).trans
        (.df s _ (Channel.startOrder_mild _ _ _))) e
  · unfold ruleStart at e
    split at e
    · exact absurd e (by simp)
    · exact doWhen_follows (fun s => (Follows.refl s).trans
        (.rf s _ (Channel.startOrder_mild _ _ _))) e
  · unfold ruleScanGrant at e
    split at e
    · have k : ∀ m : Move, (s.path.Ok → s.move? m.id = some m
          ∧ (s.df.usedBy (.move m.id) && m.grantsScan s.scan.lineCounter) = true) → s.path.Ok →
          ∀ n, s.move? m.id = some n → (n.flowing = true ∧ 0 < n.room) ∧ n.granted = none := by
        intro m g h n hn
        obtain ⟨g1, g2⟩ := g h
        rw [g1] at hn
        cases hn
        simp only [Move.grantsScan, Bool.and_eq_true, decide_eq_true_eq, Option.isNone_iff_eq_none] at g2
        obtain ⟨_, ⟨⟨⟨⟨⟨_, h1⟩, h2⟩, _⟩, _⟩, h3⟩, _⟩ := g2
        exact ⟨⟨by simp [Move.flowing, h1], h2⟩, h3⟩
      exact forMove_follows (fun m g => (Follows.refl s).beginScanLine m (fun h n hn => (k m g h n hn).1)
        fun h n hn => (k m g h n hn).2) e
    · exact absurd e (by simp)
  · unfold ruleMeasure at e
    split at e
    · exact doWhen_follows (fun s => (Follows.refl s).onScan _ rfl) e
    · exact absurd e (by simp)
  · unfold ruleLoad at e
    split at e
    · exact absurd e (by simp)
    · split at e
      · exact absurd e (by simp)
      · exact doWhen_follows (fun s => (Follows.refl s).takeLoad _ _) e
  · unfold rulePrintGrant at e
    split at e
    · exact absurd e (by simp)
    · exact doWhen_follows (fun s => ((Follows.refl s).onChannel .rf _ fun cfg c =>
        c.beginStrobe_mild cfg).boundaryAtHead) e
  · unfold ruleCut at e
    split at e
    · exact absurd e (by simp)
    · exact doWhen_follows (fun s => (Follows.refl s).beginCut _) e
  · unfold rulePaperOut at e
    split at e
    · exact absurd e (by simp)
    · exact doWhen_follows (fun s => (Follows.refl s).actOnPaperOut _) e
  · unfold rulePrintRun at e
    split at e
    · exact absurd e (by simp)
    · exact doWhen_follows (fun s => (Follows.refl s).order _ _) e
  · unfold ruleTransfer at e
    split at e
    · rw [Option.map_eq_some_iff] at e
      obtain ⟨id, _, rfl⟩ := e
      exact (Follows.refl s).beginTransfer _
    · exact absurd e (by simp)
  · exact doWhen_follows (fun s => (Follows.refl s).onPower _) e
  · exact doWhen_follows (fun s => (Follows.refl s).cancelSleep _) e
  · exact doWhen_follows (fun s => (Follows.refl s).syncPower) e

theorem firstActing_follows {rs : List (State → Option State)}
    (hrs : ∀ r ∈ rs, r ∈ consequenceRules) {s t : State} (e : firstActing s rs = some t) :
    Follows s.path.Ok s t := by
  induction rs with
  | nil => exact absurd e (by simp [firstActing])
  | cons r rs ih =>
    unfold firstActing at e
    split at e
    · rename_i hr
      cases e
      exact consequence_follows (hrs r (by simp)) hr
    · exact ih (fun r hr => hrs r (by simp [hr])) e

theorem settleFor_follows (n : Nat) (s : State) : Follows s.path.Ok s (settleFor n s) := by
  induction n generalizing s with
  | zero => exact Follows.refl s
  | succ n ih =>
    unfold settleFor
    split
    · exact Follows.refl s
    · rename_i e
      have h1 := firstActing_follows (fun _ h => h) e
      exact h1.trans ((ih _).weaken fun h => h1.pathOk h h)

/-- Every consequence of a command or an event is made of such changes. -/
theorem State.settle_follows (s : State) : Follows s.path.Ok s s.settle := settleFor_follows 512 s

theorem Follows.settle {s t : State} (h : Follows s.path.Ok s t) : Follows s.path.Ok s t.settle :=
  h.trans (t.settle_follows.weaken fun k => h.pathOk k k)

/-- A state in which no rule acts is its own consequence. -/
theorem State.settle_of_settled (s : State) (h : s.settled = true) : s.settle = s := by
  have e : firstActing s consequenceRules = none := by
    simpa [State.settled] using h
  show settleFor (511 + 1) s = s
  unfold settleFor
  rw [e]

end Sys2Proof.Machine
end

