-- ==== Sys2Proof/Laws/Link.lean ====
section
/-! SUPPORT. The link port: what its operations do to the buffers (R3, R5, R9), and what a served command
comes to. -/

namespace Sys2Proof.Machine

/-! ## The bounds of the link -/

theorem Link.reserved_none (l : Link) (h : l.hand = none) : l.reserved = 0 := by
  unfold Link.reserved; rw [h]

theorem Link.reserved_some (l : Link) (h : Hand) (e : l.hand = some h) :
    l.reserved = if h.phase.reserves then 1 else 0 := by
  unfold Link.reserved; rw [e]

/-- All that the taking of a frame can do: an untaken frame in hand is taken, when a place is free. -/
theorem Link.take_cases (l : Link) :
    (∃ f, l.hand = some ⟨f, .untaken⟩ ∧ l.outbound.length < Config.outboundPlaces
      ∧ l.take = { l with hand := some ⟨f, .taken⟩ })
    ∨ (l.take = l ∧ ∀ f, l.hand = some ⟨f, .untaken⟩ →
      Config.outboundPlaces ≤ l.outbound.length) := by
  unfold Link.take
  split
  · rename_i f e
    split
    · rename_i k
      exact .inl ⟨f, e, k, rfl⟩
    · rename_i k
      exact .inr ⟨rfl, fun _ _ => Nat.le_of_not_lt k⟩
  · rename_i e
    exact .inr ⟨rfl, fun f hf => absurd hf (e f)⟩

/-- The taking of a frame gives a link in bounds where records and reservations are. -/
theorem Link.take_Ok (l : Link) (h1 : l.outbound.length + l.reserved ≤ Config.outboundPlaces)
    (h2 : l.waiting.isSome = true → l.hand.isSome = true) (h3 : l.parser.Ok) : l.take.Ok := by
  rcases l.take_cases with ⟨f, e, k, ht⟩ | ⟨ht, k⟩
  · rw [ht]
    refine ⟨?_, fun g hg => absurd hg (by simp), fun _ => rfl, h3⟩
    show l.outbound.length + 1 ≤ _
    omega
  · rw [ht]
    exact ⟨h1, k, h2, h3⟩

/-- A command completes: the waiting frame moves up and is taken. -/
theorem Link.complete_Ok (l : Link) (h1 : l.outbound.length ≤ Config.outboundPlaces)
    (h3 : l.parser.Ok) : l.complete.Ok := by
  refine Link.take_Ok _ ?_ (fun w => absurd w (by simp)) h3
  have hz : ({ l with hand := l.waiting.map fun f => ⟨f, .untaken⟩, waiting := none } :
      Link).reserved = 0 := by
    unfold Link.reserved
    cases l.waiting <;> rfl
  rw [hz]
  exact h1

theorem Link.Ok.parserTo {l : Link} (h : l.Ok) (p : Parser) (k : p.Ok) :
    ({ l with parser := p } : Link).Ok := ⟨h.places, h.untaken, h.order, k⟩

theorem Link.Ok.flags {l : Link} (h : l.Ok) (f : Sticky) : ({ l with sticky := f } : Link).Ok :=
  ⟨h.places, h.untaken, h.order, h.parser⟩

theorem Link.Ok.marked {l : Link} (h : l.Ok) (b : Bool) : ({ l with awaitMark := b } : Link).Ok :=
  ⟨h.places, h.untaken, h.order, h.parser⟩

/-- A reply takes the place that was reserved for it. -/
theorem Link.Ok.answered {l : Link} (h : l.Ok) (x : Hand) (e : l.hand = some x)
    (k : x.phase.reserves = true) (r : OutRecord) :
    (Link.complete { l with outbound := l.outbound ++ [r] }).Ok := by
  have hp := h.places
  rw [l.reserved_some x e, if_pos k] at hp
  exact Link.complete_Ok _ (by simpa using hp) h.parser

theorem Link.answerLate_Ok (p : List Byte) (l : Link) (h : l.Ok) : (l.answerLate p).Ok := by
  unfold Link.answerLate
  split
  · rename_i x e
    split
    · rename_i k
      exact h.answered x e (by rw [k]; rfl) _
    · exact h
  · exact h

theorem Link.orderRate_Ok (rate : Rate) (l : Link) (h : l.Ok) (x : Hand) (e : l.hand = some x)
    (k : x.phase.reserves = true) : (l.orderRate rate).Ok := by
  have hp := h.places
  rw [l.reserved_some x e, if_pos k] at hp
  unfold Link.orderRate
  rw [e]
  refine ⟨?_, fun f hf => absurd hf (by simp), fun _ => rfl, h.parser⟩
  simpa [Link.reserved, HandPhase.reserves] using hp

theorem Link.dropSent_Ok (l : Link) (h : l.Ok) : l.dropSent.Ok := by
  refine Link.take_Ok _ ?_ h.order h.parser
  have := List.length_eraseP_le (p := l.eligible) (l := l.outbound)
  have hp := h.places
  show (l.outbound.eraseP l.eligible).length + l.reserved ≤ _
  omega

theorem Link.applyRate_Ok (l : Link) (h : l.Ok) : l.applyRate.Ok :=
  Link.complete_Ok _ (Nat.le_trans (Nat.le_add_right _ _) h.places) h.parser

theorem Link.broken_Ok (l : Link) : l.broken.Ok := by
  refine Link.take_Ok _ ?_ (fun w => absurd w (by simp)) trivial
  show 0 + Link.reserved _ ≤ 16
  unfold Link.reserved
  split
  · split <;> omega
  · omega

/-- A frame that has been taken is handed to its block in the place it holds. -/
theorem Link.handOver_Ok (f : Frame) (l : Link) (h : l.Ok) (e : l.hand = some ⟨f, .taken⟩) :
    (l.handOver f).Ok := by
  have hp := h.places
  rw [l.reserved_some _ e] at hp
  exact ⟨hp, fun g hg => absurd hg (by simp [Link.handOver]), fun _ => rfl, h.parser⟩

/-! ## The invariant under the link's operations -/

section inv

variable {s : State} (h : s.Inv)
include h

theorem State.Inv.onLink (f : Link → Link) (k : (f s.link).Ok) : (s.onLink f).Inv :=
  ⟨h.settings, k, h.df, h.rf, h.path, h.memory⟩

theorem State.Inv.linkFault (r : LinkFaultReason) : (s.linkFault r).Inv :=
  (Follows.report _ _ _).inv (h.onLink _ (h.link.flags _))

theorem State.Inv.setParser (p : Parser) (k : p.Ok) : (s.setParser p).Inv :=
  h.onLink _ (h.link.parserTo p k)

theorem State.Inv.discardPartial (r : LinkFaultReason) : (s.discardPartial r).Inv :=
  (h.setParser .hunt trivial).linkFault r

theorem State.Inv.answerLate (p : List Byte) : (s.answerLate p).Inv :=
  h.onLink _ (Link.answerLate_Ok p _ h.link)

theorem State.Inv.endShading (r : Result) : (s.endShading r).Inv :=
  ((Follows.refl s).onScan _ rfl |>.inv h).answerLate _

theorem State.Inv.headerRead (type tag lo hi : Byte) : (s.headerRead type tag lo hi).Inv := by
  unfold State.headerRead
  dsimp only
  split
  · exact (h.setParser .hunt trivial).linkFault _
  · split
    · exact h.setParser _ (Nat.zero_le _)
    · refine h.setParser _ ⟨?_, ?_⟩
      · show 0 < _; omega
      · omega

end inv

/-! ## A command in hand, and a reply queued -/

section inHand

variable (f : Frame) (s : State)

@[simp] theorem State.inHand_cfg : (s.inHand f).cfg = s.cfg := rfl
@[simp] theorem State.inHand_straps : (s.inHand f).straps = s.straps := rfl
@[simp] theorem State.inHand_channel (ch : ChannelId) : (s.inHand f).channel ch = s.channel ch := by
  cases ch <;> rfl
@[simp] theorem State.inHand_channelCfg (ch : ChannelId) :
    (s.inHand f).channelCfg ch = s.channelCfg ch := by cases ch <;> rfl
@[simp] theorem State.inHand_feed : (s.inHand f).feed = s.feed := rfl
@[simp] theorem State.inHand_scan : (s.inHand f).scan = s.scan := rfl
@[simp] theorem State.inHand_print : (s.inHand f).print = s.print := rfl
@[simp] theorem State.inHand_path : (s.inHand f).path = s.path := rfl
@[simp] theorem State.inHand_store : (s.inHand f).store = s.store := rfl
@[simp] theorem State.inHand_power : (s.inHand f).power = s.power := rfl
@[simp] theorem State.inHand_inputs : (s.inHand f).inputs = s.inputs := rfl
@[simp] theorem State.inHand_startup : (s.inHand f).startup = s.startup := rfl
@[simp] theorem State.inHand_resetPhase : (s.inHand f).resetPhase = s.resetPhase := rfl

end inHand

/-! ## A command served at once -/

section heard

variable {s : State} (hs : s.Hears) (f : Frame)
include hs

theorem State.Hears.heard (g : State → State) : s.heard g = g s := by
  unfold State.heard State.causeTaken State.cancelSleep
  simp [hs.held, hs.awake, hs.entry, hs.marked]

/-- A frame that arrives whole is taken at once, checked and answered. -/
theorem State.Hears.arrive (hl : f.payload.length ≤ Config.maxPayload) :
    s.arriveFrame f = (s.inHand f).give f ((s.inHand f).judge f) := by
  unfold State.arriveFrame
  rw [if_pos ⟨hs.hunting, hl⟩]
  unfold State.offer
  rw [hs.hand]
  have e : (s.onLink fun l => { l with hand := some ⟨f, .untaken⟩ }.take)
      = s.onLink fun l => { l with hand := some ⟨f, .taken⟩ } := by
    have k : Link.take { s.link with hand := some ⟨f, .untaken⟩ }
        = { s.link with hand := some ⟨f, .taken⟩ } := if_pos hs.place
    exact congrArg (fun l => { s with link := l }) k
  dsimp only
  rw [e]
  rfl

/-- A reply at once is the reply at the tail of the queue, then the effect. -/
theorem State.Hears.replies (kind : RecordKind) (p : List Byte) (e : State → State) :
    (s.inHand f).give f ⟨kind, some p, e⟩ = e (s.queued (replyRecord kind f p)) := by
  have h1 : Link.answer kind f p (s.link.handOver f)
      = { s.link with outbound := s.link.outbound ++ [replyRecord kind f p] } := by
    unfold Link.answer Link.complete Link.take Link.handOver
    simp [hs.hand, hs.waiting]
  show e (State.onLink (Link.answer kind f p) (s.inHand f)) = _
  congr 1
  unfold State.queued State.inHand State.onLink
  dsimp only
  rw [h1]

end heard

section served

variable {s : State} (hs : s.Serves) (i : Instr) (f : Frame)
include hs

/-- With the link READY and start-up over, the owning block answers. -/
theorem State.Serves.judged (ht : f.type ∈ commandTypes) (hc : f.command? = some i) :
    (s.inHand f).judge f = answerOf i (s.inHand f) := by
  unfold State.judge
  rw [if_neg (by simp [State.inHand, Link.handOver, hs.ready]), if_neg (by simp [ht]), hc]
  simp [hs.startup]

/-- A served command comes to the answer of its block. -/
theorem State.Serves.received (hf : i.frame? = some f) (hl : f.payload.length ≤ Config.maxPayload)
    (ht : f.type ∈ commandTypes) (hc : f.command? = some i) :
    s.receiveCommand i = (s.inHand f).give f (answerOf i (s.inHand f)) := by
  unfold State.receiveCommand
  rw [hf]
  dsimp only
  rw [hs.heard, hs.arrive f hl, hs.judged i f ht hc]

end served

end Sys2Proof.Machine
end

