-- ==== Sys2Proof/Laws/Invariant.lean ====
section
/-! SUPPORT. What each block's answer and each event does to the invariant: settings in range, buffers in
bounds, step periods in bounds, the move table and the line slots in bounds, page memory in its canonical form. -/

namespace Sys2Proof.Machine

/-! ## Settings (R23 to R25, R62, R75, R95, R152, R179) -/

theorem byte_le (b : Byte) : b.toNat ≤ 255 := by have := b.isLt; omega
theorem word_le (w : Word16) : w.toNat ≤ 65535 := by have := w.isLt; omega

theorem State.Inv.withCfg {s : State} (h : s.Inv) (c : Settings) (k : c.Valid s.straps) :
    ({ s with cfg := c } : State).Inv := ⟨k, h.link, h.df, h.rf, h.path, h.memory⟩

theorem State.Inv.onChannelCfg {s : State} (h : s.Inv) (ch : ChannelId)
    (f : ChannelSettings → ChannelSettings) (k : (s.channelCfg ch).Valid → (f (s.channelCfg ch)).Valid) :
    (s.onChannelCfg ch f).Inv := by
  cases ch
  · exact h.withCfg _ ⟨k h.settings.1, h.settings.2⟩
  · exact h.withCfg _ ⟨h.settings.1, k h.settings.2.1, h.settings.2.2⟩

theorem ChannelSettings.setProfile_Valid (c : ChannelSettings) (n : Nat) (p : Profile) (hp : p.Valid)
    (h : c.Valid) : (c.setProfile n p).Valid := by
  refine ⟨by simpa [ChannelSettings.setProfile] using h.1, ?_, h.2.2⟩
  intro q hq
  rcases List.mem_or_eq_of_mem_set hq with hq | rfl
  · exact h.2.1 q hq
  · exact hp

theorem ChannelSettings.setTiming_Valid (c : ChannelSettings) (d : Density) (t : LineTiming)
    (ht : t.Valid c.pullIn) (h : c.Valid) : (c.setTiming d t).Valid := by
  obtain ⟨h1, h2, h3, h4, h5, h6⟩ := h
  cases d
  · exact ⟨h1, h2, ht, h4, h5, h6⟩
  · exact ⟨h1, h2, h3, ht, h5, h6⟩
  · exact ⟨h1, h2, h3, h4, ht, h6⟩

theorem LineTiming.clamp_Valid (a b : Nat) (t : LineTiming) (hb : b ≤ 65535) (h : t.Valid a) :
    (t.clamp b).Valid b := by
  obtain ⟨_, h2, h3⟩ := h
  exact ⟨Nat.le_max_right _ _, by simp only [LineTiming.clamp]; omega, h3⟩

theorem ChannelSettings.setChannel_Valid (c : ChannelSettings) (i : Bool) (p k : Nat) (h1 : 400 ≤ p)
    (h2 : p ≤ 65535) (h3 : k ≤ 255) (h : c.Valid) : (c.setChannel i p k).Valid :=
  ⟨h.1, h.2.1, LineTiming.clamp_Valid _ _ _ h2 h.2.2.1, LineTiming.clamp_Valid _ _ _ h2 h.2.2.2.1,
    LineTiming.clamp_Valid _ _ _ h2 h.2.2.2.2.1, h1, h2, h3⟩

/-- The power-on settings are in range. -/
theorem Settings.powerOn_Valid (straps : Straps) : (Settings.powerOn straps).Valid straps := by
  have hp : (PrintSettings.powerOn straps).Valid (Config.headWidth straps) := by
    unfold PrintSettings.powerOn Config.headWidth
    split <;> decide
  exact ⟨(by decide : ChannelSettings.dfPowerOn.Valid), (by decide : ChannelSettings.rfPowerOn.Valid),
    (by decide : FeedSettings.powerOn.Valid), (by decide : ScanSettings.powerOn.Valid), hp,
    (by decide : 0 ≤ 4), (by decide : 60 ≤ 255), (by decide : 12 ≤ 255)⟩

theorem ChannelSettings.powerOn_Ok : Channel.powerOn.Ok := ⟨rfl, rfl⟩

/-- Every block in its power-on state, over any page memory in its canonical form. -/
theorem State.powerOn_Inv (p : List Instr) (straps : Straps) (i : Inputs) (m : PageMemory)
    (hm : m.wf = true) : (State.powerOn p straps i m).Inv :=
  ⟨Settings.powerOn_Valid straps,
    ⟨(by decide : (0 : Nat) + 0 ≤ 16), fun _ w => absurd w (by simp [State.powerOn, Link.powerOn]),
      fun w => absurd w (by simp [State.powerOn, Link.powerOn]), trivial⟩,
    ⟨rfl, rfl⟩, ⟨rfl, rfl⟩, Path.powerOn_Ok, hm⟩

/-! ## The sensors -/

theorem State.Inv.onFeed {s : State} (h : s.Inv) (f : Feed → Feed) : (s.onFeed f).Inv :=
  ⟨h.settings, h.link, h.df, h.rf, h.path, h.memory⟩

theorem State.Inv.onScan {s : State} (h : s.Inv) (f : Scan → Scan) : (s.onScan f).Inv :=
  ⟨h.settings, h.link, h.df, h.rf, h.path, h.memory⟩

theorem State.Inv.withInputs {s : State} (h : s.Inv) (i : Inputs) :
    ({ s with inputs := i } : State).Inv := ⟨h.settings, h.link, h.df, h.rf, h.path, h.memory⟩

theorem State.Inv.formReadings {s : State} (h : s.Inv) : s.formReadings.Inv :=
  (((h.onFeed _).onFeed _).onFeed _).onFeed _

theorem State.Inv.onStore {s : State} (h : s.Inv) (f : Store → Store)
    (k : s.store.memory.wf = true → (f s.store).memory.wf = true) : (s.onStore f).Inv :=
  ⟨h.settings, h.link, h.df, h.rf, h.path, k h.memory⟩

theorem State.Inv.settle {s : State} (h : s.Inv) : s.settle.Inv := s.settle_follows.inv h

theorem State.Inv.follows {s t : State} (h : s.Inv) (k : Follows s.path.Ok s t) : t.Inv := k.inv h

/-! ## The answers of the blocks -/

/-- The effect of an answer keeps the invariant, on any state with the settings and straps that the answer
was made from, and with the command in hand where the answer is late. -/
def Answer.Keeps (a : Answer) (s : State) : Prop :=
  ∀ t : State, t.cfg = s.cfg → t.straps = s.straps → t.path = s.path → (a.reply = none → t = s) → t.Inv →
    (a.effect t).Inv

theorem Answer.keeps_refuse (r : Result) (s : State) : (Answer.refuse r).Keeps s :=
  fun _ _ _ _ _ h => h

theorem Answer.keeps_ok (p : List Byte) (e : State → State) (s : State)
    (h : ∀ t : State, t.cfg = s.cfg → t.straps = s.straps → t.path = s.path → t.Inv → (e t).Inv) :
    (Answer.ok p e).Keeps s := fun t hc hs hp _ ht => h t hc hs hp ht

theorem Answer.keeps_late (e : State → State) (s : State) (h : s.Inv → (e s).Inv) :
    (Answer.late e).Keeps s := fun t _ _ _ hl ht => by
  have : t = s := hl rfl
  subst this
  exact h ht

section answers

variable (s : State)

theorem answerSetLink_keeps (code rsv : Byte) (x : Hand) (e : s.link.hand = some x)
    (k : x.phase.reserves = true) : (answerSetLink code rsv).Keeps s := by
  unfold answerSetLink
  split
  · exact Answer.keeps_refuse _ _
  · split
    · exact Answer.keeps_refuse _ _
    · exact Answer.keeps_late _ _ fun h => h.onLink _ (Link.orderRate_Ok _ _ h.link x e k)

theorem answerGetStatus_keeps (clear rsv : Byte) : (answerGetStatus clear rsv s).Keeps s := by
  unfold answerGetStatus
  split
  · exact Answer.keeps_refuse _ _
  · split
    · exact Answer.keeps_refuse _ _
    · refine Answer.keeps_ok _ _ _ fun t _ _ _ h => ?_
      split
      · exact h.onLink _ (h.link.flags _)
      · exact h

theorem answerGetIdentity_keeps (rsv : Byte) : (answerGetIdentity rsv s).Keeps s := by
  unfold answerGetIdentity
  split
  · exact Answer.keeps_refuse _ _
  · exact Answer.keeps_ok _ _ _ fun _ _ _ _ h => h

theorem answerSetPower_keeps (idle auto warm rsv : Byte) :
    (answerSetPower idle auto warm rsv).Keeps s := by
  unfold answerSetPower
  split
  · exact Answer.keeps_refuse _ _
  · refine Answer.keeps_ok _ _ _ fun t _ _ _ h => ?_
    obtain ⟨h1, h2, h3, h4, h5, h6, _⟩ := h.settings
    exact (Follows.refl _).restartIdle.inv
      (h.withCfg _ ⟨h1, h2, h3, h4, h5, h6, byte_le idle, byte_le warm⟩)

theorem answerDomain_keeps (dom action rsv : Byte) : (answerDomain dom action rsv s).Keeps s := by
  unfold answerDomain
  split
  · split
    · exact Answer.keeps_refuse _ _
    · split
      · exact Answer.keeps_refuse _ _
      · split
        · refine Answer.keeps_ok _ _ _ fun t _ _ _ h => ?_
          unfold State.domainOn
          split
          · exact ((Follows.refl t).startDomain _).settle.inv h
          · exact ((Follows.refl t).startDomain _).settle.inv h
          · exact h
        · refine Answer.keeps_ok _ _ _ fun t _ _ _ h => ?_
          unfold State.domainOffCommand
          split
          · exact h
          · exact ((Follows.refl t).domainOff _).settle.inv h
  · exact Answer.keeps_refuse _ _

theorem answerSleep_keeps (rsv : Byte) : (answerSleep rsv s).Keeps s := by
  unfold answerSleep
  split
  · exact Answer.keeps_refuse _ _
  · split
    · exact Answer.keeps_ok _ _ _ fun t _ _ _ h => (Follows.refl t).beginSleep.settle.inv h
    · exact Answer.keeps_refuse _ _

theorem State.abortAll_follows {w : Prop} : Follows w s s.abortAll :=
  Follows.foldl (fun s id => State.endMove id .aborted none true s)
    (fun t _ => (Follows.refl t).endMove _ _ _ _ fun _ => rfl) _ (Follows.refl s)

theorem State.cancelWork_follows {w : Prop} : Follows w s s.cancelWork := by
  unfold State.cancelWork
  exact (((Follows.refl s).onScan _ rfl).onPrint _).onFeed _ rfl rfl rfl rfl

theorem State.resetChannels_follows {w : Prop} : Follows w s s.resetChannels := by
  unfold State.resetChannels
  exact ((Follows.refl s).onChannel .df _ fun cfg c => c.resetStop_mild cfg _).onChannel .rf _
    fun cfg c => c.resetStop_mild cfg _

theorem State.Inv.beginReset (full : Bool) {s : State} (h : s.Inv) : (s.beginReset full).Inv := by
  have h1 := (((State.abortAll_follows s).trans (State.cancelWork_follows _)).trans
    (State.resetChannels_follows _)).inv h
  exact State.Inv.settle ⟨h1.settings, h1.link, h1.df, h1.rf, h1.path, h1.memory⟩

theorem answerReset_keeps (kind rsv : Byte) : (answerReset kind rsv).Keeps s := by
  unfold answerReset
  split
  · exact Answer.keeps_refuse _ _
  · split
    · exact Answer.keeps_refuse _ _
    · exact Answer.keeps_late _ _ fun h => h.beginReset _

theorem answerSetProfile_keeps (ch prof : Byte) (ws wt f d k16 rsv : Word16) :
    (answerSetProfile ch prof ws wt f d k16 rsv).Keeps s := by
  unfold answerSetProfile
  split
  · exact Answer.keeps_refuse _ _
  · split
    · rename_i hk
      refine Answer.keeps_ok _ _ _ fun t _ _ _ h => h.onChannelCfg _ _ ?_
      simp only [profileOk, fractionOk, Bool.and_eq_true, decide_eq_true_eq] at hk
      obtain ⟨⟨⟨⟨⟨_, h1⟩, h2⟩, ⟨⟨h3, h4⟩, h5⟩⟩, h6⟩, _⟩ := hk
      exact ChannelSettings.setProfile_Valid _ _ _
        ⟨⟨h1, word_le ws⟩, ⟨h2, word_le wt⟩, ⟨h3, h4, h5⟩, h6⟩
    · exact Answer.keeps_refuse _ _

theorem answerSetLineTiming_keeps (ch dens : Byte) (w f d rsv : Word16) :
    (answerSetLineTiming ch dens w f d rsv s).Keeps s := by
  unfold answerSetLineTiming
  split
  · split
    · rename_i c v _ _ hk
      refine Answer.keeps_ok _ _ _ fun t hc _ _ h => h.onChannelCfg _ _ fun hv => ?_
      have e : t.channelCfg c = s.channelCfg c := by cases c <;> simp [State.channelCfg, hc]
      obtain ⟨h1, h2, _⟩ := hk
      simp only [fractionOk, Bool.and_eq_true, decide_eq_true_eq] at h2
      obtain ⟨⟨h3, h4⟩, h5⟩ := h2
      have hp : (s.channelCfg c).pullIn ≤ 65535 := e ▸ hv.2.2.2.2.2.2.1
      refine ChannelSettings.setTiming_Valid _ _ _ ?_ hv
      rw [e]
      exact LineTiming.clamp_Valid 0 _ _ hp
        ⟨Nat.zero_le _, word_le w, h3, h4, h5⟩
    · exact Answer.keeps_refuse _ _
  · exact Answer.keeps_refuse _ _

theorem answerSetChannel_keeps (ch inv : Byte) (pullIn : Word16) (hold rsv : Byte) :
    (answerSetChannel ch inv pullIn hold rsv s).Keeps s := by
  unfold answerSetChannel
  split
  · split
    · exact Answer.keeps_refuse _ _
    · rename_i hk
      split
      · exact Answer.keeps_refuse _ _
      · exact Answer.keeps_ok _ _ _ fun t _ _ _ h => h.onChannelCfg _ _
          (ChannelSettings.setChannel_Valid _ _ _ _ (by omega) (word_le pullIn) (byte_le hold))
  · exact Answer.keeps_refuse _ _

theorem answerMoveSteps_keeps (ch prof dir rsv : Byte) (dist : Word16) :
    (answerMoveSteps ch prof dir rsv dist s).Keeps s := by
  unfold answerMoveSteps
  split
  · repeat' split
    all_goals first
      | exact Answer.keeps_refuse _ _
      | exact Answer.keeps_ok _ _ _ fun t _ _ _ h =>
          ((Follows.refl t).onChannel _ _ fun cfg c => c.hostMove_mild cfg _).settle.inv h
  · exact Answer.keeps_refuse _ _

theorem answerStopChannel_keeps (ch rsv : Byte) : (answerStopChannel ch rsv s).Keeps s := by
  unfold answerStopChannel
  repeat' split
  all_goals first
    | exact Answer.keeps_refuse _ _
    | exact Answer.keeps_ok _ _ _ fun t _ _ _ h =>
        ((Follows.refl t).onChannel _ _ fun cfg c => c.hostStop_mild cfg).settle.inv h

theorem answerClearFault_keeps (ch rsv : Byte) : (answerClearFault ch rsv s).Keeps s := by
  unfold answerClearFault
  repeat' split
  all_goals first
    | exact Answer.keeps_refuse _ _
    | exact Answer.keeps_ok _ _ _ fun t _ _ _ h =>
        ((Follows.refl t).onChannel _ _ fun cfg c => c.clearFault_mild cfg).settle.inv h

theorem answerSetFeed_keeps (pE pS pP pC dE dS dP dC settle rsv : Byte)
    (preload offset eject : Word16) :
    (answerSetFeed pE pS pP pC dE dS dP dC settle rsv preload offset eject).Keeps s := by
  unfold answerSetFeed
  split
  · split
    · exact Answer.keeps_refuse _ _
    · rename_i hk
      simp only [not_or] at hk
      refine Answer.keeps_ok _ _ _ fun t _ _ _ h => ?_
      obtain ⟨h1, h2, _, h4, h5, h6, h7, h8⟩ := h.settings
      refine State.Inv.formReadings (h.withCfg _ ⟨h1, h2, ?_, h4, h5, h6, h7, h8⟩)
      have b := byte_le
      have w := word_le
      exact ⟨⟨by dsimp only; omega, b _⟩, ⟨by dsimp only; omega, b _⟩, ⟨by dsimp only; omega, b _⟩,
        ⟨by dsimp only; omega, b _⟩, b _, ⟨by dsimp only; omega, w _⟩, by dsimp only; omega,
        ⟨by dsimp only; omega, w _⟩⟩
  · exact Answer.keeps_refuse _ _

theorem answerEject_keeps (rsv : Byte) : (answerEject rsv s).Keeps s := by
  unfold answerEject
  repeat' split
  all_goals first
    | exact Answer.keeps_refuse _ _
    | exact Answer.keeps_ok _ _ _ fun t _ _ _ h => ((Follows.refl t).setDoc _ _ _).settle.inv h

theorem answerSetScan_keeps (mode t b inv : Byte) (exposure rsv : Word16) :
    (answerSetScan mode t b inv exposure rsv s).Keeps s := by
  unfold answerSetScan
  split
  · split
    · exact Answer.keeps_refuse _ _
    · rename_i hk
      simp only [not_or] at hk
      split
      · exact Answer.keeps_refuse _ _
      · refine Answer.keeps_ok _ _ _ fun t _ _ _ h => ?_
        obtain ⟨h1, h2, h3, _, h5, h6, h7, h8⟩ := h.settings
        exact h.withCfg _ ⟨h1, h2, h3,
          ⟨⟨by dsimp only; omega, by dsimp only; omega⟩, by dsimp only; omega, by dsimp only; omega,
            by dsimp only; omega⟩, h5, h6, h7, h8⟩
  · exact Answer.keeps_refuse _ _

theorem State.Inv.beginShading {s : State} (h : s.Inv) : s.beginShading.Inv := (h.onScan _).settle

theorem answerShade_keeps (rsv : Byte) : (answerShade rsv s).Keeps s := by
  unfold answerShade
  repeat' split
  all_goals first
    | exact Answer.keeps_refuse _ _
    | exact Answer.keeps_late _ _ fun h => h.beginShading

theorem answerSetPrint_keeps (ts tg m margin pulse rsv : Word16) :
    (answerSetPrint ts tg m margin pulse rsv s).Keeps s := by
  unfold answerSetPrint
  split
  · exact Answer.keeps_refuse _ _
  · rename_i hk
    simp only [not_or] at hk
    split
    · exact Answer.keeps_refuse _ _
    · refine Answer.keeps_ok _ _ _ fun t _ hst _ h => ?_
      obtain ⟨h1, h2, h3, h4, _, h6, h7, h8⟩ := h.settings
      refine h.withCfg _ ⟨h1, h2, h3, h4, ?_, h6, h7, h8⟩
      have e : Config.headWidth t.straps = s.headWidth := by rw [hst]; rfl
      rw [e]
      exact ⟨⟨by dsimp only; omega, by dsimp only; omega⟩, by dsimp only; omega,
        ⟨by dsimp only; omega, by dsimp only; omega⟩, by dsimp only; omega, by dsimp only; omega,
        by dsimp only; omega⟩

/-- A request that the fields make has a depth in range (R121 case 1). -/
theorem requestOf_depth {source sink depth target reduce header fallback close f8 f9 : Byte} {f10 : Word16}
    {f12 f13 : Byte} {f14 : Word16} {f16 f17 : Byte} {r : MoveRequest}
    (e : requestOf source sink depth target reduce header fallback close f8 f9 f10 f12 f13 f14 f16 f17 = some r) :
    2 ≤ r.depth ∧ r.depth ≤ 12 := by
  unfold requestOf at e
  split at e
  · split at e
    · split at e
      · rename_i k
        cases e
        exact ⟨k.1, k.2.1⟩
      · cases e
    · cases e
  · cases e

theorem answerStartMove_keeps (source sink depth target reduce header fallback close f8 f9 : Byte)
    (f10 : Word16) (f12 f13 : Byte) (f14 : Word16) (f16 f17 : Byte) :
    (answerStartMove source sink depth target reduce header fallback close f8 f9 f10 f12 f13 f14 f16
      f17 s).Keeps s := by
  unfold answerStartMove
  split
  · exact Answer.keeps_refuse _ _
  · rename_i r e
    split
    · exact Answer.keeps_refuse _ _
    · exact Answer.keeps_ok _ _ _ fun t _ _ _ h =>
        ((Follows.refl t).onPath (Path.accept r) fun _ k => k.accept r (requestOf_depth e)).settle.inv h

theorem answerAbortMove_keeps (num rsv : Byte) : (answerAbortMove num rsv s).Keeps s := by
  unfold answerAbortMove
  repeat' split
  all_goals first
    | exact Answer.keeps_refuse _ _
    | exact Answer.keeps_ok _ _ _ fun t _ _ _ h => ((Follows.refl t).endMove _ _ _ _ fun _ => rfl).settle.inv h

theorem answerMoveStatus_keeps (num rsv : Byte) : (answerMoveStatus num rsv s).Keeps s := by
  unfold answerMoveStatus
  split
  · exact Answer.keeps_refuse _ _
  · split
    · exact Answer.keeps_refuse _ _
    · refine Answer.keeps_ok _ _ _ fun t _ _ _ h => ?_
      split
      · exact h
      · exact ((Follows.refl t).onPath _ fun _ k => k.clear _).inv h

theorem answerLineData_keeps (num endPage endMove rsv : Byte) (coded : List Byte) :
    (answerLineData num endPage endMove rsv coded s).Keeps s := by
  unfold answerLineData
  split
  · exact fun _ _ _ _ _ h => h
  · rename_i m e
    repeat' split
    all_goals first
      | exact fun _ _ _ _ _ h => h
      | skip
    rename_i hr _
    refine Answer.keeps_ok _ _ _ fun t _ _ hp h => ?_
    simp only [not_or, not_not] at hr
    refine ((Follows.refl t).acceptLine m _ _ _ fun k n hn => ?_).settle.inv h
    have hm : m ∈ t.moves := by
      show m ∈ t.path.moves
      rw [hp]
      exact List.mem_of_find?_eq_some e
    rw [k.only hm] at hn
    cases hn
    exact ⟨by simp [Move.flowing, hr.1], Nat.pos_of_ne_zero hr.2.1⟩

theorem answerReadLines_keeps (num k rsv : Byte) : (answerReadLines num k rsv s).Keeps s := by
  unfold answerReadLines
  repeat' split
  all_goals first
    | exact Answer.keeps_refuse _ _
    | exact fun t _ _ _ _ h =>
        ((Follows.refl t).onMoveParts _ _ fun m => m.markSending_shape _).inv h

theorem answerLoadHeader_keeps (width rsv : Word16) (code : List Byte) :
    (answerLoadHeader width rsv code s).Keeps s := by
  unfold answerLoadHeader
  repeat' split
  all_goals first
    | exact Answer.keeps_refuse _ _
    | exact Answer.keeps_ok _ _ _ fun t _ _ _ h => ((Follows.refl t).onPath _ fun _ k => k.same rfl rfl).inv h

theorem answerCreateDoc_keeps (cls auto rsv : Byte) : (answerCreateDoc cls auto rsv s).Keeps s := by
  unfold answerCreateDoc
  repeat' split
  all_goals first
    | exact Answer.keeps_refuse _ _
    | exact Answer.keeps_ok _ _ _ fun t _ _ _ h => h.onStore _ fun k => k

theorem answerCloseDoc_keeps (doc : Word16) (rsv : Byte) : (answerCloseDoc doc rsv s).Keeps s := by
  unfold answerCloseDoc
  repeat' split
  all_goals first
    | exact Answer.keeps_refuse _ _
    | refine Answer.keeps_ok _ _ _ fun t _ _ _ h => ?_
      unfold State.closeDoc
      split
      · exact h
      · exact ((Follows.refl t).onStore _ fun k => Store.wf_close _ k _).testAutoDelete _ |>.inv h

theorem answerDeleteDoc_keeps (doc : Word16) (rsv : Byte) : (answerDeleteDoc doc rsv s).Keeps s := by
  unfold answerDeleteDoc
  repeat' split
  all_goals first
    | exact Answer.keeps_refuse _ _
    | exact Answer.keeps_ok _ _ _ fun t _ _ _ h => h.onStore _ fun k => Store.wf_delete _ k _

theorem answerReleaseDoc_keeps (doc : Word16) (rsv : Byte) :
    (answerReleaseDoc doc rsv s).Keeps s := by
  unfold answerReleaseDoc
  repeat' split
  all_goals first
    | exact Answer.keeps_refuse _ _
    | refine Answer.keeps_ok _ _ _ fun t _ _ _ h => ?_
      unfold State.releaseDoc
      split
      · exact ((Follows.refl t).onStore _ fun k => Store.wf_clearHold _ k _).testAutoDelete _ |>.inv h
      · exact h

theorem answerListDocs_keeps (start rsv : Byte) : (answerListDocs start rsv s).Keeps s := by
  unfold answerListDocs
  split
  · exact Answer.keeps_refuse _ _
  · exact fun _ _ _ _ _ h => h

theorem answerDocInfo_keeps (doc : Word16) (start rsv : Byte) :
    (answerDocInfo doc start rsv s).Keeps s := by
  unfold answerDocInfo
  repeat' split
  all_goals first
    | exact Answer.keeps_refuse _ _
    | exact fun _ _ _ _ _ h => h

theorem answerSetReserve_keeps (code rsv : Byte) : (answerSetReserve code rsv s).Keeps s := by
  unfold answerSetReserve
  split
  · exact Answer.keeps_refuse _ _
  · rename_i hk
    simp only [not_or] at hk
    refine Answer.keeps_ok _ _ _ fun t _ _ _ h => ?_
    obtain ⟨h1, h2, h3, h4, h5, _, h7, h8⟩ := h.settings
    exact h.withCfg _ ⟨h1, h2, h3, h4, h5, by dsimp only; omega, h7, h8⟩

theorem answerCheckStore_keeps (rsv : Byte) : (answerCheckStore rsv s).Keeps s := by
  unfold answerCheckStore
  repeat' split
  all_goals first
    | exact Answer.keeps_refuse _ _
    | exact Answer.keeps_late _ _ fun h => (h.onStore Store.startCheck fun k => Store.wf_flush _ k).settle

/-- Every block's answer keeps the invariant. -/
theorem answerOf_keeps (i : Instr) (x : Hand) (e : s.link.hand = some x) (k : x.phase.reserves = true) :
    (answerOf i s).Keeps s := by
  unfold answerOf
  split
  · exact answerSetLink_keeps s _ _ x e k
  · exact answerGetStatus_keeps s _ _
  · exact answerGetIdentity_keeps s _
  · exact answerSetPower_keeps s _ _ _ _
  · exact answerDomain_keeps s _ _ _
  · exact answerSleep_keeps s _
  · exact answerReset_keeps s _ _
  · exact answerSetProfile_keeps s _ _ _ _ _ _ _ _
  · exact answerSetLineTiming_keeps s _ _ _ _ _ _
  · exact answerSetChannel_keeps s _ _ _ _ _
  · exact answerMoveSteps_keeps s _ _ _ _ _
  · exact answerStopChannel_keeps s _ _
  · exact answerClearFault_keeps s _ _
  · exact answerSetFeed_keeps s _ _ _ _ _ _ _ _ _ _ _ _ _
  · exact answerEject_keeps s _
  · exact answerSetScan_keeps s _ _ _ _ _ _
  · exact answerShade_keeps s _
  · exact answerSetPrint_keeps s _ _ _ _ _ _
  · exact answerStartMove_keeps s _ _ _ _ _ _ _ _ _ _ _ _ _ _ _ _
  · exact answerAbortMove_keeps s _ _
  · exact answerMoveStatus_keeps s _ _
  · exact answerLineData_keeps s _ _ _ _ _
  · exact answerReadLines_keeps s _ _ _
  · exact answerLoadHeader_keeps s _ _ _
  · exact answerCreateDoc_keeps s _ _ _
  · exact answerCloseDoc_keeps s _ _
  · exact answerDeleteDoc_keeps s _ _
  · exact answerReleaseDoc_keeps s _ _
  · exact answerListDocs_keeps s _ _
  · exact answerDocInfo_keeps s _ _ _
  · exact answerSetReserve_keeps s _ _
  · exact answerCheckStore_keeps s _
  · exact Answer.keeps_refuse _ _

theorem State.judge_keeps (f : Frame) (x : Hand) (e : s.link.hand = some x) (k : x.phase.reserves = true) :
    (s.judge f).Keeps s := by
  unfold State.judge
  split
  · exact Answer.keeps_refuse _ _
  · split
    · exact Answer.keeps_refuse _ _
    · split
      · exact Answer.keeps_refuse _ _
      · split
        · exact Answer.keeps_refuse _ _
        · exact answerOf_keeps s _ x e k

end answers

/-! ## Commands received -/

section received

variable {s : State} (h : s.Inv)
include h

theorem State.Inv.checkHand : s.checkHand.Inv := by
  unfold State.checkHand
  split
  · rename_i f e
    have h1 : (s.onLink (Link.handOver f)).Inv := h.onLink _ (Link.handOver_Ok f _ h.link e)
    have hk := State.judge_keeps (s.onLink (Link.handOver f)) f ⟨f, .handed⟩ rfl rfl
    dsimp only
    unfold State.give
    split
    · exact hk _ rfl rfl rfl (fun _ => rfl) h1
    · rename_i r
      refine hk _ rfl rfl rfl (fun n => ?_) (h1.onLink _ (h1.link.answered ⟨f, .handed⟩ rfl rfl _))
      rw [r] at n
      exact absurd n (by simp)
  · exact h

theorem State.Inv.serve : s.serve.Inv := h.checkHand.checkHand

theorem State.Inv.finish : s.finish.Inv := h.settle.serve

theorem State.Inv.offer (f : Frame) : (s.offer f).Inv := by
  unfold State.offer
  split
  · rename_i e
    refine State.Inv.checkHand (h.onLink _ (Link.take_Ok _ ?_ (fun _ => rfl) h.link.parser))
    have := h.link.places
    rw [Link.reserved_none _ e] at this
    exact this
  · rename_i x e
    split
    · refine h.onLink _ ⟨h.link.places, h.link.untaken, fun _ => ?_, h.link.parser⟩
      dsimp only
      rw [e]; rfl
    · exact h.linkFault _

theorem State.Inv.parse (c : Byte) : (s.parse c).Inv := by
  have hp := h.link.parser
  unfold State.parse
  split
  · split
    · exact h.setParser _ (Nat.zero_le _)
    · exact h
  · rename_i got e
    rw [e] at hp
    split
    · exact h.headerRead _ _ _ _
    · rename_i hne
      refine h.setParser _ ?_
      have h3 : got.length ≤ 3 := hp
      have : got.length ≠ 3 := by
        intro h3
        match got, h3 with
        | [a, b, d], _ => exact hne a b d rfl
      show (got ++ [c]).length ≤ 3
      simp only [List.length_append, List.length_cons, List.length_nil]
      omega
  · rename_i type tag len got e
    rw [e] at hp
    obtain ⟨h1, h2⟩ := hp
    split
    · refine h.setParser _ ?_
      show (got ++ [c]).length ≤ Config.maxPayload
      simp only [List.length_append, List.length_cons, List.length_nil]
      omega
    · refine h.setParser _ ⟨?_, h2⟩
      simp only [List.length_append, List.length_cons, List.length_nil]
      omega
  · rename_i f e
    rw [e] at hp
    exact h.setParser _ hp
  · split
    · exact (h.setParser .hunt trivial).offer _
    · exact (h.setParser .hunt trivial).linkFault _

theorem State.Inv.arriveFrame (f : Frame) : (s.arriveFrame f).Inv := by
  unfold State.arriveFrame
  split
  · exact h.offer f
  · rename_i hn
    clear hn
    generalize f.bytes = bs
    induction bs generalizing s with
    | nil => exact h
    | cons b bs ih => exact ih (h.parse b)

theorem State.Inv.heard (f : State → State) (k : ∀ t : State, t.Inv → (f t).Inv) :
    (s.heard f).Inv := by
  unfold State.heard
  split
  · exact h
  · split
    · exact ((Follows.refl s).causeDetected _).inv h
    · have h1 := ((Follows.refl s).causeTaken .rxd).inv h
      dsimp only
      split
      · exact h1
      · exact k _ h1

theorem State.Inv.receiveCommand (i : Instr) : (s.receiveCommand i).Inv := by
  unfold State.receiveCommand
  split
  · exact h
  · exact h.heard _ fun t ht => ht.arriveFrame _

/-! ## Other shared operations of events -/

theorem State.Inv.takeBreak : s.takeBreak.Inv :=
  ((Follows.refl _).onPath _ fun _ k =>
    k.mapAll _ Move.clearSending_shape rfl rfl).inv (h.onLink _ (Link.broken_Ok _))

theorem State.Inv.linkReplySent : s.linkReplySent.Inv := by
  unfold State.linkReplySent
  dsimp only
  have h1 := h.onLink _ (Link.applyRate_Ok _ h.link)
  split
  · exact h1
  · exact h1.discardPartial _

theorem State.Inv.recordGone (k : RecordKind) : (s.recordGone k).Inv := by
  unfold State.recordGone
  split
  · exact h
  · exact h
  · exact h.linkReplySent
  · exact ((Follows.refl s).linesSent _ _ _).inv h

theorem State.Inv.failWhere (p : Move → Bool) (c : MoveCause) : (s.failWhere p c).Inv :=
  ((Follows.refl s).failWhere p c).inv h

theorem State.Inv.shadingSeesSheet : s.shadingSeesSheet.Inv := by
  unfold State.shadingSeesSheet
  split
  · exact h
  · exact h.endShading _

omit h in
theorem State.coverJam_follows {w : Prop} : Follows w s s.coverJam := by
  unfold State.coverJam
  split
  · exact Follows.refl s
  · split
    · exact (Follows.refl s).jam _
    · exact (Follows.refl s).jam _
    · exact (Follows.refl s).jam _
    · exact Follows.refl s

theorem State.Inv.coverOpens (report : State → State) (k : ∀ (w : Prop) t, Follows w t (report t)) :
    (s.coverOpens report).Inv := by
  unfold State.coverOpens
  dsimp only
  have h1 := ((((Follows.refl (w := s.path.Ok) s).onChannel .df (Channel.coverStop s.cfg.df.holdTime) fun cfg c =>
    c.coverStop_mild cfg _).onChannel .rf (Channel.coverStop s.cfg.rf.holdTime) fun cfg c =>
      c.coverStop_mild cfg _).onPrint fun p => { p.drop with cut := .none })
  have h2 := ((h1.trans State.coverJam_follows).trans (k _ _)).inv h
  split
  · exact State.Inv.failWhere h2 _ _
  · exact State.Inv.failWhere (h2.endShading _) _ _

theorem State.Inv.sensorTaken (id : SensorId) : (s.sensorTaken id).Inv := by
  unfold State.sensorTaken
  split
  · split
    · exact h
    · split
      · exact ((Follows.refl s).entryTakenPresent).inv h
      · exact ((Follows.refl s).entryTakenAbsent).inv h
  · have h1 : (if s.scanPresent then s.shadingSeesSheet else s).Inv := by
      split
      · exact h.shadingSeesSheet
      · exact h
    dsimp only
    generalize (if s.scanPresent then s.shadingSeesSheet else s) = t at h1 ⊢
    split
    · exact h1
    · split
      · exact ((Follows.refl _).scanTakenPresent).inv h1
      · exact ((Follows.refl _).scanTakenAbsent id).inv h1
  · split
    · exact ((Follows.refl s).reportPaper).inv h
    · exact ((Follows.refl s).paperTakenAbsent).inv h
  · split
    · exact h.coverOpens _ fun _ t => (Follows.refl t).reportPaper
    · exact ((Follows.refl s).reportPaper).inv h

theorem State.Inv.faultDomain (d : DomainId) (after : Power) : (s.faultDomain d after).Inv := by
  unfold State.faultDomain
  dsimp only
  have h1 : ∀ t : State, t.Inv → ((t.reportPowerOf after (.domainFault d))).Inv := fun t ht =>
    ((Follows.refl t).reportPowerOf _ _).inv ht
  refine State.Inv.failWhere ?_ _ _
  have h2 := ((Follows.refl s).onPower fun p => (p.setDomain d .fault).follow).inv h
  have h3 := h1 _ (((Follows.refl _).onPrint Print.drop).inv h2)
  repeat' split
  all_goals first
    | exact h3.endShading _
    | exact (h1 _ h2).endShading _
    | exact h3
    | exact h1 _ h2

theorem State.Inv.domainFault (d : DomainId) : (s.domainFault d).Inv := h.faultDomain d _

theorem State.Inv.enterDriverFault (ch : ChannelId) : (s.enterDriverFault ch).Inv := by
  unfold State.enterDriverFault
  dsimp only
  have h1 := ((Follows.refl s).onChannel ch _ fun cfg c => c.enterFault_mild cfg).inv h
  have h2 := ((Follows.refl _).reportMotorFault ch).inv
    (h1.onLink (fun l => { l with sticky := l.sticky.channelFault ch }) (h1.link.flags _))
  have h3 : ∀ t : State, t.Inv → ∀ old before, (((t.faultBehind ch old).failChannelMoves
      old).failStartingScan before).Inv := by
    intro t ht old before
    have h4 : (t.faultBehind ch old).Inv := by
      unfold State.faultBehind
      split
      · split
        · exact ht
        · exact ((Follows.refl t).feedMotorFault _).inv ht
      · exact ((Follows.refl t).onPrint _).inv ht
    have h5 : ((t.faultBehind ch old).failChannelMoves old).Inv := State.Inv.failWhere h4 _ _
    unfold State.failStartingScan
    split
    · exact h5
    · exact State.Inv.failWhere h5 _ _
  exact h3 _ h2 _ _

theorem State.Inv.lookAtFlt (ch : ChannelId) : (s.lookAtFlt ch).Inv := by
  unfold State.lookAtFlt
  split
  · exact h.enterDriverFault ch
  · exact h

theorem State.Inv.rampEnded (ch : ChannelId) : (s.rampEnded ch).Inv := by
  have hp := ((Follows.refl s).onChannel ch _ fun cfg c => c.passOn_mild cfg).inv h
  unfold State.rampEnded
  split
  · exact hp
  · split
    · exact hp
    · exact hp
    · exact ((Follows.refl s).feedRampEnded).inv h
    · exact ((Follows.refl s).cutFeedEnded).inv h

/-- A channel changes by a step or the end of a hold. -/
theorem State.Inv.onChannel (ch : ChannelId) (f : Channel → Channel)
    (k : (s.channel ch).Ok → (f (s.channel ch)).Ok) : (s.onChannel ch f).Inv := by
  cases ch
  · exact ⟨h.settings, h.link, k h.df, h.rf, h.path, h.memory⟩
  · exact ⟨h.settings, h.link, h.df, k h.rf, h.path, h.memory⟩

theorem State.Inv.issueStep (ch : ChannelId) : (s.issueStep ch).Inv := by
  unfold State.issueStep
  split
  · exact h
  · rename_i x e
    dsimp only
    have h1 := h.onChannel ch _ (Channel.stepRamp_ok (s.channelCfg ch) _ x e)
    split
    · exact h1.rampEnded ch
    · exact h1
  · rename_i x e
    have h1 := h.onChannel ch _ (Channel.stepLine_ok (s.channelCfg ch) _ x e)
    unfold State.checkGap
    split
    · exact ((Follows.refl _).gapTimeout).inv h1
    · exact h1

theorem State.Inv.countDfStep (ch : ChannelId) : (s.countDfStep ch).Inv := by
  unfold State.countDfStep
  split
  · exact ((Follows.refl s).countStep.gapGate).inv h
  · exact h

theorem State.Inv.captured (ctx : CaptureCtx) (dots : RawLine) : (s.captured ctx dots).Inv := by
  unfold State.captured
  split
  · exact h
  · split
    · unfold State.handCapture
      dsimp only
      have h0 := h.onScan fun c => { c with lineCounter := c.lineCounter + 1 }
      rename_i m e g
      simp only [Bool.and_eq_true, beq_iff_eq] at g
      have only : ∀ n, s.move? m.id = some n → n = m := fun n hn => by
        rw [h.path.only (State.move?_mem e).1] at hn
        cases hn
        rfl
      have h1 := ((Follows.refl _).onMove m.id (Move.enter s.headWidth ctx.slot (scanDensity m) dots false)
        fun _ _ n hn => by
          rw [only n hn]
          exact m.enter_steps _ _ _ _ (Move.gives_granted g.1 g.2)).inv h0
      split
      · exact h1
      · rename_i x hx
        rw [State.move?_onMove fun n => (n.enter_same _ _ _ _ _).1, Option.map_eq_some_iff] at hx
        obtain ⟨n, hn, rfl⟩ := hx
        obtain rfl := only n hn
        refine ((Follows.refl _).scanLineCounted _ fun k y hy => ?_).inv h1
        rw [(n.enter_same _ _ _ _ _).1, State.move?_onMove fun n => (n.enter_same _ _ _ _ _).1,
          Option.map_eq_some_iff] at hy
        obtain ⟨z, hz, rfl⟩ := hy
        obtain rfl := only z hz
        rw [Move.active, (z.enter_same _ _ _ _ _).2]
        exact Move.flowing_active g.1
    · exact h

theorem State.Inv.shadingLine (settings : ScanSettings) (count : Nat) (sums : List Nat)
    (pixels : List Pixel) : (s.shadingLine settings count sums pixels).Inv := by
  unfold State.shadingLine
  dsimp only
  split
  · unfold State.shadingMeasured
    dsimp only
    split
    · exact (h.onScan _).answerLate _
    · exact (h.onScan _).answerLate _
  · exact h.onScan _

/-- The head line of a queue is written: only its record has its name, so its queue is the one that shortens. -/
theorem State.Inv.writeLine {m : Move} (hm : m ∈ s.moves) (hq : m.queue ≠ []) (l : SlotLine) :
    (s.writeLine m l).Inv :=
  ((Follows.refl s).writeLine m l fun k n hn => by
    rw [k.only hm] at hn
    cases hn
    exact hq).inv h

theorem State.Inv.readSegment (m : Move) (r : Reader) (upsets : List (Nat × Byte)) :
    (s.readSegment m r upsets).Inv := by
  unfold State.readSegment
  split
  · exact h
  · rename_i n _ _
    dsimp only
    have h1 := (h.onStore Store.makeWrites fun k => Store.wf_makeWrites _ k).onStore (Store.upset n upsets)
      fun k => Store.wf_upset _ k _ _
    have h2 : ∀ r : Reader, _ := fun r =>
      ((Follows.refl _).onMoveParts m.id (fun m => { m with reader := some r }) fun _ => rfl).inv h1
    have h3 : ∀ (c : Prop) [Decidable c] (t : State), t.Inv →
        (if c then t else t.onStore (Store.endTransfer m.id)).Inv := by
      intro c _ t ht
      split
      · exact ht
      · exact ht.onStore _ fun k => k
    split
    · exact h3 _ _ (h2 _)
    · exact ((Follows.refl _).reportStore _ _ _).inv
        ((h3 _ _ (h2 _)).onLink (fun l => { l with sticky := { l.sticky with checkError := true } })
          ((h3 _ _ (h2 _)).link.flags _))

theorem State.Inv.restartDebounce : s.restartDebounce.Inv := (h.onFeed _).formReadings

theorem State.Inv.wakeLink : s.wakeLink.Inv := by
  unfold State.wakeLink
  dsimp only
  have h1 := ((Follows.refl s).onPower fun p =>
    { p with state := .standby, waking := false }).inv h
  have h2 : ∀ t : State, t.Inv → ((t.reportPower (.wake s.power.causes)).onPower fun p =>
      { p with causes := WakeCauses.empty }).Inv := fun t ht =>
    ((Follows.refl t).reportPower _ |>.onPower _).inv ht
  have h4 : ∀ (t : State) (b : Bool), t.Inv →
      (t.onLink fun l => { l with awaitMark := b }).Inv := fun t b ht =>
    ht.onLink _ (ht.link.marked b)
  split
  · exact h4 _ _ (h2 _ h1.takeBreak)
  · exact h4 _ _ (h2 _ h1)

theorem State.Inv.withStartup (x : Startup) : ({ s with startup := x } : State).Inv :=
  ⟨h.settings, h.link, h.df, h.rf, h.path, h.memory⟩

theorem State.Inv.withReset (x : ResetPhase) : ({ s with resetPhase := x } : State).Inv :=
  ⟨h.settings, h.link, h.df, h.rf, h.path, h.memory⟩

theorem State.Inv.startUpDone : s.startUpDone.Inv :=
  ((Follows.refl _).reportBootDone).inv (h.withStartup _)

theorem State.Inv.checkEnded (c : CheckRun) : (s.checkEnded c).Inv := by
  unfold State.checkEnded
  dsimp only
  have h1 := h.onStore (fun st => { st with check := none }) fun k => k
  split
  · exact h1.startUpDone
  · exact h1.answerLate _

theorem State.Inv.scanEnded : s.scanEnded.Inv := by
  unfold State.scanEnded
  dsimp only
  have h1 := h.onStore (Store.recover s.total) fun k => Store.wf_recover _ k _
  split
  · exact (h1.onStore Store.startCheck fun k => Store.wf_flush _ k).withStartup _
  · exact h1.startUpDone

theorem State.Inv.rebuilt : s.rebuilt.Inv :=
  ((Follows.refl _).reportBootDone).inv
    (((h.onStore _ fun k => Store.wf_recover _ k _).withReset .none).answerLate _)

omit h in
theorem State.setDocAfterReset_follows {w : Prop} : Follows w s s.setDocAfterReset := by
  unfold State.setDocAfterReset
  dsimp only
  split
  · split
    · exact (Follows.refl s).startSettle
    · exact ((Follows.refl s).setDoc _ _ _).startSettle
  · split
    · exact Follows.refl s
    · exact (Follows.refl s).setDoc _ _ _

theorem State.Inv.fullFeedReset : s.fullFeedReset.Inv := by
  obtain ⟨h1, h2, _, h4, h5, h6, h7, h8⟩ := h.settings
  unfold State.fullFeedReset
  exact (h.withCfg { s.cfg with feed := FeedSettings.powerOn }
    ⟨h1, h2, (by decide : FeedSettings.powerOn.Valid), h4, h5, h6, h7, h8⟩).onFeed _

theorem State.Inv.fullReset : s.fullReset.Inv :=
  ⟨Settings.powerOn_Valid _, h.link, h.df, h.rf, h.path.same rfl rfl, h.memory⟩

theorem State.Inv.resetStopped (full : Bool) : (s.resetStopped full).Inv := by
  unfold State.resetStopped
  split
  · refine State.Inv.fullReset (State.Inv.follows ?_ State.setDocAfterReset_follows)
    unfold State.paperChanged
    split
    · exact h.fullFeedReset
    · exact ((Follows.refl _).reportPaper).inv h.fullFeedReset
  · exact ((h.follows State.setDocAfterReset_follows).withReset .none).answerLate _

theorem State.Inv.memoryCut (bursts : Nat) : (s.memoryCut bursts).wf = true := by
  unfold State.memoryCut
  dsimp only
  have begun := Store.wf_madeWrites s.store h.memory (s.store.writesBegun.take bursts)
  split
  · rename_i l o _
    cases e : ((s.store.makeWrites.lineStages l o).take (bursts - s.store.writesBegun.length)).getLast? with
    | none => exact begun
    | some t =>
      exact Store.wf_lineStages _ (Store.wf_makeWrites _ h.memory) l o t
        (List.mem_of_mem_take (List.mem_of_getLast? e))
  · exact begun

theorem State.Inv.stopMemory (bursts : Nat) : (s.stopMemory bursts).Inv :=
  h.onStore _ fun _ => h.memoryCut bursts

theorem State.marksDone_wf (marked : Nat) : (s.marksDone marked).wf = true := by
  unfold State.marksDone
  split
  · exact PageMemory.wf_freeAll _ _ h.memory
  · exact PageMemory.wf_freeAll _ _ h.memory
  · split
    · exact PageMemory.wf_freeAll _ _ h.memory
    · exact h.memory

end received

end Sys2Proof.Machine
end

