-- ==== Sys2Proof/Laws/Served.lean ====
section
/-! SUPPORT. What a command row comes to: the frame it travels in, taken at once by a part that serves, and
the answer of its block; and when a clocked event runs. -/

namespace Sys2Proof.Machine

/-- A command row is the arrival of its frame. -/
theorem exec_command {i : Instr} {f : Frame} (hf : i.frame? = some f) (s : State) :
    exec i s = .next (s.receiveCommand i) := by
  cases i <;> first | rfl | cases hf

section served

variable {s : State} (hs : s.Serves) (i : Instr) (f : Frame) (hf : i.frame? = some f)
  (hl : i.LengthFits) (hi : Laws.Frames.Statement i)
include hs hf hl hi

/-- A served command comes to the answer of its block, with the command in hand. -/
theorem State.Serves.served : exec i s = .next ((s.inHand f).give f (answerOf i (s.inHand f))) := by
  obtain ⟨h1, h2, h3⟩ := hi f hf hl
  rw [exec_command hf, hs.received i f hf h1 h2 h3]

/-- An answer at once: the reply at the tail of the queue, then the effect. -/
theorem State.Serves.answered {kind : RecordKind} {p : List Byte} {e : State → State}
    (ha : answerOf i (s.inHand f) = ⟨kind, some p, e⟩) :
    exec i s = .next (e (s.queued ⟨kind, f.type + 0x80, f.tag, p⟩)) := by
  rw [hs.served i f hf hl hi, ha, hs.replies]
  rfl

/-- A refusal: the result code alone, and nothing else changes. -/
theorem State.Serves.refused {r : Result} (ha : answerOf i (s.inHand f) = Answer.refuse r) :
    exec i s = .next (s.replied f.type f.tag [r.code]) :=
  hs.answered i f hf hl hi ha

/-- A late reply: the command stays in hand, and its effect begins. -/
theorem State.Serves.answeredLate {e : State → State}
    (ha : answerOf i (s.inHand f) = Answer.late e) : exec i s = .next (e (s.inHand f)) := by
  rw [hs.served i f hf hl hi, ha]
  rfl

end served

/-- The clocks run when NRST is not active and the part is not in SLEEP (R176, R183, R185). -/
theorem State.clocked_of {s : State} (h1 : s.held = false) (h2 : s.power.state ≠ .sleep) :
    s.clocked = true := by
  unfold State.clocked
  simp [h1, h2]

end Sys2Proof.Machine
end

