-- ==== Sys2Proof/WellFormed.lean ====
section
/-! DEFINITION. Which terms of `Instr` can reach the part: a command that one frame can carry, a
line of pixels of one of the two head widths, upsets inside one segment. A field of a command may
hold any value; the part answers it. -/

namespace Sys2Proof

/-- A payload that one frame can carry (R3). -/
def payloadFits (n : Nat) : Bool := n ≤ Config.maxPayload

/-- A line of pixels has the head's width (R65). -/
def pixelLine (pixels : List Pixel) : Bool := pixels.length == 1728 || pixels.length == 2048

/-- The offsets of upsets lie in the data bytes of a segment (8.1). -/
def upsetsInSegment (upsets : List (Nat × Byte)) : Bool :=
  upsets.all fun u => u.1 < Config.segmentData

/-- A term of `Instr` that can reach the part. -/
def Instr.wellFormed : Instr → Bool
  | .lineData _ _ _ _ _ coded => payloadFits (4 + coded.length)
  | .loadHeader _ _ _ code => payloadFits (4 + code.length)
  | .captureDone pixels => pixelLine pixels
  | .shadingLineRead pixels => pixelLine pixels
  | .storeSegmentRead upsets => upsetsInSegment upsets
  | _ => true

end Sys2Proof
end

