-- ==== Sys2Proof/Tests/Slice0.lean ====
section
/-! SUPPORT. Small tests: the checks of well-formed terms, the worked examples of the manual, single steps on
small states, and for every statement with hypotheses a state and operands that meet them. -/

namespace Sys2Proof.Machine.Tests

-- One theorem after another: many kernel evaluations side by side each hold a thread.
set_option Elab.async false

/-! ## States -/

/-- A part whose link is READY and whose start-up is over. -/
def ready : State :=
  { State.reset with
    startup := .done
    link := { Link.powerOn with state := .ready } }

theorem serves_like {s : State} (h1 : s.held = false) (h2 : s.power.state = .standby)
    (h3 : s.power.entry = .none) (h4 : s.link = ready.link) (h5 : s.startup = .done) : s.Serves where
  held := h1
  awake := by rw [h2]; decide
  entry := h3
  marked := by rw [h4]; rfl
  hunting := by rw [h4]; rfl
  hand := by rw [h4]; rfl
  waiting := by rw [h4]; rfl
  place := by rw [h4]; decide
  startup := h5
  ready := by rw [h4]; rfl

theorem test_ready_serves : ready.Serves := serves_like rfl rfl rfl rfl rfl

/-- A move with nothing in its queue. -/
def move (source : Source) (sink : Sink) (state : MoveState) : Move :=
  { id := 0
    number := 7
    source := source
    sink := sink
    depth := 4
    target := .v1
    reduce := false
    withHeader := false
    fallback := false
    state := state
    cause := none
    counters := ⟨0, 0, 0, 0, 0, 0, 0, 0, 0, 1, 0⟩
    diverted := none
    queue := []
    granted := none
    merge := 0
    headerLeft := 0
    srcPage := 1
    srcLines := 0
    blankDue := 0
    cutDue := false
    paperOut := false
    reader := none }

/-- A READY line of three dots, the middle one black. -/
def line (pageEnd : Bool) : SlotLine := ⟨0, .v1, [false, true, false], pageEnd, .ready, false⟩

/-- The part with a move in the first entry of its table. -/
def holding (m : Move) : State :=
  { ready with path := { ready.path with table := [some m, none, none, none], nextId := 1 } }

/-- The part with DF as given. -/
def withDf (c : Channel) : State := { ready with df := c }

/-- The part with a document 5 of one page in its store. -/
def storing (d : Document) : State := { ready with store := { ready.store with directory := [d] } }

def page : Page := ⟨1, 1728, .v1, 2, 3, some 0, 1, .complete, none, 0, false⟩
def document : Document := ⟨5, .outgoing, true, false, false, [page]⟩

/-- What a step leaves in the outbound queue. -/
def sent (i : Instr) (s : State) : List (Byte × Byte × List Byte) :=
  match exec i s with
  | .next t => t.link.outbound.map fun r => (r.type, r.tag, r.payload)
  | _ => []

/-- What a step leaves of the state, seen through `f`. -/
def after {α : Type} (f : State → α) (i : Instr) (s : State) : Option α :=
  match exec i s with
  | .next t => some (f t)
  | _ => none

/-! ## Well-formed terms -/

theorem test_wf_refuses_long_line :
    (Instr.lineData 0 1 0 0 0 (List.replicate 2301 0)).wellFormed = false := by decide +kernel
theorem test_wf_refuses_long_header :
    (Instr.loadHeader 0 1728 0 (List.replicate 2301 0)).wellFormed = false := by decide +kernel
theorem test_wf_refuses_short_pixel_line :
    (Instr.captureDone [0]).wellFormed = false
      ∧ (Instr.shadingLineRead [0]).wellFormed = false := by decide
theorem test_wf_refuses_upset_beyond_segment :
    (Instr.storeSegmentRead [(2032, 0)]).wellFormed = false := by decide
theorem test_wf_accepts :
    (Instr.lineData 0 1 0 0 0 [255]).wellFormed = true
      ∧ (Instr.captureDone (List.replicate 1728 0)).wellFormed = true
      ∧ (Instr.storeSegmentRead [(2031, 0)]).wellFormed = true := by decide +kernel

/-! ## The worked examples of the manual -/

theorem test_no_row_gives_bits : decodeTableWord 16 0 = none ∧ State.reset.withFetchWord 16 0 = State.reset :=
  ⟨rfl, rfl⟩

/-- The check value of this CRC over the nine ASCII digits. -/
theorem test_crc : crc16 [0x31, 0x32, 0x33, 0x34, 0x35, 0x36, 0x37, 0x38, 0x39] = 0xAEE7 := by decide +kernel

theorem test_decode_examples :
    (decodeLine 1728 [100, 3, 199, 89, 255]).2 = false
      ∧ (decodeLine 1728 [50, 10, 255]) =
        (List.replicate 50 false ++ List.replicate 10 true ++ List.replicate 1668 false, true)
      ∧ (decodeLine 1728 [0, 200, 40, 10, 255]) = (List.replicate 1728 true, true)
      ∧ (decodeLine 1728 [100, 3, 195, 255]) = (List.replicate 1728 false, true)
      ∧ (decodeLine 1728 [100, 210, 5, 255]) = (List.replicate 1728 false, true)
      ∧ (decodeLine 1728 [100, 3, 255, 7]) = (List.replicate 1728 false, true) := by decide +kernel

theorem test_encode_examples :
    encodeLine (List.replicate 1728 false) = [200, 0, 255]
      ∧ encodeLine (List.replicate 2048 false) = [201, 128, 255]
      ∧ encodeLine (List.replicate 100 false ++ List.replicate 3 true ++ List.replicate 1625 false)
        = [100, 3, 199, 89, 255] := by decide +kernel

theorem test_reduce_example :
    reduceGroup ((List.range 32).map fun p => [3, 5, 16, 17, 28].contains p)
      = (List.range 27).map fun p => [3, 4, 14, 24].contains p := by decide

theorem test_phase_examples :
    phaseList 120 [10, 200, 40, 50, 0, 100, 60, 20]
        = [⟨[0], 10⟩, ⟨[1], 200⟩, ⟨[2, 3, 4], 90⟩, ⟨[5], 100⟩, ⟨[6, 7], 80⟩]
      ∧ phaseList 432 [10, 200, 40, 50, 0, 100, 60, 20] = [⟨[0, 1, 2, 3, 4, 5], 400⟩, ⟨[6, 7], 80⟩]
      ∧ phaseList 120 [200, 0, 0, 0, 0, 0, 0, 0] = [⟨[0], 200⟩]
      ∧ isHeavy 120 [10, 200, 40, 50, 0, 100, 60, 20] = true := by decide

theorem test_shade_examples :
    [3, 4, 25, 30, 52, 60].map (fun v => shadePixel v 4 52) = [0, 0, 27, 34, 63, 63] := by decide

/-- The periods of a ramped move on the profile of the worked ramp cases. -/
def periods : Nat → RampRun → List Nat
  | 0, _ => []
  | k + 1, x => x.period :: periods k { x with r := x.r - 1 }.plan

theorem test_ramp_examples :
    [1, 2, 3, 4, 5, 6].map (fun d => periods d (RampRun.start ⟨4000, 1000, 0, 1, 9600⟩ true d))
      = [[4000], [4000, 4000], [4000, 3400, 4000], [4000, 3400, 3400, 4000],
        [4000, 3400, 2800, 3400, 4000], [4000, 3400, 2800, 2800, 3400, 4000]] := by decide

/-! ## Single steps: commands -/

theorem test_link_commands :
    sent (.setLink 9 3 0) ready = [(0x90, 9, [0, 3])]
      ∧ sent (.setLink 9 4 0) ready = [(0x90, 9, [3])]
      ∧ sent (.getStatus 9 0 0) { ready with link := Link.powerOn } = [(0x91, 9, [4])]
      ∧ sent (.getIdentity 9 0) ready =
        [(0x92, 9, [0, 1, 0xC0, 0x06, 216, 0, 1, 0, 2, 0, 0, 1, 0, 0, 0, 0, 0, 7, 0x0F])] := by decide +kernel

theorem test_status_record :
    sent (.getStatus 9 0 0) ready = [(0x91, 9, [0, 1, 0, 0, 0, 0, 0] ++ List.replicate 8 0 ++ [0, 0, 0, 1, 0, 2]
      ++ [0, 0, 0, 0] ++ [0, 255, 255, 0, 255, 255, 0, 255, 255, 0, 255, 255] ++ [0])] := by decide +kernel

theorem test_power_commands :
    sent (.setPower 9 60 2 12 0) ready = [(0xA0, 9, [3])]
      ∧ after (fun s => s.cfg.power) (.setPower 9 10 1 5 0) ready = some ⟨10, true, 5⟩
      ∧ sent (.domain 9 0 1 0) ready = [(0xA1, 9, [0, 1]), (0xE6, 0, [0, 0, 1, 0, 0, 0, 255])]
      ∧ after (fun s => s.power.entry) (.sleep 9 0) ready ≠ some .none
      ∧ after (fun s => s.resetPhase) (.reset 9 0 0) ready = some (.stopping false) := by decide +kernel

theorem test_channel_commands :
    after (fun s => s.cfg.df.profiles[7]?) (.setProfile 9 0 7 3000 1000 1 3 100 0) ready
        = some (some ⟨3000, 1000, 1, 3, 100⟩)
      ∧ sent (.setLineTiming 9 1 0 1000 0 1 0) ready = [(0xB1, 9, [0, 0xB0, 0x04])]
      ∧ after (fun s => s.cfg.rf.v1) (.setChannel 9 1 1 1300 5 0) ready = some ⟨1300, 0, 1⟩
      ∧ after (fun s => s.df.user) (.moveSteps 9 0 0 1 0 100) ready = some (some .host)
      ∧ sent (.stopChannel 9 0 0) ready = [(0xB4, 9, [0, 0])]
      ∧ sent (.clearFault 9 0 0) { ready with df := Channel.powerOn.enterFault } = [(0xB5, 9, [0])] := by
  decide +kernel

theorem test_feed_scan_print_commands :
    after (fun s => s.cfg.feed.offset) (.setFeed 9 0 0 0 0 8 8 8 8 30 0 2000 25 600) ready = some 25
      ∧ sent (.eject 9 0) ready = [(0xB7, 9, [0x0F])]
      ∧ after (fun s => s.cfg.scan) (.setScan 9 1 20 3 1 6000 0) ready = some ⟨true, 20, 3, true, 6000⟩
      ∧ after (fun s => s.cfg.print) (.setPrint 9 900 30 400 100 90 0) ready = some ⟨900, 30, 400, 100, 90⟩
      ∧ sent (.shade 9 0) { ready with power := { ready.power with scan := .fault } } = [(0xC1, 9, [0x12])] := by
  decide +kernel

theorem test_move_commands :
    sent (.startMove 9 1 1 4 0 0 0 0 0 0 0 1728 0 0 0 0 0) ready = [(0xD0, 9, [0x11])]
      ∧ (sent (.startMove 9 1 2 4 0 0 0 0 0 0 0 1728 0 1 0 0 0) ready).head? = some (0xD0, 9, [0, 1, 1])
      ∧ after (fun s => s.moves.map Move.state) (.startMove 9 1 2 4 0 0 0 0 0 0 0 1728 0 1 0 0 0) ready
        = some [.running]
      ∧ sent (.lineData 9 7 0 0 0 [255]) ready = [(0xD3, 9, [9, 0])]
      ∧ (sent (.lineData 9 7 0 0 0 [200, 0, 255]) (holding (move (.linkIn 1728 .v1) .print .running))).head?
        = some (0xD3, 9, [0, 3])
      ∧ sent (.moveStatus 9 8 0) ready = [(0xD2, 9, [9])] := by decide +kernel

theorem test_abort_ends_the_move :
    after (fun s => s.moves.map Move.state) (.abortMove 9 7 0) (holding (move (.linkIn 1728 .v1) .print .pending))
      = some [.aborted] := by decide +kernel

/-- The reply of the worked example of 11.9, on lines of 1728 dots. -/
theorem test_read_lines_example :
    let a : RawLine := List.replicate 100 false ++ List.replicate 3 true ++ List.replicate 1625 false
    let m := { move (.store 5 1 1) .linkOut .running with
      number := 14
      target := .v2
      queue := [⟨0, .v2, a, false, .ready, false⟩, ⟨1, .v2, List.replicate 1728 false, true, .ready, false⟩] }
    sent (.readLines 9 14 4 0) (holding m) = [(0xD4, 9, [0x00, 14, 2, 0, 0xC0, 0x06, 1, 0,
      5, 0, 0, 100, 3, 199, 89, 255, 3, 0, 1, 200, 0, 255])] := by decide +kernel

theorem test_header_command :
    after (fun s => s.path.header) (.loadHeader 9 1728 0 [255, 200, 0, 255]) ready
      = some (some ⟨1728, 2, [255, 200, 0, 255]⟩) := by decide +kernel

theorem test_store_commands :
    sent (.createDoc 9 0 1 0) ready = [(0xE0, 9, [0, 1, 0])]
      ∧ sent (.closeDoc 9 6 0) (storing document) = [(0xE1, 9, [0x0A])]
      ∧ after (fun s => s.store.directory) (.deleteDoc 9 5 0) (storing document) = some []
      ∧ sent (.releaseDoc 9 5 0) (storing document) = [(0xE3, 9, [0])]
      ∧ sent (.listDocs 9 0 0) (storing document) = [(0xE4, 9, [0, 1, 1, 5, 0, 1, 1, 0, 0, 0, 1, 0, 0])]
      ∧ (sent (.docInfo 9 5 0 0) (storing document)).length = 1
      ∧ sent (.setReserve 9 2 0) ready = [(0xE6, 9, [0, 64, 0])]
      ∧ after (fun s => s.store.check) (.checkStore 9 0) ready = some (some ⟨0, 0, 0⟩) := by decide +kernel

/-! ## Single steps: events -/

theorem test_link_events :
    after (fun s => s.link.parser) (.rxCharacter 0xC3) ready = some (.header [])
      ∧ sent .framingError ready = [(0xE7, 0, [3])]
      ∧ after (fun s => s.link.state) .breakDetected ready = some .unset
      ∧ sent .characterGapExpiry (ready.setParser (.header [])) = [(0xE7, 0, [1])]
      ∧ sent .takeCommand { ready with link := { ready.link with hand := some ⟨⟨0x99, 9, []⟩, .taken⟩ } }
        = [(0x19, 9, [1])]
      ∧ sent .recordSent (ready.report 0xE9 [0]) = []
      ∧ sent .wakeDiscard { ready with link := { ready.link with awaitMark := true } } = [(0xE7, 0, [4])] := by
  decide +kernel

/-- A ramped move of one step to go, and a line run, on DF. -/
def ramping : Channel :=
  { Channel.powerOn with
    state := .ramping
    user := some .host
    run := .ramp (RampRun.start ⟨4000, 1000, 0, 1, 9600⟩ true 3) }
def lineRunning : Channel :=
  { Channel.powerOn with
    state := .lineRun
    run := .line { LineRun.start .v1 ⟨1600, 0, 1⟩ false with
      stepsLeft := 4
      period := some 1600 } }
def resting : Channel := { Channel.powerOn with state := .holding, holdTimer := some 200 }

theorem test_channel_events :
    after (fun s => s.df.position) (.channelStep .df) (withDf ramping) = some 1
      ∧ after (fun s => (s.df.position, s.df.phase)) (.channelStep .df) (withDf lineRunning) = some (1, 1)
      ∧ after (fun s => s.df.state) (.holdTimerExpiry .df) (withDf resting) = some .idle
      ∧ after (fun s => s.df.state) (.driverFault .df true) (withDf ramping) = some .fault
      ∧ sent (.driverFault .df true) ready = [(0xE9, 0, [0])] := by decide +kernel

/-- A sensor whose debounce timer runs towards the other reading. -/
def turning (reading : Bool) : Sensor := ⟨reading, !reading, some 8, true⟩

theorem test_feed_events :
    after (fun s => s.feed.docEntry) (.sensorInputChange .docEntry true) ready
        = some ⟨true, false, none, false⟩
      ∧ after (fun s => s.feed.doc) (.debounceExpiry .docEntry)
        { ready with feed := { ready.feed with docEntry := turning true, docScan := ⟨false, false, none, true⟩ } }
        = some .settling
      ∧ after (fun s => s.feed.settle) .settleTimerExpiry
        { ready with feed := { ready.feed with settle := .running 300 } } = some .expired
      ∧ after (fun s => s.feed.paper.known) (.firstReadingsSteady .paper) ready = some true := by decide +kernel

def context : CaptureCtx := ⟨0, 0, ScanSettings.powerOn, List.replicate 1728 63, 0⟩
def headLine : HeadLine := ⟨0, 0, [10, 0, 0, 0, 0, 0, 0, 0], false⟩

/-- The part with its scan unit, its print unit or its power control changed. -/
def scanning (f : Scan → Scan) : State := { ready with scan := f ready.scan }
def printing (f : Print → Print) : State := { ready with print := f ready.print }
def powered (f : Power → Power) : State := { ready with power := f ready.power }

theorem test_scan_print_events :
    after (fun s => s.scan.capture) .exposureEnd (scanning fun x => { x with capture := .exposing context })
        = some (.writing context)
      ∧ after (fun s => s.scan.capture) (.captureDone (List.replicate 1728 63))
        (scanning fun x => { x with capture := .writing context }) = some .idle
      ∧ after (fun s => s.print.load) .loadComplete (printing fun x => { x with load := .loading headLine })
        = some (.loaded headLine)
      ∧ after (fun s => s.print.strobe) .phaseTimerExpiry
        (printing fun x => { x with strobe := .strobing headLine false [⟨[0], 10⟩] true 800 40 }) = some .idle
      ∧ after (fun s => s.print.cut) .cutterPulseEnd (printing fun x => { x with cut := .pulse 80 })
        = some .none := by decide +kernel

theorem test_shading_run_ends :
    after (fun s => s.scan.table) (.shadingLineRead (List.replicate 1728 50))
      (scanning fun x => { x with shading := .measuring ScanSettings.powerOn 7 (List.replicate 1728 350) })
      = some (List.replicate 1728 50) := by decide +kernel

/-- The part with a memory check under way, the store in turn for a move, and so on. -/
def checking (n : Nat) : State := { ready with store := { ready.store with check := some ⟨n, n, 0⟩ } }

theorem test_store_events :
    after (fun s => s.store.check) (.segmentTested false) (checking 0) = some (some ⟨1, 1, 1⟩)
      ∧ after (fun s => s.store.map) (.segmentTested false) (checking 0) = some [(0, .retired)]
      ∧ after (fun s => s.store.check) .memoryCheckDone (checking 512) = some none := by decide +kernel

theorem test_power_events :
    after (fun s => s.power.scan) (.lampWarmUpExpiry 40) (powered fun x => { x with scan := .starting })
        = some .on
      ∧ after (fun s => s.power.scan) (.lampWarmUpExpiry 4) (powered fun x => { x with scan := .starting })
        = some .fault
      ∧ after (fun s => s.power.print) (.hpgChange true) (powered fun x => { x with print := .starting })
        = some .on
      ∧ after (fun s => s.power.print) .printStartTimeout (powered fun x => { x with print := .starting })
        = some .fault
      ∧ after (fun s => s.power.motor) .motorStartDone (powered fun x => { x with motor := .starting })
        = some .on
      ∧ after (fun s => s.power.idleTimer) .idleTimerExpiry (powered fun x => { x with idleTimer := .running 60 })
        = some .expired
      ∧ after (fun s => s.power.state) .sleepClocksStop (powered fun x => { x with entry := .stopping })
        = some .sleep
      ∧ after (fun s => s.power.waking) .wakeInput (powered fun x => { x with state := .sleep }) = some true
      ∧ after (fun s => s.power.causes.cover) (.wakeCause .cover) (powered fun x => { x with state := .sleep })
        = some true
      ∧ after (fun s => s.power.state) .wakeComplete
        (powered fun x => { x with state := .sleep, waking := true }) = some .standby := by decide +kernel

theorem test_startup_events :
    after (fun s => s.held) (.nrstAsserted 0 0) ready = some true
      ∧ after (fun s => s.startup) (.powerOnReset Straps.low) { ready with held := true } = some .format
      ∧ after (fun s => s.startup) .formatDone State.reset = some .check
      ∧ after (fun s => s.startup) .recoveryScanDone { State.reset with startup := .scan } = some .done
      ∧ after (fun s => s.resetPhase) .resetStopped { ready with resetPhase := .stopping false } = some .none
      ∧ after (fun s => s.inputs.pfi) (.pfiAsserted 0) ready = some true := by decide +kernel

/-! ## What the statements suppose -/

theorem test_suppose_settings : ready.cfg.Valid ready.straps := by
  refine ⟨?_, ?_, ?_, ?_, ?_, ?_, ?_, ?_⟩ <;> decide

/-- A move at work with as many lines as its depth allows, in the slots of a table in its bounds. -/
def filled : Move :=
  { move (.linkIn 1728 .v1) .linkOut .running with
    depth := 2
    queue := [line false, { line true with slot := 15 }]
    counters := ⟨2, 0, 0, 0, 0, 0, 0, 0, 0, 1, 2⟩ }

theorem test_suppose_filled : filled.room = 0 ∧ (holding filled).path.Ok := by
  have e : (holding filled).path.moves = [filled] := rfl
  refine ⟨rfl, rfl, ?_, ?_, ?_, fun m hm => ?_, ?_, ?_, ?_⟩
  case refine_4 =>
    rw [e, List.mem_singleton] at hm
    rw [hm]
    exact ⟨by decide, by decide, by decide, nofun, rfl⟩
  all_goals rw [e]; decide

theorem test_suppose_StepKeepsTheInvariant :
    ready.Inv ∧ step ready = .next ready
      ∧ (holding filled).Inv ∧ step (holding filled) = .next (holding filled) :=
  ⟨⟨test_suppose_settings, ⟨by decide, nofun, nofun, trivial⟩, ⟨rfl, rfl⟩, ⟨rfl, rfl⟩, Path.powerOn_Ok, rfl⟩, rfl,
    ⟨test_suppose_settings, ⟨by decide, nofun, nofun, trivial⟩, ⟨rfl, rfl⟩, ⟨rfl, rfl⟩, test_suppose_filled.2, rfl⟩,
    rfl⟩

theorem test_suppose_ResetHasTheInvariant :
    PageMemory.wf [(3, ⟨.raw retiredMark, []⟩), (7, ⟨.raw [], [1]⟩)] = true := by decide

/-- A settled state, one in which a rule acts, and moves that enter STARTING and RUNNING. -/
theorem test_suppose_SettleKeeps :
    (powered fun x => { x with idleTimer := .running 60 }).settled = true
      ∧ (ruleIdleTimer ready).isSome = true
      ∧ (let m := move (.linkIn 1728 .v1) (.store 0 .outgoing false false) .pending
        (holding m).move? m.id = some m ∧ m.state = .pending
          ∧ (holding m).admitted? = some 0
          ∧ ((holding m).enterStarting 0).moves.map Move.sink = [.store 1 .outgoing false false])
      ∧ (let m := move (.scan .v2 0) .linkOut .starting
        (holding m).move? m.id = some m
          ∧ ((holding m).enterRunning m).feed.doc = .scanning) := by decide +kernel

theorem test_suppose_FrameBytesReachTheHand :
    ready.Hears ∧ ([3, 0] : List Byte).length ≤ 2304 ∧ (List.replicate 2304 (0 : Byte)).length ≤ 2304 :=
  ⟨test_ready_serves.toHears, by decide, by decide +kernel⟩

theorem test_suppose_LineCodeReadsBack :
    (List.replicate 2048 true).length ≤ 2048 ∧ decodeLine 4 (encodeLine [true, false, false, true])
      = ([true, false, false, true], false) := by decide +kernel

theorem test_suppose_ResetInputs :
    (ready.held = false ∧ ready.startup = .done ∧ ready.resetPhase ≠ .rebuilding
      ∧ ready.power.state ≠ .sleep)
      ∧ State.reset.startup = .format
      ∧ (let s := { ready with held := true }
        s.held = true ∧ s.inputs.fltd = false ∧ s.inputs.fltr = false) := by decide

/-- The power fails between two header writes that are due, and between the FREE marks of a recovery scan. -/
theorem test_reset_inputs_cut_the_writes :
    after (fun s => s.store.memory) (.nrstAsserted 0 1)
        { ready with store := { ready.store with
          memory := [(3, ⟨.raw [1], []⟩), (4, ⟨.raw [1], []⟩)]
          rewrites := [(3, .raw freeMark), (4, .raw freeMark)] } } = some [(4, ⟨.raw [1], []⟩)]
      ∧ after (fun s => s.store.memory) (.nrstAsserted 1 0)
        { State.reset with
          startup := .scan
          store := { State.reset.store with memory := [(3, ⟨.raw [1], []⟩), (4, ⟨.raw [1], []⟩)] } }
        = some [(4, ⟨.raw [1], []⟩)] := by decide +kernel

/-- Header writes of a turn in progress, with another one due behind them. -/
def makingWrites (pfi : Bool) : State :=
  { ready with
    inputs := { ready.inputs with pfi := pfi }
    store := { ready.store with
      memory := [(3, ⟨.raw [1], []⟩), (4, ⟨.raw [1], []⟩)]
      making := [(3, .raw freeMark)]
      rewrites := [(4, .raw freeMark)]
      transfer := some 0 } }

/-- In a turn only its own writes can have begun; PFI stops them once, and in SLEEP it stops nothing. -/
theorem test_reset_inputs_cut_the_turn :
    after (fun s => s.store.memory) (.nrstAsserted 0 2) (makingWrites false) = some [(4, ⟨.raw [1], []⟩)]
      ∧ after (fun s => s.store.memory.length) (.nrstAsserted 0 2) (makingWrites true) = some 2
      ∧ after (fun s => (s.store.memory.length, s.store.transfer)) (.pfiAsserted 0) (makingWrites false)
        = some (2, none)
      ∧ after (fun s => s.store.making.length) (.pfiAsserted 1) (makingWrites true) = some 1
      ∧ after (fun s => (s.store.making.length, s.inputs.pfi)) (.pfiAsserted 1)
        { makingWrites false with power := { ready.power with state := .sleep } } = some (1, true) := by
  decide +kernel

/-- The part with records in its outbound queue. -/
def sending (l : LinkState) (rs : List OutRecord) : State :=
  { ready with link := { ready.link with state := l, outbound := rs } }

def aReport : OutRecord := ⟨.report, 0xE9, 0, [0]⟩
def aReply : OutRecord := ⟨.reply, 0x91, 9, [4]⟩
def aRate : OutRecord := ⟨.linkReply, 0x90, 9, [0, 3]⟩
def someLines : OutRecord := ⟨.linesReply 0 1 false, 0xD4, 9, [0]⟩
def lastLines : OutRecord := ⟨.linesReply 0 0 true, 0xD4, 9, [0]⟩

theorem test_suppose_RecordSentLeavesTheQueue :
    (sending .ready [aReport, aReply]).Sends [] aReport [aReply]
      ∧ (sending .unset [aReport, aReply]).Sends [aReport] aReply []
      ∧ (sending .unset [aReport, aRate]).Sends [aReport] aRate [] :=
  ⟨⟨rfl, nofun, nofun, .inl rfl⟩, ⟨rfl, by decide, fun _ => rfl, .inr (by decide)⟩,
    ⟨rfl, by decide, fun _ => rfl, .inr (by decide)⟩⟩

/-- A frame in hand for which the queue had no place, before and after the end of a record. -/
theorem test_suppose_FramesWaitForAPlace :
    let s (n : Nat) : State := { sending .ready (List.replicate n aReply) with
      link := { (sending .ready (List.replicate n aReply)).link with hand := some ⟨⟨0x37, 9, [0]⟩, .untaken⟩ } }
    (s 16).Sends [] aReply (List.replicate 15 aReply)
      ∧ after (fun s => s.link.outbound.length) .takeCommand (s 16) = some 16
      ∧ after (fun s => (s.link.outbound.length, s.link.hand)) .recordSent (s 16) = some (16, none)
      ∧ after (fun s => (s.link.outbound.length, s.link.hand)) .takeCommand (s 15) = some (16, none) :=
  ⟨⟨rfl, nofun, nofun, .inl rfl⟩, by decide +kernel⟩

/-- The end of the SET_LINK reply, with a partial frame that it discards and a frame that waits. -/
theorem test_suppose_RateReplyEnds :
    let s : State := { sending .ready [aRate] with
      link := { (sending .ready [aRate]).link with
        parser := .header [1]
        hand := some ⟨⟨0x10, 9, [3, 0]⟩, .replied⟩
        rateChange := some .b1000000
        waiting := some ⟨0x99, 8, []⟩ } }
    s.Sends [] aRate []
      ∧ after (fun s => (s.link.parser, s.link.rate)) .recordSent s = some (.hunt, .b1000000)
      ∧ sent .recordSent s = [(0xE7, 0, [1]), (0x19, 8, [1])] :=
  ⟨⟨rfl, nofun, nofun, .inl rfl⟩, by decide +kernel⟩

/-- The end of the reply of a SET_LINK that orders the rate in force leaves a partial frame (log 33). -/
theorem test_suppose_SameRateReplyEnds :
    let s : State := { sending .unset [aRate] with
      link := { (sending .unset [aRate]).link with
        parser := .header [1]
        hand := some ⟨⟨0x10, 9, [0, 0]⟩, .replied⟩
        rateChange := some .b125000 } }
    s.Sends [] aRate []
      ∧ after (fun s => (s.link.parser, s.link.rate, s.link.state)) .recordSent s = some (.header [1], .b125000, .ready)
      ∧ sent .recordSent s = [] :=
  ⟨⟨rfl, nofun, nofun, .inr (by decide)⟩, by decide +kernel⟩

/-- GET_IDENTITY and GET_STATUS in start-up. -/
theorem test_suppose_StatusInStartUp :
    let s : State := { ready with startup := .check }
    s.Hears ∧ s.link.state = .ready ∧ (sent (.getIdentity 9 0) s).map (fun r => (r.1, r.2.2.length)) = [(0x92, 19)]
      ∧ (sent (.getStatus 9 1 0) s).map (fun r => (r.1, r.2.2.take 2)) = [(0x91, [0, 1])]
      ∧ sent (.getStatus 9 2 0) s = [(0x91, 9, [3])] :=
  ⟨⟨⟨rfl, by decide, rfl, rfl⟩, rfl, rfl, rfl, by decide⟩, rfl, by decide +kernel⟩

/-- A SET_LINK in hand completes at a break, another command stays, is taken and answered. -/
theorem test_suppose_BreakUnsetsTheLink :
    let s (type : Byte) := { sending .ready [aReport, aRate] with link :=
      { (sending .ready [aReport, aRate]).link with hand := some ⟨⟨type, 9, [0, 0]⟩, .untaken⟩ } }
    ((s 0x10).held = false ∧ (s 0x10).power.state ≠ .sleep ∧ (s 0x10).power.entry = .none)
      ∧ after (fun s => (s.link.hand, s.link.outbound)) .breakDetected (s 0x10) = some (none, [])
      ∧ sent .breakDetected (s 0x23) = [(0xA3, 9, [4])] := by
  decide +kernel

/-- The part hears in every state of its parser, and every parser state of the clauses is one of these. -/
theorem test_suppose_CharactersDriveTheParser (p : Parser) :
    (ready.setParser p).Listens ∧ (ready.setParser p).link.parser = p :=
  ⟨⟨rfl, by show PowerState.standby ≠ .sleep; decide, rfl, rfl⟩, rfl⟩

theorem test_suppose_LinkFaultsAndReports :
    (ready.setParser (.header [])).link.parser ≠ .hunt
      ∧ ({ ready with link := { ready.link with awaitMark := true } } : State).link.awaitMark = true := by decide

/-- While the part waits for the mark, SYNC, a framing error and a command are passed over (R13). -/
theorem test_suppose_MarkIsAwaited :
    let s : State := { ready with link := { ready.link with awaitMark := true } }
    (s.held = false ∧ s.power.state ≠ .sleep ∧ s.power.entry = .none ∧ (Instr.eject 9 0).frame? = some ⟨0x37, 9, [0]⟩)
      ∧ after (fun t => t.link.parser) (.rxCharacter 0xC3) s = some .hunt
      ∧ sent .framingError s = [] ∧ sent (.eject 9 0) s = [] := by decide +kernel

theorem test_suppose_LinkRefusesBeforeTheBlocks :
    State.reset.link.state = .unset
      ∧ (Instr.eject 9 0).frame? = some ⟨0x37, 9, [0]⟩ ∧ (Instr.eject 9 0).LengthFits
      ∧ (let s := { ready with startup := .check }
        s.link.state = .ready ∧ s.startup ≠ .done) ∧ State.reset.Hears ∧ ({ ready with startup := .check } : State).Hears := by
  refine ⟨rfl, rfl, trivial, by decide, ⟨⟨rfl, by decide, rfl, rfl⟩, rfl, rfl, rfl, by decide⟩,
    ⟨⟨rfl, by decide, rfl, rfl⟩, rfl, rfl, rfl, by decide⟩⟩

theorem test_suppose_TakeCommandChecksAndServes :
    (∀ e ∈ commandLengths, e.1 ≠ 0x99) ∧ (0x37, 1, 1) ∈ commandLengths
      ∧ 16 ≤ (sending .ready (List.replicate 16 aReply)).link.outbound.length := by decide

theorem test_suppose_ProfileAndChannelReplace :
    ready.cfg.df.profiles[7]? = some ⟨3200, 1600, 0, 1, 6400⟩ := by decide

/-- DF under a move, under the feed, resting with and without a user, ramping for the host. -/
theorem test_suppose_StopAndClearByState :
    (withDf { Channel.powerOn with user := some (.move 0) }).Serves
      ∧ (withDf { resting with user := some .host }).Serves
      ∧ ((withDf ramping).Serves ∧ ramping.state = .ramping ∧ ramping.user = some .host
        ∧ ramping.run = .ramp (RampRun.start ⟨4000, 1000, 0, 1, 9600⟩ true 3))
      ∧ (withDf resting).Serves ∧ (withDf Channel.powerOn.enterFault).Serves :=
  ⟨serves_like rfl rfl rfl rfl rfl, serves_like rfl rfl rfl rfl rfl,
    ⟨serves_like rfl rfl rfl rfl rfl, rfl, rfl, rfl⟩, serves_like rfl rfl rfl rfl rfl,
    serves_like rfl rfl rfl rfl rfl⟩

theorem test_suppose_StepMovesOneHalfStep :
    (∃ x : RampRun, ((withDf ramping).channel .df).run = .ramp x ∧ x.forward = true)
      ∧ ∃ x : LineRun, ((withDf lineRunning).channel .df).run = .line x ∧ x.period ≠ none :=
  ⟨⟨_, rfl, rfl⟩, ⟨_, rfl, by decide⟩⟩

/-- A gated line run that stands at a boundary under a move. -/
def atBoundary : Channel :=
  { Channel.powerOn with
    state := .lineHold
    user := some (.move 0)
    run := .line (LineRun.start .v1 ⟨1600, 0, 1⟩ true) }

/-- With the cover open no step is issued and none begins; a boundary that waits turns back to a free run. -/
theorem test_suppose_CoverOpenAndGating :
    after (fun s => s.df.position) (.channelStep .df)
        { withDf ramping with feed := { ready.feed with cover := ⟨true, true, none, true⟩ } } = some 0
      ∧ (let s : State := { withDf { Channel.powerOn with startWaiting := some (.ramp 1 true 5) } with
          power := { ready.power with motor := .on } }
        s.df.startWaiting = some (.ramp 1 true 5) ∧ ((ruleStart .df s).map fun t => t.df.state) = some .ramping
          ∧ ruleStart .df { s with feed := { s.feed with cover := ⟨true, true, none, true⟩ } } = none)
      ∧ (atBoundary.startWaiting = none ∧ atBoundary.releasing = false
        ∧ atBoundary.run = .line (LineRun.start .v1 ⟨1600, 0, 1⟩ true)
        ∧ (atBoundary.setGating false).state = .lineRun) := by decide +kernel

/-- A run still kept as the start waiting takes a change of gating, and an end order drops it. -/
theorem test_suppose_OrdersMeetARunThatWaits :
    let c : Channel := { Channel.powerOn with
      user := some (.move 0)
      startWaiting := some (.line .v2 false) }
    c.run = .none ∧ (c.setGating true).startWaiting = some (.line .v2 true) ∧ (c.endLine 200).startWaiting = none := by
  decide

theorem test_suppose_PositionChangesOnlyAtSteps :
    after (fun s => (s.df.position, s.df.phase)) .framingError ready = some (0, 0) := by decide +kernel

/-- Deceleration, acceleration, cruise and plateau. -/
theorem test_suppose_StepPeriods :
    let x (q a r : Nat) : RampRun := ⟨⟨4000, 1000, 0, 1, 9600⟩, true, 64000, 16000, q, a, r, 0, 0, false⟩
    (x 16000 5 5).r ≤ (x 16000 5 5).a
      ∧ ((x 64000 0 20).a + 1 < (x 64000 0 20).r ∧ (x 64000 0 20).qt < (x 64000 0 20).q)
      ∧ ((x 16000 5 15).a < (x 16000 5 15).r ∧ (x 16000 5 15).q = (x 16000 5 15).qt)
      ∧ (x 44800 2 3).r = (x 44800 2 3).a + 1 ∧ (x 44800 2 3).q ≠ (x 44800 2 3).qt := by decide

theorem test_suppose_HoldAndDriverFaultEvents :
    ((withDf resting).channel .df).holdTimer ≠ none ∧ (ready.channel .rf).state ≠ .fault
      ∧ ((withDf Channel.powerOn.enterFault).channel .df).state = .fault := by decide

/-- A scan move with a slot granted. -/
def scanMove : Move := { move (.scan .v1 0) .linkOut .running with granted := some 0 }

/-- A driver fault under the move that DF runs for, with the sheet under way, and a second one in FAULT. -/
theorem test_suppose_DriverFaultFailsTheMove :
    let s := { holding scanMove with
      df := { ramping with user := some (.move 0) }
      feed := { ready.feed with doc := .scanning, docEntry := ⟨true, true, none, true⟩ } }
    scanMove ∈ s.moves ∧ (s.moves.map Move.id).Nodup ∧ scanMove.live = true ∧ s.df.user = some (.move scanMove.id)
      ∧ after (fun s => (s.moves.map Move.cause, s.feed.doc)) (.driverFault .df true) s
        = some ([some .motorFault], .jammed)
      ∧ after (fun s => s.inputs.fltd) (.driverFault .df false)
        { withDf Channel.powerOn.enterFault with inputs := { ready.inputs with fltd := true } } = some false := by
  decide +kernel

/-- Feed control with its sensors or its document changed. -/
def feeding (f : Feed → Feed) : State := { ready with feed := f ready.feed }

theorem test_suppose_SensorsAndSheets :
    ready.inputs.sensor .paper ≠ true
      ∧ ((feeding fun x => { x with docEntry := turning true }).feed.sensor .docEntry).timer ≠ none
      ∧ (feeding fun x => { x with docEntry := turning true }).feedHeld = false
      ∧ (feeding fun x => { x with settle := .running 300 }).feed.settle = .running 300
      ∧ (ready.feed.sensor .docScan).known = false := by decide

/-- The part with the sheet in a sequence under DF. -/
def sheet (doc : DocState) (seq : FeedSeq) (c : Channel) : State :=
  { feeding fun x => { x with doc := doc, seq := seq } with df := { c with user := some .feed } }

/-- A ramped move of DF with one step to go. -/
def lastStep : Channel :=
  { ramping with run := .ramp (RampRun.start ⟨4000, 1000, 0, 1, 9600⟩ true 1) }

theorem test_suppose_FeedSequences :
    (ruleFeedGranted (sheet .settling .none Channel.powerOn)).map (fun s => s.feed.doc) = some .loading
      ∧ (ruleFeedGranted (sheet .ejecting .none Channel.powerOn)).map (fun s => s.feed.seq)
        = some (.eject true)
      ∧ after (fun s => s.feed.doc) (.channelStep .df) (sheet .loading (.align 24) lastStep) = some .loaded
      ∧ after (fun s => s.feed.seq) (.channelStep .df) (sheet .loading (.seek 24 (some 3)) lastStep)
        = some (.align 24)
      ∧ after (fun s => s.feed.doc) (.channelStep .df) (sheet .loading (.seek 24 none) lastStep) = some .none
      ∧ after (fun s => s.feed.doc) (.channelStep .df) (sheet .ejecting (.eject true) lastStep) = some .none
      ∧ after (fun s => s.feed.seq) (.channelStep .df) (sheet .scanning (.gapSeek 24 2000 5) lineRunning)
        = some (.gapSeek 24 2000 6)
      ∧ after (fun s => s.feed.seq) (.channelStep .df) (sheet .scanning (.gapSeek 24 6 5) lineRunning)
        = some .none := by decide +kernel

/-- The last step of a ramp and of a stopped line hands the channel to the next user, or starts the hold. -/
theorem test_suppose_ChannelsPassOn :
    let c (queue : List User) : Channel := { lastStep with
      user := some (.move 0)
      releasing := true
      queue := queue }
    let stopped : Channel := { lineRunning with
      user := some (.move 0)
      releasing := true
      run := .line { LineRun.start .v1 ⟨1600, 0, 1⟩ true with
        stopOrdered := true
        period := some 1600
        stepsLeft := 2 } }
    after (fun s => (s.df.state, s.df.user, s.df.queue)) (.channelStep .df) (withDf (c [.feed, .move 1]))
        = some (.holding, some .feed, [.move 1])
      ∧ after (fun s => (s.df.state, s.df.user)) (.channelStep .df) (withDf stopped) = some (.holding, none)
      ∧ (withDf stopped).feed.seq = .none ∧ (withDf stopped).feed.cover.debounced = false := by decide +kernel

/-- A request that waits, one that is refused, one made twice, and the grants when a user gives up its channel. -/
theorem test_suppose_ChannelRequests :
    let s (c : Channel) (cover : Bool) : State := { holding { scanMove with state := .starting } with
      df := c
      feed := { ready.feed with
        doc := .loaded
        cover := ⟨cover, cover, none, true⟩ } }
    let asked (c : Channel) (cover : Bool) : Channel := ((s c cover).moveRequest .df 0).df
    let ended (c : Channel) (cover : Bool) := ((s c cover).moveRequest .df 0).moves.map Move.cause
    ((asked Channel.powerOn false).user = some (.move 0) ∧ (asked ramping false).queue = [.move 0]
        ∧ asked { ramping with queue := [.move 0] } false = { ramping with queue := [.move 0] })
      ∧ (ended Channel.powerOn true = [some .coverOpen] ∧ ended Channel.powerOn.enterFault true = [some .motorFault])
      ∧ ((s Channel.powerOn false).moves.map Move.id).Nodup
      ∧ (((s Channel.powerOn false).moves.filter fun n => n.isScan && n.state == .starting).length = 1
        ∧ (ruleScanRequest (s Channel.powerOn false)).map (fun t => t.df.user) = some (some (.move 0)))
      ∧ ((sheet .ejecting .none ramping).feedRequest.df.queue = []
        ∧ ({ sheet .ejecting .none ramping with df := ramping } : State).feedRequest.df.queue = [.feed]
        ∧ ({ sheet .ejecting .none ramping with df := Channel.powerOn.enterFault } : State).feedRequest.feed.doc = .none)
      ∧ (let c : Channel := { resting with
          user := some .feed
          queue := [.move 0, .feed] }
        (c.giveUp .feed 5).user = some (.move 0) ∧ (c.giveUp .feed 5).queue = []
          ∧ ({ c with queue := [] }.giveUp .feed 5).user = none ∧ (c.giveUp (.move 0) 5).queue = [.feed]
          ∧ (atBoundary.giveUp (.move 0) 50).holdTimer = some 50
          ∧ (ramping.giveUp .host 5).releasing = true) := by decide +kernel

/-- The sheet is drawn out while it settles, and the last sensor of a JAMMED document clears. -/
theorem test_suppose_SheetsAreTakenAway :
    let s (doc : DocState) (entry scan : Sensor) : State := feeding fun x => { x with
      doc := doc
      docEntry := entry
      docScan := scan }
    let on : Sensor := ⟨true, true, none, true⟩
    let off : Sensor := ⟨false, false, none, true⟩
    let doc (id : SensorId) (t : State) := after (fun t => t.feed.doc) (.debounceExpiry id) t
    ((s .settling (turning false) off).feed.docEntry.timer ≠ none ∧ (s .settling (turning false) off).feedHeld = false
        ∧ (turning false).known = true ∧ (turning false).reading = false)
      ∧ (doc .docEntry (s .settling (turning false) off) = some .none
        ∧ sent (.debounceExpiry .docEntry) (s .settling (turning false) off) = [(0xE3, 0, [0, 1, 0, 0])])
      ∧ (doc .docEntry (s .jammed (turning false) off) = some .none
        ∧ doc .docEntry (s .jammed (turning false) on) = some .jammed)
      ∧ (doc .docScan (s .jammed off (turning false)) = some .none
        ∧ doc .docScan (s .jammed on (turning false)) = some .jammed)
      ∧ doc .docEntry (s .loaded (turning true) on) = some .loaded := by decide +kernel

/-- The part with a sheet in the entry, under a sequence of FDC, and DOC_SCAN about to be taken. -/
def sensing (doc : DocState) (seq : FeedSeq) (waiting : Option Order) (present : Bool) : State :=
  { feeding fun x => { x with
      doc := doc
      seq := seq
      docEntry := ⟨true, true, none, true⟩
      docScan := turning present } with
    df := { Channel.powerOn with
      user := some .feed
      startWaiting := waiting } }

/-- The document, its sequence and the order of DF once DOC_SCAN has been taken. -/
def sensed (s : State) : Option (DocState × FeedSeq × Option Order) :=
  after (fun t => (t.feed.doc, t.feed.seq, t.df.startWaiting)) (.debounceExpiry .docScan) s

/-- DOC_SCAN in a SEEK and in an EJECT that wait for MOTOR. -/
theorem test_suppose_ScanSensorBeforeTheFirstStep :
    let s := sensing .loading (.seek 24 none) (some (.ramp 1 true 2000)) true
    (s.feed.docScan.timer ≠ none ∧ s.feedHeld = false ∧ s.scan.shading = .none ∧ s.df.startWaiting ≠ none)
      ∧ sensed s = some (.loading, .align 24, some (.ramp 1 true 24))
      ∧ sensed (sensing .loading (.seek 0 none) (some (.ramp 1 true 2000)) true) = some (.loaded, .none, none)
      ∧ sensed (sensing .ejecting (.eject true) (some (.ramp 2 true 600)) true)
        = some (.ejecting, .eject false, some (.ramp 2 true 600)) := by decide +kernel

/-- DOC_SCAN in a SEEK that decelerates, in a gap with no offset, and in a document that no sequence moves. -/
theorem test_suppose_ScanSensorOtherwise :
    sensed (sensing .loading (.seek 24 (some 3)) none false) = some (.loading, .seek 24 (some 3), none)
      ∧ sensed (sensing .scanning (.gapSeek 0 2000 5) none true) = some (.scanning, .gapAlign 0 0, none)
      ∧ sensed (sensing .loaded .none none true) = some (.loaded, .none, none)
      ∧ (sensed (sensing .settling .none none false)).map (fun x => x.1) = some .loading := by decide +kernel

/-- An eject asks for DF, also with the cover open, and the gap is over when the run of DF has become gated. -/
theorem test_suppose_EjectAsksAndGapEnds :
    let eject : State := feeding fun x => { x with doc := .ejecting }
    let gap : State := sheet .scanning (.gapAlign 24 30) atBoundary
    (eject.feed.seq = .none ∧ eject.feedHeld = false ∧ .feed ∉ eject.df.queue
        ∧ (ruleFeedRequest eject).map (fun t => t.df.user) = some (some .feed)
        ∧ (ruleFeedRequest { eject with feed := { eject.feed with cover := ⟨true, true, none, true⟩ } }).map
          (fun t => t.feed.doc) = some .none
        ∧ ruleFeedRequest (sheet .ejecting .none Channel.powerOn) = none)
      ∧ (gap.df.startWaiting = none ∧ (ruleGapOver gap).map (fun t => t.feed.seq) = some .none
        ∧ ruleGapOver ready = none) := by decide +kernel

/-- The cover closes, with its report, and a load that waits for it asks for DF. -/
theorem test_suppose_CoverCloses :
    let s (cover : Sensor) : State := feeding fun x => { x with
      cover := cover
      doc := .settling
      settle := .expired }
    ((s (turning false)).feed.cover.timer ≠ none ∧ (s (turning false)).feedHeld = false
        ∧ .feed ∉ (s (turning false)).df.queue)
      ∧ sent (.debounceExpiry .cover) (s (turning false)) ≠ []
      ∧ after (fun s => s.df.user) (.debounceExpiry .cover) (s (turning false)) = some (some .feed)
      ∧ ruleFeedRequest (s ⟨true, true, none, true⟩) = none := by decide +kernel

theorem test_suppose_CoverOpeningStopsTheMechanism :
    let s := feeding fun x => { x with cover := turning true, doc := .loading }
    s.feedHeld = false ∧ s.feed.cover.timer ≠ none ∧ s.feed.cover.reading = true ∧ s.feed.doc = .loading := by
  decide

/-- A first reading that finds the cover open, and a change to OPEN, under a shading run and a scan move. -/
theorem test_suppose_CoverFailsTheMoves :
    let s (sensor : Sensor) : State := { holding scanMove with
      feed := { ready.feed with cover := sensor }
      scan := { ready.scan with shading := .waiting ScanSettings.powerOn }
      link := { ready.link with hand := some ⟨⟨0x41, 9, [0]⟩, .handed⟩ } }
    let first := s ⟨true, false, none, false⟩
    let change := s (turning true)
    (first.feed.cover.known = false ∧ first.feedHeld = false ∧ scanMove ∈ first.moves ∧ scanMove.active = true
        ∧ scanMove.isScan = true)
      ∧ after (fun s => s.moves.map Move.cause) (.firstReadingsSteady .cover) first = some [some .coverOpen]
      ∧ (sent (.firstReadingsSteady .cover) first).any (fun r => r.1 == 0xE4) = false
      ∧ (0xC1, 9, [0x06]) ∈ sent (.firstReadingsSteady .cover) first
      ∧ (0xE4, 0, [0, 1]) ∈ sent (.debounceExpiry .cover) change := by decide +kernel

theorem test_suppose_TextModeDecides :
    (captureLine ScanSettings.powerOn 0 [52, 52] [25, 30]) = [true, false]
      ∧ (captureLine { ScanSettings.powerOn with threshold := 1 } 0 [52] [4]) = [true]
      ∧ (captureLine { ScanSettings.powerOn with threshold := 63 } 0 [52] [60]) = [false] := by decide

theorem test_suppose_ShadingAndHalftone :
    (captureLine { ScanSettings.powerOn with halftone := true } 2 (List.replicate 7 52) (List.replicate 7 30))
      = [false, true, false, true, false, true, false] := by decide

theorem test_suppose_CaptureEvents :
    let s := { holding scanMove with scan := { ready.scan with capture := .writing context } }
    s.scan.capture = .writing context ∧ (List.replicate 1728 (63 : Pixel)).length = s.headWidth
      ∧ s.move? context.move = some scanMove ∧ scanMove.flowing = true
      ∧ scanMove.granted = some context.slot ∧ s.feed.tail = none ∧ s.scan.lineCounter + 1 < 8191
      ∧ ready.move? context.move = none := by decide +kernel

/-- The tail of the sheet passes the scan sensor, and the page ends at its count. -/
theorem test_suppose_TailAndPageEnd :
    let s := { holding { scanMove with
        granted := none
        queue := [line false]
        srcLines := 1 } with
      df := atBoundary
      feed := { ready.feed with
        doc := .scanning
        docEntry := ⟨false, false, none, true⟩
        docScan := turning false
        tailOffset := 24 } }
    (s.scanning?.isSome = true ∧ s.df.gatedRun = true ∧ s.feed.tail = none ∧ s.feedHeld = false)
      ∧ after (fun s => s.feed.tail) (.debounceExpiry .docScan) s = some (some 6)
      ∧ after (fun s => s.moves.map Move.state) (.debounceExpiry .docScan)
        { s with feed := { s.feed with tailOffset := 0 } } = some [.draining] := by decide +kernel

/-- The white line of an empty scan page, at the move's line width and fitted to the head for a print, and the header
lines that come due after it. -/
theorem test_suppose_WhiteLineOfAnEmptyPage :
    let m : Move := { scanMove with
      granted := none
      blankDue := 1 }
    let widths (m : Move) : List Nat := ((holding m).blankPage m).moves.flatMap fun n =>
      n.queue.map fun l => l.dots.length
    ((holding m).move? 0 = some m ∧ m.source = .scan .v1 0 ∧ m.headerLeft = 0 ∧ 0 < m.room)
      ∧ (widths m = [1728] ∧ widths { m with sink := .print } = [1728])
      ∧ (ruleBlankPage (holding m)).map (fun t => t.moves.map Move.blankDue) = some [0]
      ∧ ruleBlankPage (holding scanMove) = none := by decide +kernel

/-- A shading run ends when the sheet comes to the sensor, and one that waits when the lamp is not lit. -/
theorem test_suppose_ShadingRunEnds :
    let hand := { ready.link with hand := some ⟨⟨0x41, 9, [0]⟩, .handed⟩ }
    (0xC1, 9, [0x10]) ∈ sent (.debounceExpiry .docScan)
        { ready with
          link := hand
          scan := { ready.scan with shading := .measuring ScanSettings.powerOn 3 [] }
          feed := { ready.feed with docEntry := ⟨false, false, none, true⟩, docScan := turning true } }
      ∧ (let s := { ready with
          link := hand
          scan := { ready.scan with shading := .waiting ScanSettings.powerOn }
          power := { ready.power with scan := .starting } }
        s.power.scan = .starting ∧ (0xC1, 9, [0x12]) ∈ sent (.lampWarmUpExpiry 4) s) := by decide +kernel

/-- A shading run that waits measures as soon as SCAN is ON and no capture is under way. -/
theorem test_suppose_ShadingRunBegins :
    let s (scan : DomainState) (capture : Capture) : State := { powered fun x => { x with scan := scan } with
      scan := { ready.scan with
        shading := .waiting ScanSettings.powerOn
        capture := capture } }
    (ruleMeasure (s .on .idle)).map (fun t => t.scan.shading)
        = some (.measuring ScanSettings.powerOn 0 (List.replicate 1728 0))
      ∧ ruleMeasure (s .starting .idle) = none ∧ ruleMeasure (s .on (.writing context)) = none
      ∧ ruleMeasure ready = none := by decide +kernel

theorem test_suppose_ShadingRunMeasures :
    let x : Scan := { ready.scan with
      shading := .measuring ScanSettings.powerOn 7 (List.replicate 1728 350) }
    let s : State := { ready with
      scan := x
      link := { ready.link with hand := some ⟨⟨0x41, 9, [0]⟩, .handed⟩ } }
    s.scan.shading = .measuring ScanSettings.powerOn 7 (List.replicate 1728 350)
      ∧ s.link.hand = some ⟨⟨0x41, 9, [0]⟩, .handed⟩
      ∧ sent (.shadingLineRead (List.replicate 1728 50)) s = [(0xC1, 9, [0, 0, 0])] := by decide +kernel

/-- A print move of one line that is strobed. -/
def printMove : Move := { move (.linkIn 1728 .v1) .print .running with queue := [line false] }

theorem test_suppose_HeadEvents :
    let s := { holding printMove with print := { ready.print with cut := .pulse 80 } }
    s.move? headLine.move = some printMove ∧ printMove.isPrint = true ∧ printMove.flowing = true
      ∧ printMove.queue = [line false] ∧ (line false).slot = headLine.slot
      ∧ s.serving? = some printMove ∧ ready.serving? = none ∧ ready.move? headLine.move = none
      ∧ (let t := { s with feed := { s.feed with paper := ⟨true, true, none, true⟩ } }
        t.serving? = some printMove ∧ t.move? printMove.id = some printMove ∧ printMove.isLinkIn = true
          ∧ printMove.paperOut = false ∧ t.feed.paper.debounced = true
          ∧ after (fun s => s.moves.map fun m => m.counters.pagesCompleted) .cutterPulseEnd t = some [1]) := by
  decide +kernel

/-- The idle timer starts in an idle part and stops in one that is not; the power state follows the domains; the
oldest move that may enters RUNNING; a state in which nothing more follows. -/
theorem test_suppose_TimersAndStatesFollow :
    let busy : State := { holding printMove with power := { ready.power with idleTimer := .running 60 } }
    let lit : State := powered fun x => { x with scan := .starting }
    let starting : Move := move (.linkIn 1728 .v1) .linkOut .starting
    (ready.idle = true ∧ ready.cfg.power.idleTime = 60 ∧ ready.power.idleTimer = .stopped
        ∧ (ruleIdleTimer ready).map (fun t => t.power.idleTimer) = some (.running 60))
      ∧ (busy.idle = false ∧ (ruleIdleTimer busy).map (fun t => t.power.idleTimer) = some .stopped)
      ∧ (lit.power.state ≠ lit.power.computed
        ∧ (rulePowerState lit).map (fun t => t.power.state) = some .run ∧ rulePowerState ready = none)
      ∧ ((holding starting).move? 0 = some starting ∧ starting.isPrint = false ∧ starting.isScan = false
        ∧ (ruleRun (holding starting)).map (fun t => t.moves.map Move.state) = some [.running]
        ∧ ruleRun ready = none)
      ∧ ready.settle.settled = true ∧ ready.settle.power.idleTimer = .running 60 := by decide +kernel

/-- Paper taken ABSENT while RF waits at a boundary, runs a line, or stands for the cut. -/
theorem test_suppose_PaperRunsOut :
    let s (cut : CutState) (c : Channel) : State := { holding printMove with
      rf := { c with user := some (.move 0) }
      print := { ready.print with cut := cut }
      feed := { ready.feed with paper := turning false } }
    ((s .none atBoundary).serving? = some printMove ∧ (s .none lineRunning).rf.state = .lineRun
        ∧ (s (.pulse 80) atBoundary).print.cut ≠ .none ∧ ((s .none atBoundary).moves.map Move.id).Nodup)
      ∧ after (fun s => s.moves.map Move.paperOut) (.debounceExpiry .paper) (s .none lineRunning) = some [true]
      ∧ after (fun s => s.moves.map Move.paperOut) (.debounceExpiry .paper) (s (.pulse 80) atBoundary) = some [false]
      ∧ after (fun s => s.moves.map Move.cause) (.debounceExpiry .paper)
        (holding { printMove with state := .starting, queue := [] }) = some [none]
      ∧ after (fun s => s.moves.map Move.cause) (.debounceExpiry .paper)
        { s .none Channel.powerOn with path := { ready.path with
          table := [some { printMove with state := .starting, queue := [] }, none, none, none] } }
        = some [some .paperOut] := by decide +kernel

/-- A print from a held document of two pages, one printed: at the end of the cut it is spent, or out of paper. -/
theorem test_suppose_CutEnds :
    let m (state : MoveState) (queue : List SlotLine) : Move :=
      { move (.store 5 1 2) .print state with queue := queue }
    let d := { document with pages := [page, { page with index := 2, printed := true }], hold := true }
    let s (m : Move) (paper : Bool) : State := { holding m with
      store := (storing d).store
      print := { ready.print with cut := .pulse 80 }
      feed := { ready.feed with paper := ⟨paper, paper, none, true⟩ } }
    ((s (m .draining []) true).serving? = some (m .draining [])
        ∧ d.page? 1 = some page ∧ page.printed = false ∧ (d.page? 2).map Page.printed = some true)
      ∧ after (fun s => s.moves.map Move.state) .cutterPulseEnd (s (m .draining []) true) = some [.done]
      ∧ after (fun s => s.moves.map Move.cause) .cutterPulseEnd (s (m .draining [line true]) false)
        = some [some .paperOut]
      ∧ after (fun s => s.moves.map Move.state) .cutterPulseEnd (s (m .running []) true) = some [.running]
      ∧ ((storing d).store.pagePrinted 5 1).directory.map Document.hold = [false]
      ∧ ((storing { d with closed := false }).store.pagePrinted 5 1).directory.map Document.hold = [true] := by
  decide +kernel

theorem test_suppose_LineRuns :
    (atBoundary.endLine 200).state = .holding
      ∧ (let s := { holding { scanMove with granted := none } with df := atBoundary }
        s.df.state = .lineHold ∧ s.df.releasing = false ∧ s.scan.lineCounter < 8191
          ∧ (s.moves.map fun m => (m.room, m.headerLeft, m.blankDue)) = [(4, 0, 0)]
          ∧ ((ruleScanGrant s).map fun t => t.df.state) = some .lineRun)
      ∧ (let s := { holding printMove with
          rf := atBoundary
          print := { ready.print with load := .loaded headLine } }
        s.serving? = some printMove ∧ s.print.strobe = .idle
          ∧ ((rulePrintGrant s).map fun t => t.print.inStrobe) = some true) := by decide +kernel

theorem test_suppose_LoadAndCut :
    ((holding printMove).serving? = some printMove ∧ ready.print.load = .empty
        ∧ (holding printMove).untakenLines printMove = [line false])
      ∧ (let s := { holding { printMove with cutDue := true } with
          rf := { resting with user := some (.move 0), holdTimer := none } }
        ((ruleCut s).map fun t => (t.print.cut, t.rf.startWaiting)) = some (.feed 80, some (.ramp 1 true 240)))
      ∧ (let s := { holding printMove with
          rf := { lastStep with user := some (.move 0) }
          print := { ready.print with cut := .feed 80 } }
        after (fun s => s.print.cut) (.channelStep .rf) s = some (.pulse 80)) := by decide +kernel

/-- RF at rest under the serving move: it orders the run for its next page, or acts on the paper-out. -/
theorem test_suppose_PrintRunsAndPaperOut :
    let s (m : Move) (cut : CutState) : State := { holding m with
      rf := { resting with
        user := some (.move 0)
        holdTimer := none }
      print := { ready.print with cut := cut } }
    let out : Move := { printMove with paperOut := true }
    ((s printMove .none).serving? = some printMove ∧ (s printMove .none).rf.startWaiting = none
        ∧ (rulePrintRun (s printMove .none)).map (fun t => t.rf.startWaiting) = some (some (.line .v1 true))
        ∧ rulePrintRun (s printMove (.pulse 80)) = none
        ∧ rulePrintRun (s { printMove with state := .draining, queue := [] } .none) = none)
      ∧ ((s out .none).serving? = some out ∧ rulePrintRun (s out .none) = none
        ∧ (rulePaperOut (s out .none)).map (fun t => t.moves.map Move.cause) = some [some .paperOut]
        ∧ rulePaperOut (s { out with cutDue := true } .none) = none ∧ rulePaperOut ready = none) := by decide +kernel

theorem test_suppose_StrobePhases : ([10, 200, 40, 50, 0, 100, 60, 20] : List Nat).length = 8 := rfl

/-- The outputs of a part that steps, strobes, shifts, latches and cuts. -/
theorem test_suppose_OutputsFollowTheState :
    let on : State := powered fun x => { x with
      print := .on
      motor := .on
      scan := .starting }
    let s : State := { holding printMove with
      power := on.power
      df := { ramping with phase := 7 }
      print :=
        { load := .loading headLine
          strobe := .strobing headLine false [⟨[2, 3], 10⟩] false 800 40
          cut := .pulse 80 } }
    (s.held = false ∧ s.move? headLine.move = some printMove ∧ printMove.queue = [] ++ line false :: []
        ∧ (line false).slot = headLine.slot)
      ∧ (s.phaseOutputs .df = ⟨true, false, false, true⟩ ∧ s.phaseOutputs .rf = ⟨false, false, false, false⟩)
      ∧ (s.enable .motor = true ∧ s.lamp = true ∧ s.cutter = true ∧ ready.cutter = false)
      ∧ (s.strobeLine 2 = true ∧ s.strobeLine 4 = false)
      ∧ (s.headData = some [false, true, false] ∧ s.headClock = true)
      ∧ (s.headLatch on = true ∧ s.headLatch s = false ∧ on.headLatch s = false) ∧ s.txd = none := by decide +kernel

theorem test_suppose_Reduction :
    (List.replicate 2048 true).length = 2048 ∧ (List.replicate 1728 true).length = 1728
      ∧ (reduceLine (List.replicate 2048 true)).length = 1728
      ∧ centreLine (List.replicate 1728 true)
        = List.replicate 160 false ++ List.replicate 1728 true ++ List.replicate 160 false := by decide +kernel

theorem test_suppose_DecoderRepairs :
    decodeRuns 0 false [100, 3, 195, 255] = none ∧ decodeRuns 0 false [50, 10, 255] = some [50, 10]
      ∧ decodeRuns 0 false [0, 200, 40, 10, 255] = some [0, 1768, 10] := by decide

/-- A request from the host's lines to a new document. -/
def request : MoveRequest := ⟨.linkIn 1728 .v1, .store 0 .outgoing false false, 4, .v1, false, false, false, false⟩

theorem test_suppose_StartMoveAcceptsOrRefuses :
    requestOf 1 2 4 0 0 0 0 0 0 0 1728 0 1 0 0 0 = some request ∧ ready.moveProblem request = none
      ∧ requestOf 3 2 4 0 0 0 0 0 0 0 1728 0 1 0 0 0 = none
      ∧ ready.moveProblem { request with sink := .linkOut } = some .badRoute
      ∧ ready.path.table.findIdx? Option.isNone = some 0 := by decide +kernel

theorem test_suppose_StartMoveChecks :
    (storing document).sourceProblem { request with source := .store 5 1 1, sink := .print } = none
      ∧ ready.sourceProblem { request with source := .store 5 1 1, sink := .print } = some .noSuchDoc
      ∧ (storing { document with closed := false }).sinkProblem
        { request with sink := .store 5 .received false false } = none := by decide +kernel

theorem test_suppose_AbortAndStatus :
    let m := move (.linkIn 1728 .v1) .print .pending
    (holding m).Serves ∧ (holding m).moveNumbered? 7 = some m ∧ m.live = true
      ∧ (holding { m with state := .done }).moveNumbered? 7 = some { m with state := .done }
      ∧ ready.moveNumbered? 7 = none ∧ (holding m).move? 0 = some m :=
  ⟨serves_like rfl rfl rfl rfl rfl, by decide⟩

/-- A move that ends in PENDING leaves its named document OPEN, one that ends in RUNNING closes it. -/
theorem test_suppose_PendingMoveLeavesItsDocument :
    let s (state : MoveState) : State :=
      { holding (move (.linkIn 1728 .v1) (.store 5 .outgoing false true) state) with
        store := (storing { document with closed := false }).store }
    (s .pending).Serves ∧ (s .pending).moveNumbered? 7 ≠ none
      ∧ after (fun s => s.store.directory.map Document.closed) (.abortMove 9 7 0) (s .pending) = some [false]
      ∧ after (fun s => s.store.directory.map Document.closed) (.abortMove 9 7 0) (s .running) = some [true] :=
  ⟨serves_like rfl rfl rfl rfl rfl, by decide +kernel⟩

theorem test_suppose_LineDataByCases :
    let m := move (.linkIn 1728 .v1) (.store 5 .outgoing false false) .running
    (holding m).Serves ∧ (holding m).moveNumbered? 7 = some m ∧ (holding m).move? m.id = some m
      ∧ m.isLinkIn = true ∧ m.headerLeft = 0
      ∧ sent (.lineData 9 7 0 0 0 [255]) (holding { m with srcLines := 8190 }) = [(0xD3, 9, [0x13, 4])]
      ∧ sent (.lineData 9 7 0 0 0 [255]) (holding { m with state := .draining }) = [(0xD3, 9, [0x0C, 4])]
      ∧ sent (.lineData 9 7 0 0 0 [255]) (holding { m with state := .starting }) ≠ []
      ∧ sent (.lineData 9 7 0 0 1 [255]) (holding m) = [(0xD3, 9, [0x03, 4])] :=
  ⟨serves_like rfl rfl rfl rfl rfl, by decide +kernel⟩

theorem test_suppose_LinesEnterTheQueue :
    let m := move (.linkIn 1728 .v2) (.store 5 .outgoing false false) .running
    m.isScan = false ∧ mergeFactor .v1 m.target = 1 ∧ mergeFactor .v2 .v1 ≠ 1
      ∧ (∀ x ∈ m.queue, x.state ≠ .heldBack)
      ∧ 2 < mergeFactor .v4 .v1 ∧ mergeFactor .v2 .v1 ≤ 1 + 1 := by decide

/-- A scan line held back, and the line behind it, at the factors 1, 2 and 4. -/
theorem test_suppose_ScanLinesAreHeldBack :
    let m : Move := { move (.scan .v2 0) .print .running with queue := [{ line false with state := .heldBack }] }
    m.isScan = true ∧ mergeFactor .v1 m.target = 1
      ∧ ((m.enter 1728 1 .v1 [true] false).queue.map SlotLine.state) = [.ready, .heldBack]
      ∧ (m.enter 1728 1 .v2 [true] false).merge = 1
      ∧ (let n := { m with queue := [{ line false with state := .opened }], merge := 1 }
        ((n.enter 1728 1 .v2 [true, false, false] false).queue.map SlotLine.state) = [.heldBack]
          ∧ (n.enter 1728 1 .v4 [true, false, false] false).merge = 2) := by decide +kernel

/-- The end of a reply that carried the last line of a page, and lines behind it. -/
theorem test_suppose_LinesSentEndThePage :
    let m : Move := { move (.store 5 1 1) .linkOut .running with queue := [line true, line false] }
    let s := { holding m with link := { ready.link with outbound := [someLines] } }
    s.Sends [] someLines [] ∧ s.move? 0 = some m ∧ (line true).pageEnd = true ∧ m.flowing = true
      ∧ after (fun s => s.moves.map fun m => (m.queue.length, m.counters.pagesCompleted)) .recordSent s
        = some [(1, 1)] :=
  ⟨⟨rfl, nofun, nofun, .inl rfl⟩, by decide +kernel⟩

theorem test_suppose_ReadLinesSendsAndDelivers :
    let m := { move (.store 5 1 1) .linkOut .running with queue := [line false] }
    let s := { holding m with link := { ready.link with outbound := [someLines] } }
    (holding m).Serves ∧ (holding m).moveNumbered? 7 = some m ∧ m.sink = .linkOut ∧ m.live = true
      ∧ s.Sends [] someLines [] ∧ s.move? 0 = some m ∧ m.flowing = true ∧ 1 ≤ m.queue.length
      ∧ (∀ l ∈ m.queue.take 1, l.pageEnd = false)
      ∧ (sending .ready [lastLines]).Sends [] lastLines [] :=
  ⟨serves_like rfl rfl rfl rfl rfl, rfl, rfl, rfl, ⟨rfl, nofun, nofun, .inl rfl⟩, rfl, rfl, by decide, by decide,
    ⟨rfl, nofun, nofun, .inl rfl⟩⟩

theorem test_suppose_HeaderLoadsAndEmits :
    (HeaderBuffer.mk 1728 2 [255, 200, 0, 255]).lines = [[255], [200, 0, 255]]
      ∧ ready.moves.any (fun m => m.live && m.withHeader) = false
      ∧ (holding { move (.linkIn 1728 .v1) .print .pending with withHeader := true }).moves.any
        (fun m => m.live && m.withHeader) = true
      ∧ (let m := { move (.linkIn 1728 .v1) .print .running with withHeader := true, headerLeft := 1 }
        let s := { holding m with path := { (holding m).path with header := some ⟨1728, 1, [200, 0, 255]⟩ } }
        (ruleHeader s).isSome = true ∧ m.blankDue = 0) := by decide +kernel

theorem test_suppose_DocumentsAreCreatedAndListed :
    (storing document).Serves ∧ (storing document).store.directory.length < 64
      ∧ sent (.createDoc 9 1 0 0) { storing document with
        store := { (storing document).store with lastDoc := 65535 } } = [(0xE0, 9, [0, 1, 0])]
      ∧ sent (.createDoc 9 1 0 0) { ready with
        store := { ready.store with directory := List.replicate 64 document } } = [(0xE0, 9, [0x0E])] :=
  ⟨serves_like rfl rfl rfl rfl rfl, by decide +kernel⟩

/-- A paper-out diverts a page partly printed (R142: 401 lines of page 2, as in 7.16) and one with no line delivered,
and opens either at the switch (R153); an index above 255 fails the move; the end of the diverted move closes its
document. -/
theorem test_suppose_Fallback :
    let m (page lines : Nat) := { printMove with
      fallback := true
      paperOut := true
      counters := ⟨0, 0, 0, 0, 0, 0, 0, 0, 0, page, lines⟩ }
    let t (page lines : Nat) := (holding (m page lines)).actOnPaperOut (m page lines)
    let pages (s : State) := s.store.directory.flatMap fun d => d.pages.map fun p => (p.index, p.startOffset, p.condition)
    ((holding (m 2 401)).move? (m 2 401).id = some (m 2 401) ∧ (m 2 401).isLinkIn = true)
      ∧ (t 2 401).moves.map Move.diverted = [some 1] ∧ (t 2 401).store.openPages = [⟨1, 2, none, 0, 0, false, []⟩]
      ∧ pages (t 2 401) = [(2, some 401, .opened)] ∧ pages (t 3 0) = [(3, none, .opened)]
      ∧ pages (t 255 0) = [(255, none, .opened)]
      ∧ (pages (t 256 0) = [] ∧ (t 256 0).moves.map Move.cause = [some .storeFull])
      ∧ ((t 2 401).endMove 0 .done none false).store.directory.map (fun d => (d.number, d.closed)) = [(1, true)] := by
  decide +kernel

/-- The header of a segment of one white line, with the check of its bytes. -/
def usedHeader : UsedHeader := ⟨5, 1, 0, none, 3, 1, false, crc16 [200, 0, 255], none⟩

theorem test_suppose_DocumentsCloseReleaseAndGo :
    (storing document).store.doc? 5 = some document ∧ ready.store.doc? 5 = none
      ∧ sent (.closeDoc 9 5 0) (storing { document with closed := false }) = [(0xE1, 9, [0])]
      ∧ sent (.deleteDoc 9 5 0) (storing { document with hold := true }) = [(0xE2, 9, [0x0D])]
      ∧ (let st : Store := { (storing document).store with
          memory := [(0, ⟨.raw [1], []⟩), (3, ⟨.raw [1], []⟩)]
          map := [(0, .used 5 1 0 none)]
          making := [(3, .raw [2])]
          rewrites := [(3, .raw [3])] }
        ((document.pages.flatMap fun p => st.chainOf p) = [0] ∧ st.memory.wf = true ∧ mapRead 0 st.map ≠ none
            ∧ (st.map.map Prod.fst).Nodup ∧ st.map.length ≤ 512)
          ∧ (st.delete 5).memory = [(3, ⟨.raw [3], []⟩)] ∧ (st.delete 5).rewrites = []
          ∧ st.freeCount 512 = 511 ∧ (st.delete 5).freeCount 512 = 512) := by decide +kernel

/-- A document deleted on an idle store does not come back after a reset that no header write precedes (R160). -/
theorem test_deleted_document_stays_gone :
    let s : State := { storing document with store := { (storing document).store with
      memory := [(0, ⟨.used { usedHeader with last := some (lastAttrs document page) }, [200, 0, 255, 200, 0, 255]⟩)]
      map := [(0, .used 5 1 0 none)] } }
    (match exec (.deleteDoc 9 5 0) s with
      | .next t => after (fun s => s.store.memory) (.nrstAsserted 0 0) t
      | _ => none) = some [] := by decide +kernel

/-- RELEASE_DOC rewrites the attributes in the last header of the first page, when that page is closed. -/
theorem test_suppose_ReleaseRewritesTheHeader :
    let st : Store := { (storing { document with hold := true }).store with
      memory := [(0, ⟨.used ⟨5, 1, 0, none, 3, 1, false, 0, none⟩, [200, 0, 255]⟩)]
      map := [(0, .used 5 1 0 none)] }
    (st.chainOf page).getLast? = some 0 ∧ st.headerAt 0 = .used ⟨5, 1, 0, none, 3, 1, false, 0, none⟩
      ∧ page.condition ≠ .opened ∧ (st.clearHold 5).rewrites.map Prod.fst = [0]
      ∧ (({ st with directory := [{ document with hold := true, pages := [] }] } : Store).clearHold 5).rewrites = [] := by
  decide +kernel

/-- The part with an open page of document 5, whose open segment is segment 3. -/
def openPage (seg : Option Nat) : OpenPage := ⟨5, 1, seg, 0, 0, false, []⟩
def openDocument : Document := { document with closed := false, pages := [{ page with condition := .opened, lines := 0, bytes := 0 }] }
def writing : State :=
  { holding { move (.linkIn 1728 .v1) (.store 5 .outgoing false false) .running with queue := [line false] } with
    store := { ready.store with
      directory := [openDocument]
      map := [(3, .used 5 1 0 none)]
      openPages := [openPage (some 3)]
      transfer := some 0 } }

theorem test_suppose_LinesAreWritten :
    (∃ m, writing.move? 0 = some m ∧ m.queue = [line false] ∧ m.isStoreSink = true ∧ m.flowing = true
        ∧ m.sinkDoc? = some 5 ∧ (line false).state = .ready)
      ∧ writing.store.openPage? 5 = some (openPage (some 3))
      ∧ writing.writing? = some (line false, openPage (some 3))
      ∧ (openPage (some 3)).seg = some 3 ∧ (openPage none).seg = none
      ∧ after (fun s => (s.store.memory.read 3).data) .storeLineWritten writing = some [1, 1, 1, 255]
      ∧ (ready.store.freeSegments 512).head? = some 0 := by
  refine ⟨⟨_, rfl, rfl, rfl, rfl, rfl, rfl⟩, ?_⟩
  decide +kernel

/-- A line that fits, one that goes on into segment 4, and lines that are taken for writing or refused. -/
theorem test_suppose_LinesFitOrCross :
    let st (data : List Byte) : Store := { writing.store with memory := [(3, ⟨.used ⟨5, 1, 0, none, 0, 0, false, 0, none⟩, data⟩)] }
    let o := { openPage (some 3) with allocated := [4] }
    ((st [1, 1, 255]).memory.wf = true
        ∧ ((st [1, 1, 255]).writeLine (openPage (some 3)) [1, 255]).memory.map Prod.fst = [3])
      ∧ (o.seg = some 3 ∧ o.allocated = [4] ∧ ([] : List Byte).length ≤ 2032
        ∧ ((st []).byteStages [1, 255] false [4] { o with allocated := [] }).length = 2)
      ∧ ((writing.takeLine printMove (line false) 5).store.openPages.map OpenPage.allocated = [[]]
        ∧ (({ writing with store := { writing.store with openPages := [openPage none] } } : State).takeLine
          printMove (line false) 5).store.openPages.map OpenPage.allocated = [[0]]
        ∧ (({ writing with store := { writing.store with
            directory := [{ openDocument with pages := [{ page with lines := 8191 }] }] } } : State).takeLine
          { printMove with sink := .store 5 .outgoing false false } (line false) 5).store.openPages = []) := by
  decide +kernel

/-- A line that goes on through two segments, the first segment of a page, and a line that is abandoned. -/
theorem test_suppose_LinesCrossTwoSegments :
    let st : Store := { writing.store with memory := [(3, ⟨.raw [5], List.replicate 2032 1⟩)] }
    let o := { openPage (some 3) with allocated := [4, 9] }
    let long : List Byte := List.replicate 2200 7 ++ [255]
    (st.memory.wf = true ∧ (st.memory.read 3).data.length = 2032 ∧ long.length = 2201)
      ∧ ((st.writeLine o long).memory.map fun e => (e.1, e.2.data.length)) = [(3, 2032), (4, 2032), (9, 169)]
      ∧ ((st.writeLine { openPage none with allocated := [4] } [7, 255]).memory.map fun e => (e.1, e.2.data.length))
        = [(3, 2032), (4, 2)]
      ∧ (st.openPage? o.doc).isSome = true ∧ (st.abandonLine o).rewrites.map Prod.fst = [4, 9] := by
  decide +kernel

/-- A page closes, at once or at the next turn; and a line opens its page, or finds no room for one. -/
theorem test_suppose_PagesOpenAndClose :
    let o := { openPage (some 3) with lineEnds := 1 }
    let st : Store := { writing.store with
      memory := [(3, ⟨.raw [5], [1, 2, 255, 4]⟩)]
      openPages := [o] }
    let s (pages : List Page) : State := { writing with store := { writing.store with
      openPages := []
      directory := [{ openDocument with pages := pages }] } }
    let taken (s : State) (doc : Nat) := ((s.takeLine printMove (line false) doc).store.openPages.map OpenPage.index)
    (st.openPage? 5 = some o ∧ st.memory.wf = true ∧ o.lineEnds ≤ ((st.memory.read 3).data.filter (· == 255)).length)
      ∧ ((st.closePage 5 .complete).rewrites, (st.closePage 5 .truncated).rewrites.map Prod.fst) = ([], [3])
      ∧ ((s []).store.openPage? 5 = none ∧ taken (s []) 5 = [1] ∧ taken (s [page]) 5 = [2]
        ∧ taken (s [{ page with index := 255 }]) 5 = [] ∧ taken (s []) 6 = []) := by decide +kernel

/-- A page cut short, whose closing is due, and a RELEASE_DOC before the next turn: the closing is written with the
hold as it stands then (R146). A page that has gone keeps the attributes its write was due with. -/
theorem test_suppose_HeadersAreWrittenAsTheyStand :
    let held : Document := { openDocument with hold := true }
    let st : Store := { writing.store with
      directory := [{ held with pages := [{ page with condition := .opened, first := some 3 }] }]
      memory := [(3, ⟨.used ⟨5, 1, 0, none, 0, 0, false, 0, none⟩, [1, 255]⟩)]
      openPages := [{ openPage (some 3) with lineEnds := 1 }] }
    let closed := st.closePage 5 .truncated
    let hold (x : SegHeader) : Option Bool := match x with
      | .used h => h.last.map LastAttrs.hold
      | .raw _ => none
    (closed.rewrites.map fun w => hold w.2) = [some true]
      ∧ ((closed.doc? 5).bind (Document.page? 1)).map closed.chainOf = some [3]
      ∧ hold (closed.flush.memory.read 3).header = some true
      ∧ ((closed.clearHold 5).rewrites.map fun w => hold w.2) = [some true, some false]
      ∧ (((closed.clearHold 5).rewrites.map (closed.clearHold 5).asWritten).map fun w => hold w.2)
        = [some false, some false]
      ∧ ((closed.rewrites.map (Store.asWritten { closed with directory := [] })).map fun w => hold w.2)
        = [some true] := by decide +kernel

/-- A move that reads segment 3, which holds a line. -/
def readMove : Move := { move (.store 5 1 1) .print .running with reader := some (Reader.start 1 [3]) }
def reading : State :=
  { holding readMove with
    store := { ready.store with
      memory := [(3, ⟨.used usedHeader, [200, 0, 255]⟩)]
      directory := [document]
      map := [(3, .used 5 1 0 none)]
      transfer := some 0 } }

theorem test_suppose_SegmentsAreReadAndChecked :
    reading.move? 0 = some readMove ∧ readMove.readDue = true ∧ readMove.reader = some (Reader.start 1 [3])
      ∧ (Reader.start 1 [3]).chain = [3]
      ∧ ((reading.store.flush.upset 3 []).memory.read 3).header = .used usedHeader
      ∧ after (fun s => s.link.sticky.checkError) (.storeSegmentRead []) reading = some false
      ∧ after (fun s => s.link.sticky.checkError) (.storeSegmentRead [(1, 7)]) reading = some true
      ∧ (let s := { reading with store := { reading.store with transfer := none } }
        s.nextTransfer? = some 0 ∧ (ruleTransfer s).isSome = true ∧ ruleTransfer reading = none) := by decide +kernel

/-- The read of a page begins at the entry to RUNNING, and that of the next page with the last line of the one before,
each with its chain still to read; a page whose record has lines and no segment is white. -/
theorem test_suppose_ReadsBegin :
    let start : Move := move (.store 5 1 2) .print .starting
    let s (p : Page) (m : Move) : State :=
      { reading with
        path := (holding m).path
        store := { reading.store with directory := [{ document with pages := [p, { p with index := 2 }] }] } }
    let readers (s : State) := s.moves.map Move.reader
    let m : Move := { start with
      state := .running
      reader := some { Reader.start 1 [] with lines := [none], handed := 1 } }
    let bare : Page := { page with first := none, segments := 0 }
    ((s { page with first := some 3 } start).move? start.id = some start ∧ start.isStoreSource = true
        ∧ start.srcPage = 1 ∧ m.srcPage < m.sourcePages)
      ∧ readers ((s { page with first := some 3 } start).enterRunning start) = [some ⟨1, [3], some [], [], 0, 0⟩]
      ∧ readers ((s bare start).enterRunning start) = [some ⟨1, [], some [], [none, none], 0, 0⟩]
      ∧ readers ((s { page with first := some 3 } m).handLine m { Reader.start 1 [] with lines := [none], handed := 1 }
        none) = [some ⟨2, [3], some [], [], 0, 0⟩] := by decide +kernel

/-- A good segment behind a good and behind a bad one, the end of a chain, and a read that ends with white lines. -/
theorem test_suppose_SegmentsBecomeLines :
    let r : Reader := { Reader.start 1 [] with part := some [9] }
    (∀ l ∈ [[1, 255], [2, 3, (255 : Byte)]], l.getLast? = some 255 ∧ 255 ∉ l.dropLast)
      ∧ (r.good true [1, 255, 2, 3, 255, 7]).lines = [some [9, 1, 255], some [2, 3, 255]]
      ∧ (({ r with part := none }).good true [1, 255, 7]).lines = [none]
      ∧ (r.good false [1, 255]).lines = [some [1, 255]] ∧ (r.good true [7]).part = some [9, 7]
      ∧ r.chain = [] ∧ (r.fill 2).lines = [none, none] ∧ page.damaged < 2
      ∧ ((storing document).store.endRead 5 1 2).directory.map (fun d => d.pages.map Page.damaged) = [[2]] := by
  decide +kernel

/-- A line of a page that is not the last, the last line of a page, and the last line of the last page. -/
theorem test_suppose_LinesAreHandedOn :
    let s (count handed : Nat) (l : Option (List Byte)) := 
      let m := { readMove with source := .store 5 1 count }
      let t := { holding m with
        store := { reading.store with directory := [{ document with pages := [page, { page with index := 2 }] }] } }
      (t.handLine m { Reader.start 1 [] with lines := [l], handed := handed } l).moves.map
        fun n => (n.state, n.srcPage, n.counters.damaged, n.queue.length)
    let waiting : Move := { readMove with reader := some { Reader.start 1 [] with lines := [none] } }
    page.lines = 2 ∧ s 1 0 (some [200, 0, 255]) = [(.running, 1, 0, 1)]
      ∧ s 2 1 none = [(.running, 2, 1, 1)] ∧ s 1 1 none = [(.draining, 1, 1, 1)]
      ∧ (waiting.headerLeft = 0 ∧ 0 < waiting.room ∧ (holding waiting).move? 0 = some waiting
        ∧ (ruleHandLine { reading with path := (holding waiting).path }).isSome = true
        ∧ ruleHandLine ready = none) := by decide +kernel

theorem test_suppose_MemoryIsChecked :
    (checking 0).store.check = some ⟨0, 0, 0⟩ ∧ 0 < (checking 0).total ∧ mapRead 0 (checking 0).store.map = none
      ∧ sent .memoryCheckDone { checking 512 with
        link := { ready.link with hand := some ⟨⟨0x67, 9, [0]⟩, .handed⟩ } } = [(0xE7, 9, [0, 0, 2, 0, 0])]
      ∧ sent .memoryCheckDone { checking 512 with startup := .check } = [(0xE0, 0, [1, 0, 0, 0, 0, 0])] := by
  decide +kernel

/-- A memory check goes on while PFI is active (log 73). -/
theorem test_suppose_CheckGoesOnUnderPfi :
    after (fun s => s.store.check) (.segmentTested true)
      { checking 0 with inputs := { ready.inputs with pfi := true } } = some (some ⟨1, 1, 0⟩) := by decide +kernel

theorem test_suppose_PowerCommandsByCases :
    ready.needed .scan = false ∧ (holding scanMove).needed .scan = true
      ∧ (withDf ramping).needed .motor = true ∧ (holding printMove).needed .print = true
      ∧ ready.power.domain .motor = .off := by decide +kernel

theorem test_suppose_DomainEvents :
    (powered fun x => { x with print := .starting }).power.print = .starting
      ∧ (holding scanMove).move? 0 = some scanMove ∧ scanMove.needs .scan = true
      ∧ printMove.needs .scan = false
      ∧ after (fun s => s.moves.map fun m => m.cause) .printStartTimeout
        { holding printMove with power := { ready.power with print := .starting } } = some [some .domainFault] := by
  decide +kernel

theorem test_suppose_SleepEntryBegins :
    ready.idle = true ∧ (holding printMove).idle = false
      ∧ (powered fun x => { x with idleTimer := .running 60 }).power.idleTimer = .running 60
      ∧ after (fun s => s.power.entry) (.sleep 9 0) (holding printMove) = some .none := by decide +kernel

theorem test_suppose_SleepAndWake :
    (powered fun x => { x with entry := .stopping }).power.entry = .stopping
      ∧ (let s := powered fun x => { x with state := .sleep, waking := true, causes := ⟨false, true, false, false, false, false⟩ }
        s.power.causes.breakSeen = false
          ∧ after (fun s => s.link.awaitMark) .wakeComplete s = some true
          ∧ sent .wakeComplete s = [(0xE6, 0, [4, 1, 0, 0, 0, 2, 0xFF])])
      ∧ after (fun s => s.link.state) .wakeComplete
        (powered fun x => { x with
          state := .sleep
          waking := true
          causes := ⟨true, true, false, false, false, false⟩ }) = some .unset
      ∧ sent .wakeInput (powered fun x => { x with entry := .draining }) = [(0xE6, 0, [3, 1, 0, 0, 0, 0x20, 0xFF])] := by
  decide +kernel

/-- What cancels an entry into SLEEP: a character, a command, a break, a sensor, and the end of idleness. -/
theorem test_suppose_SleepEntryIsCancelled :
    let s := powered fun x => { x with entry := .draining }
    s.power.entry = .draining ∧ (Instr.eject 9 0).frame? = some ⟨0x37, 9, [0]⟩ ∧ s.inputs.sne ≠ true
      ∧ sent (.rxCharacter 0x55) s = [(0xE6, 0, [3, 1, 0, 0, 0, 2, 0xFF])]
      ∧ (sent (.eject 9 0) s).map Prod.fst = [0xE6, 0xB7]
      ∧ after (fun s => s.link.state) .breakDetected s = some .unset
      ∧ sent (.sensorInputChange .docEntry true) s = [(0xE6, 0, [3, 1, 0, 0, 0, 4, 0xFF])]
      ∧ ({ holding printMove with power := s.power } : State).idle = false
      ∧ (ruleSleepLost { holding printMove with power := s.power }).isSome = true
      ∧ ((ruleDrained s).map fun t => t.power.entry) = some .stopping := by decide +kernel

/-- At the wake the readings are formed from the inputs, and a debounce runs where they differ. -/
theorem test_suppose_SensorsAtTheWake :
    let x : Sensor := ⟨false, false, some 3, true⟩
    let s : State := { feeding fun y => { y with docEntry := x, paper := x, cover := { x with known := false } } with
      inputs := { ready.inputs with
        sne := true
        snc := true } }
    (s.restartDebounce.feed.docEntry = ⟨true, false, some 8, true⟩
        ∧ s.restartDebounce.feed.paper = ⟨false, false, none, true⟩
        ∧ s.restartDebounce.feed.cover = ⟨true, false, none, false⟩)
      ∧ (ready.restartIdle.power.idleTimer = .running 60
        ∧ (holding printMove).restartIdle.power.idleTimer = .stopped)
      ∧ (sent .framingError (powered fun x => { x with entry := .draining })).map (fun r => r.1) = [0xE6, 0xE7] := by
  decide +kernel

/-- SLEEP with a frame that waits, and with a frame begun, is refused; the frame that waits is answered behind it. -/
theorem test_suppose_SleepMeetsAFrame :
    let s (waiting : Option Frame) (parser : Parser) : State := { ready with link := { ready.link with
      hand := some ⟨⟨0x22, 9, [0]⟩, .taken⟩
      waiting := waiting
      parser := parser } }
    sent .takeCommand (s (some ⟨0x99, 8, []⟩) .hunt) = [(0xA2, 9, [6]), (0x19, 8, [1])]
      ∧ sent .takeCommand (s none (.header [1])) = [(0xA2, 9, [6])]
      ∧ (sent .takeCommand (s none .hunt)).head? = some (0xA2, 9, [0]) := by decide +kernel

/-- In SLEEP a cause begins the wake, or joins it; a change of SNS is none. -/
theorem test_suppose_CausesInSleep :
    let s := powered fun x => { x with state := .sleep, causes := ⟨false, false, false, false, false, true⟩ }
    let causes (i : Instr) := after (fun s => (s.power.waking, s.power.causes.byte)) i s
    s.inputs.snp = false ∧ (Instr.eject 9 0).frame? = some ⟨0x37, 9, [0]⟩
      ∧ causes (.rxCharacter 0xC3) = some (true, 0x22) ∧ causes (.eject 9 0) = some (true, 0x22)
      ∧ causes .breakDetected = some (true, 0x23)
      ∧ causes (.sensorInputChange .paper true) = causes (.wakeCause .paper)
      ∧ causes (.wakeCause .paper) = some (true, 0x30) ∧ causes (.wakeCause .cover) = some (true, 0x28)
      ∧ causes (.sensorInputChange .docScan true) = some (false, 0x20)
      ∧ after (fun s => s.inputs.snp) (.wakeCause .paper) s = some true := by decide +kernel

theorem test_suppose_ResetStopsAndReturns :
    ready.df.stopped = true ∧ ready.rf.stopped = true
      ∧ sent .resetStopped { ready with
        resetPhase := .stopping false
        link := { ready.link with hand := some ⟨⟨0x23, 9, [0, 0]⟩, .handed⟩ } } = [(0xA3, 9, [0, 0])]
      ∧ after (fun s => (s.resetPhase, s.cfg.reserveCode)) .resetStopped { ready with
        resetPhase := .stopping true
        cfg := { ready.cfg with reserveCode := 2 } } = some (.rebuilding, 0) := by decide +kernel

/-- SOFT sets the document state from the sensors, with its report and the settle timer of a sheet in the entry. -/
theorem test_suppose_SoftSetsTheDocument :
    let s (doc : DocState) : State := { feeding fun x => { x with
        doc := doc
        docEntry := ⟨true, true, none, true⟩ } with
      resetPhase := .stopping false
      link := { ready.link with hand := some ⟨⟨0x23, 9, [0, 0]⟩, .handed⟩ } }
    sent .resetStopped (s .loading) = [(0xE3, 0, [1, 18, 0, 0]), (0xA3, 9, [0, 0])]
      ∧ after (fun s => (s.feed.doc, s.feed.settle)) .resetStopped (s .loading) = some (.settling, .running 300)
      ∧ sent .resetStopped (s .settling) = [(0xA3, 9, [0, 0])] := by decide +kernel

/-- A RESET ends its moves in acceptance order, and FULL takes the sensors and sets the document state. -/
theorem test_suppose_ResetEndsTheMoves :
    let two : State := { ready with path := { ready.path with
      nextId := 4
      table := [some { printMove with id := 3, number := 9 }, some { scanMove with id := 1 }, none, none] } }
    let s : State := { ready with
      resetPhase := .stopping true
      inputs := { ready.inputs with
        sne := true
        snp := true }
      link := { ready.link with hand := some ⟨⟨0x23, 9, [1, 0]⟩, .handed⟩ } }
    (two.Serves ∧ (two.moves.map Move.id).Nodup ∧ ready.link.outbound.length + 2 < 16)
      ∧ (sent (.reset 9 0 0) two).map (fun r => (r.1, r.2.2.take 2)) = [(0xE1, [7, 5]), (0xE1, [9, 5])]
      ∧ after (fun s => s.moves.map fun m => (m.counters.discarded, m.queue.length)) (.reset 9 0 0) two
        = some [(1, 0), (0, 0)]
      ∧ sent .resetStopped s = [(0xE4, 0, [1, 0]), (0xE3, 0, [1, 18, 0, 0])]
      ∧ after (fun s => (s.feed.doc, s.feed.settle)) .resetStopped s = some (.settling, .running 300) :=
  ⟨⟨serves_like rfl rfl rfl rfl rfl, by decide, by decide⟩, by decide +kernel⟩

/-- A page of one segment with a good header, found by a recovery scan. -/
theorem test_suppose_StoreIsFormattedOrRecovered :
    let attrs : LastAttrs := ⟨1728, .v1, 1, .complete, none, 0, false, .outgoing, false, false, 0⟩
    let s := { State.reset with
      startup := .scan
      store := Store.powerOn [(3, ⟨.used { usedHeader with last := some attrs }, [200, 0, 255]⟩)] }
    State.reset.startup = .format
      ∧ after (fun s => s.store.directory.map fun d => (d.number, d.closed, d.pages.length)) .recoveryScanDone s
        = some [(5, true, 1)]
      ∧ sent .recoveryScanDone s = [(0xE0, 0, [1, 1, 1, 0, 0, 0])]
      ∧ (SegHeader.raw retiredMark).classify 512 = .retired := by decide +kernel

end Sys2Proof.Machine.Tests
end

section
/-! PROOFS. SET_LINE_TIMING and the timing that a line run latches (2.4, R24, R36). -/

namespace Sys2Proof.Machine

/-! ## The codes of channels and densities -/

theorem channelOf_eq_none {b : Byte} (h : 1 < b.toNat) : channelOf b = none := by
  unfold channelOf
  split
  · omega
  · omega
  · rfl

/-- A channel code in range: DF for 0, RF for 1. -/
theorem channelOf_eq_some {b : Byte} (h : ¬1 < b.toNat) :
    channelOf b = some (if b = 0 then .df else .rf) := by
  obtain rfl | rfl : b = 0 ∨ b = 1 := by bv_omega
  · rfl
  · rfl

theorem densityOf_eq_none {b : Byte} (h : 2 < b.toNat) : densityOf b = none := by
  unfold densityOf
  split
  · omega
  · omega
  · omega
  · rfl

/-- A density code in range: V1 for 0, V2 for 1, V4 for 2. -/
theorem densityOf_eq_some {b : Byte} (h : ¬2 < b.toNat) :
    densityOf b = some (if b = 0 then .v1 else if b = 1 then .v2 else .v4) := by
  obtain rfl | rfl | rfl : b = 0 ∨ b = 1 ∨ b = 2 := by bv_omega
  · rfl
  · rfl
  · rfl

/-! ## The operands of SET_LINE_TIMING -/

/-- F and D are refused when D is 0 or above 4095, or F is D or more (R24). -/
theorem fractionOk_iff (f d : Word16) :
    fractionOk f d = true ↔ ¬(d.toNat = 0 ∨ 4095 < d.toNat ∨ d.toNat ≤ f.toNat) := by
  simp only [fractionOk, Bool.and_eq_true, decide_eq_true_eq]
  omega

/-- What SET_LINE_TIMING refuses with BAD_VALUE: a code out of range, W below 40, no fraction below 1, a reserved
byte that is not zero (R24). -/
abbrev LineTimingRefused (ch dens : Byte) (w f d rsv : Word16) : Prop :=
  1 < ch.toNat ∨ 2 < dens.toNat ∨ w.toNat < 40 ∨ d.toNat = 0 ∨ 4095 < d.toNat
    ∨ d.toNat ≤ f.toNat ∨ rsv ≠ 0

section answer

variable (s : State) {ch dens : Byte} {w f d rsv : Word16}

theorem answerSetLineTiming_refused (h : LineTimingRefused ch dens w f d rsv) :
    answerSetLineTiming ch dens w f d rsv s = .refuse .badValue := by
  unfold answerSetLineTiming
  split
  next c v hc hv =>
    have inRange : ¬1 < ch.toNat ∧ ¬2 < dens.toNat :=
      ⟨fun k => by simp [channelOf_eq_none k] at hc, fun k => by simp [densityOf_eq_none k] at hv⟩
    refine if_neg ?_
    rw [fractionOk_iff]
    rintro ⟨hw, hf, rfl⟩
    simp only [LineTimingRefused, ne_eq, not_true_eq_false, or_false] at h
    omega
  next => rfl

/-- Operands in range: the W stored is the greater of W and the pull-in period, and the reply carries it. -/
theorem answerSetLineTiming_taken (h : ¬LineTimingRefused ch dens w f d rsv) :
    let c : ChannelId := if ch = 0 then .df else .rf
    let v : Density := if dens = 0 then .v1 else if dens = 1 then .v2 else .v4
    let t : LineTiming := ⟨max w.toNat (s.channelCfg c).pullIn, f.toNat, d.toNat⟩
    answerSetLineTiming ch dens w f d rsv s
      = .ok (bytes2 t.w) (State.onChannelCfg c (ChannelSettings.setTiming v t)) := by
  simp only [LineTimingRefused, not_or, not_not] at h
  obtain ⟨hc, hv, hw, hd, hd', hf, hr⟩ := h
  have good : 40 ≤ w.toNat ∧ fractionOk f d = true ∧ rsv = 0 :=
    ⟨by omega, (fractionOk_iff f d).mpr (by omega), hr⟩
  unfold answerSetLineTiming
  rw [channelOf_eq_some hc, densityOf_eq_some hv]
  exact if_pos good

end answer

/-- The density that a code in range names is the one whose timing is replaced. -/
theorem ChannelSettings.setTiming_code (b : Byte) (t : LineTiming) :
    ChannelSettings.setTiming (if b = 0 then .v1 else if b = 1 then .v2 else .v4) t
      = fun x => if b = 0 then { x with v1 := t } else if b = 1 then { x with v2 := t }
        else { x with v4 := t } := by
  split
  · rfl
  · split
    · rfl
    · rfl

/-! ## The start of a line run -/

/-- A line run latches the timing of its density at its start, gated or not (R36). -/
theorem Channel.startOrder_line_latches (cfg : ChannelSettings) (v : Density) (gated : Bool) (c : Channel) :
    ∃ x, (c.startOrder cfg (.line v gated)).run = .line x ∧ x.timing = cfg.timing v := by
  cases gated with
  | true => exact ⟨_, rfl, rfl⟩
  | false => exact ⟨_, rfl, rfl⟩

/-- Settles O21: the answer by the range of the operands, and the timing of the run that an order starts. -/
theorem setLineTimingClamps : Obligations.SetLineTimingClamps := by
  unfold Obligations.SetLineTimingClamps
  refine ⟨fun s tag ch dens w f d rsv hs => ?_, fun cfg v gated c => ?_⟩
  · have framed := Laws.Frames.setLineTiming tag ch dens w f d rsv
    have fits : (Instr.setLineTiming tag ch dens w f d rsv).LengthFits := trivial
    dsimp only
    split
    next bad => exact hs.refused _ _ rfl fits framed (answerSetLineTiming_refused _ bad)
    next good =>
      rw [hs.answered _ _ rfl fits framed (answerSetLineTiming_taken _ good),
        State.inHand_channelCfg, ChannelSettings.setTiming_code]
      rfl
  · obtain ⟨x, hx, latched⟩ := Channel.startOrder_line_latches cfg v gated c
    exact ⟨x, hx, latched.trans (by cases v <;> rfl)⟩

end Sys2Proof.Machine
end

section
/-! PROOFS. SHADE by its cases (4.8, R76, R77), and the TEXT decision of a captured line (4.2, 4.3, R66, R68). -/

namespace Sys2Proof.Machine

/-! ## The answer of SHADE, one equation for each case of R76 -/

section answer

variable {s : State} {rsv : Byte}

theorem answerShade_badValue (reserved : rsv ≠ 0) : answerShade rsv s = .refuse .badValue :=
  if_pos reserved

theorem answerShade_docPresent (zero : ¬rsv ≠ 0) (sheet : s.scanPresent = true) :
    answerShade rsv s = .refuse .docPresent :=
  (if_neg zero).trans (if_pos sheet)

theorem answerShade_busy (zero : ¬rsv ≠ 0) (clear : ¬s.scanPresent = true)
    (busy : s.scanBusy = true ∨ s.coverOpen = true) : answerShade rsv s = .refuse .busy :=
  (if_neg zero).trans <| (if_neg clear).trans (if_pos busy)

theorem answerShade_domainFault (zero : ¬rsv ≠ 0) (clear : ¬s.scanPresent = true)
    (free : ¬(s.scanBusy = true ∨ s.coverOpen = true)) (fault : s.power.scan = .fault) :
    answerShade rsv s = .refuse .domainFault :=
  (if_neg zero).trans <| (if_neg clear).trans <| (if_neg free).trans (if_pos fault)

theorem answerShade_late (zero : ¬rsv ≠ 0) (clear : ¬s.scanPresent = true)
    (free : ¬(s.scanBusy = true ∨ s.coverOpen = true)) (good : ¬s.power.scan = .fault) :
    answerShade rsv s = .late State.beginShading :=
  (if_neg zero).trans <| (if_neg clear).trans <| (if_neg free).trans (if_neg good)

end answer

/-- The run that a SHADE in hand begins waits, and what follows at once is settled (R77). -/
theorem State.inHand_beginShading (f : Frame) (s : State) :
    (s.inHand f).beginShading
      = ({ s with
          link := { s.link with hand := some ⟨f, .handed⟩ }
          scan := { s.scan with shading := .waiting s.cfg.scan } } : State).settle := rfl

section served

variable {s : State} (hs : s.Serves) {tag rsv : Byte}
include hs

/-- A case of R76 that refuses queues the result code alone, and changes nothing else. -/
theorem State.Serves.shadeRefused {r : Result}
    (refused : answerShade rsv (s.inHand ⟨0x41, tag, [rsv]⟩) = .refuse r) :
    exec (.shade tag rsv) s = .next (s.replied 0x41 tag [r.code]) :=
  hs.refused (.shade tag rsv) ⟨0x41, tag, [rsv]⟩ rfl trivial (Laws.Frames.shade tag rsv) refused

/-- Accepted, SHADE stays in hand, and the run begins. -/
theorem State.Serves.shadeBegins
    (late : answerShade rsv (s.inHand ⟨0x41, tag, [rsv]⟩) = .late State.beginShading) :
    exec (.shade tag rsv) s = .next (s.inHand ⟨0x41, tag, [rsv]⟩).beginShading :=
  hs.answeredLate (.shade tag rsv) ⟨0x41, tag, [rsv]⟩ rfl trivial (Laws.Frames.shade tag rsv) late

end served

/-- Settles O33, along the cases of R76: four refusals, and the late answer that begins the run. -/
theorem shadeByCases : Obligations.ShadeByCases := by
  unfold Obligations.ShadeByCases
  intro s tag rsv hs
  split_ifs with reserved sheet busy fault
  · exact hs.shadeRefused (answerShade_badValue reserved)
  · exact hs.shadeRefused (answerShade_docPresent reserved sheet)
  · exact hs.shadeRefused (answerShade_busy reserved sheet busy)
  · exact hs.shadeRefused (answerShade_domainFault reserved sheet busy fault)
  · rw [hs.shadeBegins (answerShade_late reserved sheet busy fault), State.inHand_beginShading]

/-! ## The dots of a captured line -/

/-- The shading stage gives 6 bits. -/
theorem shadePixel_le (v b w : Nat) : shadePixel v b w ≤ 63 := by
  unfold shadePixel
  split
  · omega
  · split
    · omega
    · exact Nat.min_le_left _ _

section dots

variable {c : ScanSettings} {y i w : Nat} {p : Pixel} {pixels : List Pixel} {table : List Nat}

/-- The dot i places behind position x: its pixel inverted, shaded, and held against the threshold there. -/
theorem dotsFrom_getElem? (x : Nat) (hp : pixels[i]? = some p) (hw : table[i]? = some w) :
    (dotsFrom c y x pixels table)[i]?
      = some (decide (shadePixel (invertPixel c.invert p) c.black w < dotThreshold c y (x + i))) := by
  induction pixels generalizing x i table with
  | nil => cases hp
  | cons q ps ih =>
    cases table with
    | nil => cases hw
    | cons u ws =>
      cases i with
      | zero =>
        obtain rfl := Option.some.inj hp
        obtain rfl := Option.some.inj hw
        rfl
      | succ i =>
        have rest := ih (x + 1) hp hw
        rwa [Nat.add_assoc, Nat.add_comm 1 i] at rest

/-- The dot at a position of a captured line (R65 to R69). -/
theorem captureLine_getElem? (hp : pixels[i]? = some p) (hw : table[i]? = some w) :
    (captureLine c y table pixels)[i]?
      = some (decide (shadePixel (invertPixel c.invert p) c.black w < dotThreshold c y i)) := by
  simpa only [captureLine, Nat.zero_add] using dotsFrom_getElem? 0 hp hw

/-- In TEXT mode the threshold is T, whatever the line and the position (R68). -/
theorem dotThreshold_text (text : c.halftone = false) (x : Nat) : dotThreshold c y x = c.threshold := by
  simp [dotThreshold, text]

end dots

/-- Settles O34: in TEXT mode every position is held against T, and a shaded value is at most 63. -/
theorem textModeDecides : Obligations.TextModeDecides := by
  unfold Obligations.TextModeDecides
  refine ⟨fun c y i table pixels p w text hp hw => ?_, fun s inv => ?_, fun _ => rfl⟩
  · intro v
    have dot : (captureLine c y table pixels)[i]? = some (decide (v < c.threshold)) := by
      rw [captureLine_getElem? hp hw, dotThreshold_text text]
      rfl
    have small : v ≤ 63 := shadePixel_le _ _ _
    refine ⟨dot, fun one => ?_, fun top => ?_⟩
    · rw [dot, one, Option.some_inj, decide_eq_true_iff]
      omega
    · rw [dot, top, Option.some_inj, decide_eq_false_iff_not]
      omega
  · obtain ⟨-, -, -, ⟨threshold, -⟩, -⟩ := inv.settings
    exact threshold

end Sys2Proof.Machine
end

section
/-! PROOFS. The reduction of a line of 2048 dots, group by group (6.3, R102). -/

namespace Sys2Proof.Machine

/-! ## Lists made of blocks of one length -/

section blocks

variable {α β : Type} {f : α → List β} {n : Nat}

theorem length_flatMap_of_length_eq (size : ∀ a, (f a).length = n) (l : List α) :
    (l.flatMap f).length = n * l.length := by
  simp [List.length_flatMap, size, Nat.mul_comm]

/-- Position k of block i, in a list made of blocks of n elements each. -/
theorem getElem?_flatMap_of_length_eq (size : ∀ a, (f a).length = n) {l : List α} {a : α} {i k : Nat}
    (block : l[i]? = some a) (inside : k < n) : (l.flatMap f)[n * i + k]? = (f a)[k]? := by
  induction l generalizing i with
  | nil => cases block
  | cons b l ih =>
    cases i with
    | zero =>
      obtain rfl := Option.some.inj block
      rw [Nat.mul_zero, Nat.zero_add, List.flatMap_cons, List.getElem?_append_left (by rwa [size])]
    | succ i =>
      have past : n * (i + 1) + k = n + (n * i + k) := by rw [Nat.mul_succ]; omega
      rw [List.flatMap_cons, past, List.getElem?_append_right (by rw [size]; omega), size,
        Nat.add_sub_cancel_left]
      exact ih block

end blocks

/-! ## One group of 32 dots -/

/-- The positions that stay of each group of 32 dots, in order (R102). -/
def keptDots : List Nat := (List.range 32).filter fun p => !droppedDots.contains p

theorem keptDots_eq : keptDots
    = [0, 1, 2, 4, 5, 6, 7, 8, 10, 11, 12, 13, 14, 15, 17, 18, 19, 20, 21, 23, 24, 25, 26, 27, 29, 30, 31] :=
  rfl

theorem keptDots_lt {k p : Nat} (kept : keptDots[k]? = some p) : p < 32 :=
  List.mem_range.mp (List.mem_filter.mp (List.mem_of_getElem? kept)).1

/-- The dot at position p of a group after the darkening (R102). -/
def darkenedDot (group : List Bool) (p : Nat) : Bool :=
  group.getD p false || (p != 0 && droppedDots.contains (p - 1) && group.getD (p - 1) false)

theorem reduceGroup_eq_map (group : List Bool) : reduceGroup group = keptDots.map (darkenedDot group) := by
  rw [keptDots, ← List.filterMap_eq_map, List.filterMap_filter]
  unfold reduceGroup
  congr 1
  funext p
  cases droppedDots.contains p <;> rfl

theorem reduceGroup_length (group : List Bool) : (reduceGroup group).length = 27 := by
  rw [reduceGroup_eq_map, List.length_map, keptDots_eq]
  rfl

/-- The positions behind a dropped one are 4, 10, 17, 23 and 29. -/
theorem follows_dropped_iff {p : Nat} :
    (p != 0 && droppedDots.contains (p - 1)) = [4, 10, 17, 23, 29].contains p := by
  rw [Bool.eq_iff_iff]
  simp only [droppedDots, List.contains_eq_mem, List.mem_cons, List.not_mem_nil, or_false, bne_iff_ne,
    Bool.and_eq_true, decide_eq_true_eq]
  omega

/-! ## The groups of a line -/

/-- Group g of a line: 32 dots from dot 32 g on (R102). -/
def dotGroup (line : RawLine) (g : Nat) : List Bool := (line.drop (32 * g)).take 32

theorem dotGroup_getD (line : RawLine) (g : Nat) {p : Nat} (inside : p < 32) :
    (dotGroup line g).getD p false = line.getD (32 * g + p) false := by
  simp only [dotGroup, List.getD_eq_getElem?_getD, List.getElem?_take_of_lt inside, List.getElem?_drop]

/-- A dot of a group after the darkening, by the dots of the line (R102). -/
theorem darkenedDot_dotGroup (line : RawLine) (g : Nat) {p : Nat} (inside : p < 32) :
    darkenedDot (dotGroup line g) p
      = (line.getD (32 * g + p) false
          || ([4, 10, 17, 23, 29].contains p && line.getD (32 * g + p - 1) false)) := by
  rw [darkenedDot, dotGroup_getD line g inside, dotGroup_getD line g (by omega), follows_dropped_iff]
  rcases Nat.eq_zero_or_pos p with rfl | pos
  · rfl
  · rw [Nat.add_sub_assoc pos]

section reduction

variable {line : RawLine} (wide : line.length = 2048)
include wide

theorem reduceLine_eq_flatMap :
    reduceLine line = (List.range 64).flatMap fun g => reduceGroup (dotGroup line g) := if_pos wide

theorem reduceLine_length : (reduceLine line).length = 1728 := by
  rw [reduceLine_eq_flatMap wide, length_flatMap_of_length_eq fun g => reduceGroup_length _,
    List.length_range]

/-- The kept dots of group g are dots 27 g to 27 g + 26 of the reduced line, in order (R102). -/
theorem reduceLine_getElem? {g k p : Nat} (group : g < 64) (kept : keptDots[k]? = some p) :
    (reduceLine line)[27 * g + k]? = some (darkenedDot (dotGroup line g) p) := by
  have inside : k < 27 := (List.getElem?_eq_some_iff.mp kept).1
  rw [reduceLine_eq_flatMap wide,
    getElem?_flatMap_of_length_eq (fun g => reduceGroup_length _) (List.getElem?_range group) inside,
    reduceGroup_eq_map, List.getElem?_map, kept, Option.map_some]

end reduction

theorem reduceLine_of_length_ne {line : RawLine} (narrow : line.length ≠ 2048) : reduceLine line = line :=
  if_neg narrow

/-- Settles O40: the line is reduced group by group, and each kept dot is read after the darkening. -/
theorem reductionDropsFiveInThirtyTwo : Obligations.ReductionDropsFiveInThirtyTwo := by
  unfold Obligations.ReductionDropsFiveInThirtyTwo
  refine fun line => ⟨fun wide => ⟨reduceLine_length wide, fun g k p group listed => ?_⟩,
    fun narrow => reduceLine_of_length_ne (by omega)⟩
  have kept : keptDots[k]? = some p := by rwa [keptDots_eq]
  rw [reduceLine_getElem? wide group kept, darkenedDot_dotGroup line g (keptDots_lt kept)]

end Sys2Proof.Machine
end

section
/-! PROOFS. The machine as a whole: a step is the meaning of the command at the front, every row has a next state, and
every step keeps the invariant (95, R186). -/

namespace Sys2Proof.Machine

/-- A step with a command waiting runs it on the state with the queue's rest. -/
theorem step_of_pending {c : Instr} {rest : List Instr} {s : State} (waiting : s.pending = c :: rest) :
    step s = exec c { s with pending := rest } := by
  unfold step
  rw [waiting]

theorem step_of_idle {s : State} (idle : s.pending = []) : step s = .next s := by
  unfold step
  rw [idle]

/-- Settles O1: the front of the queue, and the empty queue. -/
theorem frontCommandRuns : Obligations.FrontCommandRuns := by
  unfold Obligations.FrontCommandRuns
  exact ⟨fun c rest s => step_of_pending rfl, fun s idle => step_of_idle idle⟩

/-- Every arm of the dispatch answers a next state: the row's meaning is `.next` of a state. -/
theorem exec_next (i : Instr) (s : State) : ∃ t, exec i s = .next t := by
  cases i with
  | _ => exact ⟨_, rfl⟩

/-- Settles O2. -/
theorem everyCommandHasANextState : Obligations.EveryCommandHasANextState := exec_next

/-! ## The invariant, event by event -/

/-- What a meaning answers has the invariant. -/
def Row.Inv (r : Row) : Prop := ∀ t, r = .next t → t.Inv

theorem Row.Inv.next {t : State} (h : t.Inv) : Row.Inv (.next t) := fun _ e => by
  cases e
  exact h

/-- An event that is not due leaves the state as it is (log 3). -/
theorem State.Inv.ite {s t : State} {c : Prop} [Decidable c] (h : s.Inv) (k : c → t.Inv) :
    (if c then t else s).Inv := by
  split
  next hc => exact k hc
  next => exact h

theorem Link.Ok.take {l : Link} (h : l.Ok) : l.take.Ok := l.take_Ok h.places h.order h.parser

theorem State.transferring?_mem {s : State} {m : Move} (e : s.transferring? = some m) : m ∈ s.moves := by
  obtain ⟨id, -, found⟩ := Option.bind_eq_some_iff.mp e
  exact (State.move?_mem found).1

section events

variable {s : State} (h : s.Inv)
include h

/-! ### Link events -/

theorem State.Inv.rxCharacter (c : Byte) : (execRxCharacter c s).Inv :=
  .next (h.heard _ fun _ k => k.parse c)

theorem State.Inv.framingError : (execFramingError s).Inv :=
  .next (h.heard _ fun _ k => k.discardPartial _)

theorem State.Inv.breakDetected : (execBreakDetected s).Inv := by
  refine .next ?_
  split
  · exact h
  · split
    · exact h.follows ((Follows.refl s).causeDetected _)
    · exact (State.Inv.takeBreak (h.follows ((Follows.refl s).causeTaken _))).finish

theorem State.Inv.characterGapExpiry : (execCharacterGapExpiry s).Inv :=
  .next (h.ite fun _ => h.discardPartial _)

theorem State.Inv.takeCommand : (execTakeCommand s).Inv :=
  .next (h.ite fun _ => (h.onLink _ h.link.take).serve)

theorem State.Inv.recordSent : (execRecordSent s).Inv := by
  refine .next ?_
  split
  · exact h
  · exact ((h.onLink _ (Link.dropSent_Ok _ h.link)).recordGone _).finish

theorem State.Inv.wakeDiscard : (execWakeDiscard s).Inv :=
  .next (h.ite fun _ => (h.onLink _ (h.link.marked _)).linkFault _)

/-! ### Channel events -/

theorem State.Inv.channelStep (ch : ChannelId) : (execChannelStep ch s).Inv :=
  .next (h.ite fun _ => ((h.countDfStep ch).issueStep ch).settle)

theorem State.Inv.holdTimerExpiry (ch : ChannelId) : (execHoldTimerExpiry ch s).Inv := by
  refine .next (h.ite fun due => (h.onChannel ch _ fun k => ?_).settle)
  exact Channel.holdOver_ok _ k (Bool.and_eq_true_iff.mp due).2

theorem State.Inv.driverFault (ch : ChannelId) (active : Bool) : (execDriverFault ch active s).Inv :=
  .next ((h.withInputs _).ite fun _ => ((h.withInputs _).lookAtFlt ch).settle)

/-! ### Sensor and feed events -/

theorem State.Inv.formReading (sensor : SensorId) : (s.formReading sensor).Inv := h.onFeed _

theorem State.Inv.inputCause (f : WakeCause → State → State) (k : ∀ c, (f c s).Inv) (sensor : SensorId) :
    (s.inputCause f sensor).Inv := by
  unfold State.inputCause
  split
  · exact h
  · exact k _

theorem State.Inv.sensorInputChange (sensor : SensorId) (level : Bool) :
    (execSensorInputChange sensor level s).Inv := by
  have changed : (s.setInput sensor level).Inv := h.withInputs _
  refine .next ?_
  split
  · exact h
  · dsimp only
    split
    · exact changed
    · split
      · exact changed.inputCause _ (fun c => changed.follows ((Follows.refl _).causeDetected c)) _
      · exact (changed.inputCause _ (fun c => changed.follows ((Follows.refl _).causeTaken c)) _).formReading _

theorem State.Inv.debounceExpiry (sensor : SensorId) : (execDebounceExpiry sensor s).Inv :=
  .next (h.ite fun _ => ((h.onFeed _).sensorTaken sensor).finish)

theorem State.Inv.settleTimerExpiry : (execSettleTimerExpiry s).Inv :=
  .next (h.ite fun _ => (h.onFeed _).settle)

theorem State.Inv.firstDocument : s.firstDocument.Inv := by
  unfold State.firstDocument
  split
  · exact h
  · split
    · exact h.follows ((Follows.refl s).setDoc _ _ _)
    · split
      · exact h.follows ((Follows.refl s).setDoc _ _ _).startSettle
      · exact h

theorem State.Inv.firstTaken (sensor : SensorId) (before : Feed) : (s.firstTaken sensor before).Inv := by
  unfold State.firstTaken
  split
  · exact h.ite fun _ => h.coverOpens _ fun _ t => Follows.refl t
  · exact h.ite fun _ => h.firstDocument

theorem State.Inv.firstReadingsSteady (sensor : SensorId) : (execFirstReadingsSteady sensor s).Inv :=
  .next (h.ite fun _ => ((h.onFeed _).firstTaken sensor _).finish)

/-! ### Scan and print events -/

theorem State.Inv.exposureEnd : (execExposureEnd s).Inv := .next (h.ite fun _ => h.onScan _)

theorem State.Inv.captureDone (pixels : List Pixel) : (execCaptureDone pixels s).Inv := by
  refine .next ?_
  split
  · exact h
  next ctx _ =>
    have captured := (h.onScan fun c => { c with capture := .idle }).captured ctx
      (captureLine ctx.settings ctx.y ctx.table pixels)
    exact (captured.follows ((Follows.refl _).onChannel .df _ fun cfg c => c.captureDone_mild cfg _)).settle

theorem State.Inv.shadingLineRead (pixels : List Pixel) : (execShadingLineRead pixels s).Inv := by
  refine .next ?_
  split
  · exact h.ite fun _ => (h.shadingLine _ _ _ _).finish
  · exact h

theorem State.Inv.loadComplete : (execLoadComplete s).Inv :=
  .next (h.ite fun _ => (h.follows (Follows.refl s).loadComplete).settle)

theorem State.Inv.phaseTimerExpiry : (execPhaseTimerExpiry s).Inv :=
  .next (h.ite fun _ => (h.follows (Follows.refl s).phaseEnd).settle)

theorem State.Inv.cutterPulseEnd : (execCutterPulseEnd s).Inv :=
  .next (h.ite fun _ => (h.follows (Follows.refl s).cutDone).settle)

/-! ### Store events -/

theorem State.Inv.storeLineWritten : (execStoreLineWritten s).Inv := by
  refine .next ?_
  split
  · exact h
  next m e =>
    split
    · exact h
    next l rest q =>
      have waiting : m.queue ≠ [] := by simp [q]
      exact h.ite fun _ => (h.writeLine (State.transferring?_mem e) waiting l).settle

theorem State.Inv.storeSegmentRead (upsets : List (Nat × Byte)) : (execStoreSegmentRead upsets s).Inv := by
  refine .next ?_
  split
  · exact h
  · split
    · exact h
    · exact h.ite fun _ => (h.readSegment _ _ _).settle

theorem State.Inv.degradedSince (before : Byte) : (s.degradedSince before).Inv :=
  h.ite fun _ => h.follows ((Follows.refl s).reportStore _ _ _)

theorem State.Inv.segmentTested (passed : Bool) : (execSegmentTested passed s).Inv := by
  refine .next ?_
  split
  · exact h
  · split
    · exact h
    · exact h.ite fun _ => (h.onStore _ fun k => Store.wf_testSegment _ k _ _ _).degradedSince _

theorem State.Inv.memoryCheckDone : (execMemoryCheckDone s).Inv := by
  refine .next ?_
  split
  · exact h
  · exact h.ite fun _ => (h.checkEnded _).finish

/-! ### Power events -/

theorem State.Inv.onPower (f : Power → Power) : (s.onPower f).Inv := h.follows ((Follows.refl s).onPower f)

theorem State.Inv.lampWarmUpExpiry (reading : Pixel) : (execLampWarmUpExpiry reading s).Inv := by
  refine .next (h.ite fun _ => State.Inv.finish ?_)
  split
  · exact h.onPower _
  · exact h.domainFault _

theorem State.Inv.hpgSeen (active : Bool) : (s.hpgSeen active).Inv := by
  unfold State.hpgSeen
  split
  · exact h.ite fun _ => h.onPower _
  · exact h.ite fun _ => h.domainFault _

theorem State.Inv.hpgChange (active : Bool) : (execHpgChange active s).Inv :=
  .next ((h.withInputs _).ite fun _ => ((h.withInputs _).hpgSeen active).settle)

theorem State.Inv.printStartTimeout : (execPrintStartTimeout s).Inv :=
  .next (h.ite fun _ => (h.domainFault _).settle)

theorem State.Inv.motorStartDone : (execMotorStartDone s).Inv :=
  .next (h.ite fun _ => (h.onPower _).settle)

theorem State.Inv.idleTimerExpiry : (execIdleTimerExpiry s).Inv := by
  refine .next (h.ite fun _ => ?_)
  have expired := h.onPower fun p => { p with idleTimer := .expired }
  dsimp only
  refine State.Inv.settle ?_
  split
  · exact expired.follows (Follows.refl _).beginSleep
  · exact expired.follows (Follows.refl _).allDomainsOff

theorem State.Inv.stopClocks : s.stopClocks.Inv := by
  have flushed := (h.onStore Store.flush fun k => Store.wf_flush _ k).onFeed Feed.stopDebounce
  exact (flushed.onLink (fun l => { l with awaitMark := false }) (flushed.link.marked false)).onPower _

theorem State.Inv.sleepClocksStop : (execSleepClocksStop s).Inv := .next (h.ite fun _ => h.stopClocks)

theorem State.Inv.wakeInput : (execWakeInput s).Inv := by
  refine .next ?_
  split
  · exact h
  · split
    · exact h.follows ((Follows.refl s).causeDetected _)
    · exact h.follows ((Follows.refl s).causeTaken _)

theorem State.Inv.changeInput (cause : WakeCause) : (s.changeInput cause).Inv := by
  unfold State.changeInput
  split
  · exact h
  · exact h.withInputs _

theorem State.Inv.wakeCause (cause : WakeCause) : (execWakeCause cause s).Inv :=
  .next (h.ite fun _ => (h.changeInput cause).follows ((Follows.refl _).causeDetected _))

theorem State.Inv.wakeComplete : (execWakeComplete s).Inv :=
  .next (h.ite fun _ =>
    State.Inv.finish (((h.wakeLink.restartDebounce.lookAtFlt .df).lookAtFlt .rf).follows
      (Follows.refl _).restartIdle))

/-! ### Start-up and reset events -/

theorem State.Inv.withHeld (held : Bool) (x : Startup) : ({ s with held := held, startup := x } : State).Inv :=
  ⟨h.settings, h.link, h.df, h.rf, h.path, h.memory⟩

theorem State.Inv.nrstAsserted (marked bursts : Nat) : (execNrstAsserted marked bursts s).Inv := by
  refine .next ?_
  split
  · exact h
  · have stopped : (if s.inputs.pfi then s else s.stopMemory bursts).Inv := by
      split
      · exact h
      · exact h.stopMemory bursts
    exact (stopped.onStore _ fun _ => State.marksDone_wf stopped marked).withHeld true .straps

theorem State.Inv.pfiAsserted (bursts : Nat) : (execPfiAsserted bursts s).Inv := by
  have active : ({ s with inputs := { s.inputs with pfi := true } } : State).Inv := h.withInputs _
  refine .next ?_
  split
  · exact h
  · exact active.ite fun _ => active.stopMemory bursts

theorem State.Inv.powerOnReset (straps : Straps) : (execPowerOnReset straps s).Inv :=
  .next (h.ite fun _ =>
    State.Inv.settle (((State.powerOn_Inv _ _ _ _ h.memory).lookAtFlt .df).lookAtFlt .rf))

theorem State.Inv.formatDone : (execFormatDone s).Inv := by
  refine .next (h.ite fun _ => State.Inv.settle (State.Inv.withStartup (h.onStore _ fun k => ?_) _))
  exact Store.wf_flush _ (Store.wf_format _ k _)

theorem State.Inv.recoveryScanDone : (execRecoveryScanDone s).Inv := by
  refine .next ?_
  split
  · exact h.scanEnded.settle
  · exact h.ite fun _ => h.rebuilt.finish

theorem State.Inv.resetStopped_row : (execResetStopped s).Inv := by
  refine .next ?_
  split
  · exact h.ite fun _ => (h.resetStopped _).finish
  · exact h

end events

/-- Every row keeps the invariant: a command by its block's answer, an event by its own lemma. -/
theorem exec_keeps_Inv (i : Instr) {s : State} (h : s.Inv) : Row.Inv (exec i s) := by
  cases framed : i.frame? with
  | some f =>
    rw [exec_command framed]
    exact .next (h.receiveCommand i)
  | none =>
    cases i with
    | rxCharacter c => exact h.rxCharacter c
    | framingError => exact h.framingError
    | breakDetected => exact h.breakDetected
    | characterGapExpiry => exact h.characterGapExpiry
    | takeCommand => exact h.takeCommand
    | recordSent => exact h.recordSent
    | wakeDiscard => exact h.wakeDiscard
    | channelStep ch => exact h.channelStep ch
    | holdTimerExpiry ch => exact h.holdTimerExpiry ch
    | driverFault ch active => exact h.driverFault ch active
    | sensorInputChange sensor level => exact h.sensorInputChange sensor level
    | debounceExpiry sensor => exact h.debounceExpiry sensor
    | settleTimerExpiry => exact h.settleTimerExpiry
    | firstReadingsSteady sensor => exact h.firstReadingsSteady sensor
    | exposureEnd => exact h.exposureEnd
    | captureDone pixels => exact h.captureDone pixels
    | shadingLineRead pixels => exact h.shadingLineRead pixels
    | loadComplete => exact h.loadComplete
    | phaseTimerExpiry => exact h.phaseTimerExpiry
    | cutterPulseEnd => exact h.cutterPulseEnd
    | storeLineWritten => exact h.storeLineWritten
    | storeSegmentRead upsets => exact h.storeSegmentRead upsets
    | segmentTested passed => exact h.segmentTested passed
    | memoryCheckDone => exact h.memoryCheckDone
    | lampWarmUpExpiry reading => exact h.lampWarmUpExpiry reading
    | hpgChange active => exact h.hpgChange active
    | printStartTimeout => exact h.printStartTimeout
    | motorStartDone => exact h.motorStartDone
    | idleTimerExpiry => exact h.idleTimerExpiry
    | sleepClocksStop => exact h.sleepClocksStop
    | wakeInput => exact h.wakeInput
    | wakeCause cause => exact h.wakeCause cause
    | wakeComplete => exact h.wakeComplete
    | nrstAsserted marked bursts => exact h.nrstAsserted marked bursts
    | powerOnReset straps => exact h.powerOnReset straps
    | formatDone => exact h.formatDone
    | recoveryScanDone => exact h.recoveryScanDone
    | resetStopped => exact h.resetStopped_row
    | pfiAsserted bursts => exact h.pfiAsserted bursts
    | _ => cases framed

/-- Settles O3: a step is the meaning of the command at the front, or nothing. -/
theorem stepKeepsTheInvariant : Obligations.StepKeepsTheInvariant := by
  unfold Obligations.StepKeepsTheInvariant
  intro s t h e
  cases waiting : s.pending with
  | nil =>
    rw [step_of_idle waiting] at e
    cases e
    exact h
  | cons c rest =>
    rw [step_of_pending waiting] at e
    have unqueued : ({ s with pending := rest } : State).Inv :=
      ⟨h.settings, h.link, h.df, h.rf, h.path, h.memory⟩
    exact exec_keeps_Inv c unqueued t e

/-- Settles O4: every block in its power-on state, over any page memory in its canonical form. -/
theorem resetHasTheInvariant : Obligations.ResetHasTheInvariant := by
  unfold Obligations.ResetHasTheInvariant
  exact ⟨fun p straps i m wf => State.powerOn_Inv p straps i m wf, State.powerOn_Inv _ _ _ _ rfl⟩

/-! ## The state at the end of NRST -/

/-- The counts of GET_STATUS at power-on: none before a format, the headers of the page memory before a scan. -/
theorem State.powerOn_counted (p : List Instr) (straps : Straps) (i : Inputs) (m : PageMemory) :
    (State.powerOn p straps i m).counted = if straps.bkv then .headers else .none := by
  obtain ⟨hw, msz1, msz0, mt, bkv⟩ := straps
  cases bkv
  · rfl
  · rfl

/-- At power-on no header write is due, so the headers counted are those of the page memory. -/
theorem State.powerOn_headersOf (p : List Instr) (straps : Straps) (i : Inputs) (m : PageMemory) (c : HeaderClass) :
    let s := State.powerOn p straps i m
    s.headersOf c
      = ((List.range s.total).filter fun k => (PageMemory.read k m).header.classify s.total == c).length := rfl

theorem State.powerOn_recovering (p : List Instr) (straps : Straps) (i : Inputs) (m : PageMemory) :
    (State.powerOn p straps i m).recovering = true := by
  obtain ⟨hw, msz1, msz0, mt, bkv⟩ := straps
  cases bkv
  · rfl
  · rfl

/-- Settles O9: the power-on values as the records give them; the counts by where they come from. -/
theorem powerOnValues : Obligations.PowerOnValues := by
  unfold Obligations.PowerOnValues
  intro p straps i m
  have counted := State.powerOn_counted p straps i m
  refine ⟨rfl, fun ch => ?_, rfl, rfl, rfl, rfl, rfl, rfl, rfl, rfl, rfl, rfl, rfl, rfl, rfl, rfl, rfl, ?_, ?_,
    fun low => ?_, fun high => ?_, rfl, rfl, rfl, rfl, rfl, rfl⟩
  · cases ch
    · rfl
    · rfl
  · exact if_pos (State.powerOn_recovering p straps i m)
  · unfold State.reserveShown
    split_ifs
    · rfl
    · rfl
  · rw [low] at counted
    simp [State.freeShown, State.retiredShown, counted]
  · rw [high] at counted
    simp [State.freeShown, State.retiredShown, counted, State.powerOn_headersOf]

end Sys2Proof.Machine
end

section
/-! PROOFS. The serial link: frames and their bytes, the line code, the parser, the outbound queue, a break, and the
commands that LNK answers or refuses itself (chapter 1, 6.1, 6.2, 11.1, 11.2). -/

namespace Sys2Proof.Machine

/-! ## Frames -/

/-- The frame of every row reads back: one lemma of Laws.Frames for each command; an event has no frame. -/
theorem frameStatement (i : Instr) : Laws.Frames.Statement i := by
  open Laws.Frames in
  cases i with
  | setLink => exact setLink _ _ _
  | getStatus => exact getStatus _ _ _
  | getIdentity => exact getIdentity _ _
  | setPower => exact setPower _ _ _ _ _
  | domain => exact domain _ _ _ _
  | sleep => exact Laws.Frames.sleep _ _
  | reset => exact reset _ _ _
  | setProfile => exact setProfile _ _ _ _ _ _ _ _ _
  | setLineTiming => exact setLineTiming _ _ _ _ _ _ _
  | setChannel => exact setChannel _ _ _ _ _ _
  | moveSteps => exact moveSteps _ _ _ _ _ _
  | stopChannel => exact stopChannel _ _ _
  | clearFault => exact clearFault _ _ _
  | setFeed => exact setFeed _ _ _ _ _ _ _ _ _ _ _ _ _ _
  | eject => exact eject _ _
  | setScan => exact setScan _ _ _ _ _ _ _
  | shade => exact shade _ _
  | setPrint => exact setPrint _ _ _ _ _ _ _
  | startMove => exact startMove _ _ _ _ _ _ _ _ _ _ _ _ _ _ _ _ _
  | abortMove => exact abortMove _ _ _
  | moveStatus => exact moveStatus _ _ _
  | lineData => exact lineData _ _ _ _ _ _
  | readLines => exact readLines _ _ _ _
  | loadHeader => exact loadHeader _ _ _ _
  | createDoc => exact createDoc _ _ _ _
  | closeDoc => exact closeDoc _ _ _
  | deleteDoc => exact deleteDoc _ _ _
  | releaseDoc => exact releaseDoc _ _ _
  | listDocs => exact listDocs _ _ _
  | docInfo => exact docInfo _ _ _ _
  | setReserve => exact setReserve _ _ _
  | checkStore => exact checkStore _ _
  | _ =>
    intro f e
    cases e

/-- Settles O5. -/
theorem commandFramesReadBack : Obligations.CommandFramesReadBack := frameStatement

/-! ## The line code -/

/-- A run of a line is decoded to itself in front of what follows (R98 to R100). -/
theorem decodeRuns_encodeRun {n : Nat} (small : n < 3264) (rest : List Byte) :
    decodeRuns 0 false (encodeRun n ++ rest) = (decodeRuns 0 false rest).map (n :: ·) := by
  unfold encodeRun
  split
  next short =>
    have value : (BitVec.ofNat 8 n).toNat = n := by simp; omega
    simp [decodeRuns, value, short]
  next long =>
    have makeup : (BitVec.ofNat 8 (192 + (n / 192 - 1))).toNat = 191 + n / 192 := by
      rw [BitVec.toNat_ofNat]; omega
    have ending : (BitVec.ofNat 8 (n % 192)).toNat = n % 192 := by
      rw [BitVec.toNat_ofNat]; omega
    have h1 : ¬191 + n / 192 < 192 := by omega
    have h2 : 191 + n / 192 < 208 := by omega
    have h3 : n % 192 < 192 := by omega
    have total : 192 * (191 + n / 192 - 191) + n % 192 = n := by omega
    simp only [List.cons_append, List.nil_append, decodeRuns, makeup, ending, h1, h2, h3, if_true, if_false,
      Bool.false_eq_true, total]

/-- The coded runs of a line, with the end-of-line byte, are decoded to the runs. -/
theorem decodeRuns_encodeRuns (runs : List Nat) (small : ∀ n ∈ runs, n < 3264) :
    decodeRuns 0 false (runs.flatMap encodeRun ++ [255]) = some runs := by
  induction runs with
  | nil => rfl
  | cons n ns ih =>
    rw [List.flatMap_cons, List.append_assoc, decodeRuns_encodeRun (small n (by simp)),
      ih fun m hm => small m (by simp [hm])]
    rfl

/-- No run is longer than what is left of the line. -/
theorem le_of_mem_runsFrom (colour : Bool) (n : Nat) (line : RawLine) :
    ∀ m ∈ runsFrom colour n line, m ≤ n + line.length := by
  induction line generalizing colour n with
  | nil => simp [runsFrom]
  | cons d ds ih =>
    intro m hm
    unfold runsFrom at hm
    rw [List.length_cons]
    split at hm
    · have := ih _ _ m hm
      omega
    · rcases List.mem_cons.mp hm with rfl | hm
      · omega
      · have := ih _ _ m hm
        omega

/-- The dots of the runs of a line are the line, behind the dots counted so far. -/
theorem expandRuns_runsFrom (colour : Bool) (n : Nat) (line : RawLine) :
    expandRuns colour (runsFrom colour n line) = List.replicate n colour ++ line := by
  induction line generalizing colour n with
  | nil => simp [runsFrom, expandRuns]
  | cons d ds ih =>
    unfold runsFrom
    split
    next same => rw [ih, same, List.replicate_succ', List.append_assoc, List.singleton_append]
    next other =>
      have turned : (!colour) = d := by cases colour <;> cases d <;> simp_all
      rw [expandRuns, turned, ih]
      rfl

/-- Settles O7: the runs are read back, and their dots are the line. -/
theorem lineCodeReadsBack : Obligations.LineCodeReadsBack := by
  unfold Obligations.LineCodeReadsBack
  intro line short
  have small : ∀ n ∈ runsOf line, n < 3264 := fun n hn => by
    have := le_of_mem_runsFrom false 0 line n hn
    omega
  have dots : expandRuns false (runsOf line) = line := expandRuns_runsFrom false 0 line
  unfold decodeLine encodeLine
  rw [decodeRuns_encodeRuns _ small]
  simp [dots]

/-! ## A place for a frame in hand -/

/-- The frame in hand is taken when the queue has a place (R5, R7). -/
theorem Link.take_eq (l : Link) : l.take = { l with hand := l.hand.map (Hand.takenWith l.outbound.length) } := by
  obtain ⟨state, rate, change, parser, hand, waiting, outbound, sticky, mark⟩ := l
  cases hand with
  | none => rfl
  | some h =>
    obtain ⟨f, phase⟩ := h
    cases phase with
    | untaken =>
      by_cases place : outbound.length < 16
      · simp [Link.take, Hand.takenWith, Config.outboundPlaces, place]
      · simp [Link.take, Hand.takenWith, Config.outboundPlaces, place]
    | _ => rfl

theorem Hand.takenWith_of_place {n : Nat} (place : n < 16) (f : Frame) : Hand.takenWith n ⟨f, .untaken⟩ = ⟨f, .taken⟩ :=
  if_pos ⟨rfl, place⟩

/-- A complete frame becomes the command in hand, waits, or is lost (R5). -/
theorem State.offer_eq (f : Frame) (s : State) :
    s.offer f
      = if s.link.hand = none then
          State.checkHand { s with link := { s.link with
            hand := some (Hand.takenWith s.link.outbound.length ⟨f, .untaken⟩) } }
        else if s.link.waiting = none then { s with link := { s.link with waiting := some f } }
        else s.linkFault .rxOverrun := by
  unfold State.offer
  cases hand : s.link.hand with
  | none =>
    exact congrArg (fun l => State.checkHand { s with link := l })
      (Link.take_eq { s.link with hand := some ⟨f, .untaken⟩ })
  | some h =>
    rw [if_neg (by simp)]
    cases waiting : s.link.waiting with
    | none => rfl
    | some g => rw [if_neg (by simp)]

/-! ## Characters -/

/-- A part that listens hands every character to the parser, and nothing else follows. -/
theorem State.Listens.heard {s : State} (hs : s.Listens) (f : State → State) : s.heard f = f s := by
  unfold State.heard State.causeTaken State.cancelSleep
  simp [hs.held, hs.awake, hs.entry, hs.marked]

theorem State.Listens.rxCharacter {s : State} (hs : s.Listens) (c : Byte) :
    exec (.rxCharacter c) s = .next (s.parse c) := congrArg _ (hs.heard _)

/-- While the part waits for the mark time after a wake, what it hears is passed over (R13). -/
theorem State.heard_of_awaitMark {s : State} (held : s.held = false) (awake : s.power.state ≠ .sleep)
    (entry : s.power.entry = .none) (mark : s.link.awaitMark = true) (f : State → State) : s.heard f = s := by
  unfold State.heard State.causeTaken State.cancelSleep
  simp [held, awake, entry, mark]

theorem word16_toNat (lo hi : Byte) : (word16 lo hi).toNat = lo.toNat + 256 * hi.toNat := by
  have := lo.isLt
  rw [word16, BitVec.toNat_append, ← Nat.shiftLeft_add_eq_or_of_lt this, Nat.shiftLeft_eq]
  omega

/-- The two bytes of a number that fits are read as the number. -/
theorem word16_bytes2 {n : Nat} (small : n < 65536) :
    (word16 (BitVec.ofNat 8 n) (BitVec.ofNat 8 (n / 256))).toNat = n := by
  rw [word16_toNat, BitVec.toNat_ofNat, BitVec.toNat_ofNat]
  omega

section parse

variable {s : State} (c : Byte)

theorem State.parse_hunt (p : s.link.parser = .hunt) :
    s.parse c = if c = 0xC3 then s.setParser (.header []) else s := by
  unfold State.parse
  rw [p]
  rfl

theorem State.parse_header {got : List Byte} (p : s.link.parser = .header got) (short : got.length < 3) :
    s.parse c = s.setParser (.header (got ++ [c])) := by
  unfold State.parse
  rw [p]
  match got, short with
  | [], _ => rfl
  | [_], _ => rfl
  | [_, _], _ => rfl

/-- The fourth byte of a header completes its LEN: the CRC follows, or the payload, or the frame is too long (R3). -/
theorem State.parse_headerLast {type tag lo : Byte} (p : s.link.parser = .header [type, tag, lo]) :
    s.parse c =
      let len := lo.toNat + 256 * c.toNat
      if len = 0 then s.setParser (.check ⟨type, tag, []⟩ none)
      else if len ≤ 2304 then s.setParser (.payload type tag len [])
      else (s.setParser .hunt).linkFault .tooLong := by
  unfold State.parse
  rw [p]
  dsimp only
  unfold State.headerRead
  rw [word16_toNat]
  generalize lo.toNat + 256 * c.toNat = len
  have longest : Config.maxPayload = 2304 := rfl
  by_cases fits : len ≤ 2304
  · rw [if_neg (by omega : ¬Config.maxPayload < len), if_pos fits]
  · rw [if_pos (by omega : Config.maxPayload < len), if_neg (by omega : ¬len = 0), if_neg fits]

theorem State.parse_payload {type tag : Byte} {len : Nat} {got : List Byte}
    (p : s.link.parser = .payload type tag len got) :
    s.parse c = if len ≤ got.length + 1 then s.setParser (.check ⟨type, tag, got ++ [c]⟩ none)
      else s.setParser (.payload type tag len (got ++ [c])) := by
  unfold State.parse
  rw [p]

theorem State.parse_check {f : Frame} (p : s.link.parser = .check f none) :
    s.parse c = s.setParser (.check f (some c)) := by
  unfold State.parse
  rw [p]

theorem State.parse_checked {f : Frame} {lo : Byte} (p : s.link.parser = .check f (some lo)) :
    s.parse c = if word16 lo c = crc16 f.covered then (s.setParser .hunt).offer f
      else (s.setParser .hunt).linkFault .badCrc := by
  unfold State.parse
  rw [p]

end parse

/-- Settles O14: what is heard in the wait for the mark, and each state of the parser. -/
theorem charactersDriveTheParser : Obligations.CharactersDriveTheParser := by
  unfold Obligations.CharactersDriveTheParser
  refine ⟨fun s held awake entry mark => ⟨fun c => ?_, fun i f framed => ?_⟩, fun s c hs => ?_⟩
  · exact congrArg _ (State.heard_of_awaitMark held awake entry mark _)
  · rw [exec_command framed]
    unfold State.receiveCommand
    rw [framed]
    exact congrArg _ (State.heard_of_awaitMark held awake entry mark _)
  · rw [hs.rxCharacter]
    refine ⟨fun p other => ?_, fun p sync => ?_, fun got p short => ?_, fun type tag lo p => ?_,
      fun type tag len got p more => ?_, fun type tag len got p last => ?_, fun f p => ?_, fun f lo p => ?_⟩
    · rw [State.parse_hunt c p, if_neg other]
    · rw [State.parse_hunt c p, if_pos sync]
    · rw [State.parse_header c p short]
    · rw [State.parse_headerLast c p]
    · rw [State.parse_payload c p, if_neg (by omega)]
    · rw [State.parse_payload c p, if_pos (by omega)]
    · rw [State.parse_check c p]
    · have same : word16 lo c = crc16 f.covered ↔ lo.toNat + 256 * c.toNat = (crc16 f.covered).toNat := by
        rw [← word16_toNat, BitVec.toNat_inj]
      rw [State.parse_checked c p, State.offer_eq]
      simp only [same, ne_eq, ite_not]
      rfl

/-! ## The bytes of a frame, one by one -/

theorem State.Listens.setParser {s : State} (hs : s.Listens) (p : Parser) : (s.setParser p).Listens :=
  ⟨hs.held, hs.awake, hs.entry, hs.marked⟩

theorem State.Listens.runAll_cons {s : State} (hs : s.Listens) (c : Byte) (bs : List Byte) :
    runAll ((c :: bs).map .rxCharacter) s = runAll (bs.map .rxCharacter) (s.parse c) := by
  rw [List.map_cons, runAll, hs.rxCharacter]

/-- The payload bytes of a frame, the first of them at hand, bring the parser to the CRC (R3). -/
theorem State.Listens.runAll_payload {s : State} (hs : s.Listens) (type tag : Byte) (bs : List Byte) :
    ∀ (got : List Byte) (c : Byte) (rest : List Byte),
    runAll ((c :: rest ++ bs).map .rxCharacter)
        (s.setParser (.payload type tag (got.length + (c :: rest).length) got))
      = runAll (bs.map .rxCharacter) (s.setParser (.check ⟨type, tag, got ++ c :: rest⟩ none)) := by
  intro got c rest
  induction rest generalizing got c with
  | nil =>
    rw [List.singleton_append, (hs.setParser _).runAll_cons, State.parse_payload c rfl, if_pos (by simp)]
    rfl
  | cons d rest ih =>
    have step := ih (got ++ [c]) d
    have size : got.length + (c :: d :: rest).length = (got ++ [c]).length + (d :: rest).length := by
      simp only [List.length_append, List.length_cons, List.length_nil]
      omega
    rw [List.cons_append, (hs.setParser _).runAll_cons, State.parse_payload c rfl, if_neg (by simp), size]
    rw [List.append_assoc] at step
    exact step

/-- The bytes of a whole frame that reach a part in HUNT offer the frame to the receive buffer (R3, R5). -/
theorem State.Listens.runAll_frame {s : State} (hs : s.Listens) (hunt : s.link.parser = .hunt) (f : Frame)
    (short : f.payload.length ≤ 2304) : runAll (f.bytes.map .rxCharacter) s = some (s.offer f) := by
  obtain ⟨type, tag, payload⟩ := f
  have size := word16_bytes2 (n := payload.length) (by simp at short; omega)
  rw [word16_toNat] at size
  have tail : ∀ bs : List Byte,
      runAll ((payload ++ bs).map .rxCharacter)
          ((s.setParser (.header [type, tag, BitVec.ofNat 8 payload.length])).parse
            (BitVec.ofNat 8 (payload.length / 256)))
        = runAll (bs.map .rxCharacter) (s.setParser (.check ⟨type, tag, payload⟩ none)) := by
    intro bs
    rw [State.parse_headerLast _ rfl]
    dsimp only
    rw [size]
    cases payload with
    | nil => rfl
    | cons c rest =>
      rw [if_neg (by simp), if_pos short]
      have whole := hs.runAll_payload type tag bs [] c rest
      rw [List.length_nil, Nat.zero_add] at whole
      exact whole
  have crc : ∀ w : Word16, word16 (w.setWidth 8) ((w >>> 8).setWidth 8) = w := rejoined_eq
  have home : (s.setParser .hunt) = s := by
    unfold State.setParser State.onLink
    rw [← hunt]
  show runAll ((0xC3 :: type :: tag :: BitVec.ofNat 8 payload.length :: BitVec.ofNat 8 (payload.length / 256)
    :: (payload ++ wordBytes (crc16 (Frame.covered ⟨type, tag, payload⟩)))).map .rxCharacter) s = _
  rw [hs.runAll_cons, State.parse_hunt _ hunt, if_pos rfl]
  rw [(hs.setParser _).runAll_cons, State.parse_header _ rfl (by simp)]
  rw [((hs.setParser _).setParser _).runAll_cons, State.parse_header _ rfl (by simp)]
  rw [(((hs.setParser _).setParser _).setParser _).runAll_cons, State.parse_header _ rfl (by simp)]
  rw [((((hs.setParser _).setParser _).setParser _).setParser _).runAll_cons]
  refine (tail (wordBytes (crc16 (Frame.covered ⟨type, tag, payload⟩)))).trans ?_
  rw [wordBytes, (hs.setParser _).runAll_cons, State.parse_check _ rfl, ((hs.setParser _).setParser _).runAll_cons,
    State.parse_checked _ rfl, if_pos (crc _)]
  exact congrArg (fun t => some (State.offer ⟨type, tag, payload⟩ t)) home

/-- A frame offered to a part that hears is taken with a place for its reply, checked and answered (R5, R7). -/
theorem State.Hears.offer {s : State} (hs : s.Hears) (f : Frame) :
    s.offer f = State.checkHand { s with link := { s.link with hand := some ⟨f, .taken⟩ } } := by
  rw [State.offer_eq, if_pos hs.hand, Hand.takenWith_of_place hs.place]

/-- Settles O6: byte by byte the frame is offered to the receive buffer, and so it is by the row of its command. -/
theorem frameBytesReachTheHand : Obligations.FrameBytesReachTheHand := by
  unfold Obligations.FrameBytesReachTheHand
  intro s f hs short
  refine ⟨?_, fun i framed fits => ?_⟩
  · rw [hs.toListens.runAll_frame hs.hunting f short, hs.offer]
  · rw [exec_command framed]
    unfold State.receiveCommand
    rw [framed]
    dsimp only
    rw [hs.heard, State.arriveFrame, if_pos ⟨hs.hunting, short⟩, hs.offer]

/-! ## Commands that LNK answers or refuses -/

section hears

variable {s : State} (hs : s.Hears) {i : Instr} {f : Frame} (framed : i.frame? = some f) (fits : i.LengthFits)
include hs framed fits

/-- The frame of a command that a part hears is judged with the command in hand. -/
theorem State.Hears.received : exec i s = .next ((s.inHand f).give f ((s.inHand f).judge f)) := by
  obtain ⟨short, -, -⟩ := frameStatement i f framed fits
  rw [exec_command framed]
  unfold State.receiveCommand
  rw [framed]
  dsimp only
  rw [hs.heard, hs.arrive f short]

/-- A judgement that refuses queues the result code alone. -/
theorem State.Hears.refused {r : Result} (judged : (s.inHand f).judge f = .refuse r) :
    exec i s = .next (s.replied f.type f.tag [r.code]) := by
  rw [hs.received framed fits, judged]
  exact congrArg _ (hs.replies f _ _ _)

omit hs in
/-- A command that LNK passes on is answered by its block. -/
theorem State.inHand_judge (link : s.link.state = .ready ∨ f.type = 0x10)
    (startup : s.startup = .done ∨ servedInStartup f.type = true) :
    (s.inHand f).judge f = answerOf i (s.inHand f) := by
  obtain ⟨-, known, carried⟩ := frameStatement i f framed fits
  have passes : ¬((s.inHand f).link.state = .unset ∧ f.type ≠ 0x10) := by
    rintro ⟨unset, other⟩
    have unset : s.link.state = .unset := unset
    rcases link with ready | same
    · rw [ready] at unset
      cases unset
    · exact other same
  have served : ¬((s.inHand f).startup ≠ .done ∧ servedInStartup f.type = false) := by
    rintro ⟨early, late⟩
    rcases startup with done | always
    · exact early done
    · rw [always] at late
      cases late
  unfold State.judge
  rw [if_neg passes, if_neg (by simpa using known), carried]
  exact if_neg served

end hears

/-- A legal code names one of the four rates, whose code it is. -/
theorem rateOf_of_getElem? {code : Byte} {rate : Rate}
    (legal : [Rate.b125000, .b250000, .b500000, .b1000000][code.toNat]? = some rate) :
    rateOf code = some rate ∧ rate.code = code := by
  have small : code.toNat < 4 := (List.getElem?_eq_some_iff.mp legal).1
  obtain rfl | rfl | rfl | rfl : code = 0 ∨ code = 1 ∨ code = 2 ∨ code = 3 := by bv_omega
  all_goals
    cases legal
    exact ⟨rfl, rfl⟩

theorem rateOf_eq_none {code : Byte} (illegal : 3 < code.toNat) : rateOf code = none := by
  unfold rateOf
  split
  all_goals first | omega | rfl

/-- Settles O12: the late answer that records the rate, and the refusal. -/
theorem setLinkOrdersTheRate : Obligations.SetLinkOrdersTheRate := by
  unfold Obligations.SetLinkOrdersTheRate
  intro s tag code rsv hs
  have judged := State.inHand_judge (s := s) (i := .setLink tag code rsv) (f := ⟨0x10, tag, [code, rsv]⟩) rfl trivial (.inr rfl) (.inr rfl)
  refine ⟨fun rate legal zero => ?_, fun bad => ?_⟩
  · obtain ⟨named, back⟩ := rateOf_of_getElem? legal
    have late : answerSetLink code rsv = .late fun s => s.onLink (Link.orderRate rate) := by
      unfold answerSetLink
      rw [named]
      exact if_neg (by simpa using zero)
    rw [hs.received (i := .setLink tag code rsv) rfl trivial, judged]
    show Host.Outcome.next (State.give _ (answerSetLink code rsv) _) = _
    rw [late, ← back]
    rfl
  · refine hs.refused (i := .setLink tag code rsv) (r := .badValue) rfl trivial (judged.trans ?_)
    show answerSetLink code rsv = _
    unfold answerSetLink
    split
    · rfl
    next rate named =>
      refine if_pos ?_
      rcases bad with illegal | reserved
      · rw [rateOf_eq_none illegal] at named
        cases named
      · exact reserved

/-- Settles O17: the two refusals of LNK, before any block is asked. -/
theorem linkRefusesBeforeTheBlocks : Obligations.LinkRefusesBeforeTheBlocks := by
  unfold Obligations.LinkRefusesBeforeTheBlocks
  intro s i f hs framed fits
  obtain ⟨-, known, carried⟩ := frameStatement i f framed fits
  refine ⟨fun unset other => ?_, fun ready early h10 h11 h12 => ?_⟩
  · exact hs.refused (r := .linkUnset) framed fits (if_pos ⟨unset, other⟩)
  · refine hs.refused (r := .booting) framed fits ?_
    have passes : ¬((s.inHand f).link.state = .unset ∧ f.type ≠ 0x10) := by
      rintro ⟨unset, -⟩
      exact absurd (ready.symm.trans unset) (by simp)
    unfold State.judge
    rw [if_neg passes, if_neg (by simpa using known), carried]
    exact if_pos ⟨early, by rw [servedInStartup, beq_false_of_ne h10, beq_false_of_ne h11, beq_false_of_ne h12]; rfl⟩

theorem markOf_eq_none {b : Byte} (h : 1 < b.toNat) : markOf b = none := by
  unfold markOf
  split
  · omega
  · omega
  · rfl

/-- A mark in range is set when the byte is 1. -/
theorem markOf_eq_some {b : Byte} (h : b.toNat ≤ 1) : markOf b = some (b == 1) := by
  obtain rfl | rfl : b = 0 ∨ b = 1 := by bv_omega
  · rfl
  · rfl

/-- The segments are 512 for each MiB (R185). -/
theorem State.total_div (s : State) : s.total / 512 = Config.memoryMiB s.straps :=
  Nat.mul_div_cancel_left _ (by decide)

/-- Settles O19: the two records of 11.5, and the operands refused. -/
theorem statusAndIdentity : Obligations.StatusAndIdentity := by
  unfold Obligations.StatusAndIdentity
  intro s tag clear rsv hs ready
  have status := State.inHand_judge (s := s) (i := .getStatus tag clear rsv) (f := ⟨0x11, tag, [clear, rsv]⟩) rfl trivial (.inl ready)
    (.inr rfl)
  have identity := State.inHand_judge (s := s) (i := .getIdentity tag rsv) (f := ⟨0x12, tag, [rsv]⟩) rfl trivial (.inl ready) (.inr rfl)
  refine ⟨fun legal zero => ?_, fun bad => ?_, ?_⟩
  · have answer (u : State) : answerGetStatus clear rsv u
        = .ok (statusRecord u) fun s => if clear == 1 then s.clearSticky else s := by
      unfold answerGetStatus
      rw [markOf_eq_some legal]
      exact if_neg (by simpa using zero)
    rw [hs.received (i := .getStatus tag clear rsv) rfl trivial, status]
    show Host.Outcome.next (State.give _ (answerGetStatus clear rsv _) _) = _
    rw [answer]
    refine congrArg _ ((hs.replies _ _ _ _).trans ?_)
    simp only [beq_iff_eq]
    split
    · rfl
    · rfl
  · refine hs.refused (i := .getStatus tag clear rsv) (r := .badValue) rfl trivial (status.trans ?_)
    show answerGetStatus clear rsv _ = _
    unfold answerGetStatus
    split
    · rfl
    next c named =>
      refine if_pos ?_
      rcases bad with illegal | reserved
      · rw [markOf_eq_none illegal] at named
        cases named
      · exact reserved
  · rw [hs.received (i := .getIdentity tag rsv) rfl trivial, identity]
    show Host.Outcome.next (State.give _ (answerGetIdentity rsv _) _) = _
    unfold answerGetIdentity
    refine congrArg _ ?_
    by_cases zero : rsv = 0
    · rw [if_neg (by simpa using zero), if_pos zero, State.total_div]
      exact hs.replies _ _ _ _
    · rw [if_pos zero, if_neg zero]
      exact hs.replies _ _ _ _

/-! ## The outbound queue -/

/-- A frame of a record is laid out as 11.1 gives it. -/
theorem OutRecord.frame_bytes (r : OutRecord) :
    let covered := r.type :: r.tag :: (bytes2 r.payload.length ++ r.payload)
    r.frame.bytes = 0xC3 :: (covered ++ wordBytes (crc16 covered)) := rfl

section sends

variable {s : State} {before after : List OutRecord} {r : OutRecord} (sends : s.Sends before r after)
include sends

/-- The records before the one being sent are not eligible (R10). -/
theorem State.Sends.passed_over (x : OutRecord) (hx : x ∈ before) : s.link.eligible x = false := by
  have unset := sends.unset (List.ne_nil_of_mem hx)
  simp [Link.eligible, OutRecord.isReport, unset, sends.passed x hx]

theorem State.Sends.sent : s.link.eligible r = true := by
  rcases sends.eligible with ready | reply
  · simp [Link.eligible, ready]
  · simp [Link.eligible, OutRecord.isReport, reply]

theorem State.Sends.sending? : s.link.sending? = some r := by
  unfold Link.sending?
  rw [sends.queue, List.find?_append, List.find?_eq_none.mpr fun x hx => by simp [sends.passed_over x hx]]
  simp [sends.sent]

/-- The queue without the record sent, and a frame in hand taken when it has a place there (R7, R9). -/
theorem State.Sends.dropSent : s.link.dropSent = { s.link with
    outbound := before ++ after
    hand := s.link.hand.map (Hand.takenWith (before ++ after).length) } := by
  have rest : s.link.outbound.eraseP s.link.eligible = before ++ after := by
    rw [sends.queue, List.eraseP_append_right _ fun x hx => by simp [sends.passed_over x hx],
      List.eraseP_cons_of_pos sends.sent]
  unfold Link.dropSent
  rw [rest, Link.take_eq]

theorem State.Sends.recordSent (clocked : s.clocked = true) :
    exec .recordSent s = .next ((s.onLink Link.dropSent).recordGone r.kind).finish := by
  show execRecordSent s = _
  unfold execRecordSent
  rw [State.sending?, if_pos clocked, sends.sending?]

end sends

/-- The end of the SET_LINK reply: the rate and READY, and the frame that waited moves up (R5, R11). -/
theorem Link.applyRate_eq (l : Link) : l.applyRate = { l with
    state := .ready
    rate := l.rateChange.getD l.rate
    rateChange := none
    hand := l.waiting.map fun f => Hand.takenWith l.outbound.length ⟨f, .untaken⟩
    waiting := none } := by
  unfold Link.applyRate Link.complete
  rw [Link.take_eq]
  simp only [Option.map_map]
  rfl

/-- Settles O13: the record that goes, by its kind. -/
theorem recordSentLeavesTheQueue : Obligations.RecordSentLeavesTheQueue := by
  unfold Obligations.RecordSentLeavesTheQueue
  intro s before after r held awake sends
  have clocked := State.clocked_of held awake
  refine ⟨?_, fun kind => ?_, fun kind => ?_⟩
  · unfold State.txd State.sending?
    rw [if_pos clocked, sends.sending?]
    rfl
  · rw [sends.recordSent clocked]
    unfold State.onLink
    rw [sends.dropSent]
    rcases kind with kind | kind
    · rw [kind]
      rfl
    · rw [kind]
      rfl
  · rw [sends.recordSent clocked, kind]
    unfold State.recordGone State.linkReplySent State.onLink
    rw [sends.dropSent]
    dsimp only
    rw [Link.applyRate_eq]
    rfl

/-- The reports in a queue, and the place reserved for a reply, as R9 counts them. -/
theorem Link.reserved_eq (l : Link) : l.reserved
    = if l.hand.map Hand.phase = some .taken ∨ l.hand.map Hand.phase = some .handed then 1 else 0 := by
  unfold Link.reserved
  cases l.hand with
  | none => rfl
  | some h =>
    obtain ⟨f, phase⟩ := h
    cases phase with
    | _ => rfl

theorem Link.admits_iff (l : Link) : l.admits = true ↔
    (l.outbound.filter fun r => r.kind == .report).length < 15
      ∧ l.outbound.length
        + (if l.hand.map Hand.phase = some .taken ∨ l.hand.map Hand.phase = some .handed then 1 else 0) < 16 := by
  rw [← Link.reserved_eq]
  simp only [Link.admits, Bool.and_eq_true, decide_eq_true_eq]
  rfl

/-- Settles O15: the three link events, the admission of a report, and the flag of each fault. -/
theorem linkFaultsAndReports : Obligations.LinkFaultsAndReports := by
  unfold Obligations.LinkFaultsAndReports
  refine ⟨fun s => ⟨fun hs => ?_, fun held awake entry mark => ?_, fun held awake partly => ?_,
    fun held awake mark => ?_⟩, fun s type payload => ?_, fun s => ⟨rfl, rfl, rfl, rfl, rfl, rfl⟩⟩
  · exact congrArg _ (hs.heard _)
  · exact congrArg _ (State.heard_of_awaitMark held awake entry mark _)
  · exact congrArg _ (if_pos (by simp [State.clocked_of held awake, partly]))
  · exact congrArg _ (if_pos (by simp [State.clocked_of held awake, mark]))
  · have e := s.link.admits_iff
    unfold State.report State.onLink Link.report
    by_cases admitted : s.link.admits = true
    · rw [if_pos admitted, if_pos (e.mp admitted)]
    · rw [if_neg admitted, if_neg fun k => admitted (e.mpr k)]

/-- The link at a break: only a hand that is no SET_LINK stays, and has its place now (R12). -/
theorem Link.broken_eq (l : Link) : l.broken =
    { state := .unset
      rate := .b125000
      rateChange := none
      parser := .hunt
      hand := (l.hand.filter fun h => h.frame.type != 0x10).map (Hand.takenWith 0)
      waiting := none
      outbound := []
      sticky := l.sticky
      awaitMark := false } := by
  have kept : l.handAtBreak = l.hand.filter fun h => h.frame.type != 0x10 := by
    unfold Link.handAtBreak
    cases l.hand with
    | none => rfl
    | some h =>
      rw [Option.filter_some]
      dsimp only
      split
      next link => rw [if_neg (by simp [link])]
      next other => rw [if_pos (bne_iff_ne.mpr other)]
  unfold Link.broken
  rw [Link.take_eq, kept]
  rfl

/-- Settles O16: the break as it is taken, and what follows. -/
theorem breakUnsetsTheLink : Obligations.BreakUnsetsTheLink := by
  unfold Obligations.BreakUnsetsTheLink
  intro s held awake entry
  have taken : s.causeTaken .breakSeen = s := if_pos entry
  show execBreakDetected s = _
  unfold execBreakDetected
  rw [if_neg (by simp [held]), if_neg awake, taken]
  unfold State.takeBreak State.onLink
  rw [Link.broken_eq]
  rfl

end Sys2Proof.Machine
end

section
/-! PROOFS. What the answers of the blocks and the events leave alone: the command in hand, and the position and phase
index of the channels (1.5, 2.2, R7, R20); what a held part leaves alone (R185). -/

namespace Sys2Proof.Machine

/-! ## Positions, phase indexes and the command in hand -/

/-- The positions and the phase indexes of both channels are those of another state. -/
structure State.Rests (s t : State) : Prop where
  dfPhase : t.df.phase = s.df.phase
  dfPosition : t.df.position = s.df.position
  rfPhase : t.rf.phase = s.rf.phase
  rfPosition : t.rf.position = s.rf.position

/-- Besides, the command in hand is the same. -/
structure State.Calm (s t : State) : Prop extends s.Rests t where
  hand : t.link.hand = s.link.hand

theorem State.Rests.refl (s : State) : s.Rests s := ⟨rfl, rfl, rfl, rfl⟩

theorem State.Rests.trans {s t u : State} (h : s.Rests t) (k : t.Rests u) : s.Rests u :=
  ⟨k.dfPhase.trans h.dfPhase, k.dfPosition.trans h.dfPosition, k.rfPhase.trans h.rfPhase,
    k.rfPosition.trans h.rfPosition⟩

theorem State.Calm.refl (s : State) : s.Calm s := ⟨.refl s, rfl⟩

theorem State.Calm.trans {s t u : State} (h : s.Calm t) (k : t.Calm u) : s.Calm u :=
  ⟨h.toRests.trans k.toRests, k.hand.trans h.hand⟩

theorem State.Calm.ite {s t u : State} {c : Prop} [Decidable c] (h : s.Calm t) (k : s.Calm u) :
    s.Calm (if c then t else u) := by
  split
  · exact h
  · exact k

/-- What only a command or an event itself changes stays under consequences, the command in hand and the rotation
of the channels among it. -/
theorem State.Leads.calm {s t : State} (h : s.Leads t) : s.Calm t :=
  ⟨⟨congrArg Kept.dfPhase h.kept, congrArg Kept.dfPosition h.kept, congrArg Kept.rfPhase h.kept,
    congrArg Kept.rfPosition h.kept⟩, congrArg Kept.hand h.kept⟩

theorem Follows.calm {s t : State} (h : Follows False s t) : s.Calm t := h.leads.calm

theorem State.settle_calm (s : State) : s.Calm s.settle := s.settle_follows.leads.calm

theorem State.Calm.settle {s t : State} (h : s.Calm t) : s.Calm t.settle := h.trans t.settle_calm

/-! ## The answers of the blocks -/

/-- The effect of an answer leaves the command in hand and the rotation of the channels alone. -/
def Answer.Calm (a : Answer) : Prop := ∀ t : State, t.Calm (a.effect t)

theorem Answer.calm_refuse (r : Result) : (Answer.refuse r).Calm := State.Calm.refl

theorem refuseLine_calm (r : Result) (room : Nat) : (refuseLine r room).Calm := State.Calm.refl

theorem State.onChannelCfg_calm (ch : ChannelId) (f : ChannelSettings → ChannelSettings) (t : State) :
    t.Calm (t.onChannelCfg ch f) := by
  cases ch
  · exact ⟨⟨rfl, rfl, rfl, rfl⟩, rfl⟩
  · exact ⟨⟨rfl, rfl, rfl, rfl⟩, rfl⟩

/-- No answer but that of SET_LINK, whose reply keeps the command in hand until it has gone out (R11), touches the
command in hand, and none turns a channel. -/
theorem answerOf_calm (i : Instr) (s : State) (other : ∀ tag code rsv, i ≠ .setLink tag code rsv) :
    (answerOf i s).Calm := by
  cases i with
  | setLink tag code rsv => exact absurd rfl (other tag code rsv)
  | getStatus tag clear rsv =>
    show (answerGetStatus _ _ _).Calm
    unfold answerGetStatus
    repeat' split
    · exact Answer.calm_refuse _
    · exact Answer.calm_refuse _
    · exact fun t => ⟨⟨rfl, rfl, rfl, rfl⟩, rfl⟩
    · exact State.Calm.refl
  | getIdentity tag rsv =>
    show (answerGetIdentity _ _).Calm
    unfold answerGetIdentity
    split
    · exact Answer.calm_refuse _
    · exact State.Calm.refl
  | setPower tag idle auto warm rsv =>
    show (answerSetPower _ _ _ _).Calm
    unfold answerSetPower
    split
    · exact Answer.calm_refuse _
    · exact fun t => ⟨⟨rfl, rfl, rfl, rfl⟩, rfl⟩
  | domain tag dom action rsv =>
    show (answerDomain _ _ _ _).Calm
    unfold answerDomain
    repeat' split
    · exact Answer.calm_refuse _
    · exact Answer.calm_refuse _
    · intro t
      show t.Calm (State.domainOn _ t)
      unfold State.domainOn
      split
      · exact ((Follows.refl t).startDomain _).calm.settle
      · exact ((Follows.refl t).startDomain _).calm.settle
      · exact .refl t
    · exact fun t => .ite (.refl t) ((Follows.refl t).domainOff _).calm.settle
    · exact Answer.calm_refuse _
  | sleep tag rsv =>
    show (answerSleep _ _).Calm
    unfold answerSleep
    repeat' split
    · exact Answer.calm_refuse _
    · exact fun t => (Follows.refl t).beginSleep.calm.settle
    · exact Answer.calm_refuse _
  | reset tag kind rsv =>
    show (answerReset _ _).Calm
    unfold answerReset
    repeat' split
    · exact Answer.calm_refuse _
    · exact Answer.calm_refuse _
    · intro t
      have stopped := (((State.abortAll_follows t).trans (State.cancelWork_follows _)).trans
        (State.resetChannels_follows _)).calm
      have held (u : State) (x : ResetPhase) : u.Calm { u with resetPhase := x } := ⟨⟨rfl, rfl, rfl, rfl⟩, rfl⟩
      exact (stopped.trans (held _ _)).settle
  | setProfile tag ch prof ws wt f d k16 rsv =>
    show (answerSetProfile _ _ _ _ _ _ _ _).Calm
    unfold answerSetProfile
    repeat' split
    · exact Answer.calm_refuse _
    · exact fun t => State.onChannelCfg_calm _ _ t
    · exact Answer.calm_refuse _
  | setLineTiming tag ch dens w f d rsv =>
    show (answerSetLineTiming _ _ _ _ _ _ _).Calm
    unfold answerSetLineTiming
    repeat' split
    · exact fun t => State.onChannelCfg_calm _ _ t
    · exact Answer.calm_refuse _
    · exact Answer.calm_refuse _
  | setChannel tag ch inv pullIn hold rsv =>
    show (answerSetChannel _ _ _ _ _ _).Calm
    unfold answerSetChannel
    repeat' split
    · exact Answer.calm_refuse _
    · exact Answer.calm_refuse _
    · exact fun t => State.onChannelCfg_calm _ _ t
    · exact Answer.calm_refuse _
  | moveSteps tag ch prof dir rsv dist =>
    show (answerMoveSteps _ _ _ _ _ _).Calm
    unfold answerMoveSteps
    repeat' split
    · exact Answer.calm_refuse _
    · exact Answer.calm_refuse _
    · exact Answer.calm_refuse _
    · exact Answer.calm_refuse _
    · exact fun t => ((Follows.refl t).onChannel _ _ fun cfg c => c.hostMove_mild cfg _).calm.settle
    · exact Answer.calm_refuse _
  | stopChannel tag ch rsv =>
    show (answerStopChannel _ _ _).Calm
    unfold answerStopChannel
    repeat' split
    · exact Answer.calm_refuse _
    · exact Answer.calm_refuse _
    · exact Answer.calm_refuse _
    · exact fun t => ((Follows.refl t).onChannel _ _ fun cfg c => c.hostStop_mild cfg).calm.settle
  | clearFault tag ch rsv =>
    show (answerClearFault _ _ _).Calm
    unfold answerClearFault
    repeat' split
    · exact Answer.calm_refuse _
    · exact Answer.calm_refuse _
    · exact Answer.calm_refuse _
    · exact fun t => ((Follows.refl t).onChannel _ _ fun cfg c => c.clearFault_mild cfg).calm.settle
  | setFeed tag pE pS pP pC dE dS dP dC settle rsv preload offset distance =>
    show (answerSetFeed _ _ _ _ _ _ _ _ _ _ _ _ _).Calm
    unfold answerSetFeed
    repeat' split
    · exact Answer.calm_refuse _
    · exact fun t => ⟨⟨rfl, rfl, rfl, rfl⟩, rfl⟩
    · exact Answer.calm_refuse _
  | eject tag rsv =>
    show (answerEject _ _).Calm
    unfold answerEject
    repeat' split
    all_goals first
      | exact Answer.calm_refuse _
      | exact fun t => ((Follows.refl t).setDoc _ _ _).calm.settle
  | setScan tag mode th b inv exposure rsv =>
    show (answerSetScan _ _ _ _ _ _ _).Calm
    unfold answerSetScan
    repeat' split
    · exact Answer.calm_refuse _
    · exact Answer.calm_refuse _
    · exact fun t => ⟨⟨rfl, rfl, rfl, rfl⟩, rfl⟩
    · exact Answer.calm_refuse _
  | shade tag rsv =>
    show (answerShade _ _).Calm
    unfold answerShade
    repeat' split
    · exact Answer.calm_refuse _
    · exact Answer.calm_refuse _
    · exact Answer.calm_refuse _
    · exact Answer.calm_refuse _
    · exact fun t => ((Follows.refl t).onScan _ rfl).calm.settle
  | setPrint tag ts tg m margin pulse rsv =>
    show (answerSetPrint _ _ _ _ _ _ _).Calm
    unfold answerSetPrint
    repeat' split
    · exact Answer.calm_refuse _
    · exact Answer.calm_refuse _
    · exact fun t => ⟨⟨rfl, rfl, rfl, rfl⟩, rfl⟩
  | startMove tag source sink depth target reduce header fallback close f8 f9 f10 f12 f13 f14 f16 f17 =>
    show (answerStartMove _ _ _ _ _ _ _ _ _ _ _ _ _ _ _ _ _).Calm
    unfold answerStartMove
    repeat' split
    · exact Answer.calm_refuse _
    · exact Answer.calm_refuse _
    · exact fun t => ((Follows.refl t).onPath _ fun no => no.elim).calm.settle
  | abortMove tag num rsv =>
    show (answerAbortMove _ _ _).Calm
    unfold answerAbortMove
    repeat' split
    · exact Answer.calm_refuse _
    · exact Answer.calm_refuse _
    · exact fun t => ((Follows.refl t).endMove _ _ _ _ fun _ => rfl).calm.settle
    · exact Answer.calm_refuse _
  | moveStatus tag num rsv =>
    show (answerMoveStatus _ _ _).Calm
    unfold answerMoveStatus
    repeat' split
    · exact Answer.calm_refuse _
    · exact Answer.calm_refuse _
    · exact State.Calm.refl
    · exact fun t => ((Follows.refl t).onPath _ fun no => no.elim).calm
  | lineData tag num endPage endMove rsv coded =>
    show (answerLineData _ _ _ _ _ _).Calm
    unfold answerLineData
    repeat' split
    all_goals first
      | exact refuseLine_calm _ _
      | exact fun t => ((Follows.refl t).acceptLine _ _ _ _ fun no => no.elim).calm.settle
  | readLines tag num k rsv =>
    show (answerReadLines _ _ _ _).Calm
    unfold answerReadLines
    repeat' split
    all_goals first
      | exact Answer.calm_refuse _
      | exact fun t => ((Follows.refl t).onPath _ fun no => no.elim).calm
  | loadHeader tag width rsv code =>
    show (answerLoadHeader _ _ _ _).Calm
    unfold answerLoadHeader
    repeat' split
    · exact Answer.calm_refuse _
    · exact Answer.calm_refuse _
    · exact Answer.calm_refuse _
    · exact fun t => ⟨⟨rfl, rfl, rfl, rfl⟩, rfl⟩
  | createDoc tag cls auto rsv =>
    show (answerCreateDoc _ _ _ _).Calm
    unfold answerCreateDoc
    repeat' split
    · exact Answer.calm_refuse _
    · exact Answer.calm_refuse _
    · exact fun t => ⟨⟨rfl, rfl, rfl, rfl⟩, rfl⟩
    · exact Answer.calm_refuse _
  | closeDoc tag doc rsv =>
    show (answerCloseDoc _ _ _).Calm
    unfold answerCloseDoc
    repeat' split
    · exact Answer.calm_refuse _
    · exact Answer.calm_refuse _
    · exact Answer.calm_refuse _
    · exact fun t => .ite (.refl t) ⟨⟨rfl, rfl, rfl, rfl⟩, rfl⟩
  | deleteDoc tag doc rsv =>
    show (answerDeleteDoc _ _ _).Calm
    unfold answerDeleteDoc
    repeat' split
    · exact Answer.calm_refuse _
    · exact Answer.calm_refuse _
    · exact Answer.calm_refuse _
    · exact Answer.calm_refuse _
    · exact fun t => ⟨⟨rfl, rfl, rfl, rfl⟩, rfl⟩
  | releaseDoc tag doc rsv =>
    show (answerReleaseDoc _ _ _).Calm
    unfold answerReleaseDoc
    repeat' split
    · exact Answer.calm_refuse _
    · exact Answer.calm_refuse _
    · exact fun t => .ite ⟨⟨rfl, rfl, rfl, rfl⟩, rfl⟩ (.refl t)
  | listDocs tag start rsv =>
    show (answerListDocs _ _ _).Calm
    unfold answerListDocs
    split
    · exact Answer.calm_refuse _
    · exact State.Calm.refl
  | docInfo tag doc start rsv =>
    show (answerDocInfo _ _ _ _).Calm
    unfold answerDocInfo
    repeat' split
    · exact Answer.calm_refuse _
    · exact Answer.calm_refuse _
    · exact State.Calm.refl
  | setReserve tag code rsv =>
    show (answerSetReserve _ _ _).Calm
    unfold answerSetReserve
    split
    · exact Answer.calm_refuse _
    · exact fun t => ⟨⟨rfl, rfl, rfl, rfl⟩, rfl⟩
  | checkStore tag rsv =>
    show (answerCheckStore _ _).Calm
    unfold answerCheckStore
    repeat' split
    · exact Answer.calm_refuse _
    · exact Answer.calm_refuse _
    · exact fun t => State.Calm.settle ⟨⟨rfl, rfl, rfl, rfl⟩, rfl⟩
  | _ => exact Answer.calm_refuse _

/-! ## TAKE_COMMAND -/

/-- Nothing in hand is taken and still to be checked, so nothing is answered (R7). -/
theorem State.checkHand_of_not_taken {s : State} (free : ∀ f, s.link.hand ≠ some ⟨f, .taken⟩) : s.checkHand = s := by
  unfold State.checkHand
  split
  next f taken => exact absurd taken (free f)
  next => rfl

/-- A part with the clocks running, behind a frame that has been taken: it is judged, and answered. -/
theorem State.takeCommand_of_taken {s : State} (clocked : s.clocked = true) {f : Frame}
    (taken : s.link.hand = some ⟨f, .taken⟩) :
    exec .takeCommand s = .next (((s.inHand f).give f ((s.inHand f).judge f)).checkHand) := by
  have stays : s.link.take = s.link := by
    unfold Link.take
    rw [taken]
  show execTakeCommand s = _
  unfold execTakeCommand
  rw [if_pos clocked]
  unfold State.onLink
  rw [stays]
  unfold State.serve
  congr 2
  unfold State.checkHand
  rw [taken]
  rfl

theorem State.takeCommand_of_idle {s : State} (free : ∀ f, s.link.hand ≠ some ⟨f, .taken⟩)
    (full : ∀ f, s.link.hand = some ⟨f, .untaken⟩ → 16 ≤ s.link.outbound.length) : exec .takeCommand s = .next s := by
  have stays : s.link.take = s.link := by
    rcases s.link.take_cases with ⟨f, untaken, place, -⟩ | ⟨same, -⟩
    · have := full f untaken
      exact absurd place (by simp only [Config.outboundPlaces]; omega)
    · exact same
  show execTakeCommand s = _
  unfold execTakeCommand
  split
  · unfold State.onLink
    rw [stays]
    unfold State.serve
    show Host.Outcome.next (s.checkHand.checkHand) = _
    rw [State.checkHand_of_not_taken free, State.checkHand_of_not_taken free]
  · rfl

/-- With nothing waiting, the answer to a served command leaves nothing taken in hand. -/
theorem State.Hears.give_not_taken {s : State} (hs : s.Hears) (i : Instr) (f g : Frame) :
    ((s.inHand f).give f (answerOf i (s.inHand f))).link.hand ≠ some ⟨g, .taken⟩ := by
  by_cases link : ∃ tag code rsv, i = .setLink tag code rsv
  · obtain ⟨tag, code, rsv, rfl⟩ := link
    show (State.give _ (answerSetLink code rsv) _).link.hand ≠ _
    unfold answerSetLink
    split
    · rw [show Answer.refuse .badValue = ⟨.reply, some [Result.badValue.code], id⟩ from rfl, hs.replies]
      simp [State.queued, hs.hand]
    · split
      · rw [show Answer.refuse .badValue = ⟨.reply, some [Result.badValue.code], id⟩ from rfl, hs.replies]
        simp [State.queued, hs.hand]
      · show some (⟨f, .replied⟩ : Hand) ≠ _
        simp
  · have calm := answerOf_calm i (s.inHand f) fun tag code rsv e => link ⟨tag, code, rsv, e⟩
    generalize answerOf i (s.inHand f) = a at calm
    obtain ⟨kind, reply, effect⟩ := a
    cases reply with
    | none =>
      have same := (calm (s.inHand f)).hand
      show (effect (s.inHand f)).link.hand ≠ _
      rw [same]
      simp [State.inHand, Link.handOver]
    | some payload =>
      have same := (calm (s.queued (replyRecord kind f payload))).hand
      rw [hs.replies]
      show (effect _).link.hand ≠ _
      rw [same]
      simp [State.queued, hs.hand]

/-- The types of 11.2 are those whose lengths 11.4 gives. -/
theorem commandTypes_eq : commandTypes = commandLengths.map Prod.fst := rfl

/-- A type of 11.2 stands once in the list of lengths. -/
theorem lookup_commandLengths : ∀ e ∈ commandLengths, commandLengths.lookup e.1 = some e.2 := by decide

/-- A payload read as a command has a LEN that 11.4 gives for its TYPE. -/
theorem Frame.length_of_command? {f : Frame} {i : Instr} (read : f.command? = some i) :
    ∃ lo hi, commandLengths.lookup f.type = some (lo, hi) ∧ lo ≤ f.payload.length ∧ f.payload.length ≤ hi := by
  obtain ⟨type, tag, payload⟩ := f
  have back : BitVec.ofNat 8 type.toNat = type := by simp
  unfold Frame.command? at read
  dsimp only at read ⊢
  generalize type.toNat = n at read back
  subst back
  unfold commandOf at read
  split at read
  case h_33 => cases read
  case h_22 =>
    unfold lineDataCommand at read
    split at read
    · split at read
      · refine ⟨5, 2304, rfl, ?_, ?_⟩
        · simp
        · simp only [Config.maxPayload] at *
          simp
          omega
      · cases read
    · cases read
  case h_24 =>
    unfold loadHeaderCommand at read
    split at read
    · split at read
      · refine ⟨5, 2052, rfl, ?_, ?_⟩
        · simp
        · simp
          omega
      · cases read
    · cases read
  all_goals
    split at read
    · exact ⟨_, _, rfl, Nat.le_refl _, Nat.le_refl _⟩
    · cases read

/-- A TYPE that 11.2 does not name is answered UNKNOWN_TYPE (R7). -/
theorem State.judge_unknown {s : State} {f : Frame} (ready : s.link.state = .ready)
    (unknown : ∀ e ∈ commandLengths, e.1 ≠ f.type) : s.judge f = .refuse .unknownType := by
  have strange : f.type ∉ commandTypes := by
    rw [commandTypes_eq, List.mem_map]
    rintro ⟨e, he, same⟩
    exact unknown e he same
  unfold State.judge
  rw [if_neg (by simp [ready]), if_pos strange]

/-- A LEN out of the range of the TYPE is answered BAD_LENGTH (R7). -/
theorem State.judge_badLength {s : State} {f : Frame} (ready : s.link.state = .ready) {e : Byte × Nat × Nat}
    (he : e ∈ commandLengths) (same : e.1 = f.type)
    (bad : f.payload.length < e.2.1 ∨ e.2.2 < f.payload.length) : s.judge f = .refuse .badLength := by
  have known : f.type ∈ commandTypes := by
    rw [commandTypes_eq, ← same]
    exact List.mem_map_of_mem he
  have none : f.command? = none := by
    cases read : f.command? with
    | none => rfl
    | some i =>
      obtain ⟨lo, hi, range, h1, h2⟩ := Frame.length_of_command? read
      rw [← same, lookup_commandLengths e he] at range
      simp only [Option.some_inj, Prod.ext_iff] at range
      omega
  unfold State.judge
  rw [if_neg (by simp [ready]), if_neg (by simpa using known), none]

/-- A reply in its place completes the command, and the frame that waits moves up, taken when the queue has a place
behind the reply (R5, R9). -/
theorem Link.answer_eq (kind : RecordKind) (f : Frame) (p : List Byte) (l : Link) : l.answer kind f p = { l with
    outbound := l.outbound ++ [replyRecord kind f p]
    hand := l.waiting.map fun g => Hand.takenWith (l.outbound.length + 1) ⟨g, .untaken⟩
    waiting := none } := by
  unfold Link.answer Link.complete
  rw [Link.take_eq]
  simp only [Option.map_map, List.length_append, List.length_singleton]
  rfl

/-- A part that hears, with a frame put in its hand in some phase. -/
def State.holding (f : Frame) (phase : HandPhase) (s : State) : State :=
  { s with link := { s.link with hand := some ⟨f, phase⟩ } }

/-- The frame that a serving part has taken is answered, and when nothing waits behind it that is all. -/
theorem State.Serves.takeCommand {s : State} (hs : s.Serves) (f : Frame) :
    exec .takeCommand (s.holding f .taken)
      = .next (((s.inHand f).give f ((s.inHand f).judge f)).checkHand) :=
  State.takeCommand_of_taken (s := s.holding f .taken) (State.clocked_of hs.held hs.awake) rfl

/-- A frame still untaken has a place at a part that hears, and is then the frame taken (R7). -/
theorem State.Hears.takeCommand_untaken {s : State} (hs : s.Hears) (f : Frame) :
    exec .takeCommand (s.holding f .untaken) = exec .takeCommand (s.holding f .taken) := by
  have taken : (s.holding f .untaken).onLink Link.take = (s.holding f .taken).onLink Link.take := by
    unfold State.onLink
    rw [Link.take_eq, Link.take_eq]
    simp only [State.holding, Option.map_some, Hand.takenWith_of_place hs.place]
    rfl
  show execTakeCommand _ = execTakeCommand _
  unfold execTakeCommand
  have clocked (phase : HandPhase) : (s.holding f phase).clocked = true := State.clocked_of hs.held hs.awake
  rw [taken, if_pos (clocked _), if_pos (clocked _)]

/-- A refusal to a part that hears leaves nothing in hand to check. -/
theorem State.Hears.checkHand_refused {s : State} (hs : s.Hears) (f : Frame) (r : Result) :
    ((s.inHand f).give f (.refuse r)).checkHand = s.replied f.type f.tag [r.code] := by
  rw [show (s.inHand f).give f (.refuse r) = s.replied f.type f.tag [r.code] from hs.replies f _ _ _]
  refine State.checkHand_of_not_taken fun g => ?_
  show s.link.hand ≠ _
  simp [hs.hand]

/-- Settles O18: a frame taken, by its TYPE and its LEN, and a hand with nothing to take. -/
theorem takeCommandChecksAndServes : Obligations.TakeCommandChecksAndServes := by
  unfold Obligations.TakeCommandChecksAndServes
  refine ⟨fun s f hs => ⟨hs.toHears.takeCommand_untaken f, fun i framed fits => ?_, fun unknown => ?_,
    fun e he same bad => ?_, fun g unknown => ?_⟩, fun s free full => State.takeCommand_of_idle free full,
    fun s inv full => State.takeCommand_of_idle (fun f taken => ?_) fun _ _ => full⟩
  · have served := hs.served i f framed fits (frameStatement i)
    have same : exec .takeCommand (s.holding f .taken) = exec i s := by
      rw [hs.takeCommand, served, State.inHand_judge framed fits (.inl hs.ready) (.inl hs.startup),
        State.checkHand_of_not_taken (hs.give_not_taken i f)]
    exact ⟨same, _, same.trans served⟩
  · refine (hs.takeCommand f).trans ?_
    rw [State.judge_unknown (s := s.inHand f) hs.ready unknown, hs.checkHand_refused]
    rfl
  · refine (hs.takeCommand f).trans ?_
    rw [State.judge_badLength (s := s.inHand f) hs.ready he same bad, hs.checkHand_refused]
    rfl
  · have clocked := State.clocked_of hs.held hs.awake
    refine (State.takeCommand_of_taken (f := f) (by exact clocked) rfl).trans ?_
    rw [State.judge_unknown (by exact hs.ready) unknown]
    show Host.Outcome.next (State.checkHand (State.onLink (Link.answer .reply f [Result.unknownType.code]) _)) = _
    unfold State.onLink
    rw [Link.answer_eq]
    simp only [State.inHand, State.onLink, Link.handOver, State.replied, State.queued, hs.waiting]
    rfl
  · have places := inv.link.places
    rw [Link.reserved_some _ _ taken] at places
    simp only [HandPhase.reserves, if_true, Config.outboundPlaces] at places
    omega

/-! ## NRST active -/

section held

variable {s : State} (held : s.held = true)
include held

theorem State.not_clocked_of_held : s.clocked = false := by
  unfold State.clocked
  simp [held]

theorem State.heard_of_held (f : State → State) : s.heard f = s := if_pos held

/-- While NRST is active a row leaves the state as it is, but for the level of the input that it changes (R185). -/
theorem State.exec_of_held (i : Instr) (other : ∀ straps, i ≠ .powerOnReset straps) :
    ∃ inputs, exec i s = .next { s with inputs := inputs } := by
  have still := State.not_clocked_of_held held
  have leveled (inputs : Inputs) : ({ s with inputs := inputs } : State).clocked = false := still
  cases framed : i.frame? with
  | some f =>
    refine ⟨s.inputs, ?_⟩
    rw [exec_command framed]
    unfold State.receiveCommand
    rw [framed]
    exact congrArg _ (State.heard_of_held held _)
  | none =>
    cases i with
    | powerOnReset straps => exact absurd rfl (other straps)
    | driverFault ch active =>
      refine ⟨s.inputs.setFlt ch active, ?_⟩
      exact congrArg _ (if_neg (by simp [leveled]))
    | sensorInputChange sensor level =>
      show ∃ inputs, execSensorInputChange sensor level s = _
      unfold execSensorInputChange
      split
      · exact ⟨s.inputs, rfl⟩
      · exact ⟨s.inputs.setSensor sensor level, congrArg _ (if_pos held)⟩
    | hpgChange active =>
      refine ⟨{ s.inputs with hpg := active }, ?_⟩
      exact congrArg _ (if_neg (by simp [leveled]))
    | pfiAsserted bursts =>
      show ∃ inputs, execPfiAsserted bursts s = _
      unfold execPfiAsserted
      split
      · exact ⟨s.inputs, rfl⟩
      · refine ⟨{ s.inputs with pfi := true }, ?_⟩
        exact congrArg _ (if_neg (by simp [leveled]))
    | rxCharacter c => exact ⟨s.inputs, congrArg _ (State.heard_of_held held _)⟩
    | framingError => exact ⟨s.inputs, congrArg _ (State.heard_of_held held _)⟩
    | breakDetected => exact ⟨s.inputs, congrArg _ (if_pos held)⟩
    | wakeInput => exact ⟨s.inputs, congrArg _ (if_pos held)⟩
    | nrstAsserted marked bursts => exact ⟨s.inputs, congrArg _ (if_pos held)⟩
    | wakeCause cause => exact ⟨s.inputs, congrArg _ (if_neg (by simp [held]))⟩
    | wakeComplete => exact ⟨s.inputs, congrArg _ (if_neg (by simp [held]))⟩
    | recordSent =>
      refine ⟨s.inputs, ?_⟩
      show execRecordSent s = _
      unfold execRecordSent State.sending?
      rw [if_neg (by simp [still])]
    | captureDone pixels =>
      refine ⟨s.inputs, ?_⟩
      have nothing : s.captureDue? pixels = none := by
        unfold State.captureDue?
        split
        · exact if_neg (by simp [still])
        · rfl
      show execCaptureDone pixels s = _
      unfold execCaptureDone
      rw [nothing]
    | shadingLineRead pixels =>
      refine ⟨s.inputs, congrArg Host.Outcome.next ?_⟩
      split
      · exact if_neg (by simp [still])
      · rfl
    | storeLineWritten =>
      refine ⟨s.inputs, congrArg Host.Outcome.next ?_⟩
      split
      · rfl
      · split
        · rfl
        · exact if_neg (by simp [still])
    | storeSegmentRead upsets =>
      refine ⟨s.inputs, congrArg Host.Outcome.next ?_⟩
      split
      · rfl
      · split
        · rfl
        · exact if_neg (by simp [still])
    | segmentTested passed =>
      refine ⟨s.inputs, congrArg Host.Outcome.next ?_⟩
      split
      · rfl
      · split
        · rfl
        · exact if_neg (by simp [still])
    | memoryCheckDone =>
      refine ⟨s.inputs, congrArg Host.Outcome.next ?_⟩
      split
      · rfl
      · exact if_neg (by simp [still])
    | recoveryScanDone =>
      refine ⟨s.inputs, congrArg Host.Outcome.next ?_⟩
      rw [if_neg (by simp [still]), if_neg (by simp [still])]
    | resetStopped =>
      refine ⟨s.inputs, congrArg Host.Outcome.next ?_⟩
      split
      · exact if_neg (by simp [still])
      · rfl
    | characterGapExpiry | takeCommand | wakeDiscard | channelStep | holdTimerExpiry | debounceExpiry
    | settleTimerExpiry | firstReadingsSteady | exposureEnd | loadComplete | phaseTimerExpiry | cutterPulseEnd
    | lampWarmUpExpiry | printStartTimeout | motorStartDone | idleTimerExpiry | sleepClocksStop | formatDone =>
      exact ⟨s.inputs, congrArg _ (if_neg (by simp [still]))⟩
    | _ => cases framed

/-- While NRST is active the domains are disabled (R185). -/
theorem State.enable_of_held (d : DomainId) : s.enable d = false := by
  unfold State.enable
  simp [held]

end held

/-- Settles O11: no row acts, and each output is seen to be inactive. -/
theorem heldPartStandsStill : Obligations.HeldPartStandsStill := by
  unfold Obligations.HeldPartStandsStill
  intro s held
  have disabled := State.enable_of_held held
  have silent : s.headData = none := by
    unfold State.headData
    split
    · exact if_neg (by simp [disabled])
    · rfl
  refine ⟨State.exec_of_held held, fun ch => if_pos held, disabled, disabled .scan, ?_, fun block => ?_, ?_, silent, ?_,
    fun before => ?_⟩
  · unfold State.cutter
    rw [disabled]
    rfl
  · unfold State.strobeLine
    rw [disabled]
    rfl
  · unfold State.txd State.sending?
    rw [if_neg (by simp [State.not_clocked_of_held held])]
    rfl
  · unfold State.headClock
    rw [silent]
    rfl
  · unfold State.headLatch
    rw [disabled]
    rfl

end Sys2Proof.Machine
end

section
/-! PROOFS. The position and the phase index of a channel change at its own steps alone (2.2, R20). -/

namespace Sys2Proof.Machine

/-! ## A channel at rest -/

/-- One channel keeps its position and its phase index. -/
def State.RestsAt (ch : ChannelId) (s t : State) : Prop :=
  (t.channel ch).position = (s.channel ch).position ∧ (t.channel ch).phase = (s.channel ch).phase

section rests

variable {ch : ChannelId} {s t u : State}

theorem State.Rests.at (h : s.Rests t) (ch : ChannelId) : s.RestsAt ch t := by
  cases ch
  · exact ⟨h.dfPosition, h.dfPhase⟩
  · exact ⟨h.rfPosition, h.rfPhase⟩

theorem State.RestsAt.refl (s : State) : s.RestsAt ch s := ⟨rfl, rfl⟩

theorem State.RestsAt.trans (h : s.RestsAt ch t) (k : t.RestsAt ch u) : s.RestsAt ch u :=
  ⟨k.1.trans h.1, k.2.trans h.2⟩

theorem State.RestsAt.ite {c : Prop} [Decidable c] (h : s.RestsAt ch t) (k : s.RestsAt ch u) :
    s.RestsAt ch (if c then t else u) := by
  split
  · exact h
  · exact k

theorem State.RestsAt.follows (h : s.RestsAt ch t) (k : Follows False t u) : s.RestsAt ch u :=
  h.trans (k.calm.toRests.at ch)

theorem State.RestsAt.settle (h : s.RestsAt ch t) : s.RestsAt ch t.settle :=
  h.trans (t.settle_calm.toRests.at ch)

/-- Both channels stay as they are. -/
theorem State.RestsAt.same (h : s.RestsAt ch t) (df : u.df = t.df) (rf : u.rf = t.rf) : s.RestsAt ch u := by
  cases ch
  · exact h.trans ⟨by rw [State.channel, df]; rfl, by rw [State.channel, df]; rfl⟩
  · exact h.trans ⟨by rw [State.channel, rf]; rfl, by rw [State.channel, rf]; rfl⟩

/-- A change of the other channel. -/
theorem State.RestsAt.onOther {other : ChannelId} (h : s.RestsAt ch t) (ne : other ≠ ch) (f : Channel → Channel) :
    s.RestsAt ch (t.onChannel other f) := by
  refine h.trans ?_
  cases ch <;> cases other
  · exact absurd rfl ne
  · exact ⟨rfl, rfl⟩
  · exact ⟨rfl, rfl⟩
  · exact absurd rfl ne

/-! Changes beside the channels. -/

theorem State.RestsAt.onLink (h : s.RestsAt ch t) (f : Link → Link) : s.RestsAt ch (t.onLink f) := h.same rfl rfl

theorem State.RestsAt.onFeed (h : s.RestsAt ch t) (f : Feed → Feed) : s.RestsAt ch (t.onFeed f) := h.same rfl rfl

theorem State.RestsAt.onStore (h : s.RestsAt ch t) (f : Store → Store) : s.RestsAt ch (t.onStore f) := h.same rfl rfl

theorem State.RestsAt.onMove (h : s.RestsAt ch t) (id : Nat) (f : Move → Move) : s.RestsAt ch (t.onMove id f) :=
  h.same rfl rfl

theorem State.RestsAt.onPower (h : s.RestsAt ch t) (f : Power → Power) : s.RestsAt ch (t.onPower f) := h.same rfl rfl

theorem State.RestsAt.report (h : s.RestsAt ch t) (e : Byte) (p : List Byte) : s.RestsAt ch (t.report e p) :=
  h.same (State.report_df ..) (State.report_rf ..)

end rests

/-! ## Commands -/

section commands

variable {ch : ChannelId} {s t : State} (h : s.RestsAt ch t)
include h

theorem State.RestsAt.linkFault (r : LinkFaultReason) : s.RestsAt ch (t.linkFault r) :=
  (h.same (u := t.onLink _) (by rfl) (by rfl)).follows (.report _ _ _)

/-- No judgement of a frame turns a channel. -/
theorem State.RestsAt.judged (f : Frame) (u : State) : s.RestsAt ch ((u.judge f).effect t) := by
  unfold State.judge
  split
  · exact h
  · split
    · exact h
    · split
      · exact h
      next i _ =>
        split
        · exact h
        · by_cases link : ∃ tag code rsv, i = .setLink tag code rsv
          · obtain ⟨tag, code, rsv, rfl⟩ := link
            show s.RestsAt ch ((answerSetLink code rsv).effect t)
            unfold answerSetLink
            split
            · exact h
            · split
              · exact h
              · exact h.same (by rfl) (by rfl)
          · exact h.trans ((answerOf_calm i u (fun tag code rsv e => link ⟨tag, code, rsv, e⟩) t).toRests.at ch)

theorem State.RestsAt.checkHand : s.RestsAt ch t.checkHand := by
  unfold State.checkHand
  split
  next f _ =>
    dsimp only
    unfold State.give
    split
    · exact (h.same (by rfl) (by rfl)).judged _ _
    · exact (h.same (by rfl) (by rfl)).judged _ _
  · exact h

theorem State.RestsAt.serve : s.RestsAt ch t.serve := h.checkHand.checkHand

theorem State.RestsAt.finish : s.RestsAt ch t.finish := h.settle.serve

theorem State.RestsAt.offer (f : Frame) : s.RestsAt ch (t.offer f) := by
  rw [State.offer_eq]
  exact ((h.same (by rfl) (by rfl)).checkHand).ite ((h.same (by rfl) (by rfl)).ite (h.linkFault _))

theorem State.RestsAt.discardPartial (r : LinkFaultReason) : s.RestsAt ch (t.discardPartial r) :=
  (h.same (by rfl) (by rfl)).linkFault r

theorem State.RestsAt.headerRead (type tag lo hi : Byte) : s.RestsAt ch (t.headerRead type tag lo hi) := by
  unfold State.headerRead
  exact (h.discardPartial _).ite ((h.same (by rfl) (by rfl)).ite (h.same (by rfl) (by rfl)))

theorem State.RestsAt.parse (c : Byte) : s.RestsAt ch (t.parse c) := by
  unfold State.parse
  split
  · exact (h.same (by rfl) (by rfl)).ite h
  · split
    · exact h.headerRead _ _ _ _
    · exact h.same (by rfl) (by rfl)
  · exact (h.same (by rfl) (by rfl)).ite (h.same (by rfl) (by rfl))
  · exact h.same (by rfl) (by rfl)
  · exact ((h.same (by rfl) (by rfl)).offer _).ite (h.discardPartial _)

theorem State.RestsAt.arriveFrame (f : Frame) : s.RestsAt ch (t.arriveFrame f) := by
  unfold State.arriveFrame
  split
  · exact h.offer f
  · rename_i hunting
    clear hunting
    generalize f.bytes = bs
    induction bs generalizing t with
    | nil => exact h
    | cons b bs ih => exact ih (h.parse b)

theorem State.RestsAt.heard (f : State → State) (k : ∀ u : State, s.RestsAt ch u → s.RestsAt ch (f u)) :
    s.RestsAt ch (t.heard f) := by
  have taken := h.follows ((Follows.refl t).causeTaken .rxd)
  exact h.ite ((h.follows ((Follows.refl t).causeDetected _)).ite (taken.ite (k _ taken)))

theorem State.RestsAt.receiveCommand (i : Instr) : s.RestsAt ch (t.receiveCommand i) := by
  unfold State.receiveCommand
  split
  · exact h
  · exact h.heard _ fun _ k => k.arriveFrame _

/-! ## Operations of events -/

theorem State.RestsAt.linkReplySent : s.RestsAt ch t.linkReplySent := by
  unfold State.linkReplySent
  have applied : s.RestsAt ch (t.onLink Link.applyRate) := h.same (by rfl) (by rfl)
  exact applied.ite (applied.discardPartial _)

theorem State.RestsAt.recordGone (k : RecordKind) : s.RestsAt ch (t.recordGone k) := by
  unfold State.recordGone
  split
  · exact h
  · exact h
  · exact h.linkReplySent
  · exact h.follows ((Follows.refl t).linesSent _ _ _)

theorem State.RestsAt.endShading (r : Result) : s.RestsAt ch (t.endShading r) := h.same (by rfl) (by rfl)

theorem State.RestsAt.failWhere (p : Move → Bool) (c : MoveCause) : s.RestsAt ch (t.failWhere p c) :=
  h.follows ((Follows.refl t).failWhere p c)

theorem State.RestsAt.coverOpens (report : State → State) (k : ∀ u, Follows False u (report u)) :
    s.RestsAt ch (t.coverOpens report) := by
  unfold State.coverOpens
  have stopped := ((((Follows.refl (w := False) t).onChannel .df (Channel.coverStop t.cfg.df.holdTime) fun cfg c =>
    c.coverStop_mild cfg _).onChannel .rf (Channel.coverStop t.cfg.rf.holdTime) fun cfg c =>
      c.coverStop_mild cfg _).onPrint fun p => { p.drop with cut := .none })
  have jammed := h.follows ((stopped.trans State.coverJam_follows).trans (k _))
  exact (jammed.ite (jammed.endShading _)).failWhere _ _

theorem State.RestsAt.sensorTaken (id : SensorId) : s.RestsAt ch (t.sensorTaken id) := by
  unfold State.sensorTaken
  split
  · exact h.ite ((h.follows (Follows.refl t).entryTakenPresent).ite (h.follows (Follows.refl t).entryTakenAbsent))
  · have seen : s.RestsAt ch (if t.scanPresent then t.shadingSeesSheet else t) :=
      State.RestsAt.ite (h.ite (h.endShading _)) h
    exact seen.ite ((seen.follows (Follows.refl _).scanTakenPresent).ite
      (seen.follows ((Follows.refl _).scanTakenAbsent False.elim)))
  · exact (h.follows (Follows.refl t).reportPaper).ite (h.follows (Follows.refl t).paperTakenAbsent)
  · exact (h.coverOpens _ fun u => (Follows.refl u).reportPaper).ite (h.follows (Follows.refl t).reportPaper)

theorem State.RestsAt.faultDomain (d : DomainId) (after : Power) : s.RestsAt ch (t.faultDomain d after) := by
  unfold State.faultDomain
  have faulted := h.follows ((Follows.refl t).onPower fun p => (p.setDomain d .fault).follow)
  have reported := State.RestsAt.follows
    (State.RestsAt.ite (c := d = .print) (faulted.follows ((Follows.refl _).onPrint Print.drop)) faulted)
    ((Follows.refl _).reportPowerOf after (.domainFault d))
  exact (State.RestsAt.ite (reported.endShading _) reported).failWhere _ _

theorem State.RestsAt.enterDriverFault (c : ChannelId) : s.RestsAt ch (t.enterDriverFault c) := by
  unfold State.enterDriverFault
  have entered := h.follows ((Follows.refl t).onChannel c _ fun cfg c => c.enterFault_mild cfg)
  have reported := (State.RestsAt.same (u := State.onLink (fun l => { l with sticky := l.sticky.channelFault c }) _)
    entered rfl rfl).follows ((Follows.refl _).reportMotorFault c)
  have behind : ∀ u : State, s.RestsAt ch u → ∀ old, s.RestsAt ch (u.faultBehind c old) := by
    intro u hu old
    unfold State.faultBehind
    split
    · exact hu.ite (hu.follows ((Follows.refl u).feedMotorFault _))
    · exact hu.follows ((Follows.refl u).onPrint _)
  have failed := (behind _ reported (t.channel c)).failWhere
    (fun m => (t.channel c).user == some (.move m.id) || (t.channel c).queue.contains (.move m.id)) .motorFault
  exact failed.ite (failed.failWhere _ _)

theorem State.RestsAt.lookAtFlt (c : ChannelId) : s.RestsAt ch (t.lookAtFlt c) := (h.enterDriverFault c).ite h

/-- A step of the other channel, with what ends with it. -/
theorem State.RestsAt.issueStep {other : ChannelId} (ne : other ≠ ch) : s.RestsAt ch (t.issueStep other) := by
  unfold State.issueStep
  split
  · exact h
  next x _ =>
    have stepped := h.onOther ne (Channel.stepRamp (t.channelCfg other) x)
    refine State.RestsAt.ite ?_ stepped
    unfold State.rampEnded
    have passed := stepped.follows ((Follows.refl _).onChannel other _ fun cfg c => c.passOn_mild cfg)
    split
    · exact passed
    · split
      · exact passed
      · exact passed
      · exact stepped.follows (Follows.refl _).feedRampEnded
      · exact stepped.follows (Follows.refl _).cutFeedEnded
  next x _ =>
    have stepped := h.onOther ne (Channel.stepLine (t.channelCfg other) x)
    unfold State.checkGap
    split
    · exact stepped.follows (Follows.refl _).gapTimeout
    · exact stepped

theorem State.RestsAt.countDfStep (c : ChannelId) : s.RestsAt ch (t.countDfStep c) := by
  unfold State.countDfStep
  split
  · exact h.follows (Follows.refl t).countStep.gapGate
  · exact h

theorem State.RestsAt.captured (ctx : CaptureCtx) (dots : RawLine) : s.RestsAt ch (t.captured ctx dots) := by
  unfold State.captured
  split
  · exact h
  next m _ =>
    refine State.RestsAt.ite ?_ h
    unfold State.handCapture
    have entered := h.follows (((Follows.refl t).onScan (fun c => { c with lineCounter := c.lineCounter + 1 }) rfl).onPath
      (Path.onMove m.id (Move.enter t.headWidth ctx.slot (scanDensity m) dots false)) fun no => no.elim)
    dsimp only
    split
    · exact entered
    · exact entered.follows ((Follows.refl _).scanLineCounted _ fun no => no.elim)

theorem State.RestsAt.shadingLine (settings : ScanSettings) (count : Nat) (sums : List Nat) (pixels : List Pixel) :
    s.RestsAt ch (t.shadingLine settings count sums pixels) := by
  unfold State.shadingLine State.shadingMeasured
  exact State.RestsAt.ite ((h.same (by rfl) (by rfl)).ite (h.same (by rfl) (by rfl))) (h.same (by rfl) (by rfl))

theorem State.RestsAt.readSegment (m : Move) (r : Reader) (upsets : List (Nat × Byte)) :
    s.RestsAt ch (t.readSegment m r upsets) := by
  unfold State.readSegment
  split
  · exact h
  next n _ _ =>
    dsimp only
    have written := (h.onStore Store.makeWrites).onStore (Store.upset n upsets)
    have taken : ∀ f : Move → Move, ∀ c : Bool, s.RestsAt ch
        (if c then State.onMove m.id f ((t.onStore Store.makeWrites).onStore (Store.upset n upsets)) else
          (State.onMove m.id f ((t.onStore Store.makeWrites).onStore (Store.upset n upsets))).onStore
            (Store.endTransfer m.id)) :=
      fun f _ => (written.onMove m.id f).ite ((written.onMove m.id f).onStore _)
    exact (taken _ _).ite (State.RestsAt.report ((taken _ _).onLink _) _ _)

theorem State.RestsAt.takeBreak : s.RestsAt ch t.takeBreak := h.same rfl rfl

theorem State.RestsAt.formReading (id : SensorId) : s.RestsAt ch (t.formReading id) := h.onFeed _

theorem State.RestsAt.restartDebounce : s.RestsAt ch t.restartDebounce :=
  ((((h.onFeed _).formReading .docEntry).formReading .docScan).formReading .paper).formReading .cover

theorem State.RestsAt.wakeLink : s.RestsAt ch t.wakeLink := by
  have awake := h.onPower fun p => { p with state := .standby, waking := false }
  have broken := State.RestsAt.ite (c := t.power.causes.breakSeen = true)
    (awake.takeBreak) awake
  unfold State.wakeLink
  exact ((State.RestsAt.report broken _ _).onPower _).onLink _

theorem State.RestsAt.startUpDone : s.RestsAt ch t.startUpDone :=
  (h.same (by rfl) (by rfl)).follows (Follows.refl _).reportBootDone

theorem State.RestsAt.checkEnded (c : CheckRun) : s.RestsAt ch (t.checkEnded c) := by
  have ended : s.RestsAt ch (t.onStore fun st => { st with check := none }) := h.same (by rfl) (by rfl)
  exact ended.startUpDone.ite (ended.same (by rfl) (by rfl))

theorem State.RestsAt.scanEnded : s.RestsAt ch t.scanEnded := by
  have recovered : s.RestsAt ch (t.onStore (Store.recover t.total)) := h.same (by rfl) (by rfl)
  exact State.RestsAt.ite (recovered.same (by rfl) (by rfl)) recovered.startUpDone

theorem State.RestsAt.rebuilt : s.RestsAt ch t.rebuilt :=
  (h.same (by rfl) (by rfl)).follows (Follows.refl _).reportBootDone

theorem State.RestsAt.resetStopped (full : Bool) : s.RestsAt ch (t.resetStopped full) := by
  have changed : s.RestsAt ch (t.fullFeedReset.paperChanged t.feed) := by
    have taken : s.RestsAt ch t.fullFeedReset := h.same (by rfl) (by rfl)
    exact taken.ite (taken.follows (Follows.refl _).reportPaper)
  exact State.RestsAt.ite ((changed.follows State.setDocAfterReset_follows).same (by rfl) (by rfl))
    ((h.follows State.setDocAfterReset_follows).same (by rfl) (by rfl))

theorem State.RestsAt.firstTaken (sensor : SensorId) (before : Feed) : s.RestsAt ch (t.firstTaken sensor before) := by
  unfold State.firstTaken
  split
  · exact (h.coverOpens _ Follows.refl).ite h
  · refine State.RestsAt.ite ?_ h
    exact h.ite ((h.follows ((Follows.refl t).setDoc _ _ _)).ite
      ((h.follows ((Follows.refl t).setDoc _ _ _).startSettle).ite h))

end commands

/-! ## Every row -/

/-- What a meaning answers leaves the channel at rest. -/
def Row.RestsAt (ch : ChannelId) (s : State) (r : Row) : Prop := ∀ t, r = .next t → s.RestsAt ch t

theorem State.RestsAt.next {ch : ChannelId} {s t : State} (h : s.RestsAt ch t) : Row.RestsAt ch s (.next t) :=
  fun _ e => by
    cases e
    exact h

/-- No row but a step of the channel and the end of NRST turns a channel (R20). -/
theorem exec_RestsAt (i : Instr) (s : State) (ch : ChannelId) (step : i ≠ .channelStep ch)
    (reset : ∀ straps, i ≠ .powerOnReset straps) : Row.RestsAt ch s (exec i s) := by
  have h : s.RestsAt ch s := .refl s
  cases framed : i.frame? with
  | some f =>
    rw [exec_command framed]
    exact (h.receiveCommand i).next
  | none =>
    cases i with
    | powerOnReset straps => exact absurd rfl (reset straps)
    | channelStep other =>
      have ne : other ≠ ch := fun e => step (e ▸ rfl)
      exact (((h.countDfStep other).issueStep ne).settle.ite h).next
    | rxCharacter c => exact (h.heard _ fun _ k => k.parse c).next
    | framingError => exact (h.heard _ fun _ k => k.discardPartial _).next
    | breakDetected =>
      have broken := (h.follows ((Follows.refl s).causeTaken .breakSeen)).same (u := State.takeBreak _) (by rfl) (by rfl)
      exact (h.ite ((h.follows ((Follows.refl s).causeDetected _)).ite broken.finish)).next
    | characterGapExpiry => exact ((h.discardPartial _).ite h).next
    | takeCommand => exact ((h.same (by rfl) (by rfl)).serve.ite h).next
    | recordSent =>
      refine State.RestsAt.next ?_
      split
      · exact h
      · exact ((h.same (by rfl) (by rfl)).recordGone _).finish
    | wakeDiscard => exact (((h.same (by rfl) (by rfl)).linkFault _).ite h).next
    | holdTimerExpiry other =>
      have held : s.RestsAt ch (s.onChannel other Channel.holdOver) := by
        cases other <;> cases ch <;> exact ⟨rfl, rfl⟩
      exact (held.settle.ite h).next
    | driverFault other active =>
      have leveled : s.RestsAt ch { s with inputs := s.inputs.setFlt other active } := h.same (by rfl) (by rfl)
      exact ((leveled.lookAtFlt other).settle.ite leveled).next
    | sensorInputChange sensor level =>
      have leveled : s.RestsAt ch (s.setInput sensor level) := h.same (by rfl) (by rfl)
      have cause : ∀ f : WakeCause → State → State, (∀ c, s.RestsAt ch (f c (s.setInput sensor level))) →
          s.RestsAt ch ((s.setInput sensor level).inputCause f sensor) := by
        intro f k
        unfold State.inputCause
        split
        · exact leveled
        · exact k _
      exact (h.ite (leveled.ite ((cause _ fun c => leveled.follows ((Follows.refl _).causeDetected c)).ite
        ((cause _ fun c => leveled.follows ((Follows.refl _).causeTaken c)).same (by rfl) (by rfl))))).next
    | debounceExpiry sensor => exact (((h.same (by rfl) (by rfl)).sensorTaken sensor).finish.ite h).next
    | settleTimerExpiry => exact ((h.same (by rfl) (by rfl)).settle.ite h).next
    | firstReadingsSteady sensor => exact (((h.same (by rfl) (by rfl)).firstTaken sensor _).finish.ite h).next
    | exposureEnd => exact ((h.same (by rfl) (by rfl)).ite h).next
    | captureDone pixels =>
      refine State.RestsAt.next ?_
      split
      · exact h
      next ctx _ =>
        have captured := State.RestsAt.captured (h.same (u := s.onScan fun c => { c with capture := .idle }) (by rfl) (by rfl))
          ctx (captureLine ctx.settings ctx.y ctx.table pixels)
        exact (captured.follows ((Follows.refl _).onChannel .df _ fun cfg c => c.captureDone_mild cfg _)).settle
    | shadingLineRead pixels =>
      refine State.RestsAt.next ?_
      split
      · exact (h.shadingLine _ _ _ _).finish.ite h
      · exact h
    | loadComplete => exact ((h.follows (Follows.refl s).loadComplete).settle.ite h).next
    | phaseTimerExpiry => exact ((h.follows (Follows.refl s).phaseEnd).settle.ite h).next
    | cutterPulseEnd => exact ((h.follows (Follows.refl s).cutDone).settle.ite h).next
    | storeLineWritten =>
      refine State.RestsAt.next ?_
      split
      · exact h
      · split
        · exact h
        next m _ _ l _ q =>
          have waiting : m.queue ≠ [] := by simp [q]
          exact (h.follows ((Follows.refl s).writeLine m l fun no => no.elim)).settle.ite h
    | storeSegmentRead upsets =>
      refine State.RestsAt.next ?_
      split
      · exact h
      · split
        · exact h
        · exact (h.readSegment _ _ _).settle.ite h
    | segmentTested passed =>
      refine State.RestsAt.next ?_
      split
      · exact h
      next c _ =>
        split
        · exact h
        next n _ =>
          have tested : s.RestsAt ch (s.onStore (Store.testSegment n passed c)) := h.same (by rfl) (by rfl)
          exact (State.RestsAt.ite (tested.follows ((Follows.refl _).reportStore _ _ _)) tested).ite h
    | memoryCheckDone =>
      refine State.RestsAt.next ?_
      split
      · exact h
      · exact (h.checkEnded _).finish.ite h
    | lampWarmUpExpiry reading => exact ((State.RestsAt.ite (h.same (by rfl) (by rfl)) (h.faultDomain _ _)).finish.ite h).next
    | hpgChange active =>
      have leveled : s.RestsAt ch { s with inputs := { s.inputs with hpg := active } } := h.same (by rfl) (by rfl)
      have seen : s.RestsAt ch (State.hpgSeen active { s with inputs := { s.inputs with hpg := active } }) :=
        ((leveled.same (by rfl) (by rfl)).ite leveled).ite ((leveled.faultDomain _ _).ite leveled)
      exact (seen.settle.ite leveled).next
    | printStartTimeout => exact ((h.faultDomain _ _).settle.ite h).next
    | motorStartDone => exact ((h.same (by rfl) (by rfl)).settle.ite h).next
    | idleTimerExpiry =>
      have expired : s.RestsAt ch (s.onPower fun p => { p with idleTimer := .expired }) := h.same (by rfl) (by rfl)
      exact (State.RestsAt.ite (State.RestsAt.settle ((expired.follows (Follows.refl _).beginSleep).ite
        (expired.follows (Follows.refl _).allDomainsOff))) h).next
    | sleepClocksStop => exact ((h.same (by rfl) (by rfl)).ite h).next
    | wakeInput =>
      exact (h.ite ((h.follows ((Follows.refl s).causeDetected _)).ite (h.follows ((Follows.refl s).causeTaken _)))).next
    | wakeCause cause =>
      have changed : s.RestsAt ch (s.changeInput cause) := by
        unfold State.changeInput
        split
        · exact h
        · exact h.same (by rfl) (by rfl)
      exact ((changed.follows ((Follows.refl _).causeDetected _)).ite h).next
    | wakeComplete =>
      have seen := (h.wakeLink.restartDebounce.lookAtFlt .df).lookAtFlt .rf
      exact ((seen.follows (Follows.refl _).restartIdle).finish.ite h).next
    | nrstAsserted marked bursts =>
      refine State.RestsAt.next ?_
      split
      · exact h
      · have stopped : s.RestsAt ch (if s.inputs.pfi then s else s.stopMemory bursts) := h.ite (h.onStore _)
        exact stopped.same rfl rfl
    | formatDone => exact ((h.same (by rfl) (by rfl)).settle.ite h).next
    | recoveryScanDone => exact (h.scanEnded.settle.ite (h.rebuilt.finish.ite h)).next
    | resetStopped =>
      refine State.RestsAt.next ?_
      split
      · exact (h.resetStopped _).finish.ite h
      · exact h
    | pfiAsserted bursts =>
      have leveled : s.RestsAt ch { s with inputs := { s.inputs with pfi := true } } := h.same (by rfl) (by rfl)
      exact (h.ite (State.RestsAt.ite (leveled.same (by rfl) (by rfl)) leveled)).next
    | _ => cases framed

/-- Settles O25. -/
theorem positionChangesOnlyAtSteps : Obligations.PositionChangesOnlyAtSteps := by
  unfold Obligations.PositionChangesOnlyAtSteps
  exact fun i s t ch e step reset => exec_RestsAt i s ch step reset t e

end Sys2Proof.Machine
end

section
/-! PROOFS. The commands of the stepping channels (2.4, 2.6, 2.9, R23, R25, R30, R35, R42) and the step periods
(2.5, R26, R27). -/

namespace Sys2Proof.Machine

section served

variable {s : State} (hs : s.Serves) (i : Instr) {f : Frame} (framed : i.frame? = some f) (fits : i.LengthFits)
include hs framed fits

/-- A served command that its block refuses. -/
theorem State.Serves.refuses {r : Result} (answer : answerOf i (s.inHand f) = .refuse r) :
    exec i s = .next (s.replied f.type f.tag [r.code]) :=
  hs.refused i f framed fits (frameStatement i) answer

/-- A served command that its block answers at once. -/
theorem State.Serves.answers {kind : RecordKind} {p : List Byte} {e : State → State}
    (answer : answerOf i (s.inHand f) = ⟨kind, some p, e⟩) :
    exec i s = .next (e (s.queued ⟨kind, f.type + 0x80, f.tag, p⟩)) :=
  hs.answered i f framed fits (frameStatement i) answer

end served

/-! ## SET_PROFILE (R23) -/

/-- What SET_PROFILE refuses with BAD_VALUE. -/
abbrev ProfileRefused (ch prof : Byte) (ws wt f d k16 rsv : Word16) : Prop :=
  1 < ch.toNat ∨ 7 < prof.toNat ∨ ws.toNat < 40 ∨ wt.toNat < 40 ∨ d.toNat = 0 ∨ 4095 < d.toNat
    ∨ d.toNat ≤ f.toNat ∨ 16383 < k16.toNat ∨ rsv ≠ 0

/-- The operands beside the channel are in range. -/
theorem profileOk_iff (prof : Byte) (ws wt f d k16 rsv : Word16) :
    profileOk prof ws wt f d k16 rsv = true ↔ ¬ProfileRefused 0 prof ws wt f d k16 rsv := by
  have zero : ¬1 < (0 : Byte).toNat := by decide
  simp only [profileOk, ProfileRefused, Bool.and_eq_true, decide_eq_true_eq, beq_iff_eq, ne_eq, not_or, not_not,
    fractionOk_iff, Nat.not_lt, zero, not_false_eq_true, true_and]
  tauto

section answers

variable {ch prof : Byte} {ws wt f d k16 rsv : Word16}

theorem answerSetProfile_refused (bad : ProfileRefused ch prof ws wt f d k16 rsv) :
    answerSetProfile ch prof ws wt f d k16 rsv = .refuse .badValue := by
  unfold answerSetProfile
  split
  · rfl
  next c named =>
    have one : ¬1 < ch.toNat := fun k => by simp [channelOf_eq_none k] at named
    refine if_neg ?_
    rw [profileOk_iff, not_not]
    exact .inr (bad.resolve_left one)

theorem answerSetProfile_taken (good : ¬ProfileRefused ch prof ws wt f d k16 rsv) :
    answerSetProfile ch prof ws wt f d k16 rsv
      = .ok [] (State.onChannelCfg (if ch = 0 then .df else .rf)
          (ChannelSettings.setProfile prof.toNat ⟨ws.toNat, wt.toNat, f.toNat, d.toNat, k16.toNat⟩)) := by
  unfold answerSetProfile
  rw [channelOf_eq_some fun k => good (.inl k)]
  refine if_pos ((profileOk_iff ..).mpr fun k => good (.inr (k.resolve_left (by decide))))

end answers

/-! ## SET_CHANNEL (R25) -/

section answers

variable (s : State) {ch inv : Byte} {pullIn : Word16} {hold rsv : Byte}

/-- What SET_CHANNEL refuses with BAD_VALUE. -/
abbrev ChannelRefused (ch inv : Byte) (pullIn : Word16) (rsv : Byte) : Prop :=
  1 < ch.toNat ∨ 1 < inv.toNat ∨ pullIn.toNat < 400 ∨ rsv ≠ 0

theorem answerSetChannel_refused (bad : ChannelRefused ch inv pullIn rsv) :
    answerSetChannel ch inv pullIn hold rsv s = .refuse .badValue := by
  unfold answerSetChannel
  split
  next c v hc hv =>
    have one : ¬1 < ch.toNat := fun k => by simp [channelOf_eq_none k] at hc
    have mark : ¬1 < inv.toNat := fun k => by simp [markOf_eq_none k] at hv
    exact if_pos ((bad.resolve_left one).resolve_left mark)
  · rfl

/-- Operands in range: the answer turns on the user of the channel. -/
theorem answerSetChannel_taken (good : ¬ChannelRefused ch inv pullIn rsv) :
    answerSetChannel ch inv pullIn hold rsv s
      = if (s.channel (if ch = 0 then .df else .rf)).user.isSome then .refuse .inUse
        else .ok [] (State.onChannelCfg (if ch = 0 then .df else .rf)
          (ChannelSettings.setChannel (inv == 1) pullIn.toNat hold.toNat)) := by
  simp only [ChannelRefused, not_or] at good
  obtain ⟨hc, hv, hp, hr⟩ := good
  unfold answerSetChannel
  rw [channelOf_eq_some (by omega), markOf_eq_some (by omega)]
  exact if_neg (not_or.mpr ⟨hp, hr⟩)

end answers

/-! ## MOVE_STEPS (R30) -/

section answers

variable (s : State) {ch prof dir rsv : Byte} {dist : Word16}

/-- What MOVE_STEPS refuses with BAD_VALUE. -/
abbrev MoveStepsRefused (ch prof dir rsv : Byte) (dist : Word16) : Prop :=
  1 < ch.toNat ∨ 7 < prof.toNat ∨ 1 < dir.toNat ∨ dist.toNat = 0 ∨ rsv ≠ 0

theorem answerMoveSteps_refused (bad : MoveStepsRefused ch prof dir rsv dist) :
    answerMoveSteps ch prof dir rsv dist s = .refuse .badValue := by
  unfold answerMoveSteps
  split
  next c v hc hv =>
    have one : ¬1 < ch.toNat := fun k => by simp [channelOf_eq_none k] at hc
    have mark : ¬1 < dir.toNat := fun k => by simp [markOf_eq_none k] at hv
    refine if_pos ?_
    rcases bad with k | k | k | k | k
    · exact absurd k one
    · exact .inl k
    · exact absurd k mark
    · exact .inr (.inl k)
    · exact .inr (.inr k)
  · rfl

/-- Operands in range: the answer by the state and the user of the channel, and the cover. -/
theorem answerMoveSteps_taken (good : ¬MoveStepsRefused ch prof dir rsv dist) :
    answerMoveSteps ch prof dir rsv dist s
      = let c : ChannelId := if ch = 0 then .df else .rf
        if (s.channel c).state = .fault then .refuse .busy
        else if (s.channel c).user.isSome then .refuse .inUse
        else if s.coverOpen then .refuse .busy
        else .ok (bytes4 (s.channel c).position.toNat) fun s =>
          (s.onChannel c (Channel.hostMove (.ramp prof.toNat (!(dir == 1)) dist.toNat))).settle := by
  simp only [MoveStepsRefused, not_or] at good
  obtain ⟨hc, hp, hd, hz, hr⟩ := good
  unfold answerMoveSteps
  rw [channelOf_eq_some (by omega), markOf_eq_some (by omega)]
  exact if_neg (not_or.mpr ⟨hp, not_or.mpr ⟨hz, hr⟩⟩)

/-- A direction in range is forward or back. -/
theorem not_beq_one_of_le {b : Byte} (h : b.toNat ≤ 1) : (!(b == 1)) = (b == 0) := by
  obtain rfl | rfl : b = 0 ∨ b = 1 := by bv_omega
  · rfl
  · rfl

end answers

/-- The period of a step in front leaves the profile. -/
theorem RampRun.plan_profile (x : RampRun) : x.plan.profile = x.profile := by
  unfold RampRun.plan
  split
  · rfl
  · split
    · rfl
    · split
      · rfl
      · rfl

/-- Settles O20. -/
theorem profileAndChannelReplace : Obligations.ProfileAndChannelReplace := by
  unfold Obligations.ProfileAndChannelReplace
  refine ⟨⟨fun s tag ch prof ws wt f d k16 rsv hs => ?_, fun cfg n forward dist c p named => ?_⟩,
    fun s tag ch inv pullIn hold rsv hs => ?_⟩
  · let i : Instr := .setProfile tag ch prof ws wt f d k16 rsv
    split
    next bad => exact hs.refuses i rfl trivial (answerSetProfile_refused bad)
    next good => exact hs.answers i rfl trivial (answerSetProfile_taken good)
  · refine ⟨_, rfl, (RampRun.plan_profile _).trans ?_⟩
    show cfg.profiles.getD n _ = p
    rw [List.getD_eq_getElem?_getD, named]
    rfl
  · let i : Instr := .setChannel tag ch inv pullIn hold rsv
    dsimp only
    split
    next bad => exact hs.refuses i rfl trivial (answerSetChannel_refused _ bad)
    next good =>
      have answer := fun f => answerSetChannel_taken (hold := hold) (s.inHand f) good
      simp only [State.inHand_channel] at answer
      generalize (if ch = 0 then ChannelId.df else .rf) = c at answer ⊢
      split
      next used => exact hs.refuses i rfl trivial ((answer _).trans (if_pos (Option.isSome_iff_ne_none.mpr used)))
      next free =>
        exact hs.answers i rfl trivial ((answer _).trans (if_neg fun k => free (Option.isSome_iff_ne_none.mp k)))

/-- Settles O22. -/
theorem moveStepsByCases : Obligations.MoveStepsByCases := by
  unfold Obligations.MoveStepsByCases
  intro s tag ch prof dir rsv dist hs
  let i : Instr := .moveSteps tag ch prof dir rsv dist
  dsimp only
  split
  next bad => exact hs.refuses i rfl trivial (answerMoveSteps_refused _ bad)
  next good =>
    have forward : (!(dir == 1)) = (dir == 0) := not_beq_one_of_le (by simp only [not_or] at good; omega)
    have answer := fun f => answerMoveSteps_taken (s.inHand f) good
    simp only [State.inHand_channel, forward] at answer
    generalize (if ch = 0 then ChannelId.df else .rf) = c at answer ⊢
    split
    next fault => exact hs.refuses i rfl trivial ((answer _).trans (if_pos fault))
    next sound =>
      simp only [if_neg sound] at answer
      split
      next used => exact hs.refuses i rfl trivial ((answer _).trans (if_pos (Option.isSome_iff_ne_none.mpr used)))
      next free =>
        simp only [if_neg fun k => free (Option.isSome_iff_ne_none.mp k)] at answer
        split
        next raised => exact hs.refuses i rfl trivial ((answer _).trans (if_pos raised))
        next closed => exact hs.answers i rfl trivial ((answer _).trans (if_neg closed))

/-! ## STOP_CHANNEL (R35) -/

/-- A change of a channel is what it makes of that channel. -/
theorem State.onChannel_eq_of {s : State} {c : ChannelId} {f g : Channel → Channel}
    (h : f (s.channel c) = g (s.channel c)) : s.onChannel c f = s.onChannel c g := by
  cases c
  · exact congrArg (fun x => { s with df := x }) h
  · exact congrArg (fun x => { s with rf := x }) h

theorem State.onChannel_eq_self {s : State} {c : ChannelId} {f : Channel → Channel}
    (h : f (s.channel c) = s.channel c) : s.onChannel c f = s :=
  (State.onChannel_eq_of (g := id) h).trans (by cases c <;> rfl)

@[simp] theorem State.replied_channel (type tag : Byte) (p : List Byte) (s : State) (c : ChannelId) :
    (s.replied type tag p).channel c = s.channel c := by
  cases c <;> rfl

section stop

variable {x : Channel}

theorem Channel.userIsPart_eq_true (h : (∃ n, x.user = some (.move n)) ∨ x.user = some .feed) : x.userIsPart = true := by
  unfold Channel.userIsPart
  obtain ⟨n, h⟩ | h := h
  · rw [h]
  · rw [h]

theorem Channel.userIsPart_eq_false (h : x.user = none ∨ x.user = some .host) : x.userIsPart = false := by
  unfold Channel.userIsPart
  obtain h | h := h
  · rw [h]
  · rw [h]

theorem Channel.hostStop_of_stopping (h : x.state = .stopping ∨ x.state = .fault) :
    x.hostStop = x ∧ x.shownAfterStop = x.state := by
  have kept : x.hostStop = x := by
    unfold Channel.hostStop
    obtain h | h := h
    · rw [h]
    · rw [h]
  refine ⟨kept, ?_⟩
  unfold Channel.shownAfterStop
  rw [kept]
  obtain h | h := h
  · rw [h]
  · rw [h]

/-- At rest, the reply shows the state after the stop. -/
theorem Channel.shownAfterStop_of_rest (h : x.state = .idle ∨ x.state = .holding) :
    x.shownAfterStop = x.hostStop.state := by
  unfold Channel.shownAfterStop
  obtain h | h := h
  · rw [h]
  · rw [h]

theorem Channel.hostStop_of_rest (h : x.state = .idle ∨ x.state = .holding) :
    x.hostStop = if x.user = some .host then { x with startWaiting := none }.passOn
      else if x.state = .holding then { x with state := .idle, holdTimer := none } else x := by
  unfold Channel.hostStop
  obtain h | h := h
  · rw [h]
  · rw [h]

/-- A ramped move in its stride gets its stop, which takes effect at the step in progress (R32). -/
theorem Channel.hostStop_of_ramping {y : RampRun} (h : x.state = .ramping) (run : x.run = .ramp y) :
    x.hostStop = { x with run := .ramp { y with stopOrdered := true } }
      ∧ x.shownAfterStop = if min (y.r - 1) y.a = 0 then .holding else .stopping := by
  have ending : x.stopsAtStep = (min (y.r - 1) y.a == 0) := by
    unfold Channel.stopsAtStep
    rw [run]
    rfl
  constructor
  · unfold Channel.hostStop Channel.stopRamp
    rw [h, run]
    exact if_pos rfl
  · unfold Channel.shownAfterStop
    rw [h, ending]
    simp only [beq_iff_eq]

/-- The host leaves a channel at rest: the next requester, the hold timer, or IDLE at once when no hold time is in
force (R22, R40). -/
theorem Channel.passOn_of_rest (h : x.state = .idle ∨ x.state = .holding) :
    { x with startWaiting := none }.passOn = (match x.queue with
      | u :: rest => { x with startWaiting := none, user := some u, releasing := false, queue := rest }
      | [] =>
        let y := { x with startWaiting := none, user := none, releasing := false }
        if x.state = .idle then y
        else if x.holdLatched = 0 then { y with state := .idle, holdTimer := none }
        else { y with holdTimer := some x.holdLatched }) := by
  unfold Channel.passOn
  cases x.queue with
  | cons u rest => rfl
  | nil =>
    unfold Channel.startHold
    obtain h | h := h
    · simp [h]
    · simp [h]

theorem Channel.passOn_of_rest_code (h : x.state = .idle ∨ x.state = .holding) :
    { x with startWaiting := none }.passOn.state.code
      = if x.state = .holding ∧ (x.queue ≠ [] ∨ x.holdLatched ≠ 0) then 1 else 0 := by
  rw [Channel.passOn_of_rest h]
  obtain h | h := h
  · cases x.queue with
    | cons u rest => simp [h, ChanState.code]
    | nil => simp [h, ChanState.code]
  · cases q : x.queue with
    | cons u rest => simp [h, ChanState.code]
    | nil =>
      by_cases zero : x.holdLatched = 0
      · simp [h, zero, ChanState.code]
      · simp [h, zero, ChanState.code]

end stop

section answers

variable {s : State} (hs : s.Serves) {tag ch rsv : Byte}
include hs

/-- STOP_CHANNEL on a channel without a user of the part: what it makes of the channel, and the state it shows. -/
theorem State.Serves.stops (one : ch.toNat ≤ 1) (zero : rsv = 0) {c : ChannelId}
    (named : (if ch = 0 then ChannelId.df else .rf) = c) (own : (s.channel c).userIsPart = false) {shown : Byte}
    {f : Channel → Channel} (code : (s.channel c).shownAfterStop.code = shown)
    (stop : (s.channel c).hostStop = f (s.channel c)) :
    exec (.stopChannel tag ch rsv) s
      = .next ((s.replied 0x34 tag [0x00, shown]).onChannel c f).settle := by
  have answer : ∀ g, answerStopChannel ch rsv (s.inHand g)
      = .ok [shown] fun s => (s.onChannel c Channel.hostStop).settle := by
    intro g
    unfold answerStopChannel
    rw [channelOf_eq_some (by omega), named]
    simp [zero, own, code]
  have changed : (s.replied 0x34 tag [0x00, shown]).onChannel c Channel.hostStop
      = (s.replied 0x34 tag [0x00, shown]).onChannel c f :=
    State.onChannel_eq_of (by simpa using stop)
  rw [← changed]
  exact hs.answers (.stopChannel tag ch rsv) rfl trivial (answer _)

end answers

/-! ## CLEAR_FAULT (R42) -/

/-- Settles O23. -/
theorem stopAndClearByState : Obligations.StopAndClearByState := by
  unfold Obligations.StopAndClearByState
  refine ⟨fun s tag ch rsv hs => ?_, fun s tag ch rsv hs => ?_⟩
  · let i : Instr := .stopChannel tag ch rsv
    dsimp only
    refine ⟨fun bad => ?_, fun one zero => ⟨fun part => ?_, fun own => ?_⟩⟩
    · refine hs.refuses i rfl trivial (r := .badValue) ?_
      show answerStopChannel ch rsv _ = _
      unfold answerStopChannel
      split
      · rfl
      next c named => exact if_pos (bad.resolve_left fun k => by simp [channelOf_eq_none k] at named)
    · refine hs.refuses i rfl trivial (r := .inUse) ?_
      show answerStopChannel ch rsv _ = _
      unfold answerStopChannel
      rw [channelOf_eq_some (by omega)]
      exact (if_neg (not_not.mpr zero)).trans
        (if_pos (by rw [State.inHand_channel]; exact Channel.userIsPart_eq_true part))
    · generalize named : (if ch = 0 then ChannelId.df else .rf) = c at own ⊢
      have own := Channel.userIsPart_eq_false own
      refine ⟨fun rests => ?_, fun idle free => ?_, fun holding free => ?_, fun rests host => ?_, fun y ramping run => ?_⟩
      · obtain ⟨kept, shown⟩ := Channel.hostStop_of_stopping rests
        exact hs.stops one zero named own (by rw [shown]) kept
      · have kept : (s.channel c).hostStop = s.channel c := by
          rw [Channel.hostStop_of_rest (.inl idle)]
          simp [free, idle]
        exact hs.stops one zero named own (by rw [Channel.shownAfterStop_of_rest (.inl idle), kept, idle]; rfl) kept
      · have ended : (s.channel c).hostStop = { s.channel c with state := .idle, holdTimer := none } := by
          rw [Channel.hostStop_of_rest (.inr holding)]
          simp [free, holding]
        exact hs.stops one zero named own
          (f := fun x => { x with state := .idle, holdTimer := none })
          (by rw [Channel.shownAfterStop_of_rest (.inr holding), ended]; rfl) ended
      · have passes : (s.channel c).hostStop = { s.channel c with startWaiting := none }.passOn := by
          rw [Channel.hostStop_of_rest rests, if_pos host]
        refine hs.stops one zero named own ?_ (passes.trans (Channel.passOn_of_rest rests))
        rw [Channel.shownAfterStop_of_rest rests, passes, Channel.passOn_of_rest_code rests]
      · obtain ⟨stops, shown⟩ := Channel.hostStop_of_ramping ramping run
        refine hs.stops one zero named own (f := fun x => { x with run := .ramp { y with stopOrdered := true } }) ?_ stops
        rw [shown]
        split
        · rfl
        · rfl
  · let i : Instr := .clearFault tag ch rsv
    have flt : (if ch = 0 then s.inputs.fltd else s.inputs.fltr) = s.flt (if ch = 0 then .df else .rf) := by
      split
      · rfl
      · rfl
    dsimp only
    rw [flt]
    split
    next bad =>
      refine hs.refuses i rfl trivial (r := .badValue) ?_
      show answerClearFault ch rsv _ = _
      unfold answerClearFault
      split
      · rfl
      next c named => exact if_pos (bad.resolve_left fun k => by simp [channelOf_eq_none k] at named)
    next good =>
      simp only [not_or, not_not] at good
      obtain ⟨one, zero⟩ := good
      have answer : ∀ f, answerClearFault ch rsv (s.inHand f) =
          if (s.channel (if ch = 0 then .df else .rf)).state = .fault ∧ s.flt (if ch = 0 then .df else .rf) = true then
            .refuse .busy
          else .ok [] fun s => (s.onChannel (if ch = 0 then .df else .rf) Channel.clearFault).settle := by
        intro f
        unfold answerClearFault
        rw [channelOf_eq_some one]
        simp only [zero, ne_eq, not_true_eq_false, if_false, State.inHand_channel]
        congr 1
      generalize (if ch = 0 then ChannelId.df else .rf) = c at answer ⊢
      split
      next active => exact hs.refuses i rfl trivial ((answer _).trans (if_pos active))
      next inactive =>
        have cleared := hs.answers i rfl trivial ((answer _).trans (if_neg inactive))
        refine cleared.trans (congrArg Host.Outcome.next ?_)
        split
        next fault =>
          exact congrArg State.settle (State.onChannel_eq_of (by
            simp only [Channel.clearFault]
            exact if_pos ((congrArg Channel.state (State.replied_channel ..)).trans fault)))
        next sound =>
          exact congrArg State.settle (State.onChannel_eq_self
            (if_neg fun k => sound ((congrArg Channel.state (State.replied_channel ..)).symm.trans k)))

/-! ## Step periods (2.5) -/

/-- A cruise period and the accumulator after it: the carry of one tick is D taken from the accumulator (R26). -/
theorem cruisePeriod_carry {w f d acc : Nat} (fraction : f < d) (below : acc < d) :
    ∃ c, (cruisePeriod w f d acc).1 = w + c ∧ (cruisePeriod w f d acc).2 + d * c = acc + f
      ∧ (cruisePeriod w f d acc).2 < d ∧ (c = 0 ∨ c = 1) := by
  unfold cruisePeriod
  split
  next carry => exact ⟨1, rfl, by simp only [Nat.mul_one]; omega, by simp only; omega, .inr rfl⟩
  next => exact ⟨0, rfl, rfl, by simp only; omega, .inl rfl⟩

section cruise

variable {w f d : Nat} (fraction : f < d) {acc : Nat → Nat} (first : acc 0 = 0)
  (next : ∀ k, acc (k + 1) = (cruisePeriod w f d (acc k)).2)
include fraction first next

theorem cruise_acc_lt (k : Nat) : acc k < d := by
  induction k with
  | zero => omega
  | succ k ih =>
    obtain ⟨c, -, -, below, -⟩ := cruisePeriod_carry (w := w) fraction ih
    rw [next]
    exact below

/-- After k cruise steps from accumulator 0, each carry has added a tick and taken D from k times F. -/
theorem cruise_sum (k : Nat) : ∃ c, ((List.range k).map fun j => (cruisePeriod w f d (acc j)).1).sum = k * w + c
    ∧ acc k + d * c = k * f := by
  induction k with
  | zero => exact ⟨0, by simp, by simp [first]⟩
  | succ k ih =>
    obtain ⟨c, sum, carried⟩ := ih
    obtain ⟨e, period, taken, -, -⟩ := cruisePeriod_carry (w := w) fraction (cruise_acc_lt fraction first next k)
    refine ⟨c + e, ?_, ?_⟩
    · rw [List.range_succ, List.map_append, List.sum_append, sum, List.map_singleton, List.sum_singleton, period]
      ring
    · rw [next, Nat.mul_add, Nat.add_mul]
      omega

/-- D steps carry F times, and come back to accumulator 0. -/
theorem cruise_period : ((List.range d).map fun j => (cruisePeriod w f d (acc j)).1).sum = d * w + f ∧ acc d = 0 := by
  obtain ⟨c, sum, carried⟩ := cruise_sum fraction first next d
  have below := cruise_acc_lt fraction first next d
  have back : acc d = 0 := by
    have divides : d ∣ acc d := (Nat.dvd_add_left (Dvd.intro c rfl)).mp (carried ▸ Dvd.intro f rfl)
    exact Nat.eq_zero_of_dvd_of_lt divides below
  rw [back, Nat.zero_add] at carried
  exact ⟨by rw [sum, Nat.eq_of_mul_eq_mul_left (by omega) carried], back⟩

end cruise

section plan

variable {x : RampRun}

theorem RampRun.plan_of_decelerating (h : x.r ≤ x.a) :
    x.plan = { x with q := min (x.q + x.profile.k16) x.qs, period := min (x.q + x.profile.k16) x.qs / 16 } := if_pos h

theorem RampRun.plan_of_accelerating (h : x.a + 1 < x.r) (slow : x.qt < x.q) :
    x.plan = { x with period := x.q / 16, q := max (x.q - x.profile.k16) x.qt, a := x.a + 1 } :=
  (if_neg (by omega)).trans (if_pos ⟨h, slow⟩)

/-- Neither decelerating nor accelerating, the step takes the cruise period or stays on a plateau. -/
theorem RampRun.plan_of_steady (h : x.a < x.r) (k : x.r = x.a + 1 ∨ x.q ≤ x.qt) :
    x.plan = if x.q = x.qt then
        { x with
          period := (cruisePeriod x.profile.wt x.profile.f x.profile.d x.acc).1
          acc := (cruisePeriod x.profile.wt x.profile.f x.profile.d x.acc).2 }
      else { x with period := x.q / 16 } :=
  (if_neg (by omega)).trans (if_neg (by omega))

end plan

/-- Settles O26. -/
theorem stepPeriods : Obligations.StepPeriods := by
  unfold Obligations.StepPeriods
  refine ⟨fun w f d fraction => ?_, fun x => ⟨RampRun.plan_of_decelerating, RampRun.plan_of_accelerating,
    fun h k cruise => ?_, fun h k plateau => ?_⟩, fun p forward dist => rfl⟩
  · dsimp only
    obtain ⟨sum, back⟩ := cruise_period (w := w) (acc := Nat.rec 0 fun _ a => (cruisePeriod w f d a).2) fraction rfl
      fun _ => rfl
    refine ⟨sum, back, fun k => ?_⟩
    have below := cruise_acc_lt (w := w) (acc := Nat.rec 0 fun _ a => (cruisePeriod w f d a).2) fraction rfl
      (fun _ => rfl) k
    obtain ⟨c, period, -, -, rfl | rfl⟩ := cruisePeriod_carry (w := w) fraction below
    · exact ⟨below, .inl period⟩
    · exact ⟨below, .inr period⟩
  · rw [RampRun.plan_of_steady h k, if_pos cruise]
    unfold cruisePeriod
    dsimp only
    split
    · rfl
    · rfl
  · rw [RampRun.plan_of_steady h k, if_neg plateau]

end Sys2Proof.Machine
end

section
/-! PROOFS. One step of a channel, the start of an order, gating and end orders, and the grants of gated lines
(2.2, 2.5 to 2.8, R20, R27 to R39). -/

namespace Sys2Proof.Machine

/-! ## What a step makes of its channel (R20) -/

/-- One channel stands one step further than another. -/
structure Channel.Moved (invert forward : Bool) (c c' : Channel) : Prop where
  position : c'.position = if forward then c.position + 1 else c.position - 1
  phase : c'.phase = if forward = invert then c.phase - 1 else c.phase + 1

section issue

variable (c : Channel) (cfg : ChannelSettings)

theorem Channel.issue_eq (invert forward : Bool) : c.issue invert forward =
    { c with
      position := if forward then c.position + 1 else c.position - 1
      phase := if forward = invert then c.phase - 1 else c.phase + 1 } := by
  unfold Channel.issue
  cases forward <;> cases invert <;> rfl

theorem Channel.issue_moved (invert forward : Bool) : c.Moved invert forward (c.issue invert forward) := by
  rw [Channel.issue_eq]
  exact ⟨rfl, rfl⟩

theorem Channel.Moved.mild {invert forward : Bool} {c a b : Channel} {cfg : ChannelSettings}
    (h : c.Moved invert forward a) (k : a.Mild cfg b) : c.Moved invert forward b :=
  ⟨k.position.trans h.position, k.phase.trans h.phase⟩

theorem Channel.Moved.boundary {invert forward : Bool} {c a : Channel} (h : c.Moved invert forward a)
    (cfg : ChannelSettings) (hold : Nat) (x : LineRun) : c.Moved invert forward (a.boundary hold x) := by
  unfold Channel.boundary
  split
  · exact h.mild (a.halt_mild cfg hold)
  · dsimp only
    split
    · exact ⟨h.position, h.phase⟩
    · exact ⟨h.position, h.phase⟩

theorem Channel.stepRamp_moved (x : RampRun) : c.Moved cfg.invert x.forward (c.stepRamp cfg x) := by
  have issued := c.issue_moved cfg.invert x.forward
  unfold Channel.stepRamp
  dsimp only
  split
  · exact ⟨issued.position, issued.phase⟩
  · exact ⟨issued.position, issued.phase⟩

theorem Channel.stepLine_moved (x : LineRun) : c.Moved cfg.invert true (c.stepLine cfg x) := by
  have issued := c.issue_moved cfg.invert true
  unfold Channel.stepLine
  dsimp only
  split
  · exact issued.mild (Channel.halt_mild cfg _ _)
  · split
    · exact ⟨issued.position, issued.phase⟩
    · split
      · exact ⟨issued.position, issued.phase⟩
      · exact issued.boundary cfg _ _

/-- An order to change the gating leaves a ramped move as it is, and a line run a line run. -/
theorem Channel.setGating_run (gated : Bool) :
    (∀ x, c.run = .ramp x → (c.setGating gated).run = .ramp x)
      ∧ ∀ x, c.run = .line x → ∃ y, (c.setGating gated).run = .line y := by
  have waiting : (c.gateWaiting gated).run = c.run := by
    unfold Channel.gateWaiting
    split
    · rfl
    · rfl
  refine ⟨fun x ramp => ?_, fun x line => ?_⟩
  · unfold Channel.setGating Channel.gateRun
    rw [waiting, ramp]
    exact waiting.trans ramp
  · unfold Channel.setGating Channel.gateRun
    rw [waiting, line]
    dsimp only
    split
    · split
      · exact ⟨_, rfl⟩
      · exact ⟨_, rfl⟩
    · exact ⟨_, rfl⟩

end issue

/-! ## The step of a channel in the part -/

section step

variable {s : State} {ch : ChannelId}

theorem State.exec_channelStep (held : s.held = false) (awake : s.power.state ≠ .sleep)
    (closed : s.feed.cover.debounced = false) (due : (s.channel ch).stepDue = true) :
    exec (.channelStep ch) s = .next ((s.countDfStep ch).issueStep ch).settle := by
  refine congrArg Host.Outcome.next (if_pos ?_)
  rw [State.clocked_of held awake, State.coverOpen, closed, due]
  rfl

theorem State.countDfStep_follows (s : State) (ch : ChannelId) : Follows False s (s.countDfStep ch) := by
  cases ch
  · exact (Follows.refl s).countStep.gapGate
  · exact .refl s

/-- FDC, counting a step, leaves a ramped move as it is, and a line run a line run. -/
theorem State.countDfStep_run (s : State) (ch : ChannelId) :
    (∀ x, (s.channel ch).run = .ramp x → ((s.countDfStep ch).channel ch).run = .ramp x)
      ∧ ∀ x, (s.channel ch).run = .line x → ∃ y, ((s.countDfStep ch).channel ch).run = .line y := by
  cases ch
  · show (∀ x, s.df.run = .ramp x → (s.onFeed Feed.countStep).gapGate.df.run = .ramp x)
      ∧ ∀ x, s.df.run = .line x → ∃ y, (s.onFeed Feed.countStep).gapGate.df.run = .line y
    unfold State.gapGate
    split
    · split
      · exact s.df.setGating_run true
      · exact ⟨fun x h => h, fun x h => ⟨x, h⟩⟩
    · exact ⟨fun x h => h, fun x h => ⟨x, h⟩⟩
  · exact ⟨fun x h => h, fun x h => ⟨x, h⟩⟩

theorem State.issueStep_ramp {x : RampRun} (run : (s.channel ch).run = .ramp x) :
    s.issueStep ch = if x.ending then (s.onChannel ch (Channel.stepRamp (s.channelCfg ch) x)).rampEnded ch
      else s.onChannel ch (Channel.stepRamp (s.channelCfg ch) x) := by
  unfold State.issueStep
  rw [run]

theorem State.issueStep_line {x : LineRun} (run : (s.channel ch).run = .line x) :
    s.issueStep ch = (s.onChannel ch (Channel.stepLine (s.channelCfg ch) x)).checkGap ch := by
  unfold State.issueStep
  rw [run]

theorem State.rampEnded_follows (s : State) (ch : ChannelId) : Follows False s (s.rampEnded ch) := by
  have passed := (Follows.refl (w := False) s).onChannel ch Channel.passOn fun cfg c => c.passOn_mild cfg
  unfold State.rampEnded
  split
  · exact passed
  · split
    · exact passed
    · exact passed
    · exact (Follows.refl s).feedRampEnded
    · exact (Follows.refl s).cutFeedEnded

theorem State.checkGap_follows (s : State) (ch : ChannelId) : Follows False s (s.checkGap ch) := by
  cases ch
  · exact (Follows.refl s).gapTimeout
  · exact .refl s

/-- What comes of the step of a channel follows from that channel one step further. -/
theorem State.issueStep_moved {forward : Bool}
    (due : (∃ x : RampRun, (s.channel ch).run = .ramp x ∧ x.forward = forward)
      ∨ ∃ x : LineRun, (s.channel ch).run = .line x ∧ forward = true) :
    ∃ f, Follows False (s.onChannel ch f) (s.issueStep ch)
      ∧ (s.channel ch).Moved (s.channelCfg ch).invert forward (f (s.channel ch)) := by
  obtain ⟨x, run, rfl⟩ | ⟨x, run, rfl⟩ := due
  · refine ⟨Channel.stepRamp (s.channelCfg ch) x, ?_, Channel.stepRamp_moved _ _ x⟩
    rw [State.issueStep_ramp run]
    split
    · exact State.rampEnded_follows _ ch
    · exact .refl _
  · refine ⟨Channel.stepLine (s.channelCfg ch) x, ?_, Channel.stepLine_moved _ _ x⟩
    rw [State.issueStep_line run]
    exact State.checkGap_follows _ ch

/-- What an issued step of a channel changes and keeps (R20). -/
structure State.Steps (ch : ChannelId) (forward : Bool) (s t : State) : Prop where
  moved : (s.channel ch).Moved (s.channelCfg ch).invert forward (t.channel ch)
  others : ∀ other, other ≠ ch → s.RestsAt other t
  cfg : t.cfg = s.cfg
  inputs : t.inputs = s.inputs
  hand : t.link.hand = s.link.hand
  parser : t.link.parser = s.link.parser
  link : t.link.state = s.link.state
  queue : s.link.outbound <+: t.link.outbound

theorem State.Steps.of_onChannel {forward : Bool} {f : Channel → Channel}
    (h : (s.channel ch).Moved (s.channelCfg ch).invert forward (f (s.channel ch))) :
    s.Steps ch forward (s.onChannel ch f) where
  moved := by rwa [State.onChannel_channel]
  others other ne := (State.RestsAt.refl s).onOther ne.symm f
  cfg := State.onChannel_cfg ..
  inputs := State.onChannel_inputs ..
  hand := by rw [State.onChannel_link]
  parser := by rw [State.onChannel_link]
  link := by rw [State.onChannel_link]
  queue := by rw [State.onChannel_link]

theorem State.Steps.follows {forward : Bool} {t u : State} (h : s.Steps ch forward t) (k : t.Leads u) :
    s.Steps ch forward u where
  moved := ⟨(k.calm.toRests.at ch).1.trans h.moved.position, (k.calm.toRests.at ch).2.trans h.moved.phase⟩
  others other ne := (h.others other ne).trans (k.calm.toRests.at other)
  cfg := (congrArg Kept.cfg k.kept).trans h.cfg
  inputs := (congrArg Kept.inputs k.kept).trans h.inputs
  hand := (congrArg Kept.hand k.kept).trans h.hand
  parser := (congrArg Kept.parser k.kept).trans h.parser
  link := (congrArg Kept.linkState k.kept).trans h.link
  queue := h.queue.trans k.queue

theorem State.Steps.after {forward : Bool} {t u : State} (k : s.Leads t) (h : t.Steps ch forward u) :
    s.Steps ch forward u where
  moved := by
    have cfg : t.channelCfg ch = s.channelCfg ch := by
      cases ch
      · exact congrArg (fun x => x.cfg.df) k.kept
      · exact congrArg (fun x => x.cfg.rf) k.kept
    obtain ⟨position, phase⟩ := k.calm.toRests.at ch
    exact ⟨by rw [h.moved.position, position], by rw [h.moved.phase, phase, cfg]⟩
  others other ne := (k.calm.toRests.at other).elim fun p q => .trans ⟨p, q⟩ (h.others other ne)
  cfg := h.cfg.trans (congrArg Kept.cfg k.kept)
  inputs := h.inputs.trans (congrArg Kept.inputs k.kept)
  hand := h.hand.trans (congrArg Kept.hand k.kept)
  parser := h.parser.trans (congrArg Kept.parser k.kept)
  link := h.link.trans (congrArg Kept.linkState k.kept)
  queue := k.queue.trans h.queue

/-- The step that is issued, and all that follows of it. -/
theorem State.issueStep_steps {forward : Bool}
    (due : (∃ x : RampRun, (s.channel ch).run = .ramp x ∧ x.forward = forward)
      ∨ ∃ x : LineRun, (s.channel ch).run = .line x ∧ forward = true) :
    s.Steps ch forward ((s.countDfStep ch).issueStep ch).settle := by
  have counted := State.countDfStep_run s ch
  have due' : (∃ x : RampRun, ((s.countDfStep ch).channel ch).run = .ramp x ∧ x.forward = forward)
      ∨ ∃ x : LineRun, ((s.countDfStep ch).channel ch).run = .line x ∧ forward = true := by
    obtain ⟨x, run, way⟩ | ⟨x, run, way⟩ := due
    · exact .inl ⟨x, counted.1 x run, way⟩
    · obtain ⟨y, run⟩ := counted.2 x run
      exact .inr ⟨y, run, way⟩
  obtain ⟨f, follows, moved⟩ := State.issueStep_moved due'
  exact .after (s.countDfStep_follows ch).leads
    (((State.Steps.of_onChannel moved).follows follows.leads).follows (State.settle_follows _).leads)

/-! ## The channel after a step outside a feed sequence -/

theorem State.countDfStep_of_none (none : s.feed.seq = .none) : s.countDfStep ch = s := by
  cases ch
  · have counted : s.onFeed Feed.countStep = s := by
      unfold State.onFeed Feed.countStep
      rw [none]
    show (s.onFeed Feed.countStep).gapGate = s
    rw [counted, State.gapGate, none]
  · rfl

theorem State.checkGap_of_none (none : s.feed.seq = .none) : s.checkGap ch = s := by
  cases ch
  · show s.gapTimeout = s
    rw [State.gapTimeout, none]
  · rfl

theorem State.onChannel_onChannel (f g : Channel → Channel) :
    (s.onChannel ch f).onChannel ch g = s.onChannel ch fun c => g (f c) := by
  cases ch
  · rfl
  · rfl

theorem State.onChannel_const (f : Channel → Channel) :
    s.onChannel ch f = s.onChannel ch fun _ => f (s.channel ch) := State.onChannel_eq_of rfl

section free

variable (held : s.held = false) (awake : s.power.state ≠ .sleep) (closed : s.feed.cover.debounced = false)
  (none : s.feed.seq = .none)
include held awake closed none

theorem State.exec_lineStep {x : LineRun} (run : (s.channel ch).run = .line x)
    (due : (s.channel ch).stepDue = true) :
    exec (.channelStep ch) s
      = .next (s.onChannel ch fun _ => (s.channel ch).stepLine (s.channelCfg ch) x).settle := by
  rw [State.exec_channelStep held awake closed due, State.countDfStep_of_none none, State.issueStep_line run,
    State.checkGap_of_none (by rwa [State.onChannel_feed]), State.onChannel_const]

theorem State.exec_rampStep {x : RampRun} (run : (s.channel ch).run = .ramp x) (due : (s.channel ch).stepDue = true)
    (more : x.toGo ≠ 0) :
    exec (.channelStep ch) s
      = .next (s.onChannel ch fun _ => (s.channel ch).stepRamp (s.channelCfg ch) x).settle := by
  rw [State.exec_channelStep held awake closed due, State.countDfStep_of_none none, State.issueStep_ramp run,
    if_neg (by simpa [RampRun.ending] using more), State.onChannel_const]

/-- The last step of a ramped move of the host, or of a user that has ended: the channel passes on. -/
theorem State.exec_lastRampStep {x : RampRun} (run : (s.channel ch).run = .ramp x)
    (due : (s.channel ch).stepDue = true) (last : x.toGo = 0)
    (user : (s.channel ch).user = some .host ∨ (s.channel ch).releasing = true) :
    exec (.channelStep ch) s
      = .next (s.onChannel ch fun _ => (((s.channel ch).issue (s.channelCfg ch).invert x.forward).enterHolding
          (s.channelCfg ch).holdTime).passOn).settle := by
  have rest : (s.channel ch).stepRamp (s.channelCfg ch) x
      = ((s.channel ch).issue (s.channelCfg ch).invert x.forward).enterHolding (s.channelCfg ch).holdTime := if_pos last
  have ended : (s.onChannel ch (Channel.stepRamp (s.channelCfg ch) x)).rampEnded ch
      = (s.onChannel ch (Channel.stepRamp (s.channelCfg ch) x)).onChannel ch Channel.passOn := by
    unfold State.rampEnded
    rw [State.onChannel_channel, rest]
    split
    · rfl
    next stays =>
      have host : (s.channel ch).user = some .host := user.resolve_right stays
      simp only [Channel.enterHolding, Channel.issue, host]
  rw [State.exec_channelStep held awake closed due, State.countDfStep_of_none none, State.issueStep_ramp run,
    if_pos (by simpa [RampRun.ending] using last), ended, State.onChannel_onChannel, State.onChannel_const, rest]

end free

end step

/-! ## Coming to HOLDING (R22, R40) -/

section rests

variable {y : Channel}

theorem Channel.passOn_of_cons {u : User} {rest : List User} (q : y.queue = u :: rest) :
    y.passOn = { y with user := some u, releasing := false, queue := rest } := by
  unfold Channel.passOn
  rw [q]

/-- With no requester a channel in HOLDING goes to IDLE, when no hold time is in force. -/
theorem Channel.passOn_of_nil_of_zero (q : y.queue = []) (holding : y.state = .holding) (zero : y.holdLatched = 0) :
    y.passOn = { y with state := .idle, user := none, releasing := false, holdTimer := none } := by
  unfold Channel.passOn
  rw [q]
  exact (if_pos holding).trans (if_pos zero)

/-- With no requester the hold timer of a channel in HOLDING starts. -/
theorem Channel.passOn_of_nil_of_pos (q : y.queue = []) (holding : y.state = .holding) (pos : y.holdLatched ≠ 0) :
    y.passOn = { y with user := none, releasing := false, holdTimer := some y.holdLatched } := by
  unfold Channel.passOn
  rw [q]
  exact (if_pos holding).trans (if_neg pos)

theorem Channel.settleHolding_of_used (h : y.releasing = false) : y.settleHolding = y := if_neg (by simp [h])

theorem Channel.settleHolding_of_releasing (holding : y.state = .holding) (h : y.releasing = true) :
    y.settleHolding = y.passOn := if_pos ⟨holding, h⟩

end rests

/-! ## The branches of a step -/

section branches

variable {c : Channel} {cfg : ChannelSettings}

theorem Channel.stepRamp_of_more {x : RampRun} (more : x.toGo ≠ 0) : c.stepRamp cfg x =
    { c.issue cfg.invert x.forward with
      state := if x.stopOrdered then .stopping else .ramping
      run := .ramp { x with r := x.toGo }.plan } := if_neg more

variable {x : LineRun}

theorem Channel.stepLine_of_stop (stop : x.stopOrdered = true) :
    c.stepLine cfg x = ((c.issue cfg.invert true).enterHolding cfg.holdTime).settleHolding := if_pos stop

variable (goes : x.stopOrdered = false)
include goes

theorem Channel.stepLine_of_more (more : 1 < x.stepsLeft) : c.stepLine cfg x =
    { c.issue cfg.invert true with run := .line { x with stepsLeft := x.stepsLeft - 1, period := none }.plan } :=
  (if_neg (by simp [goes])).trans (if_pos (Nat.sub_pos_of_lt more))

theorem Channel.stepLine_of_waiting (last : x.stepsLeft ≤ 1) (waiting : x.waiting = true) : c.stepLine cfg x =
    { c.issue cfg.invert true with run := .line { x with stepsLeft := x.stepsLeft - 1, period := none } } :=
  (if_neg (by simp [goes])).trans ((if_neg (by simp only; omega)).trans (if_pos waiting))

theorem Channel.stepLine_of_boundary (last : x.stepsLeft ≤ 1) (done : x.waiting = false) : c.stepLine cfg x =
    (c.issue cfg.invert true).boundary cfg.holdTime { x with stepsLeft := x.stepsLeft - 1, period := none } :=
  (if_neg (by simp [goes])).trans ((if_neg (by simp only; omega)).trans (if_neg (by simp [done])))

end branches

section boundary

variable {c : Channel} {hold : Nat} {x : LineRun}

theorem Channel.boundary_of_ended (ended : x.endOrdered = true) :
    c.boundary hold x = (c.enterHolding hold).settleHolding := if_pos ended

variable (goes : x.endOrdered = false)
include goes

theorem Channel.boundary_of_gated (gated : x.gatingChange.getD x.gated = true) : c.boundary hold x =
    { c with state := .lineHold, run := .line { x with gated := x.gatingChange.getD x.gated, gatingChange := none } } :=
  (if_neg (by simp [goes])).trans (if_pos gated)

theorem Channel.boundary_of_ungated (free : x.gatingChange.getD x.gated = false) (runs : c.state = .lineRun) :
    c.boundary hold x = { c with run := .line (LineRun.plan { x with
      gated := x.gatingChange.getD x.gated
      gatingChange := none
      stepsLeft := x.density.steps
      waiting := false }) } := by
  unfold Channel.boundary Channel.beginUngated
  rw [if_neg (by simp [goes])]
  dsimp only
  rw [if_neg (by simp [free]), ← runs]

end boundary

/-- The first step period of a line: W, or W and a tick (R26, R36). -/
theorem LineRun.plan_eq (x : LineRun) : x.plan =
    if x.timing.d ≤ x.acc + x.timing.f then
      { x with period := some (x.timing.w + 1), acc := x.acc + x.timing.f - x.timing.d }
    else { x with period := some x.timing.w, acc := x.acc + x.timing.f } := by
  unfold LineRun.plan cruisePeriod
  dsimp only
  split
  · rfl
  · rfl

theorem LineRun.plan_period (x : LineRun) :
    x.plan.period = some x.timing.w ∨ x.plan.period = some (x.timing.w + 1) := by
  rw [LineRun.plan_eq]
  split
  · exact .inr rfl
  · exact .inl rfl

theorem LineRun.plan_keeps (x : LineRun) : x.plan.gated = x.gated ∧ x.plan.waiting = x.waiting
    ∧ x.plan.stepsLeft = x.stepsLeft := ⟨rfl, rfl, rfl⟩

theorem Density.steps_eq (d : Density) : d.steps = (match d with
    | .v1 => 4
    | .v2 => 2
    | .v4 => 1) := by
  cases d
  · rfl
  · rfl
  · rfl

/-! ## Gating, end orders and the events of a line (R36 to R39) -/

section gating

variable {c : Channel} {x : LineRun} (gated : Bool) (hold : Nat)

theorem Channel.setGating_of_run (none : c.startWaiting = none) : c.setGating gated = c.gateRun gated := by
  unfold Channel.setGating Channel.gateWaiting
  rw [none]

theorem Channel.endLine_of_run (none : c.startWaiting = none) : c.endLine hold = c.endRun hold := by
  unfold Channel.endLine Channel.dropLineWaiting
  rw [none]

variable (run : c.run = .line x)
include run

theorem Channel.gateRun_of_hold (holds : c.state = .lineHold) : c.gateRun gated =
    if gated then { c with run := .line { x with gated := true } } else c.beginUngated { x with gated := false } := by
  unfold Channel.gateRun
  rw [run]
  exact if_pos holds

theorem Channel.gateRun_of_lineRun (runs : c.state = .lineRun) :
    c.gateRun gated = { c with run := .line { x with gatingChange := some gated } } := by
  unfold Channel.gateRun
  rw [run]
  exact if_neg (by simp [runs])

theorem Channel.endRun_of_hold (holds : c.state = .lineHold) :
    c.endRun hold = (c.enterHolding hold).settleHolding := by
  unfold Channel.endRun
  rw [run]
  exact if_pos holds

theorem Channel.endRun_of_lineRun (runs : c.state = .lineRun) :
    c.endRun hold = { c with run := .line { x with endOrdered := true } } := by
  unfold Channel.endRun
  rw [run]
  exact if_neg (by simp [runs])

theorem Channel.captureDone_of_waits (runs : c.state = .lineRun) (gate : x.gated = true) (waits : x.waiting = true) :
    c.captureDone hold = if x.period.isNone then c.boundary hold { x with waiting := false }
      else { c with run := .line { x with waiting := false } } := by
  unfold Channel.captureDone
  rw [run]
  exact if_pos ⟨runs, gate, waits⟩

theorem Channel.strobeDone_of_waits (runs : c.state = .lineRun) (gate : x.gated = true) (waits : x.waiting = true) :
    c.strobeDone = { c with run := .line { x with waiting := false }.plan } := by
  unfold Channel.strobeDone
  rw [run]
  exact if_pos ⟨runs, gate, waits⟩

theorem Channel.captureDone_of_not (other : x.gated = false ∨ x.waiting = false) : c.captureDone hold = c := by
  unfold Channel.captureDone
  rw [run]
  refine if_neg ?_
  rintro ⟨-, gate, waits⟩
  simp [gate, waits] at other

theorem Channel.strobeDone_of_not (other : x.gated = false ∨ x.waiting = false) : c.strobeDone = c := by
  unfold Channel.strobeDone
  rw [run]
  refine if_neg ?_
  rintro ⟨-, gate, waits⟩
  simp [gate, waits] at other

end gating

/-- Where no line run is under way, the change of gating and the end order act on the start waiting alone (log 53,
log 71). -/
theorem Channel.lineOrder_of_waiting {c : Channel} {d : Density} {before : Bool} (gated : Bool) (hold : Nat)
    (waits : c.startWaiting = some (.line d before)) (other : ∀ x, c.run ≠ .line x) :
    c.setGating gated = { c with startWaiting := some (.line d gated) }
      ∧ c.endLine hold = { c with startWaiting := none } := by
  constructor
  · unfold Channel.setGating Channel.gateWaiting
    rw [waits]
    unfold Channel.gateRun
    split
    next x run => exact absurd run (other x)
    · rfl
  · unfold Channel.endLine Channel.dropLineWaiting
    rw [waits]
    unfold Channel.endRun
    split
    next x run => exact absurd run (other x)
    · rfl

/-! ## The start of an order (R29, R34, R36) -/

section start

variable {s : State} {ch : ChannelId}

theorem ruleStart_of_some {o : Order} (waits : (s.channel ch).startWaiting = some o) :
    ruleStart ch s = if s.mayStart ch then some (s.onChannel ch (Channel.startOrder (s.channelCfg ch) o)) else none := by
  unfold ruleStart
  rw [waits]
  rfl

theorem State.mayStart_iff : s.mayStart ch = true ↔ s.power.motor = .on ∧ s.feed.cover.debounced = false
    ∧ ((s.channel ch).state = .idle ∨ (s.channel ch).state = .holding) ∧ (ch = .rf → s.print.inStrobe = false) := by
  unfold State.mayStart State.coverOpen
  cases ch
  · simp
    tauto
  · simp
    tauto

end start

/-! ## The grants of gated lines (R37, R38) -/

section grants

variable {s : State} {m : Move} {x : LineRun}

/-- The moves of a table without doubles are found under their names. -/
theorem State.move?_of_mem (distinct : (s.moves.map Move.id).Nodup) (mem : m ∈ s.moves) : s.move? m.id = some m := by
  unfold State.move?
  generalize s.moves = ms at distinct mem
  induction ms with
  | nil => cases mem
  | cons n ms ih =>
    rw [List.map_cons, List.nodup_cons] at distinct
    obtain rfl | mem := List.mem_cons.mp mem
    · simp
    · have other : (n.id == m.id) = false := beq_false_of_ne fun e => distinct.1 (e ▸ List.mem_map_of_mem mem)
      rw [List.find?_cons, other]
      exact ih distinct.2 mem

theorem State.eq_of_id (distinct : (s.moves.map Move.id).Nodup) {n : Move} (mem : m ∈ s.moves) (mem' : n ∈ s.moves)
    (id : n.id = m.id) : n = m :=
  Option.some.inj ((State.move?_of_mem distinct mem').symm.trans (id ▸ State.move?_of_mem distinct mem))

theorem Channel.usedBy_move_iff {c : Channel} {id : Nat} (user : c.user = some (.move id)) (stays : c.releasing = false)
    (n : Nat) : c.usedBy (.move n) = true ↔ n = id := by
  unfold Channel.usedBy
  rw [user, stays, Bool.not_false, Bool.and_true, beq_iff_eq, Option.some.injEq, User.move.injEq]
  exact eq_comm

theorem Channel.awaitsGrant_of {c : Channel} (holds : c.state = .lineHold) (run : c.run = .line x)
    (gate : x.gated = true) : c.awaitsGrant = true := by
  unfold Channel.awaitsGrant
  rw [holds, run]
  exact gate

theorem Move.grantsScan_iff (counter : Nat) (m : Move) : m.grantsScan counter = true ↔
    m.isScan = true ∧ m.state = .running ∧ 0 < m.room ∧ m.headerLeft = 0 ∧ m.blankDue = 0 ∧ m.granted = none
      ∧ counter < Config.maxPageLines := by
  unfold Move.grantsScan
  generalize Config.maxPageLines = limit
  simp only [Bool.and_eq_true, beq_iff_eq, decide_eq_true_eq, Option.isNone_iff_eq_none, and_assoc]

variable (distinct : (s.moves.map Move.id).Nodup) (mem : m ∈ s.moves) (awaits : s.df.awaitsGrant = true)
  (user : s.df.user = some (.move m.id)) (stays : s.df.releasing = false)
include distinct mem awaits user stays

theorem ruleScanGrant_of_grants (grants : m.grantsScan s.scan.lineCounter = true) :
    ruleScanGrant s = some (s.beginScanLine m) := by
  have users := Channel.usedBy_move_iff user stays
  unfold ruleScanGrant
  rw [if_pos awaits]
  unfold State.forMove
  rw [State.oldestMove?_eq_some (m := m) (State.move?_of_mem distinct mem) (by simp [users, grants])]
  · rfl
  · intro n _ own
    rw [Bool.and_eq_true, users] at own
    exact own.1.symm.le

theorem ruleScanGrant_of_not (refuses : m.grantsScan s.scan.lineCounter = false) : ruleScanGrant s = none := by
  have users := Channel.usedBy_move_iff user stays
  unfold ruleScanGrant
  rw [if_pos awaits]
  unfold State.forMove
  rw [State.oldestMove?_eq_none]
  · rfl
  · intro n mem'
    by_contra own
    rw [Bool.not_eq_false, Bool.and_eq_true, users] at own
    rw [State.eq_of_id distinct mem mem' own.1, refuses] at own
    exact absurd own.2 (by decide)

end grants

/-- The boundary of a line to print: the grant of the serving move, with a line in the load stage and no strobe. -/
theorem rulePrintGrant_of_serving {s : State} {m : Move} (serving : s.serving? = some m) :
    rulePrintGrant s = if s.rf.awaitsGrant = true ∧ s.rf.usedBy (.move m.id) = true ∧ s.print.load ≠ .empty
        ∧ s.print.strobe = .idle then some (s.onChannel .rf Channel.beginStrobe).boundaryAtHead else none := by
  unfold rulePrintGrant State.doWhen
  rw [serving]
  simp only [Bool.and_eq_true, bne_iff_ne, beq_iff_eq, and_assoc]

section runs

variable {c : Channel} {x : LineRun} (run : c.run = .line x)
include run

theorem Channel.beginCapture_of_run : c.beginCapture =
    { c with state := .lineRun, run := .line { x with stepsLeft := x.density.steps, waiting := true }.plan } := by
  unfold Channel.beginCapture
  rw [run]

theorem Channel.beginStrobe_of_run : c.beginStrobe =
    { c with
      state := .lineRun
      run := .line { x with stepsLeft := x.density.steps, waiting := true, period := none } } := by
  unfold Channel.beginStrobe
  rw [run]

end runs

/-! ## The clauses of O24 -/

section clauses

variable {s : State} {ch : ChannelId} (held : s.held = false) (awake : s.power.state ≠ .sleep)
  (closed : s.feed.cover.debounced = false)
include held awake closed

theorem State.exec_channelStep_steps {forward : Bool}
    (due : (∃ x : RampRun, (s.channel ch).run = .ramp x ∧ x.forward = forward
        ∧ ((s.channel ch).state = .ramping ∨ (s.channel ch).state = .stopping))
      ∨ ∃ x : LineRun, (s.channel ch).run = .line x ∧ forward = true ∧ x.period ≠ none
        ∧ (s.channel ch).state = .lineRun) :
    ∃ t, exec (.channelStep ch) s = .next t ∧ s.Steps ch forward t := by
  obtain ⟨x, run, way, state⟩ | ⟨x, run, way, period, state⟩ := due
  · have due : (s.channel ch).stepDue = true := by
      unfold Channel.stepDue
      rw [run]
      simpa using state
    exact ⟨_, State.exec_channelStep held awake closed due, State.issueStep_steps (.inl ⟨x, run, way⟩)⟩
  · have due : (s.channel ch).stepDue = true := by
      unfold Channel.stepDue
      rw [run]
      simpa [Option.isSome_iff_ne_none] using And.intro state period
    exact ⟨_, State.exec_channelStep held awake closed due, State.issueStep_steps (.inr ⟨x, run, way⟩)⟩

end clauses

/-- Settles O24. -/
theorem stepMovesOneHalfStep : Obligations.StepMovesOneHalfStep := by
  unfold Obligations.StepMovesOneHalfStep
  refine ⟨fun s ch raised => ?_, fun s ch forward held awake closed due => ?_,
    fun s ch forward held awake closed none => ?_, fun s ch o waits => ?_, fun cfg o c => ?_,
    fun c x gated hold run none => ⟨fun holds stays => ?_, fun runs => ?_⟩,
    fun c d before gated hold waits other => Channel.lineOrder_of_waiting gated hold waits other,
    fun s m x distinct mem holds run gate user stays => ?_, fun s m x serving holds run gate user stays => ?_⟩
  · refine congrArg Host.Outcome.next (if_neg ?_)
    simp [State.coverOpen, raised]
  · obtain ⟨t, stepped, steps⟩ := State.exec_channelStep_steps held awake closed due
    exact ⟨t, stepped, steps.moved.position, steps.moved.phase, steps.others, steps.cfg, steps.inputs, steps.hand,
      steps.parser, steps.link, steps.queue⟩
  · intro cfg c moved comesTo rests passes begins
    have issued : moved = c.issue cfg.invert forward := (Channel.issue_eq ..).symm
    have atRest : rests = moved.enterHolding cfg.holdTime := rfl
    have passed : exec (.channelStep ch) s = .next (s.onChannel ch fun _ => rests.passOn).settle → passes := by
      intro stepped
      refine ⟨fun u rest q => ?_, fun q zero => ?_, fun q pos => ?_⟩
      · exact stepped.trans (by rw [Channel.passOn_of_cons (y := rests) q])
      · exact stepped.trans (by rw [Channel.passOn_of_nil_of_zero (y := rests) q rfl (by simp [rests, zero])])
      · exact stepped.trans (by rw [Channel.passOn_of_nil_of_pos (y := rests) q rfl (by simp [rests, pos])])
    have halted : comesTo rests.settleHolding →
        (c.releasing = false → comesTo rests) ∧ (c.releasing = true → passes) := by
      intro stepped
      refine ⟨fun used => ?_, fun releasing => ?_⟩
      · rwa [Channel.settleHolding_of_used (y := rests) used] at stepped
      · rw [Channel.settleHolding_of_releasing (y := rests) rfl releasing] at stepped
        exact passed stepped
    refine ⟨fun x run state way => ?_, fun x p run state period way => ?_⟩
    · have due : (s.channel ch).stepDue = true := by
        unfold Channel.stepDue
        rw [run]
        simpa using state
      subst way
      refine ⟨fun more => ?_, fun last user => passed ?_⟩
      · have stepped := State.exec_rampStep held awake closed none run due (Nat.ne_of_gt more)
        rw [Channel.stepRamp_of_more (Nat.ne_of_gt more)] at stepped
        rw [issued]
        exact stepped
      · have stepped := State.exec_lastRampStep held awake closed none run due last user
        rw [atRest, issued]
        exact stepped
    · have due : (s.channel ch).stepDue = true := by
        unfold Channel.stepDue
        rw [run]
        simpa [period] using state
      have stepped := State.exec_lineStep held awake closed none run due
      rw [way] at issued
      intro y
      refine ⟨fun stop => halted ?_, fun goes => ⟨fun more => ?_, fun last waits => ?_, fun last done => ?_⟩⟩
      · rw [Channel.stepLine_of_stop stop] at stepped
        rw [atRest, issued]
        exact stepped
      · rw [Channel.stepLine_of_more goes more, LineRun.plan_eq] at stepped
        rw [issued]
        exact stepped
      · rw [Channel.stepLine_of_waiting goes last waits] at stepped
        rw [issued]
        exact stepped
      · rw [Channel.stepLine_of_boundary goes last done] at stepped
        refine ⟨fun ended => halted ?_, fun goesOn => ⟨fun gate => ?_, fun free => ?_⟩⟩
        · rw [Channel.boundary_of_ended (x := { x with stepsLeft := x.stepsLeft - 1, period := .none }) ended] at stepped
          rw [atRest, issued]
          exact stepped
        · rw [Channel.boundary_of_gated (x := { x with stepsLeft := x.stepsLeft - 1, period := .none }) goesOn gate]
            at stepped
          rw [issued]
          exact stepped
        · rw [Channel.boundary_of_ungated (x := { x with stepsLeft := x.stepsLeft - 1, period := .none }) goesOn free
            (show (Channel.issue (s.channelCfg ch).invert true (s.channel ch)).state = .lineRun from state), LineRun.plan_eq, Density.steps_eq] at stepped
          rw [issued]
          exact stepped
  · intro stopped
    have may := State.mayStart_iff (s := s) (ch := ch)
    refine ⟨fun motor closed rest strobe => ?_, fun no => ?_⟩
    · rw [ruleStart_of_some waits, if_pos (may.mpr ⟨motor, closed, rest, strobe⟩)]
    · rw [ruleStart_of_some waits, if_neg]
      intro yes
      obtain ⟨motor, closed, rest, strobe⟩ := may.mp yes
      obtain no | no | no | ⟨rf, no⟩ := no
      · exact no motor
      · simp [closed] at no
      · exact no rest
      · simp [strobe rf] at no
  · cases o with
    | ramp n forward dist => exact ⟨rfl, rfl, rfl, rfl, rfl, fun _ _ _ _ => rfl, nofun, nofun⟩
    | line d gated =>
      cases gated
      · exact ⟨rfl, rfl, rfl, rfl, rfl, nofun, nofun, fun _ _ => rfl⟩
      · exact ⟨rfl, rfl, rfl, rfl, rfl, nofun, fun _ _ => rfl, nofun⟩
  · let begun : LineRun := { x with gated := false, stepsLeft := x.density.steps, waiting := false }
    refine ⟨?_, ⟨begun.plan, ?_, rfl, rfl, rfl, begun.plan_period⟩, ?_⟩
    · rw [Channel.setGating_of_run true none, Channel.gateRun_of_hold true run holds, if_pos rfl]
    · rw [Channel.setGating_of_run false none, Channel.gateRun_of_hold false run holds, if_neg Bool.false_ne_true]
      rfl
    · rw [Channel.endLine_of_run hold none, Channel.endRun_of_hold hold run holds]
      exact Channel.settleHolding_of_used stays
  · let begun : LineRun := { x with waiting := false }
    refine ⟨?_, ?_, fun gate waits period => ?_,
      fun gate waits period => ⟨?_, begun.plan, ?_, rfl, begun.plan_period, rfl⟩, fun other => ?_⟩
    · rw [Channel.setGating_of_run gated none, Channel.gateRun_of_lineRun gated run runs]
    · rw [Channel.endLine_of_run hold none, Channel.endRun_of_lineRun hold run runs]
    · rw [Channel.captureDone_of_waits hold run runs gate waits, if_neg (by simpa using period)]
    · rw [Channel.captureDone_of_waits hold run runs gate waits, if_pos (by simp [period])]
    · rw [Channel.strobeDone_of_waits run runs gate waits]
    · exact ⟨Channel.captureDone_of_not hold run other, Channel.strobeDone_of_not run other⟩
  · have awaits := Channel.awaitsGrant_of holds run gate
    have grants := Move.grantsScan_iff s.scan.lineCounter m
    refine ⟨fun scan running room header blank free counter => ?_, fun no => ?_⟩
    · refine ⟨_, ruleScanGrant_of_grants distinct mem awaits user stays
        (grants.mpr ⟨scan, running, room, header, blank, free, counter⟩), ?_, ?_, ?_, rfl, rfl, rfl⟩
      · exact congrArg Channel.state (Channel.beginCapture_of_run run)
      · exact ⟨_, congrArg Channel.run (Channel.beginCapture_of_run run), rfl, rfl, LineRun.plan_period _⟩
      · have found := State.move?_onMove (s := s) (id := m.id) (f := fun m => { m with granted := some s.freeSlot })
          fun _ => rfl
        rw [State.move?_of_mem distinct mem] at found
        exact found
    · refine ruleScanGrant_of_not distinct mem awaits user stays (Bool.eq_false_iff.mpr fun yes => ?_)
      obtain ⟨-, running, room, header, blank, -⟩ := grants.mp yes
      obtain no | no | no | no := no
      · omega
      · omega
      · omega
      · exact no running
  · have awaits := Channel.awaitsGrant_of holds run gate
    have uses : s.rf.usedBy (.move m.id) = true := (Channel.usedBy_move_iff user stays m.id).mpr rfl
    refine ⟨fun no => ?_, fun loaded idle => ?_⟩
    · rw [rulePrintGrant_of_serving serving, if_neg]
      rintro ⟨-, -, loaded, idle⟩
      exact no.elim loaded fun no => no idle
    · rw [rulePrintGrant_of_serving serving, if_pos ⟨awaits, uses, loaded, idle⟩]
      have begun : s.onChannel .rf Channel.beginStrobe = s.onChannel .rf fun c => { c with
          state := .lineRun
          run := .line { x with stepsLeft := x.density.steps, waiting := true, period := none } } :=
        State.onChannel_eq_of (Channel.beginStrobe_of_run run)
      rw [begun]

end Sys2Proof.Machine
end

section
/-! PROOFS. What the end of a move changes and what it leaves (7.10, R132 to R136): the layer of laws that the events
which fail moves stand on. -/

namespace Sys2Proof.Machine

/-! ## The table of the moves -/

section table

variable {s : State} {id n : Nat} {m : Move} {f : Move → Move}

theorem State.moves_onMove (s : State) (id : Nat) (f : Move → Move) :
    (s.onMove id f).moves = s.moves.map fun m => if m.id = id then f m else m :=
  Path.moves_onMove id f s.path

/-- A change of one record leaves every other one. -/
theorem State.move?_onMove_other (k : ∀ m, (f m).id = m.id) (other : n ≠ id) :
    (s.onMove id f).move? n = s.move? n := by
  unfold State.move?
  rw [State.moves_onMove]
  induction s.moves with
  | nil => rfl
  | cons a l ih =>
    rw [List.map_cons, List.find?_cons, List.find?_cons, ih]
    by_cases own : a.id = id
    · have skip : (a.id == n) = false := beq_false_of_ne fun e => other (e ▸ own)
      rw [if_pos own, k, skip]
    · rw [if_neg own]

/-- A change of one record, seen from any name. -/
theorem State.move?_onMove_ite (k : ∀ m, (f m).id = m.id) (n : Nat) :
    (s.onMove id f).move? n = if n = id then (s.move? n).map f else s.move? n := by
  split
  next own => rw [own, State.move?_onMove k]
  next other => exact State.move?_onMove_other k other

theorem State.mem_moveIds (s : State) (p : Move → Bool) (n : Nat) :
    n ∈ s.moveIds p ↔ ∃ m ∈ s.moves, p m = true ∧ m.id = n := by
  rw [State.moveIds, mem_sortNat, List.mem_map]
  simp only [List.mem_filter, and_assoc]

theorem State.mem_moveIds_of_distinct (distinct : (s.moves.map Move.id).Nodup) (mem : m ∈ s.moves) (p : Move → Bool) :
    m.id ∈ s.moveIds p ↔ p m = true := by
  rw [State.mem_moveIds]
  constructor
  · rintro ⟨n, mem', has, same⟩
    rwa [State.eq_of_id distinct mem mem' same] at has
  · exact fun has => ⟨m, mem, has, rfl⟩

end table

/-! ## The end of one move -/

@[simp] theorem Move.ended_id (o : MoveState) (c : Option MoveCause) (m : Move) : (m.ended o c).id = m.id := rfl

/-- The entry of a move that ends, and its place among those that have ended. -/
def Path.retire (id : Nat) (o : MoveState) (c : Option MoveCause) (p : Path) : Path :=
  { (p.onMove id (Move.ended o c)) with endings := p.endings ++ [id] }

/-- The head, the store and the table once a move has ended: the first part of R132. -/
def State.retire (id : Nat) (m : Move) (o : MoveState) (c : Option MoveCause) (st : Store) (s : State) : State :=
  ((s.onPrint fun p => if m.active && (m.isPrint && m.flowing) then p.stopServing else p).onStore fun _ => st).onPath
    (Path.retire id o c)

theorem State.testAutoDeletes_eq (docs : List Nat) (s : State) :
    ∃ st, docs.foldl (fun s d => s.testAutoDelete d) s = s.onStore fun _ => st := by
  induction docs generalizing s with
  | nil => exact ⟨s.store, rfl⟩
  | cons d docs ih =>
    obtain ⟨st, same⟩ := ih (s.testAutoDelete d)
    exact ⟨st, same⟩

section endMove

variable {s : State} {id : Nat} {m : Move} (o : MoveState) (c : Option MoveCause)

theorem State.stopWork_eq (s : State) (m : Move) : ∃ st, s.stopWork m
    = (s.onPrint fun p => if m.active && (m.isPrint && m.flowing) then p.stopServing else p).onStore fun _ => st := by
  unfold State.stopWork
  cases m.active
  · exact ⟨s.store, rfl⟩
  · cases m.isPrint && m.flowing
    · exact ⟨_, rfl⟩
    · exact ⟨_, rfl⟩

/-- The parts of the end of a live move in their order (R132). -/
theorem State.endMove_of_live (found : s.move? id = some m) (live : m.live = true) : ∃ st,
    s.endMove id o c true = (s.retire id m o c st).reportMoveDone (m.ended o c)
    ∧ s.endMove id o c false
      = (((s.retire id m o c st).giveUpChannels (.move id)).reportMoveDone (m.ended o c)).ejectPartScanned m := by
  obtain ⟨work, stopped⟩ := State.stopWork_eq s m
  obtain ⟨st, tested⟩ := State.testAutoDeletes_eq m.documents
    (((s.stopWork m).onMove id (Move.ended o c)).onPath fun p => { p with endings := p.endings ++ [id] })
  rw [stopped] at tested
  refine ⟨st, ?_, ?_⟩
  · unfold State.endMove
    rw [found]
    simp only [live, if_true, stopped, tested]
    rfl
  · unfold State.endMove
    rw [found]
    simp only [live, if_true, stopped, tested, Bool.false_eq_true, if_false]
    rfl

theorem State.endMove_of_none (absent : s.move? id = none) (r : Bool) : s.endMove id o c r = s := by
  unfold State.endMove
  rw [absent]

theorem State.endMove_of_not_live (found : s.move? id = some m) (ended : m.live = false) (r : Bool) :
    s.endMove id o c r = s := by
  unfold State.endMove
  rw [found]
  simp [ended]

/-- What holds of the state as it is and of the end of a live move holds of the end of a move. -/
theorem State.endMove_cases {P : State → Prop} (r : Bool) (same : P s)
    (ends : ∀ m st, s.move? id = some m → m.live = true →
      P (if r then (s.retire id m o c st).reportMoveDone (m.ended o c)
        else (((s.retire id m o c st).giveUpChannels (.move id)).reportMoveDone (m.ended o c)).ejectPartScanned m)) :
    P (s.endMove id o c r) := by
  cases found : s.move? id with
  | none => rwa [State.endMove_of_none o c found]
  | some m =>
    cases live : m.live with
    | false => rwa [State.endMove_of_not_live o c found live]
    | true =>
      obtain ⟨st, reset, plain⟩ := State.endMove_of_live o c found live
      have ended := ends m st found live
      cases r
      · rwa [plain]
      · rwa [reset]

/-! ### What the last parts leave -/

section eject

variable (s : State) (m : Move)

@[simp] theorem State.ejectPartScanned_path : (s.ejectPartScanned m).path = s.path := by
  unfold State.ejectPartScanned
  split <;> rfl
@[simp] theorem State.ejectPartScanned_scan : (s.ejectPartScanned m).scan = s.scan := by
  unfold State.ejectPartScanned
  split <;> rfl
@[simp] theorem State.ejectPartScanned_print : (s.ejectPartScanned m).print = s.print := by
  unfold State.ejectPartScanned
  split <;> rfl
@[simp] theorem State.ejectPartScanned_power : (s.ejectPartScanned m).power = s.power := by
  unfold State.ejectPartScanned
  split <;> rfl
@[simp] theorem State.ejectPartScanned_store : (s.ejectPartScanned m).store = s.store := by
  unfold State.ejectPartScanned
  split <;> rfl
@[simp] theorem State.ejectPartScanned_channel (ch : ChannelId) :
    (s.ejectPartScanned m).channel ch = s.channel ch := by
  unfold State.ejectPartScanned
  split
  · cases ch <;> rfl
  · rfl

theorem State.ejectPartScanned_of_not (h : s.feed.doc ≠ .scanning) : s.ejectPartScanned m = s :=
  if_neg (by simp [h])

end eject

@[simp] theorem State.reportMoveDone_channel (s : State) (m : Move) (ch : ChannelId) :
    (s.reportMoveDone m).channel ch = s.channel ch := by
  cases ch <;> rfl

theorem State.giveUpChannels_channel (u : User) (s : State) (ch : ChannelId) :
    (s.giveUpChannels u).channel ch = (s.channel ch).giveUp u (s.channelCfg ch).holdTime := by
  cases ch <;> rfl

@[simp] theorem State.retire_channel (s : State) (id : Nat) (m : Move) (st : Store) (ch : ChannelId) :
    (s.retire id m o c st).channel ch = s.channel ch := by
  cases ch <;> rfl

/-! ### The fields of the state at the end of a move -/

variable (r : Bool) (s) (id)

@[simp] theorem State.endMove_scan : (s.endMove id o c r).scan = s.scan := by
  refine State.endMove_cases (P := fun t => t.scan = s.scan) o c r rfl fun m st _ _ => ?_
  cases r
  · simp [State.giveUpChannels, State.reportMoveDone, State.retire]
  · rfl

@[simp] theorem State.endMove_power : (s.endMove id o c r).power = s.power := by
  refine State.endMove_cases (P := fun t => t.power = s.power) o c r rfl fun m st _ _ => ?_
  cases r
  · simp [State.giveUpChannels, State.reportMoveDone, State.retire]
  · rfl

/-- The head drops what the move had there, or stays. -/
theorem State.endMove_print : (s.endMove id o c r).print = s.print ∨ (s.endMove id o c r).print = s.print.stopServing := by
  refine State.endMove_cases (P := fun t => t.print = s.print ∨ t.print = s.print.stopServing) o c r (.inl rfl)
    fun m st _ _ => ?_
  have print : (s.retire id m o c st).print = s.print ∨ (s.retire id m o c st).print = s.print.stopServing := by
    unfold State.retire
    cases m.active && (m.isPrint && m.flowing)
    · exact .inl rfl
    · exact .inr rfl
  cases r
  · simpa [State.giveUpChannels, State.reportMoveDone] using print
  · exact print

/-- The document moves on only under the end of a scan (R55). -/
theorem State.endMove_feed (h : s.feed.doc ≠ .scanning) : (s.endMove id o c r).feed = s.feed := by
  refine State.endMove_cases (P := fun t => t.feed = s.feed) o c r rfl fun m st _ _ => ?_
  cases r
  · rw [if_neg Bool.false_ne_true, State.ejectPartScanned_of_not]
    · simp [State.giveUpChannels, State.reportMoveDone, State.retire]
    · simpa [State.giveUpChannels, State.reportMoveDone, State.retire] using h
  · rfl

/-- A channel is given up by the move, or stays. -/
theorem State.endMove_channel (ch : ChannelId) : ((s.endMove id o c r).channel ch = s.channel ch)
    ∨ (s.endMove id o c r).channel ch = (s.channel ch).giveUp (.move id) (s.channelCfg ch).holdTime := by
  refine State.endMove_cases (P := fun t => t.channel ch = s.channel ch
    ∨ t.channel ch = (s.channel ch).giveUp (.move id) (s.channelCfg ch).holdTime) o c r (.inl rfl) fun m st _ _ => ?_
  cases r
  · right
    rw [if_neg Bool.false_ne_true, State.ejectPartScanned_channel, State.reportMoveDone_channel,
      State.giveUpChannels_channel, State.retire_channel]
    cases ch <;> rfl
  · exact .inl (by rw [if_pos rfl, State.reportMoveDone_channel, State.retire_channel])

/-- The records at the end of a move: its own has ended, every other stays. -/
theorem State.endMove_move? (n : Nat) : (s.endMove id o c r).move? n
    = if n = id then (s.move? n).map fun m => if m.live then m.ended o c else m else s.move? n := by
  cases found : s.move? id with
  | none =>
    rw [State.endMove_of_none o c found]
    split
    next own => rw [own, found]; rfl
    · rfl
  | some m =>
    cases live : m.live with
    | false =>
      rw [State.endMove_of_not_live o c found live]
      split
      next own => rw [own, found]; simp [live]
      · rfl
    | true =>
      have records : ∀ st, (s.retire id m o c st).move? n = (s.onMove id (Move.ended o c)).move? n := fun _ => rfl
      have changed : (s.endMove id o c r).move? n = (s.onMove id (Move.ended o c)).move? n := by
        obtain ⟨st, reset, plain⟩ := State.endMove_of_live o c found live
        cases r
        · rw [plain, State.move?, State.moves, State.ejectPartScanned_path]
          simp only [State.reportMoveDone, State.report_path, State.giveUpChannels, State.onChannel_path]
          exact records st
        · rw [reset]
          exact records st
      rw [changed, State.move?_onMove_ite fun m => Move.ended_id o c m]
      split
      next own => rw [own, found]; simp [live]
      · rfl

theorem State.endMove_leads (ended : ∀ m : Move, (m.ended o c).active = false) : s.Leads (s.endMove id o c r) :=
  ((Follows.refl (w := False) s).endMove id o c r ended).leads

end endMove

/-! ## The failure of every move with a property -/

theorem Channel.giveUp_of_free {c : Channel} (user : c.user = none) (queue : c.queue = []) (u : User) (hold : Nat) :
    c.giveUp u hold = c := by
  unfold Channel.giveUp Channel.withdraw
  rw [if_neg (by simp [user])]
  cases c
  subst queue
  rfl

section failWhere

variable (p : Move → Bool) (cause : MoveCause) (s : State)

/-- What each failure of a move keeps, the failure of them all keeps. -/
theorem State.failWhere_induct {P : State → Prop} (start : P s) (step : ∀ t id, P t → P (t.failMove cause id)) :
    P (s.failWhere p cause) := by
  unfold State.failWhere
  induction s.moveIds p generalizing s with
  | nil => exact start
  | cons id ids ih => exact ih (s.failMove cause id) (step s id start)

@[simp] theorem State.failWhere_scan : (s.failWhere p cause).scan = s.scan :=
  State.failWhere_induct p cause s (P := fun t => t.scan = s.scan) rfl fun t id h =>
    (t.endMove_scan id _ _ _).trans h

@[simp] theorem State.failWhere_power : (s.failWhere p cause).power = s.power :=
  State.failWhere_induct p cause s (P := fun t => t.power = s.power) rfl fun t id h =>
    (t.endMove_power id _ _ _).trans h

/-- A head with nothing in it stays so. -/
theorem State.failWhere_print (h : s.print = ⟨.empty, .idle, .none⟩) :
    (s.failWhere p cause).print = ⟨.empty, .idle, .none⟩ :=
  State.failWhere_induct p cause s (P := fun t => t.print = ⟨.empty, .idle, .none⟩) h fun t id h =>
    (t.endMove_print id _ _ _).elim (fun e => e.trans h) fun e => by
      show (t.failMove cause id).print = _
      rw [State.failMove, e, h]
      rfl

theorem State.failWhere_feed (h : s.feed.doc ≠ .scanning) : (s.failWhere p cause).feed = s.feed := by
  refine (State.failWhere_induct p cause s (P := fun t => t.feed = s.feed) rfl fun t id same => ?_)
  exact (t.endMove_feed id _ _ _ (by rwa [same])).trans same

/-- A channel without user and requester stays as it is. -/
theorem State.failWhere_channel (ch : ChannelId) (user : (s.channel ch).user = none)
    (queue : (s.channel ch).queue = []) : (s.failWhere p cause).channel ch = s.channel ch :=
  State.failWhere_induct p cause s (P := fun t => t.channel ch = s.channel ch) rfl fun t id same =>
    (t.endMove_channel id _ _ _ ch).elim (fun e => e.trans same) fun e =>
      e.trans ((Channel.giveUp_of_free (same ▸ user) (same ▸ queue) _ _).trans same)

theorem Move.ended_failed_not_live (m : Move) (c : Option MoveCause) : (m.ended .failed c).live = false := rfl

theorem State.failMoves_move? (ids : List Nat) (n : Nat) :
    (ids.foldl (fun s id => s.failMove cause id) s).move? n = if n ∈ ids then
      (s.move? n).map fun m => if m.live then m.ended .failed (some cause) else m else s.move? n := by
  induction ids generalizing s with
  | nil => rfl
  | cons id ids ih =>
    rw [List.foldl_cons, ih, State.failMove, State.endMove_move?]
    by_cases own : n = id
    · rw [if_pos own, if_pos (List.mem_cons.mpr (.inl own))]
      split
      · rw [Option.map_map]
        congr 1
        funext m
        simp only [Function.comp]
        cases live : m.live
        · simp [live]
        · simp [Move.ended_failed_not_live]
      · rfl
    · rw [if_neg own]
      simp only [List.mem_cons, own, false_or]

/-- The records when every move with a property has failed. -/
theorem State.failWhere_move? (n : Nat) : (s.failWhere p cause).move? n = if n ∈ s.moveIds p then
    (s.move? n).map fun m => if m.live then m.ended .failed (some cause) else m else s.move? n :=
  State.failMoves_move? cause s (s.moveIds p) n

theorem State.failWhere_leads : s.Leads (s.failWhere p cause) := ((Follows.refl (w := False) s).failWhere p cause).leads

end failWhere

end Sys2Proof.Machine
end

section
/-! PROOFS. The jam of a document (R57), the hold timer and the driver faults of the channels (R40, R41, R60, R133). -/

namespace Sys2Proof.Machine

/-! ## Reports with a place in the queue (R9) -/

theorem Link.report_outbound_of_room {l : Link} (room : l.outbound.length + l.reserved < 16) (few : l.reports < 15)
    (type : Byte) (payload : List Byte) :
    (l.report type payload).outbound = l.outbound ++ [⟨.report, type, 0, payload⟩] := by
  have admitted : l.admits = true := by
    unfold Link.admits
    simpa using ⟨few, room⟩
  unfold Link.report
  rw [if_pos admitted]

/-- A report that has its place stands there whatever follows. -/
theorem State.Leads.report_prefix {s t u : State} {type : Byte} {payload : List Byte}
    (follows : (s.report type payload).Leads t) (same : s.link.outbound = u.link.outbound)
    (hand : s.link.reserved = u.link.reserved)
    (room : u.link.outbound.length + u.link.reserved < 16) (few : u.link.reports < 15) :
    u.link.outbound ++ [⟨.report, type, 0, payload⟩] <+: t.link.outbound := by
  have reports : s.link.reports = u.link.reports := by unfold Link.reports; rw [same]
  have stands := follows.queue
  rw [State.report_link, Link.report_outbound_of_room (by rwa [same, hand]) (by rwa [reports]), same] at stands
  exact stands

/-! ## The jam of a document (R57) -/

section jam

variable (s : State) (cause : DocCause)

theorem State.jam_feed : (s.jam cause).feed = { s.feed with
    doc := if s.entryPresent || s.scanPresent then .jammed else .none
    settle := .stopped
    seq := .none
    tail := none
    tailSkip := false } := by
  unfold State.jam
  dsimp only
  split
  next sheet =>
    have sheet : (s.entryPresent || s.scanPresent) = true := sheet
    rw [sheet]
    rfl
  next clear =>
    have clear : (s.entryPresent || s.scanPresent) = false := Bool.eq_false_iff.mpr clear
    rw [clear]
    rfl

@[simp] theorem State.jam_path : (s.jam cause).path = s.path := by
  unfold State.jam
  dsimp only
  split
  · simp [State.setDoc, State.reportDoc]
  · simp [State.setDoc, State.reportDoc]
@[simp] theorem State.jam_print : (s.jam cause).print = s.print := by
  unfold State.jam
  dsimp only
  split
  · simp [State.setDoc, State.reportDoc]
  · simp [State.setDoc, State.reportDoc]
@[simp] theorem State.jam_scan : (s.jam cause).scan = s.scan := by
  unfold State.jam
  dsimp only
  split
  · simp [State.setDoc, State.reportDoc]
  · simp [State.setDoc, State.reportDoc]
@[simp] theorem State.jam_resetPhase : (s.jam cause).resetPhase = s.resetPhase := by
  unfold State.jam
  dsimp only
  split
  · simp [State.setDoc, State.reportDoc]
  · simp [State.setDoc, State.reportDoc]
@[simp] theorem State.jam_rf : (s.jam cause).rf = s.rf := by
  unfold State.jam
  dsimp only
  split
  · simp [State.setDoc, State.reportDoc]
  · simp [State.setDoc, State.reportDoc]
theorem State.jam_df : (s.jam cause).df = s.df.giveUp .feed s.cfg.df.holdTime := by
  unfold State.jam
  dsimp only
  split
  · simp [State.setDoc, State.reportDoc]
  · simp [State.setDoc, State.reportDoc]

/-- A jam leaves a channel with no user and no requester as it is. -/
theorem State.jam_channel (ch : ChannelId) (user : (s.channel ch).user = none) (queue : (s.channel ch).queue = []) :
    (s.jam cause).channel ch = s.channel ch := by
  cases ch
  · exact (s.jam_df cause).trans (Channel.giveUp_of_free user queue _ _)
  · exact s.jam_rf cause

theorem State.jam_leads : s.Leads (s.jam cause) := ((Follows.refl (w := False) s).jam cause).leads

theorem State.jam_doc_ne : (s.jam cause).feed.doc ≠ .scanning := by
  rw [State.jam_feed]
  dsimp only
  split
  · decide
  · decide

end jam

/-! ## Records under failures -/

section failures

variable {s : State} {p : Move → Bool} {cause : MoveCause} {m : Move} {n : Nat}

theorem State.failWhere_fails (found : s.move? m.id = some m) (has : p m = true) (live : m.live = true) :
    (s.failWhere p cause).move? m.id = some (m.ended .failed (some cause)) := by
  rw [State.failWhere_move?, if_pos ((State.mem_moveIds ..).mpr ⟨m, (State.move?_mem found).1, has, rfl⟩), found]
  simp [live]

theorem State.failWhere_keeps (found : s.move? n = some m)
    (other : m.live = false ∨ ∀ a ∈ s.moves, a.id = n → p a = false) : (s.failWhere p cause).move? n = some m := by
  rw [State.failWhere_move?, found]
  split
  next among =>
    obtain ⟨a, mem, has, same⟩ := (State.mem_moveIds ..).mp among
    have ended : m.live = false := other.resolve_right fun none => by simp [none a mem same] at has
    simp [ended]
  · rfl

end failures

/-! ## A driver fault (R41) -/

/-- A channel has entered FAULT, and MOTOR_FAULT tells it. -/
def State.faultTold (ch : ChannelId) (s : State) : State :=
  ((s.onChannel ch Channel.enterFault).onLink fun l => { l with sticky := l.sticky.channelFault ch }).reportMotorFault ch

theorem State.enterDriverFault_eq (ch : ChannelId) (s : State) : s.enterDriverFault ch
    = (((s.faultTold ch).faultBehind ch (s.channel ch)).failChannelMoves (s.channel ch)).failStartingScan
        s.feed.doc := rfl

section told

variable (ch : ChannelId) (s : State)

@[simp] theorem State.faultTold_feed : (s.faultTold ch).feed = s.feed := by cases ch <;> rfl
@[simp] theorem State.faultTold_path : (s.faultTold ch).path = s.path := by cases ch <;> rfl
@[simp] theorem State.faultTold_print : (s.faultTold ch).print = s.print := by cases ch <;> rfl
@[simp] theorem State.faultTold_resetPhase : (s.faultTold ch).resetPhase = s.resetPhase := by cases ch <;> rfl
theorem State.faultTold_channel : (s.faultTold ch).channel ch = (s.channel ch).enterFault := by cases ch <;> rfl
theorem State.faultTold_other {other : ChannelId} (ne : other ≠ ch) :
    (s.faultTold ch).channel other = s.channel other := by
  cases ch <;> cases other
  · exact absurd rfl ne
  · rfl
  · rfl
  · exact absurd rfl ne

/-- What a block behind a channel does when the channel faults, beside the feed and the head. -/
theorem State.faultBehind_cases (old : Channel) {P : State → Prop} (same : P s) (jams : P (s.jam .motorFault))
    (drops : P (s.onPrint fun p => { p.drop with cut := .none })) : P (s.faultBehind ch old) := by
  unfold State.faultBehind
  split
  · split
    · exact same
    · unfold State.feedMotorFault
      split
      · exact jams
      · exact jams
      · exact jams
      · split
        · exact jams
        · exact same
      · exact same
  · exact drops

theorem State.faultBehind_path (old : Channel) : (s.faultBehind ch old).path = s.path :=
  s.faultBehind_cases ch old (P := fun t => t.path = s.path) rfl (s.jam_path _) rfl

theorem State.faultBehind_channel (old : Channel) (c : ChannelId) (user : (s.channel c).user = none)
    (queue : (s.channel c).queue = []) : (s.faultBehind ch old).channel c = s.channel c :=
  s.faultBehind_cases ch old (P := fun t => t.channel c = s.channel c) rfl (s.jam_channel _ c user queue)
    (by cases c <;> rfl)

/-- The documents that move, or wait for DF, jam with its fault (R60). -/
theorem State.feedMotorFault_eq (queued : Bool) : s.feedMotorFault queued =
    if s.feed.doc = .loading ∨ s.feed.doc = .scanning ∨ s.feed.doc = .ejecting ∨ (s.feed.doc = .settling ∧ queued = true)
    then s.jam .motorFault else s := by
  unfold State.feedMotorFault
  cases doc : s.feed.doc <;> simp

end told

section fault

variable (ch : ChannelId) (s : State)

/-- The blocks behind the channel have acted on its fault. -/
def State.faultActed (ch : ChannelId) (s : State) : State := (s.faultTold ch).faultBehind ch (s.channel ch)

theorem State.faultActed_path : (s.faultActed ch).path = s.path :=
  (State.faultBehind_path ch _ _).trans (s.faultTold_path ch)

theorem State.faultActed_channel : (s.faultActed ch).channel ch = (s.channel ch).enterFault := by
  have told := s.faultTold_channel ch
  exact (State.faultBehind_channel ch _ _ ch (by rw [told]; rfl) (by rw [told]; rfl)).trans told

theorem State.failStartingScan_induct {P : State → Prop} {t : State} (before : DocState) (start : P t)
    (fails : P (t.failWhere Move.scanStarting .docJam)) : P (t.failStartingScan before) := by
  unfold State.failStartingScan
  split
  · exact start
  · exact fails

theorem State.enterDriverFault_channel : (s.enterDriverFault ch).channel ch = (s.channel ch).enterFault := by
  have keeps : ∀ (t : State) (p : Move → Bool) (cause : MoveCause), t.channel ch = (s.channel ch).enterFault →
      (t.failWhere p cause).channel ch = (s.channel ch).enterFault := fun t p cause same =>
    (t.failWhere_channel p cause ch (by rw [same]; rfl) (by rw [same]; rfl)).trans same
  have failed := keeps _ (fun m => (s.channel ch).user == some (.move m.id) || (s.channel ch).queue.contains (.move m.id))
    .motorFault (s.faultActed_channel ch)
  exact State.failStartingScan_induct (P := fun t => t.channel ch = (s.channel ch).enterFault) _ failed
    (keeps _ _ _ failed)

theorem State.enterDriverFault_follows : Follows False (s.faultTold ch) (s.enterDriverFault ch) := by
  have acted : Follows False (s.faultTold ch) (s.faultActed ch) :=
    State.faultBehind_cases ch _ (s.channel ch) (P := Follows False (s.faultTold ch)) (.refl _) ((Follows.refl _).jam _)
      ((Follows.refl _).onPrint _)
  have failed := acted.failWhere
    (fun m => (s.channel ch).user == some (.move m.id) || (s.channel ch).queue.contains (.move m.id)) .motorFault
  exact State.failStartingScan_induct (P := Follows False (s.faultTold ch)) _ failed (failed.failWhere _ _)

/-- The moves that were user or requester of the channel have failed (R133). -/
theorem State.enterDriverFault_fails {m : Move} (found : s.move? m.id = some m) (live : m.live = true)
    (asks : (s.channel ch).user = some (.move m.id) ∨ .move m.id ∈ (s.channel ch).queue) :
    (s.enterDriverFault ch).move? m.id = some (m.ended .failed (some .motorFault)) := by
  have stands : (s.faultActed ch).move? m.id = some m := by
    rw [State.move?, State.moves, State.faultActed_path]
    exact found
  have failed := State.failWhere_fails (cause := .motorFault)
    (p := fun m => (s.channel ch).user == some (.move m.id) || (s.channel ch).queue.contains (.move m.id)) stands
    (by simpa using asks) live
  exact State.failStartingScan_induct (P := fun t => t.move? m.id = some (m.ended .failed (some .motorFault))) _ failed
    (State.failWhere_keeps failed (.inl rfl))

theorem State.enterDriverFault_print : (s.enterDriverFault .rf).print = ⟨.empty, .idle, .none⟩ := by
  have acted : (s.faultActed .rf).print = ⟨.empty, .idle, .none⟩ := rfl
  have failed := State.failWhere_print
    (fun m => (s.channel .rf).user == some (.move m.id) || (s.channel .rf).queue.contains (.move m.id)) .motorFault _ acted
  exact State.failStartingScan_induct (P := fun t => t.print = ⟨.empty, .idle, .none⟩) _ failed
    (State.failWhere_print _ _ _ failed)

/-- The document under a fault of DF (R60). -/
theorem State.enterDriverFault_doc (free : s.feedHeld = false) : (s.enterDriverFault .df).feed.doc =
    if s.feed.doc = .loading ∨ s.feed.doc = .scanning ∨ s.feed.doc = .ejecting
        ∨ (s.feed.doc = .settling ∧ .feed ∈ s.df.queue) then
      (if s.entryPresent || s.scanPresent then .jammed else .none) else s.feed.doc := by
  have acted : s.faultActed .df = (s.faultTold .df).feedMotorFault (s.df.queue.contains .feed) :=
    if_neg (by rw [Bool.not_eq_true]; exact free)
  have feed : (s.enterDriverFault .df).feed = (s.faultActed .df).feed := by
    have still : (s.faultActed .df).feed.doc ≠ .scanning := by
      rw [acted, State.feedMotorFault_eq]
      split
      · exact State.jam_doc_ne _ _
      next none => exact fun scanning => none (.inr (.inl scanning))
    have failed := State.failWhere_feed
      (fun m => (s.channel .df).user == some (.move m.id) || (s.channel .df).queue.contains (.move m.id)) .motorFault _
      still
    exact State.failStartingScan_induct (P := fun t => t.feed = (s.faultActed .df).feed) _ failed
      ((State.failWhere_feed _ _ _ (failed ▸ still)).trans failed)
  rw [feed, acted, State.feedMotorFault_eq, State.faultTold_feed]
  simp only [List.contains_iff_mem]
  split
  · rw [State.jam_feed]
    rfl
  · exact congrArg Feed.doc (s.faultTold_feed .df)

end fault

/-! ## The events of a channel (R40, R41) -/

/-- Settles O27. -/
theorem holdAndDriverFaultEvents : Obligations.HoldAndDriverFaultEvents := by
  unfold Obligations.HoldAndDriverFaultEvents
  intro s ch held awake
  have clocked := State.clocked_of held awake
  have leveled : ∀ active, s.inputs.setFlt ch active
      = if ch = .df then { s.inputs with fltd := active } else { s.inputs with fltr := active } := by
    intro active
    cases ch
    · rfl
    · rfl
  have watched : ∀ active, exec (.driverFault ch active) s
      = .next (State.lookAtFlt ch { s with inputs := s.inputs.setFlt ch active }).settle := fun active =>
    congrArg Host.Outcome.next (if_pos clocked)
  have same : ∀ i : Inputs, State.channel ch { s with inputs := i } = s.channel ch := by
    intro i
    cases ch
    · rfl
    · rfl
  refine ⟨fun runs => ?_, fun sound => ?_, fun active no => ?_⟩
  · exact congrArg Host.Outcome.next (if_pos (by simpa [clocked, Option.isSome_iff_ne_none] using runs))
  · let u : State := { s with inputs := s.inputs.setFlt ch true }
    have entered : State.lookAtFlt ch u = u.enterDriverFault ch := by
      refine if_pos ?_
      rw [same]
      cases ch
      · simpa [State.flt, Inputs.setFlt, u] using sound
      · simpa [State.flt, Inputs.setFlt, u] using sound
    have told := State.enterDriverFault_follows ch u
    have leads := told.leads
    refine ⟨u.enterDriverFault ch, (watched true).trans (by rw [entered]), ?_, ?_, ?_, fun room few => ?_, ?_, ?_,
      fun m mem distinct live asks => ?_, fun rf => ?_, fun df free => ?_⟩
    · exact (State.enterDriverFault_channel ch u).trans (congrArg Channel.enterFault (same _))
    · have sticky := congrArg Kept.sticky ((Follows.report _ 0xE9 [channelCode ch]).trans told).leads.kept
      cases ch
      · exact congrArg Sticky.dfFault sticky
      · exact congrArg Sticky.rfFault sticky
    · exact (congrArg Kept.inputs leads.kept).trans (by rw [← leveled]; cases ch <;> rfl)
    · cases ch
      · exact leads.report_prefix (u := s) rfl rfl room few
      · exact leads.report_prefix (u := s) rfl rfl room few
    · exact (congrArg Kept.cfg leads.kept).trans (by cases ch <;> rfl)
    · exact (congrArg Kept.table leads.kept).trans (by cases ch <;> rfl)
    · have found : u.move? m.id = some m := State.move?_of_mem distinct mem
      exact ⟨_, State.enterDriverFault_fails ch u found live (by rwa [same]), rfl, rfl⟩
    · subst rf
      exact State.enterDriverFault_print u
    · subst df
      have doc := State.enterDriverFault_doc u free
      refine ⟨fun moving => doc.trans ((if_pos moving).trans ?_), fun still => doc.trans (if_neg still)⟩
      simp [State.entryPresent, State.scanPresent, u]
  · rw [watched, leveled]
    refine congrArg (fun t => Host.Outcome.next (State.settle t)) (if_neg ?_)
    rw [same]
    cases ch
    · simpa [State.flt, imp_iff_not_or] using no.symm
    · simpa [State.flt, imp_iff_not_or] using no.symm

end Sys2Proof.Machine
end

section
/-! PROOFS. ABORT_MOVE and MOVE_STATUS with the end of a move (R118, R132 to R135), and the domains' starts and faults
(R168 to R173). -/

namespace Sys2Proof.Machine

/-! ## Giving up a channel (R22) -/

section giveUp

variable {c : Channel} {u : User} {hold : Nat}

theorem Channel.passOn_user (absent : u ∉ c.queue) : c.passOn.user ≠ some u := by
  unfold Channel.passOn
  split
  next v rest q =>
    intro e
    cases e
    exact absent (by simp [q])
  · intro e
    unfold Channel.startHold at e
    split at e
    · split at e
      · cases e
      · cases e
    · cases e

theorem Channel.halt_user (absent : u ∉ c.queue) (releasing : c.releasing = true) :
    ((c.enterHolding hold).settleHolding).user ≠ some u := by
  rw [Channel.settleHolding_of_releasing (y := c.enterHolding hold) rfl releasing]
  exact Channel.passOn_user absent

theorem Channel.stopLine_releasing (absent : u ∉ c.queue) (releasing : c.releasing = true) :
    (c.stopLine hold).user = some u → (c.stopLine hold).releasing = true := by
  unfold Channel.stopLine
  split
  · split
    · exact fun _ => releasing
    · split
      · exact fun user => absurd user (Channel.halt_user absent releasing)
      · exact fun _ => releasing
  · exact fun _ => releasing

theorem Channel.stopRamp_keeps (c : Channel) : c.stopRamp.releasing = c.releasing ∧ c.stopRamp.queue = c.queue := by
  unfold Channel.stopRamp
  split
  · split
    · exact ⟨rfl, rfl⟩
    · exact ⟨rfl, rfl⟩
  · exact ⟨rfl, rfl⟩

/-- A stepping channel whose user ends is released as it stops, or has passed on. -/
theorem Channel.stop_releasing (absent : u ∉ c.queue) (releasing : c.releasing = true) :
    (c.stop hold).user = some u → (c.stop hold).releasing = true := by
  obtain ⟨stays, queue⟩ := Channel.stopRamp_keeps { c with startWaiting := none }
  exact Channel.stopLine_releasing (by rwa [queue]) (stays.trans releasing)

/-- A party that gives up a channel is its user no longer, but for a channel that has still to stop. -/
theorem Channel.giveUp_releasing (sound : c.state ≠ .fault) :
    (c.giveUp u hold).user = some u → (c.giveUp u hold).releasing = true := by
  have absent : u ∉ (c.withdraw u).queue := by simp [Channel.withdraw]
  unfold Channel.giveUp
  split
  · unfold Channel.release
    split
    · exact fun user => absurd user (Channel.passOn_user absent)
    · exact fun user => absurd user (Channel.passOn_user absent)
    next fault => exact absurd fault sound
    · exact Channel.stop_releasing absent rfl
  next other => exact fun user => absurd user other

end giveUp

/-! ## The end of a live move -/

section endMove

variable {s : State} {id : Nat} {m : Move} (o : MoveState) (c : Option MoveCause)

/-- The store at the end of a live move: its work stops, and the documents it held are tested (R132, R159). -/
theorem State.endMove_store (found : s.move? id = some m) (live : m.live = true) (r : Bool) :
    (s.endMove id o c r).store = (m.documents.foldl (fun s d => s.testAutoDelete d)
      (((s.stopWork m).onMove id (Move.ended o c)).onPath fun p => { p with endings := p.endings ++ [id] })).store := by
  unfold State.endMove
  rw [found]
  simp only [live, if_true]
  cases r
  · simp only [Bool.false_eq_true, if_false, State.ejectPartScanned_store, State.reportMoveDone, State.report_store,
      State.giveUpChannels, State.onChannel_store]
  · simp only [if_true, State.reportMoveDone, State.report_store]

theorem State.endMove_endings (found : s.move? id = some m) (live : m.live = true) (r : Bool) :
    (s.endMove id o c r).path.endings = s.path.endings ++ [id] := by
  obtain ⟨st, reset, plain⟩ := State.endMove_of_live o c found live
  cases r
  · rw [plain]
    simp only [State.ejectPartScanned_path, State.reportMoveDone, State.report_path, State.giveUpChannels,
      State.onChannel_path]
    rfl
  · rw [reset]
    rfl

/-- The channels are given up by the move that ends, outside RESET (R132). -/
theorem State.endMove_channel_of_live (found : s.move? id = some m) (live : m.live = true) (ch : ChannelId) :
    (s.endMove id o c false).channel ch = (s.channel ch).giveUp (.move id) (s.channelCfg ch).holdTime := by
  obtain ⟨st, -, plain⟩ := State.endMove_of_live o c found live
  rw [plain, State.ejectPartScanned_channel, State.reportMoveDone_channel, State.giveUpChannels_channel,
    State.retire_channel]
  cases ch <;> rfl

/-- MOVE_DONE carries the record at its end (R132, R136). -/
theorem State.endMove_tells (found : s.move? id = some m) (live : m.live = true)
    (room : s.link.outbound.length + s.link.reserved < 16) (few : s.link.reports < 15) :
    s.link.outbound ++ [⟨.report, 0xE1, 0, moveRecord (m.ended o c)⟩]
      <+: (s.endMove id o c false).link.outbound := by
  obtain ⟨st, -, plain⟩ := State.endMove_of_live o c found live
  have link : ((s.retire id m o c st).giveUpChannels (.move id)).link = s.link := by
    simp only [State.giveUpChannels, State.onChannel_link]
    rfl
  rw [plain]
  exact ((Follows.refl (w := False) _).ejectPartScanned m).leads.report_prefix (by rw [link]) (by rw [link]) room few

/-- An OPEN document is not deleted by the test (R159). -/
theorem Store.testAutoDelete_of_open {st : Store} {doc : Nat} {referenced : Bool}
    (unclosed : ∀ d, st.doc? doc = some d → d.closed = false) : st.testAutoDelete doc referenced = st := by
  unfold Store.testAutoDelete
  split
  · rfl
  next d named => exact if_neg (by simp [Document.autoDeletes, unclosed d named])

theorem Move.documents_of_not_store {m : Move} (own : m.isStoreSource = false) : m.documents = m.sinkDoc?.toList := by
  unfold Move.documents
  unfold Move.isStoreSource at own
  cases source : m.source with
  | scan d limit => exact List.append_nil _
  | linkIn w d => exact List.append_nil _
  | store d first count =>
    rw [source] at own
    contradiction

/-- A move that ends in PENDING leaves the store (R134, log 72). -/
theorem State.endMove_store_of_pending (found : s.move? id = some m) (pending : m.state = .pending) {doc : Nat}
    {cls : DocClass} {auto closes : Bool} (sink : m.sink = .store doc cls auto closes) (own : m.isStoreSource = false)
    (unclosed : ∀ d, s.store.doc? doc = some d → d.closed = false) (r : Bool) :
    (s.endMove id o c r).store = s.store := by
  have idle : s.stopWork m = s := if_neg (by simp [Move.active, pending])
  have docs : m.documents = if doc = 0 then [] else [doc] := by
    rw [Move.documents_of_not_store own, Move.sinkDoc?, sink]
    dsimp only
    split
    · rfl
    · rfl
  rw [State.endMove_store o c found (by simp [Move.live, pending]), idle, docs]
  split
  · rfl
  · exact Store.testAutoDelete_of_open unclosed

end endMove

/-! ## ABORT_MOVE and MOVE_STATUS (R134, R135) -/

section answers

variable {s : State} {num rsv : Byte} {m : Move}

theorem answerAbortMove_of_none (absent : s.moveNumbered? num.toNat = none) :
    answerAbortMove num rsv s = .refuse .noSuchMove := by
  unfold answerAbortMove
  rw [absent]

theorem answerMoveStatus_of_none (absent : s.moveNumbered? num.toNat = none) :
    answerMoveStatus num rsv s = .refuse .noSuchMove := by
  unfold answerMoveStatus
  rw [absent]

theorem answerAbortMove_of_some (named : s.moveNumbered? num.toNat = some m) : answerAbortMove num rsv s =
    if rsv ≠ 0 then .refuse .badValue
    else if m.live then .ok [] fun s => (s.endMove m.id .aborted none false).settle else .refuse .moveEnded := by
  unfold answerAbortMove
  rw [named]

theorem answerMoveStatus_of_some (named : s.moveNumbered? num.toNat = some m) : answerMoveStatus num rsv s =
    if rsv ≠ 0 then .refuse .badValue
    else .ok (moveRecord m) fun s => if m.live then s else s.onPath (Path.clear m.id) := by
  unfold answerMoveStatus
  rw [named]

end answers

/-- The entry of one move, emptied (R118). -/
theorem Path.clear_table (id : Nat) (p : Path) : (p.clear id).table
    = p.table.map fun e => if e.map Move.id = some id then none else e := by
  unfold Path.clear
  refine List.map_congr_left fun e _ => ?_
  cases e with
  | none => rfl
  | some m =>
    by_cases own : m.id = id
    · simp [own]
    · simp [own]

/-- Settles O45. -/
theorem abortAndStatus : Obligations.AbortAndStatus := by
  unfold Obligations.AbortAndStatus
  refine ⟨fun s tag num rsv hs => ?_, fun s id m outcome cause found => ?_⟩
  · let abort : Instr := .abortMove tag num rsv
    let status : Instr := .moveStatus tag num rsv
    refine ⟨fun absent => ⟨?_, ?_⟩, fun m named => ⟨fun bad => ⟨?_, ?_⟩, fun zero => ⟨fun ended => ?_, fun live => ?_, ?_⟩⟩⟩
    · exact hs.refuses abort rfl trivial (answerAbortMove_of_none absent)
    · exact hs.refuses status rfl trivial (answerMoveStatus_of_none absent)
    · exact hs.refuses abort rfl trivial ((answerAbortMove_of_some named).trans (if_pos bad))
    · exact hs.refuses status rfl trivial ((answerMoveStatus_of_some named).trans (if_pos bad))
    · exact hs.refuses abort rfl trivial ((answerAbortMove_of_some named).trans
        ((if_neg (not_not.mpr zero)).trans (if_neg (by simp [ended]))))
    · exact hs.answers abort rfl trivial ((answerAbortMove_of_some named).trans
        ((if_neg (not_not.mpr zero)).trans (if_pos live)))
    · have answered := hs.answers status rfl trivial
        ((answerMoveStatus_of_some named).trans (if_neg (not_not.mpr zero)))
      refine answered.trans (congrArg Host.Outcome.next ?_)
      dsimp only
      split
      · rfl
      · refine congrArg (fun p => { s.replied 0x52 tag (0x00 :: moveRecord m) with path := p }) ?_
        show Path.clear m.id s.path = _
        rw [← Path.clear_table]
        rfl
  · refine ⟨fun ended => State.endMove_of_not_live _ _ found ended _,
      fun doc cls auto closes r pending sink own unclosed =>
        State.endMove_store_of_pending _ _ found pending sink own unclosed r, fun live out => ?_⟩
    have inactive : ∀ m : Move, (m.ended outcome cause).active = false := by
      intro m
      obtain rfl | rfl | rfl := out
      · rfl
      · rfl
      · rfl
    have leads := State.endMove_leads (s := s) (id := id) outcome cause false inactive
    refine ⟨?_, State.endMove_endings _ _ found live _, fun ch sound => ?_, congrArg Kept.cfg leads.kept,
      congrArg Kept.dfPosition leads.kept, congrArg Kept.rfPosition leads.kept, fun room few => ?_⟩
    · rw [State.endMove_move?, if_pos rfl, found]
      simp only [Option.map_some, live, if_true]
      rfl
    · rw [State.endMove_channel_of_live _ _ found live]
      exact Channel.giveUp_releasing sound
    · exact State.endMove_tells _ _ found live room few

/-! ## A domain in FAULT (R173) -/

section domainFault

variable (d : DomainId) (after : Power) (s : State)

/-- The domain stands in FAULT and is told, and the head and a shading run have acted; the moves have not. -/
def State.domainTold (d : DomainId) (after : Power) (s : State) : State :=
  let s := s.onPower fun p => (p.setDomain d .fault).follow
  let s := if d = .print then s.onPrint Print.drop else s
  let s := s.reportPowerOf after (.domainFault d)
  if d = .scan ∧ s.scan.shading.isWaiting then s.endShading .domainFault else s

theorem State.faultDomain_eq : s.faultDomain d after
    = (s.domainTold d after).failWhere (Move.needs d) .domainFault := rfl

theorem State.domainTold_power : (s.domainTold d after).power = (s.power.setDomain d .fault).follow := by
  unfold State.domainTold
  dsimp only
  split
  · split
    · rfl
    · rfl
  · split
    · rfl
    · rfl

theorem State.domainTold_path : (s.domainTold d after).path = s.path := by
  unfold State.domainTold
  dsimp only
  split
  · split
    · rfl
    · rfl
  · split
    · rfl
    · rfl

theorem State.domainTold_head : (s.domainTold .print after).print = s.print.drop := by
  unfold State.domainTold
  dsimp only
  rw [if_neg (show ¬(DomainId.print = .scan ∧ _) from fun k => nomatch k.1)]
  rfl

theorem Link.answerLate_grows (p : List Byte) (l : Link) : l.outbound <+: (l.answerLate p).outbound := by
  unfold Link.answerLate
  split
  · split
    · unfold Link.answer Link.complete
      rw [Link.take_eq]
      exact List.prefix_append _ _
    · exact List.prefix_refl _
  · exact List.prefix_refl _

/-- The report of the fault stands in its place, before the reply of a SHADE that the fault ends (log 56). -/
theorem State.domainTold_tells (room : s.link.outbound.length + s.link.reserved < 16) (few : s.link.reports < 15) :
    s.link.outbound ++ [⟨.report, 0xE6, 0, [1, after.state.code, after.scan.code, after.print.code, after.motor.code, 0,
      d.code]⟩] <+: (s.domainTold d after).link.outbound := by
  have told : (s.link.report 0xE6 [1, after.state.code, after.scan.code, after.print.code, after.motor.code, 0,
      d.code]).outbound <+: (s.domainTold d after).link.outbound := by
    unfold State.domainTold
    dsimp only
    split
    · split
      · exact Link.answerLate_grows _ _
      · exact List.prefix_refl _
    · split
      · exact Link.answerLate_grows _ _
      · exact List.prefix_refl _
  rwa [Link.report_outbound_of_room room few] at told

/-- A head with nothing loaded and no strobe stays so under failures of moves. -/
theorem State.failWhere_head (p : Move → Bool) (cause : MoveCause) (h : s.print.load = .empty ∧ s.print.strobe = .idle) :
    (s.failWhere p cause).print.load = .empty ∧ (s.failWhere p cause).print.strobe = .idle :=
  State.failWhere_induct p cause s (P := fun t => t.print.load = .empty ∧ t.print.strobe = .idle) h fun t id held => by
    obtain same | stops := t.endMove_print id .failed (some cause) false
    · rwa [State.failMove, same]
    · rw [State.failMove, stops]
      exact ⟨rfl, by simp [Print.stopServing, held.2]⟩

theorem State.faultDomain_power : (s.faultDomain d after).power = (s.power.setDomain d .fault).follow :=
  (State.failWhere_power _ _ _).trans (s.domainTold_power d after)

theorem Power.follow_of_awake {p : Power} (awake : p.state ≠ .sleep) : p.follow = { p with state := p.computed } :=
  if_neg awake

theorem Power.setDomain_state (x : DomainState) (p : Power) : (p.setDomain d x).state = p.state := by
  cases d <;> rfl

theorem Power.domain_setDomain (x : DomainState) (p : Power) : (p.setDomain d x).domain d = x := by
  cases d <;> rfl

theorem Power.domain_follow (p : Power) : p.follow.domain d = p.domain d := by
  unfold Power.follow
  split
  · rfl
  · cases d <;> rfl

theorem Move.live_of_needs {m : Move} {d : DomainId} (needs : m.needs d = true) : m.live = true := by
  unfold Move.needs Move.active at needs
  unfold Move.live
  simp only [Bool.and_eq_true, Bool.or_eq_true] at needs ⊢
  tauto

theorem State.faultDomain_leads : (s.domainTold d after).Leads (s.faultDomain d after) := State.failWhere_leads _ _ _

end domainFault

/-- Settles O56. -/
theorem domainEvents : Obligations.DomainEvents := by
  unfold Obligations.DomainEvents
  refine ⟨fun s held awake => ?_, fun s d awake => ?_⟩
  · have clocked := State.clocked_of held awake
    refine ⟨fun reading starting => ?_, fun active => ?_, fun starting => ?_, fun starting => ?_⟩
    · refine congrArg Host.Outcome.next ((if_pos (by simp [clocked, starting])).trans ?_)
      have lit : s.lampLit reading = decide (s.cfg.scan.black <
          if s.cfg.scan.invert then 63 - reading.toNat else reading.toNat) := rfl
      dsimp only
      rw [lit]
      generalize (if s.cfg.scan.invert then 63 - reading.toNat else reading.toNat) = v
      simp only [decide_eq_true_eq]
      split
      · rfl
      · rfl
    · refine congrArg Host.Outcome.next ((if_pos clocked).trans ?_)
      show (State.hpgSeen active { s with inputs := { s.inputs with hpg := active } }).settle = _
      unfold State.hpgSeen
      cases active with
      | true =>
        simp only [if_true, true_and, Bool.true_eq_false, false_and, if_false]
        split
        · rfl
        · rfl
      | false =>
        simp only [Bool.false_eq_true, if_false, false_and, true_and]
        split
        · rfl
        · rfl
    · exact congrArg Host.Outcome.next (if_pos (by simp [clocked, starting]))
    · exact congrArg Host.Outcome.next (if_pos (by simp [clocked, starting]))
  · have power := s.faultDomain_power d (s.faultDomain d s.power).settle.power
    have told : ∀ id m, s.move? id = some m →
        (s.domainTold d (s.faultDomain d s.power).settle.power).move? id = some m := by
      intro id m found
      rw [State.move?, State.moves, State.domainTold_path]
      exact found
    have shape : s.domainFault d = (s.domainTold d (s.faultDomain d s.power).settle.power).failWhere (Move.needs d)
        .domainFault := rfl
    dsimp only
    rw [shape]
    refine ⟨?_, fun id m found needs => ?_, fun id m found other => ?_, fun print => ?_, fun room few => ?_, fun settled => ?_⟩
    · rw [← State.faultDomain_eq, power, Power.domain_follow, Power.domain_setDomain]
    · obtain ⟨-, rfl⟩ := State.move?_mem found
      exact ⟨_, State.failWhere_fails (told _ _ found) needs (Move.live_of_needs needs), rfl, rfl⟩
    · refine State.failWhere_keeps (told _ _ found) (.inr fun a mem same => other a ?_ same)
      rwa [State.moves, State.domainTold_path] at mem
    · subst print
      refine State.failWhere_head _ _ _ ?_
      rw [State.domainTold_head]
      exact ⟨rfl, rfl⟩
    · exact (State.domainTold_tells d _ s room few).trans (State.faultDomain_leads d _ s).queue
    · rw [State.settle_of_settled _ settled, State.faultDomain_power, Power.follow_of_awake]
      rwa [Power.setDomain_state]

end Sys2Proof.Machine
end

section
/-! PROOFS. SET_FEED, EJECT, SET_SCAN and SET_PRINT (R61, R62, R75, R95). -/

namespace Sys2Proof.Machine

/-! ## SET_FEED (R44, R45, R62) -/

theorem Sensor.retime_eq (debounce : Nat) (x : Sensor) :
    x.retime debounce = { x with timer :=
      if x.known = false ∨ x.reading = x.debounced then none
      else if x.timer.isSome then x.timer else some debounce } := by
  unfold Sensor.retime
  split
  · rfl
  · split
    · rfl
    · rfl

/-- The sensor after its asserted reading has been formed (R44, R45). -/
theorem State.formReadings_eq (s : State) :
    s.formReadings = { s with feed := { s.feed with
      docEntry := { s.feed.docEntry with reading := s.inputs.sne != s.cfg.feed.docEntry.polarity }.retime
        s.cfg.feed.docEntry.debounce
      docScan := { s.feed.docScan with reading := s.inputs.sns != s.cfg.feed.docScan.polarity }.retime
        s.cfg.feed.docScan.debounce
      paper := { s.feed.paper with reading := s.inputs.snp != s.cfg.feed.paper.polarity }.retime
        s.cfg.feed.paper.debounce
      cover := { s.feed.cover with reading := s.inputs.snc != s.cfg.feed.cover.polarity }.retime
        s.cfg.feed.cover.debounce } } := rfl

section answers

/-- What SET_FEED refuses with BAD_VALUE. -/
abbrev FeedRefused (pE pS pP pC dE dS dP dC rsv : Byte) (preload offset distance : Word16) : Prop :=
  1 < pE.toNat ∨ 1 < pS.toNat ∨ 1 < pP.toNat ∨ 1 < pC.toNat ∨ dE.toNat = 0 ∨ dS.toNat = 0
    ∨ dP.toNat = 0 ∨ dC.toNat = 0 ∨ preload.toNat = 0 ∨ distance.toNat = 0 ∨ 1023 < offset.toNat ∨ rsv ≠ 0

variable {pE pS pP pC dE dS dP dC settle rsv : Byte} {preload offset distance : Word16}

theorem answerSetFeed_refused (bad : FeedRefused pE pS pP pC dE dS dP dC rsv preload offset distance) :
    answerSetFeed pE pS pP pC dE dS dP dC settle rsv preload offset distance = .refuse .badValue := by
  unfold answerSetFeed
  split
  next a b c d hE hS hP hC =>
    have mark {p : Byte} {v : Bool} (h : markOf p = some v) : ¬1 < p.toNat := fun k => by simp [markOf_eq_none k] at h
    exact if_pos ((((bad.resolve_left (mark hE)).resolve_left (mark hS)).resolve_left (mark hP)).resolve_left (mark hC))
  · rfl

theorem answerSetFeed_taken (good : ¬FeedRefused pE pS pP pC dE dS dP dC rsv preload offset distance) :
    answerSetFeed pE pS pP pC dE dS dP dC settle rsv preload offset distance = .ok [] (State.setFeed
      ⟨⟨pE == 1, dE.toNat⟩, ⟨pS == 1, dS.toNat⟩, ⟨pP == 1, dP.toNat⟩, ⟨pC == 1, dC.toNat⟩,
        settle.toNat, preload.toNat, offset.toNat, distance.toNat⟩) := by
  rw [FeedRefused, not_or, not_or, not_or, not_or] at good
  obtain ⟨hE, hS, hP, hC, rest⟩ := good
  unfold answerSetFeed
  rw [markOf_eq_some (by omega), markOf_eq_some (by omega), markOf_eq_some (by omega), markOf_eq_some (by omega)]
  exact if_neg rest

end answers

/-- Settles O28. -/
theorem setFeedReplaces : Obligations.SetFeedReplaces := by
  unfold Obligations.SetFeedReplaces
  intro s tag pE pS pP pC dE dS dP dC settle rsv preload offset distance hs
  let i : Instr := .setFeed tag pE pS pP pC dE dS dP dC settle rsv preload offset distance
  split
  next bad => exact hs.refuses i rfl trivial (answerSetFeed_refused bad)
  next good =>
    refine (hs.answers i rfl trivial (answerSetFeed_taken good)).trans (congrArg Host.Outcome.next ?_)
    unfold State.setFeed
    rw [State.formReadings_eq]
    simp only [Sensor.retime_eq]
    rfl

/-! ## EJECT (R61) -/

/-- The answer to EJECT by the document state. -/
theorem answerEject_eq (rsv : Byte) (s : State) :
    answerEject rsv s = if rsv ≠ 0 then .refuse .badValue
      else if s.scanBusy then .refuse .inUse
      else if s.feed.doc = .none ∨ s.feed.doc = .jammed then .refuse .notLoaded
      else if s.feed.doc ≠ .loaded ∨ s.feed.cover.debounced = true ∨ s.df.state = .fault then .refuse .busy
      else .ok [] fun s => (s.setDoc .ejecting .command 0).settle := by
  unfold answerEject
  generalize (fun s : State => (s.setDoc .ejecting .command 0).settle) = eject
  cases doc : s.feed.doc with
  | none | jammed => simp
  | loaded =>
    simp only [State.coverOpen, ne_eq, not_true_eq_false, false_or, reduceCtorEq, or_self, if_false]
    rfl
  | settling | loading | scanning | ejecting => simp

/-- Settles O29. -/
theorem ejectByCases : Obligations.EjectByCases := by
  unfold Obligations.EjectByCases
  intro s tag rsv hs
  let i : Instr := .eject tag rsv
  have answer : answerEject rsv (s.inHand ⟨0x37, tag, [rsv]⟩) = _ := answerEject_eq rsv _
  split_ifs with bad busy gone stands
  · exact hs.refuses i rfl trivial (answer.trans (if_pos bad))
  · exact hs.refuses i rfl trivial (answer.trans ((if_neg bad).trans (if_pos busy)))
  · exact hs.refuses i rfl trivial (answer.trans ((if_neg bad).trans ((if_neg busy).trans (if_pos gone))))
  · exact hs.refuses i rfl trivial
      (answer.trans ((if_neg bad).trans ((if_neg busy).trans ((if_neg gone).trans (if_pos stands)))))
  · exact hs.answers i rfl trivial
      (answer.trans ((if_neg bad).trans ((if_neg busy).trans ((if_neg gone).trans (if_neg stands)))))

/-! ## SET_SCAN and SET_PRINT (R75, R95) -/

/-- What SET_SCAN refuses with BAD_VALUE. -/
abbrev ScanRefused (mode t b inv : Byte) (exposure rsv : Word16) : Prop :=
  1 < mode.toNat ∨ 1 < inv.toNat ∨ t.toNat = 0 ∨ 63 < t.toNat ∨ 31 < b.toNat
    ∨ exposure.toNat < 1000 ∨ 40000 < exposure.toNat ∨ rsv ≠ 0

theorem answerSetScan_refused {mode t b inv : Byte} {exposure rsv : Word16}
    (bad : ScanRefused mode t b inv exposure rsv) (s : State) :
    answerSetScan mode t b inv exposure rsv s = .refuse .badValue := by
  unfold answerSetScan
  split
  next half i hm hi =>
    have mark {p : Byte} {v : Bool} (h : markOf p = some v) : ¬1 < p.toNat := fun k => by simp [markOf_eq_none k] at h
    exact if_pos ((bad.resolve_left (mark hm)).resolve_left (mark hi))
  · rfl

theorem answerSetScan_taken {mode t b inv : Byte} {exposure rsv : Word16}
    (good : ¬ScanRefused mode t b inv exposure rsv) (s : State) :
    answerSetScan mode t b inv exposure rsv s = if s.scanBusy then .refuse .inUse else .ok [] fun s =>
      { s with cfg := { s.cfg with scan := ⟨mode == 1, t.toNat, b.toNat, inv == 1, exposure.toNat⟩ } } := by
  rw [ScanRefused, not_or, not_or] at good
  obtain ⟨hm, hi, rest⟩ := good
  unfold answerSetScan
  rw [markOf_eq_some (by omega), markOf_eq_some (by omega)]
  exact if_neg rest

/-- Settles O32. -/
theorem scanAndPrintSettingsReplace : Obligations.ScanAndPrintSettingsReplace := by
  unfold Obligations.ScanAndPrintSettingsReplace
  refine ⟨fun s tag mode t b inv exposure rsv hs => ?_, fun s tag ts tg m margin pulse rsv hs => ?_⟩
  · let i : Instr := .setScan tag mode t b inv exposure rsv
    split_ifs with bad busy
    · exact hs.refuses i rfl trivial (answerSetScan_refused bad _)
    · exact hs.refuses i rfl trivial ((answerSetScan_taken bad _).trans (if_pos busy))
    · exact hs.answers i rfl trivial ((answerSetScan_taken bad _).trans (if_neg busy))
  · let i : Instr := .setPrint tag ts tg m margin pulse rsv
    split_ifs with bad busy
    · exact hs.refuses i rfl trivial (r := .badValue) (if_pos bad)
    · exact hs.refuses i rfl trivial (r := .inUse) ((if_neg bad).trans (if_pos busy))
    · exact hs.answers i rfl trivial ((if_neg bad).trans (if_neg busy))

end Sys2Proof.Machine
end

section
/-! PROOFS. Power control: the commands, the needs, and the lines with a domain OFF (R169 to R180). -/

namespace Sys2Proof.Machine

/-! ## The idle timer afresh (R177, R179) -/

/-- Outside SLEEP and a sleep entry the idle timer starts from the full idle time, or stands. -/
theorem State.restartIdle_of_awake {s : State} (awake : s.power.state ≠ .sleep) (entry : s.power.entry = .none) :
    s.restartIdle = { s with power := { s.power with idleTimer :=
      if s.idle = true ∧ s.cfg.power.idleTime ≠ 0 then .running s.cfg.power.idleTime else .stopped } } := by
  have timer : (s.onPower fun p => { p with idleTimer := .stopped }).idleTimerNow
      = if s.idle = true ∧ s.cfg.power.idleTime ≠ 0 then .running s.cfg.power.idleTime else .stopped := by
    have idle : (s.onPower fun p => { p with idleTimer := .stopped }).idle = s.idle := rfl
    unfold State.idleTimerNow
    rw [idle]
    by_cases h : s.idle = true ∧ s.cfg.power.idleTime ≠ 0
    · obtain ⟨idling, time⟩ := h
      simp [awake, entry, idling, time]
    · rw [if_neg h, if_pos]
      rw [not_and_or, not_not] at h
      obtain h | h := h
      · simp [h]
      · simp [h]
  exact congrArg (fun x => { s with power := { s.power with idleTimer := x } }) timer

/-! ## The commands (R175, R179) -/

section domains

variable {s : State}

theorem domainOf_eq_none {b : Byte} (h : 2 < b.toNat) : domainOf b = none := by
  unfold domainOf
  split
  · omega
  · omega
  · omega
  · rfl

theorem domainOf_eq_some {b : Byte} (h : ¬2 < b.toNat) :
    domainOf b = some (if b = 0 then .scan else if b = 1 then .print else .motor) := by
  obtain rfl | rfl | rfl : b = 0 ∨ b = 1 ∨ b = 2 := by bv_omega
  · rfl
  · rfl
  · rfl

/-- What DOMAIN refuses with BAD_VALUE. -/
abbrev DomainRefused (dom action rsv : Byte) : Prop := 2 < dom.toNat ∨ 1 < action.toNat ∨ rsv ≠ 0

theorem answerDomain_refused {dom action rsv : Byte} (bad : DomainRefused dom action rsv) :
    answerDomain dom action rsv s = .refuse .badValue := by
  unfold answerDomain
  split
  next d on hd ho =>
    refine if_pos ((bad.resolve_left fun k => ?_).resolve_left fun k => ?_)
    · simp [domainOf_eq_none k] at hd
    · simp [markOf_eq_none k] at ho
  · rfl

theorem answerDomain_taken {dom action rsv : Byte} (good : ¬DomainRefused dom action rsv) :
    answerDomain dom action rsv s
      = let d : DomainId := if dom = 0 then .scan else if dom = 1 then .print else .motor
        if s.needed d then .refuse .inUse
        else if action = 1 then .ok [(shownAfterOn (s.power.domain d)).code] (State.domainOn d)
        else .ok [0] (State.domainOffCommand d) := by
  simp only [DomainRefused, not_or, not_not] at good
  obtain ⟨hd, ha, hr⟩ := good
  unfold answerDomain
  rw [domainOf_eq_some hd, markOf_eq_some (by omega)]
  refine (if_neg (not_not.mpr hr)).trans ?_
  simp only [beq_iff_eq]
  rfl

/-- DOMAIN ON by the state of the domain: what the reply shows, and what follows. -/
theorem State.domainOn_cases (d : DomainId) (s : State) :
    (s.power.domain d = .on → shownAfterOn (s.power.domain d) = .on ∧ s.domainOn d = s)
    ∧ (s.power.domain d = .starting → shownAfterOn (s.power.domain d) = .starting ∧ s.domainOn d = s)
    ∧ (s.power.domain d ≠ .on → s.power.domain d ≠ .starting →
      shownAfterOn (s.power.domain d) = .starting ∧ s.domainOn d = (s.startDomain d).settle) := by
  unfold State.domainOn
  cases s.power.domain d with
  | off | starting | on | fault => simp [shownAfterOn]

end domains

/-! ## The needs (R169) -/

theorem State.scanBusy_iff (s : State) : s.scanBusy = true ↔ ∃ m ∈ s.moves, m.isScan = true ∧ m.active = true := by
  simp [State.scanBusy]

theorem State.printBusy_iff (s : State) : s.printBusy = true ↔ ∃ m ∈ s.moves, m.isPrint = true ∧ m.active = true := by
  simp [State.printBusy]

theorem State.needed_motor_iff (s : State) : s.needed .motor = true
    ↔ (∃ m ∈ s.moves, (m.isScan = true ∨ m.isPrint = true) ∧ m.active = true) ∨ s.df.user ≠ none ∨ s.rf.user ≠ none := by
  have busy : (s.scanBusy = true ∨ s.printBusy = true)
      ↔ ∃ m ∈ s.moves, (m.isScan = true ∨ m.isPrint = true) ∧ m.active = true := by
    simp only [State.scanBusy_iff, State.printBusy_iff, or_and_right, and_or_left, exists_or]
  have users : s.needed .motor = true
      ↔ (s.scanBusy = true ∨ s.printBusy = true) ∨ s.df.user.isSome = true ∨ s.rf.user.isSome = true := by
    simp only [State.needed, Bool.or_eq_true, or_assoc]
  rw [users, busy, Option.isSome_iff_ne_none, Option.isSome_iff_ne_none]

/-! ## A domain in OFF or FAULT (R74, R96, R168, R174) -/

/-- A domain that is neither STARTING nor ON feeds nothing. -/
theorem State.enable_of_unfed {s : State} {d : DomainId} (h : s.power.domain d = .off ∨ s.power.domain d = .fault) :
    s.enable d = false := by
  unfold State.enable
  obtain h | h := h
  · simp [h]
  · simp [h]

theorem State.headData_of_unfed {s : State} (unfed : s.enable .print = false) : s.headData = none := by
  unfold State.headData
  split
  · rw [unfed]
    rfl
  · rfl

/-- MOTOR OFF ends a hold, and leaves where the channels stand (R174). -/
theorem State.domainOff_motor_channel (ch : ChannelId) (s : State) :
    (s.domainOff .motor).channel ch = (s.channel ch).motorOff := by
  cases ch
  · rfl
  · rfl

theorem Channel.motorOff_of_holding {c : Channel} (h : c.state = .holding) : c.motorOff.state = .idle := by
  rw [Channel.motorOff, if_pos h]

theorem Channel.motorOff_position (c : Channel) : c.motorOff.position = c.position := by
  unfold Channel.motorOff
  split
  · rfl
  · rfl

/-- Settles O55. -/
theorem powerCommandsByCases : Obligations.PowerCommandsByCases := by
  unfold Obligations.PowerCommandsByCases
  refine ⟨fun s tag idle auto warm rsv hs => ?_, fun s tag dom action rsv hs => ?_, fun s => ?_, fun s d => ?_,
    fun s => ?_, fun s => ⟨?_, s.printBusy_iff, s.needed_motor_iff⟩⟩
  · let i : Instr := .setPower tag idle auto warm rsv
    refine ⟨fun bad => hs.refuses i rfl trivial (r := .badValue) (if_pos bad), fun mark zero => ?_⟩
    refine (hs.answers i rfl trivial (if_neg (not_or.mpr ⟨by omega, not_not.mpr zero⟩))).trans
      (congrArg Host.Outcome.next ?_)
    let t := s.replied 0x20 tag [0x00]
    have afresh := State.restartIdle_of_awake (s := { t with cfg := { t.cfg with power := ⟨idle.toNat, auto == 1, warm.toNat⟩ } })
      hs.awake hs.entry
    refine Eq.trans (by exact afresh) ?_
    have time : idle.toNat ≠ 0 ↔ idle ≠ 0 := by bv_omega
    simp only [t, time]
    rfl
  · let i : Instr := .domain tag dom action rsv
    dsimp only
    split
    next bad => exact hs.refuses i rfl trivial (answerDomain_refused bad)
    next good =>
      have answer := fun f => answerDomain_taken (s := s.inHand f) good
      generalize (if dom = 0 then DomainId.scan else if dom = 1 then .print else .motor) = d at answer ⊢
      split
      next need => exact hs.refuses i rfl trivial ((answer _).trans (if_pos need))
      next free =>
        have answer := fun f => (answer f).trans (if_neg free)
        split
        next on =>
          have taken := hs.answers i rfl trivial ((answer _).trans (if_pos on))
          obtain ⟨stands, starting, starts⟩ :=
            State.domainOn_cases d (s.replied 0x21 tag [0x00, (shownAfterOn (s.power.domain d)).code])
          split_ifs with lit begun
          · obtain ⟨shown, same⟩ := stands lit
            exact taken.trans (congrArg Host.Outcome.next (same.trans (by rw [show shownAfterOn (s.power.domain d) = _ from shown]; rfl)))
          · obtain ⟨shown, same⟩ := starting begun
            exact taken.trans (congrArg Host.Outcome.next (same.trans (by rw [show shownAfterOn (s.power.domain d) = _ from shown]; rfl)))
          · obtain ⟨shown, begins⟩ := starts lit begun
            exact taken.trans (congrArg Host.Outcome.next (begins.trans (by rw [show shownAfterOn (s.power.domain d) = _ from shown]; rfl)))
        next off =>
          have taken := hs.answers i rfl trivial ((answer _).trans (if_neg off))
          split
          next dark => exact taken.trans (congrArg Host.Outcome.next (if_pos dark))
          next lit => exact taken.trans (congrArg Host.Outcome.next (if_neg lit))
  · exact ⟨rfl, rfl, rfl, rfl, rfl, rfl, rfl,
      fun ch h => by rw [State.domainOff_motor_channel, Channel.motorOff_of_holding h],
      fun ch => by rw [State.domainOff_motor_channel, Channel.motorOff_position]⟩
  · unfold ruleNeed State.doWhen
    simp only [Bool.and_eq_true, beq_iff_eq]
  · refine ⟨fun unfed => ?_, fun off => ?_, fun unfed => State.enable_of_unfed (d := .scan) unfed⟩
    · have low : s.enable .print = false := State.enable_of_unfed (d := .print) unfed
      have data := State.headData_of_unfed low
      exact ⟨data, by rw [State.headClock, data]; rfl, fun before => by simp [State.headLatch, low],
        fun block => by simp [State.strobeLine, low]⟩
    · simp [State.cutter, State.enable_of_unfed (d := .motor) (.inl off)]
  · simp only [State.needed, Bool.or_eq_true, State.scanBusy_iff, bne_iff_ne]

/-! ## SLEEP (R177, R178, R180) -/

/-- No recovery runs: start-up is over, and no RESET rebuilds the store (R177). -/
theorem State.recovering_eq_false_iff (s : State) :
    s.recovering = false ↔ s.startup = .done ∧ s.resetPhase ≠ .rebuilding := by
  simp [State.recovering]

theorem State.feedIdle_iff (s : State) :
    s.feedIdle = true ↔ s.feed.doc ≠ .settling ∧ s.feed.doc ≠ .loading ∧ s.feed.doc ≠ .ejecting := by
  simp [State.feedIdle, and_assoc]

theorem State.idle_iff (s : State) :
    s.idle = true ↔ (∀ m ∈ s.moves, m.live = false) ∧ s.df.user = none ∧ s.rf.user = none ∧ s.scan.shading = .none
      ∧ s.feed.doc ≠ .settling ∧ s.feed.doc ≠ .loading ∧ s.feed.doc ≠ .ejecting
      ∧ s.store.check = none ∧ s.startup = .done ∧ s.resetPhase ≠ .rebuilding := by
  simp only [State.idle, Bool.and_eq_true, Bool.not_eq_true', State.recovering_eq_false_iff, State.feedIdle_iff,
    List.any_eq_false, Bool.not_eq_true, Option.isNone_iff_eq_none, beq_iff_eq, and_assoc]

theorem State.anyFault_eq_false_iff (s : State) :
    s.anyFault = false ↔ s.df.state ≠ .fault ∧ s.rf.state ≠ .fault := by
  simp [State.anyFault]

theorem Link.quiet_iff (l : Link) : l.quiet = true ↔ l.waiting = none ∧ l.parser = .hunt := by
  simp [Link.quiet]

theorem State.maySleep_iff (s : State) :
    s.maySleep = true
      ↔ (s.idle = true ∧ s.df.state ≠ .fault ∧ s.rf.state ≠ .fault) ∧ s.link.waiting = none ∧ s.link.parser = .hunt := by
  simp only [State.maySleep, Bool.and_eq_true, Bool.not_eq_true', State.anyFault_eq_false_iff, Link.quiet_iff]

theorem State.autoSleeps_iff (s : State) :
    s.autoSleeps = true ↔ s.cfg.power.autoSleep = true ∧ s.df.state ≠ .fault ∧ s.rf.state ≠ .fault
      ∧ s.link.hand = none ∧ s.link.waiting = none ∧ s.link.parser = .hunt := by
  simp only [State.autoSleeps, Bool.and_eq_true, Bool.not_eq_true', State.anyFault_eq_false_iff, Link.quiet_iff,
    Option.isNone_iff_eq_none, and_assoc]

/-- A command in hand that its block refuses is answered, and the frame that waits moves up (R5, R8). -/
theorem State.checkHand_refused {s : State} {f : Frame} {r : Result} (taken : s.link.hand = some ⟨f, .taken⟩)
    (refused : (s.inHand f).judge f = .refuse r) :
    s.checkHand = { s with link := { s.link with
      outbound := s.link.outbound ++ [replyRecord .reply f [r.code]]
      hand := s.link.waiting.map fun g => Hand.takenWith (s.link.outbound.length + 1) ⟨g, .untaken⟩
      waiting := none } } := by
  have given : s.checkHand = (s.inHand f).give f ((s.inHand f).judge f) := by
    unfold State.checkHand
    rw [taken]
    rfl
  rw [given, refused]
  exact congrArg (fun l => { s with link := l }) (Link.answer_eq .reply f [r.code] _)

theorem State.beginSleep_eq {s : State} (awake : s.power.state ≠ .sleep) :
    s.beginSleep = ({ s.allDomainsOff with power :=
      { s.power with
        scan := .off
        print := .off
        motor := .off
        state := .standby
        idleTimer := .stopped
        entry := .draining
        causes := ⟨false, false, false, false, false, false⟩ } } : State).report 0xE6 [2, 1, 0, 0, 0, 0, 0xFF] := by
  have follows : s.allDomainsOff.power.follow
      = { s.power with scan := .off, print := .off, motor := .off, state := .standby } := if_neg awake
  exact congrArg (fun p : Power => State.reportPower .sleep { s.allDomainsOff with power :=
    { p with idleTimer := .stopped, entry := .draining, causes := WakeCauses.empty } }) follows

/-- Settles O57. -/
theorem sleepEntryBegins : Obligations.SleepEntryBegins := by
  unfold Obligations.SleepEntryBegins
  refine ⟨fun s tag rsv hs => ?_, fun s tag rsv ready started taken unquiet => ?_, State.idle_iff,
    fun s awake => State.beginSleep_eq awake, fun s sec held awake running => ?_⟩
  · let i : Instr := .sleep tag rsv
    have may (f : Frame) : (s.inHand f).maySleep = true ↔ s.idle = true ∧ s.df.state ≠ .fault ∧ s.rf.state ≠ .fault :=
      (State.maySleep_iff _).trans (and_iff_left ⟨hs.waiting, hs.hunting⟩)
    split_ifs with bad sleeps
    · exact hs.refuses i rfl trivial (r := .badValue) (if_pos bad)
    · exact hs.answers i rfl trivial (p := [0x00]) (e := fun s => s.beginSleep.settle)
        ((if_neg bad).trans (if_pos ((may _).mpr sleeps)))
    · exact hs.refuses i rfl trivial (r := .busy) ((if_neg bad).trans (if_neg ((may _).not.mpr sleeps)))
  · let f : Frame := ⟨0x22, tag, [rsv]⟩
    obtain ⟨-, known, read⟩ := frameStatement (.sleep tag rsv) f rfl trivial
    have judged : (s.inHand f).judge f = .refuse (if rsv ≠ 0 then .badValue else .busy) := by
      have stays : ¬(s.inHand f).maySleep = true := fun may => by
        obtain ⟨-, waiting, hunting⟩ := (State.maySleep_iff _).mp may
        exact unquiet.elim (absurd waiting) (absurd hunting)
      unfold State.judge
      rw [if_neg (by simp [State.inHand, Link.handOver, ready]), if_neg (not_not.mpr known), read]
      refine (if_neg fun k => k.1 started).trans ?_
      show answerSleep rsv _ = _
      unfold answerSleep
      rw [if_neg stays]
      split
      · rfl
      · rfl
    have answered := State.checkHand_refused taken judged
    rw [apply_ite Result.code] at answered
    refine ⟨answered, congrArg State.checkHand answered, fun held awake => ?_⟩
    have given := State.takeCommand_of_taken (State.clocked_of held awake) taken
    have hand : s.checkHand = (s.inHand f).give f ((s.inHand f).judge f) := by
      unfold State.checkHand
      rw [taken]
      rfl
    rw [given, ← hand]
    exact congrArg (Host.Outcome.next ∘ State.checkHand) answered
  · show execIdleTimerExpiry s = _
    unfold execIdleTimerExpiry
    rw [if_pos (by rw [State.clocked_of held awake, running]; rfl)]
    let expired : State := { s with power := { s.power with idleTimer := .expired } }
    have sleeps := State.autoSleeps_iff expired
    refine congrArg Host.Outcome.next ((congrArg State.settle ?_).trans (apply_ite State.settle _ _ _))
    exact if_congr sleeps rfl rfl

end Sys2Proof.Machine
end

section
/-! PROOFS. NRST, PFI and power-on reset (R147, R185, R186). -/

namespace Sys2Proof.Machine

theorem Store.writesBegun_eq (st : Store) :
    st.writesBegun = if st.transfer = none then st.making ++ st.rewrites else st.making := by
  unfold Store.writesBegun Store.writesLeft
  cases st.transfer with
  | none => rfl
  | some id => rfl

/-- The work on the page memory stops, unless PFI has stopped it before (R147, R185). -/
def State.memoryStopped (bursts : Nat) (s : State) : State := if s.inputs.pfi then s else s.stopMemory bursts

section nrst

variable {s : State} (running : s.held = false) (marked bursts : Nat)
include running

theorem State.exec_nrstAsserted : exec (.nrstAsserted marked bursts) s = .next
    { s.memoryStopped bursts with
      held := true
      startup := .straps
      store := { (s.memoryStopped bursts).store with memory := (s.memoryStopped bursts).marksDone marked } } := by
  show execNrstAsserted marked bursts s = _
  unfold execNrstAsserted
  rw [if_neg (by simp [running])]
  rfl

end nrst

section marks

variable {s : State} {marked : Nat}

theorem State.marksDone_of_format (h : s.startup = .format) :
    s.marksDone marked = s.store.memory.freeAll (List.range (min marked s.total)) := by
  unfold State.marksDone
  rw [h]

theorem State.marksDone_of_scan (h : s.startup = .scan ∨ s.startup ≠ .format ∧ s.resetPhase = .rebuilding) :
    s.marksDone marked = s.store.memory.freeAll ((s.store.memory.scanFrees s.total).take marked) := by
  unfold State.marksDone
  split
  next format => simp [format] at h
  · rfl
  next other scan =>
    obtain start | ⟨-, rebuilding⟩ := h
    · exact absurd start scan
    · exact if_pos rebuilding

theorem State.marksDone_of_other (format : s.startup ≠ .format) (scan : s.startup ≠ .scan)
    (rebuilding : s.resetPhase ≠ .rebuilding) : s.marksDone marked = s.store.memory := by
  unfold State.marksDone
  split
  next h => exact absurd h format
  next h => exact absurd h scan
  · exact if_neg rebuilding

end marks

/-- Nothing follows at once on the power-on values (R186). -/
theorem State.powerOn_settled (p : List Instr) (straps : Straps) (i : Inputs) (m : PageMemory) :
    (State.powerOn p straps { i with pfi := false } m).settled = true := by
  obtain ⟨hw, msz1, msz0, mt, bkv⟩ := straps
  cases bkv
  · rfl
  · rfl

section still

variable {s : State}

theorem State.failWhere_of_no_moves (still : s.moves = []) (p : Move → Bool) (cause : MoveCause) :
    s.failWhere p cause = s := by
  unfold State.failWhere State.moveIds
  rw [still]
  rfl

/-- What a fault stops behind its channel when there is no document: the head behind RF (R90, R91, R94). -/
def State.headStopped (ch : ChannelId) (s : State) : State :=
  if ch = .df then s else s.onPrint fun p => { p.drop with cut := .none }

@[simp] theorem State.headStopped_path (ch : ChannelId) : (s.headStopped ch).path = s.path := by cases ch <;> rfl
@[simp] theorem State.headStopped_feed (ch : ChannelId) : (s.headStopped ch).feed = s.feed := by cases ch <;> rfl
@[simp] theorem State.headStopped_inputs (ch : ChannelId) : (s.headStopped ch).inputs = s.inputs := by cases ch <;> rfl
@[simp] theorem State.headStopped_channel (ch other : ChannelId) :
    (s.headStopped ch).channel other = s.channel other := by
  cases ch
  · rfl
  · cases other
    · rfl
    · rfl

/-- With no move and no document, a driver fault ends nothing but the channel (R41, R60). -/
theorem State.enterDriverFault_of_still (ch : ChannelId) (still : s.moves = []) (empty : s.feed.doc = .none) :
    s.enterDriverFault ch = (s.faultTold ch).headStopped ch := by
  have path : (s.faultActed ch).moves = [] := (congrArg Path.moves (s.faultActed_path ch)).trans still
  have acted : s.faultActed ch = (s.faultTold ch).headStopped ch := by
    cases ch with
    | df =>
      have unmoved : (s.faultTold .df).feedMotorFault (s.df.queue.contains .feed) = s.faultTold .df := by
        rw [State.feedMotorFault_eq]
        exact if_neg (by simp [empty])
      exact (congrArg (ite _ _) unmoved).trans (ite_self _)
    | rf => rfl
  have doc : (s.faultActed ch).feed.doc = s.feed.doc := by
    rw [acted, State.headStopped_feed, State.faultTold_feed]
  have failed : s.enterDriverFault ch = (s.faultActed ch).failStartingScan s.feed.doc :=
    congrArg (State.failStartingScan s.feed.doc) (State.failWhere_of_no_moves path _ _)
  rw [failed, State.failStartingScan, if_pos doc, acted]

/-- With no move and no document, FLT is looked at on one channel alone (R41). -/
theorem State.lookAtFlt_of_still (ch : ChannelId) (still : s.moves = []) (empty : s.feed.doc = .none) :
    let t := s.lookAtFlt ch
    t.moves = [] ∧ t.feed.doc = .none ∧ t.inputs = s.inputs
      ∧ ((t.channel ch).state = .fault ↔ (s.channel ch).state = .fault ∨ s.flt ch = true)
      ∧ ∀ other, other ≠ ch → t.channel other = s.channel other := by
  dsimp only
  unfold State.lookAtFlt
  split
  next active =>
    obtain ⟨high, -⟩ := Bool.and_eq_true_iff.mp active
    have fault := s.enterDriverFault_channel ch
    refine ⟨?_, ?_, ?_, by simp [fault, Channel.enterFault, high], fun other ne => ?_⟩
    all_goals rw [State.enterDriverFault_of_still ch still empty]
    · exact (congrArg Path.moves ((State.headStopped_path ch).trans (s.faultTold_path ch))).trans still
    · rwa [State.headStopped_feed, State.faultTold_feed]
    · cases ch
      · exact State.report_inputs 0xE9 [channelCode .df] _
      · exact State.report_inputs 0xE9 [channelCode .rf] _
    · rw [State.headStopped_channel, s.faultTold_other ch ne]
  next low =>
    refine ⟨still, empty, rfl, ?_, fun _ _ => rfl⟩
    simp only [Bool.and_eq_true, bne_iff_ne, not_and, not_not] at low
    exact ⟨.inl, fun h => h.elim id low⟩

end still

section flt

variable (p : List Instr) (straps : Straps) (i : Inputs) (m : PageMemory)

theorem State.powerOn_faults :
    let t := ((State.powerOn p straps i m).lookAtFlt .df).lookAtFlt .rf
    (t.df.state = .fault ↔ i.fltd = true) ∧ (t.rf.state = .fault ↔ i.fltr = true) := by
  obtain ⟨still, empty, inputs, df, rf⟩ := State.lookAtFlt_of_still (s := State.powerOn p straps i m) .df rfl rfl
  obtain ⟨-, -, -, rf', df'⟩ := State.lookAtFlt_of_still .rf still empty
  have idle : ¬ChanState.idle = .fault := by decide
  constructor
  · exact (iff_of_eq (congrArg (Channel.state · = .fault) (df' .df (by decide)))).trans (df.trans (or_iff_right idle))
  · have first : ((State.powerOn p straps i m).lookAtFlt .df).rf = Channel.powerOn := rf .rf (by decide)
    have level : ((State.powerOn p straps i m).lookAtFlt .df).flt .rf = i.fltr := congrArg Inputs.fltr inputs
    rw [level] at rf'
    exact rf'.trans (or_iff_right (by rw [show State.channel .rf _ = _ from first]; exact idle))

theorem State.powerOn_sound (df : i.fltd = false) (rf : i.fltr = false) :
    ((State.powerOn p straps i m).lookAtFlt .df).lookAtFlt .rf = State.powerOn p straps i m := by
  have same {ch : ChannelId} (low : (State.powerOn p straps i m).flt ch = false) :
      (State.powerOn p straps i m).lookAtFlt ch = State.powerOn p straps i m := if_neg (by simp [low])
  rw [same (ch := .df) df, same (ch := .rf) rf]

end flt

/-- Settles O10. -/
theorem resetInputs : Obligations.ResetInputs := by
  unfold Obligations.ResetInputs
  refine ⟨fun s marked bursts running => ?_, fun s straps held => ⟨fun df rf => ?_, ?_⟩⟩
  · intro first begun made cut cutOff base stopped
    have same : s.memoryCut bursts = cut := by
      unfold State.memoryCut
      rw [Store.writesBegun_eq]
      rfl
    have stops : s.stopMemory bursts = { s with store := cutOff s.store cut } := by
      rw [← same]
      rfl
    have halted : s.memoryStopped bursts = { s with store := base } := by
      unfold State.memoryStopped
      rw [stops]
      exact (apply_ite (fun st : Store => { s with store := st }) (s.inputs.pfi = true) s.store _).symm
    have asserted : exec (.nrstAsserted marked bursts) s
        = .next (stopped (State.marksDone marked { s with store := base })) := by
      rw [State.exec_nrstAsserted running, halted]
    refine ⟨fun format => ?_, fun scan => ?_, fun format scan rebuilding => ?_, fun active => ?_, fun inactive => ?_⟩
    · rw [asserted, State.marksDone_of_format (s := { s with store := base }) format]
      rfl
    · rw [asserted, State.marksDone_of_scan (s := { s with store := base }) scan]
      rfl
    · rw [asserted, State.marksDone_of_other (s := { s with store := base }) format scan rebuilding]
    · exact congrArg Host.Outcome.next (if_pos active)
    · have low : ¬s.inputs.pfi = true := by simp [inactive]
      refine ⟨fun asleep => ?_, fun awake => ?_⟩
      · exact congrArg Host.Outcome.next ((if_neg low).trans (if_neg (by simp [State.clocked, asleep])))
      · refine congrArg Host.Outcome.next ((if_neg low).trans ((if_pos (State.clocked_of running awake)).trans ?_))
        rw [← same]
        rfl
  · have sound := State.powerOn_sound s.pending straps { s.inputs with pfi := false } s.store.memory df rf
    refine congrArg Host.Outcome.next ((if_pos held).trans ?_)
    dsimp only
    rw [sound]
    exact State.settle_of_settled _ (State.powerOn_settled ..)
  · exact ⟨_, congrArg Host.Outcome.next (if_pos held),
      State.powerOn_faults s.pending straps { s.inputs with pfi := false } s.store.memory⟩

end Sys2Proof.Machine
end

section
/-! PROOFS. The shading stage and the halftone matrix (R66, R69), the decoder on any code (R100, R101), and the
header buffer (R114 to R116). -/

namespace Sys2Proof.Machine

/-! ## Shading and halftone (R66, R69) -/

section shade

variable {v b w : Nat}

theorem shadePixel_of_black (h : v ≤ b) : shadePixel v b w = 0 := if_pos h

theorem shadePixel_of_weak (h : b < v) (weak : w ≤ b) : shadePixel v b w = 63 :=
  (if_neg (by omega)).trans (if_pos weak)

theorem shadePixel_of_between (h : b < v) (sound : b < w) :
    shadePixel v b w = min 63 ((v - b) * 63 / (w - b)) := (if_neg (by omega)).trans (if_neg (by omega))

/-- A pixel at or above its white reference is white. -/
theorem shadePixel_of_white (sound : b < w) (h : w ≤ v) : shadePixel v b w = 63 := by
  rw [shadePixel_of_between (by omega) sound, Nat.min_eq_left]
  rw [Nat.le_div_iff_mul_le (by omega), Nat.mul_comm]
  exact Nat.mul_le_mul_right 63 (by omega)

end shade

/-- The entry of the matrix of R69, by its rows and columns. -/
theorem halftoneEntry_eq (y x : Nat) :
    ∃ row m, [[0, 8, 2, 10], [12, 4, 14, 6], [3, 11, 1, 9], [15, 7, 13, 5]][y % 4]? = some row
      ∧ row[x % 4]? = some m ∧ halftoneEntry y x = m := by
  unfold halftoneEntry
  have row : y % 4 < 4 := Nat.mod_lt _ (by omega)
  have column : x % 4 < 4 := Nat.mod_lt _ (by omega)
  generalize y % 4 = a at row ⊢
  generalize x % 4 = b at column ⊢
  interval_cases a
  all_goals
    interval_cases b
    all_goals exact ⟨_, _, rfl, rfl, rfl⟩

/-- Settles O35. -/
theorem shadingAndHalftone : Obligations.ShadingAndHalftone := by
  unfold Obligations.ShadingAndHalftone
  refine ⟨fun v b w => ⟨shadePixel_of_black, shadePixel_of_weak, shadePixel_of_between, shadePixel_le v b w,
    shadePixel_of_white⟩, fun c y i table pixels p w halftone hp hw => ?_⟩
  obtain ⟨row, m, hrow, hm, entry⟩ := halftoneEntry_eq y i
  refine ⟨row, m, hrow, hm, ?_⟩
  rw [captureLine_getElem? hp hw, dotThreshold, if_pos halftone, entry]
  rfl

/-! ## The decoder (R100, R101) -/

theorem length_expandRuns (colour : Bool) (runs : List Nat) : (expandRuns colour runs).length = runs.sum := by
  induction runs generalizing colour with
  | nil => rfl
  | cons n ns ih => simp [expandRuns, ih]

/-- A code that meets the rules of R100 behind a byte which is a makeup byte or not: the end-of-line byte stands last
and nowhere else, no byte is out of use, and no makeup byte follows another or ends the line. -/
structure LineCode (made : Bool) (coded : List Byte) : Prop where
  ended : coded.getLast? = some 255
  inner : ∀ i b, coded[i]? = some b → i + 1 < coded.length → b.toNat < 208
  makeup : ∀ i a b, coded[i]? = some a → coded[i + 1]? = some b → 192 ≤ a.toNat → b.toNat < 192
  first : made = true → ∀ b, coded[0]? = some b → b.toNat < 192

theorem not_lineCode_nil (made : Bool) : ¬LineCode made [] := fun h => nomatch h.ended

theorem lineCode_singleton (made : Bool) (b : Byte) : LineCode made [b] ↔ b = 255 ∧ made = false := by
  constructor
  · rintro ⟨ended, -, -, first⟩
    obtain rfl : b = 255 := by simpa using ended
    refine ⟨rfl, Bool.eq_false_iff.mpr fun h => ?_⟩
    exact absurd (first h 255 rfl) (by decide)
  · rintro ⟨rfl, rfl⟩
    refine ⟨rfl, fun i b _ short => ?_, fun i a b _ after => ?_, fun h => nomatch h⟩
    · simp at short
    · simp at after

theorem lineCode_cons_cons (made : Bool) (b c : Byte) (rest : List Byte) :
    LineCode made (b :: c :: rest) ↔ b.toNat < 208 ∧ (made = true → b.toNat < 192)
      ∧ LineCode (decide (192 ≤ b.toNat)) (c :: rest) := by
  constructor
  · rintro ⟨ended, inner, makeup, first⟩
    refine ⟨inner 0 b rfl (by simp), fun h => first h b rfl, by simpa using ended, fun i x hx short => ?_,
      fun i x y hx hy => makeup (i + 1) x y hx hy, fun long x hx => makeup 0 b x rfl hx (of_decide_eq_true long)⟩
    exact inner (i + 1) x hx (by simpa using short)
  · rintro ⟨low, started, ended, inner, makeup, first⟩
    refine ⟨by simpa using ended, fun i x hx short => ?_, fun i x y hx hy long => ?_, fun h x hx => ?_⟩
    · cases i with
      | zero => obtain rfl := Option.some.inj hx; exact low
      | succ i => exact inner i x hx (by simpa using short)
    · cases i with
      | zero => obtain rfl := Option.some.inj hx; exact first (decide_eq_true long) y hy
      | succ i => exact makeup i x y hx hy long
    · obtain rfl := Option.some.inj hx
      exact started h

/-- The codes that do not fail structurally (R100). -/
theorem decodeRuns_isSome (n : Nat) (made : Bool) (coded : List Byte) :
    (decodeRuns n made coded).isSome = true ↔ LineCode made coded := by
  induction coded generalizing n made with
  | nil => simp [decodeRuns, not_lineCode_nil]
  | cons b rest ih =>
    cases rest with
    | nil =>
      rw [lineCode_singleton]
      have ending : b = 255 ↔ b.toNat = 255 := by bv_omega
      rw [ending]
      by_cases last : b.toNat = 255
      · cases made
        · simp [decodeRuns, last]
        · simp [decodeRuns, last]
      · simp [decodeRuns, last]
    | cons c cs =>
      rw [lineCode_cons_cons]
      unfold decodeRuns
      split_ifs with short low again last after
      · rw [Option.isSome_map, ih]
        have makeup : decide (192 ≤ b.toNat) = false := decide_eq_false (by omega)
        rw [makeup]
        exact ⟨fun h => ⟨by omega, fun _ => short, h⟩, fun h => h.2.2⟩
      · simp [again, short]
      · have makeup : decide (192 ≤ b.toNat) = true := decide_eq_true (by omega)
        rw [ih, makeup]
        exact ⟨fun h => ⟨low, fun k => absurd k again, h⟩, fun h => h.2.2⟩
      · simp [low]
      · simp at after
      · simp [low]

section decode

variable {w : Nat} {coded : List Byte}

theorem decodeLine_of_failed (failed : decodeRuns 0 false coded = none) :
    decodeLine w coded = (List.replicate w false, true) := by
  unfold decodeLine
  rw [failed]

theorem decodeLine_of_runs {runs : List Nat} (read : decodeRuns 0 false coded = some runs) :
    decodeLine w coded = ((expandRuns false runs).take w ++ List.replicate (w - runs.sum) false, runs.sum != w) := by
  unfold decodeLine
  rw [read]
  simp only [length_expandRuns]

/-- A decoded line has the width asked for (R101). -/
theorem length_decodeLine (w : Nat) (coded : List Byte) : (decodeLine w coded).1.length = w := by
  cases read : decodeRuns 0 false coded with
  | none => simp [decodeLine_of_failed read]
  | some runs =>
    rw [decodeLine_of_runs read]
    simp only [List.length_append, List.length_take, List.length_replicate, length_expandRuns]
    omega

end decode

/-- Settles O42. -/
theorem decoderRepairs : Obligations.DecoderRepairs := by
  unfold Obligations.DecoderRepairs
  intro w coded
  refine ⟨length_decodeLine w coded, decodeLine_of_failed, fun runs read => ?_, ?_⟩
  · rw [decodeLine_of_runs read]
    refine ⟨bne_iff_ne, fun short => ?_, fun long => ?_⟩
    · rw [List.take_of_length_le (by rwa [length_expandRuns])]
    · simp [Nat.sub_eq_zero_of_le long.le]
  · rw [← Option.isSome_iff_ne_none, decodeRuns_isSome]
    exact ⟨fun ⟨ended, inner, makeup, _⟩ => ⟨ended, inner, makeup⟩,
      fun ⟨ended, inner, makeup⟩ => ⟨ended, inner, makeup, fun h => nomatch h⟩⟩

end Sys2Proof.Machine
end

section
/-! PROOFS. The header buffer and its lines (R114 to R116), and the lines that enter a queue (R102 to R109, R137,
R138). -/

namespace Sys2Proof.Machine

/-! ## Codes split at their end-of-line bytes (R116) -/

section split

variable {begun code : List Byte}

theorem splitLines_of_end (begun rest : List Byte) {b : Byte} (ending : b.toNat = 255) :
    splitLines begun (b :: rest) = ((begun ++ [b]) :: (splitLines [] rest).1, (splitLines [] rest).2) := if_pos ending

theorem splitLines_of_inner (begun rest : List Byte) {b : Byte} (inner : b.toNat ≠ 255) :
    splitLines begun (b :: rest) = splitLines (begun ++ [b]) rest := if_neg inner

/-- The lines and what stands behind the last of them are the code. -/
theorem splitLines_flatten (begun code : List Byte) :
    (splitLines begun code).1.flatten ++ (splitLines begun code).2 = begun ++ code := by
  induction code generalizing begun with
  | nil => simp [splitLines]
  | cons b rest ih =>
    by_cases ending : b.toNat = 255
    · rw [splitLines_of_end _ _ ending]
      simpa using ih []
    · rw [splitLines_of_inner _ _ ending, ih]
      simp

/-- One line for each end-of-line byte. -/
theorem length_splitLines (begun code : List Byte) :
    (splitLines begun code).1.length = (code.filter fun b => b == 255).length := by
  induction code generalizing begun with
  | nil => rfl
  | cons b rest ih =>
    by_cases ending : b.toNat = 255
    · rw [splitLines_of_end _ _ ending, List.filter_cons_of_pos (by simp; bv_omega), List.length_cons, ih,
        List.length_cons]
    · rw [splitLines_of_inner _ _ ending, List.filter_cons_of_neg (by simp; bv_omega), ih]

/-- A code that ends with the end-of-line byte leaves nothing behind its lines. -/
theorem splitLines_rest (ended : code.getLast? = some 255) : (splitLines begun code).2 = [] := by
  induction code generalizing begun with
  | nil => cases ended
  | cons b rest ih =>
    cases rest with
    | nil =>
      obtain rfl : b = 255 := by simpa using ended
      rfl
    | cons c cs =>
      have later : (c :: cs).getLast? = some 255 := by simpa using ended
      by_cases ending : b.toNat = 255
      · rw [splitLines_of_end _ _ ending]
        exact ih later
      · rw [splitLines_of_inner _ _ ending]
        exact ih later

/-- Each line ends with its one end-of-line byte. -/
theorem mem_splitLines (inner : 255 ∉ begun) {l : List Byte} (mem : l ∈ (splitLines begun code).1) :
    l.getLast? = some 255 ∧ 255 ∉ l.dropLast := by
  induction code generalizing begun with
  | nil => cases mem
  | cons b rest ih =>
    by_cases ending : b.toNat = 255
    · obtain rfl : b = 255 := by bv_omega
      rw [splitLines_of_end _ _ ending] at mem
      obtain rfl | mem := List.mem_cons.mp mem
      · exact ⟨by simp, by simpa using inner⟩
      · exact ih List.not_mem_nil mem
    · rw [splitLines_of_inner _ _ ending] at mem
      refine ih ?_ mem
      rw [List.mem_append, List.mem_singleton, not_or]
      exact ⟨inner, fun same => ending (by rw [← same]; rfl)⟩

end split

/-! ## LOAD_HEADER (R116) -/

theorem widthOf_eq_none {w : Word16} (h : w.toNat ≠ 1728 ∧ w.toNat ≠ 2048) : widthOf w = none := by
  unfold widthOf
  split
  next same => exact absurd same h.1
  next same => exact absurd same h.2
  · rfl

theorem widthOf_eq_some {w : Word16} (h : ¬(w.toNat ≠ 1728 ∧ w.toNat ≠ 2048)) : widthOf w = some w.toNat := by
  obtain same | same : w.toNat = 1728 ∨ w.toNat = 2048 := by omega
  · simp [widthOf, same]
  · simp [widthOf, same]

theorem answerLoadHeader_eq (width rsv : Word16) (code : List Byte) (s : State) :
    answerLoadHeader width rsv code s
      = if (width.toNat ≠ 1728 ∧ width.toNat ≠ 2048) ∨ rsv ≠ 0 ∨ code.getLast? ≠ some 255 ∨ 32 < lineEnds code then
          .refuse .badValue
        else if s.moves.any fun m => m.live && m.withHeader then .refuse .inUse
        else .ok [byte1 (lineEnds code)] fun s =>
          s.onPath fun p => { p with header := some ⟨width.toNat, lineEnds code, code⟩ } := by
  unfold answerLoadHeader
  by_cases odd : width.toNat ≠ 1728 ∧ width.toNat ≠ 2048
  · rw [widthOf_eq_none odd, if_pos (.inl odd)]
  · rw [widthOf_eq_some odd]
    simp only [odd, false_or]

/-! ## Header lines (R114, R115) -/

theorem Move.fitsHead_iff (m : Move) : m.fitsHead = true ↔ m.isPrint = true ∨ m.diverted ≠ none := by
  simp only [Move.fitsHead, Bool.or_eq_true, Option.isSome_iff_ne_none]

theorem Move.prefixCount_eq (lines : Nat) (m : Move) :
    m.prefixCount lines = if m.withHeader = true ∧ m.diverted = none then lines else 0 := by
  simp only [Move.prefixCount, Bool.and_eq_true, Option.isNone_iff_eq_none]

theorem Move.countRepair_eq (repaired : Bool) (m : Move) :
    m.countRepair repaired = { m with counters := { m.counters with
      repaired := m.counters.repaired + if repaired = true then 1 else 0 } } := by
  cases repaired
  · rfl
  · rfl

/-- A header line is decoded, brought to the line width and, for the head, fitted to it (R115). -/
theorem headerLine_eq (h : HeaderBuffer) (width head n : Nat) (m : Move) :
    headerLine h width head n m.fitsHead =
      let line := decodeLine h.width (h.lines.getD n [])
      let dots := if h.width = width then line.1 else if width = 1728 then reduceLine line.1 else centreLine line.1
      (if m.isPrint = true ∨ m.diverted ≠ none then fitLine head dots else dots, line.2) := by
  unfold headerLine
  dsimp only
  rw [length_decodeLine]
  simp only [Move.fitsHead_iff]

/-- Settles O49. -/
theorem headerLoadsAndEmits : Obligations.HeaderLoadsAndEmits := by
  unfold Obligations.HeaderLoadsAndEmits
  refine ⟨fun s tag width rsv code hs long short => ?_, fun h => ⟨fun ended => ?_, length_splitLines [] h.code,
    fun l mem => mem_splitLines List.not_mem_nil mem⟩, fun s m h loaded found => ?_, fun m lines clean => ?_,
    fun h width head slot m => ?_⟩
  · let i : Instr := .loadHeader tag width rsv code
    have fits : i.LengthFits := ⟨long, short⟩
    intro ends
    have answer : ∀ f, answerLoadHeader width rsv code (s.inHand f) = _ := fun f => answerLoadHeader_eq ..
    split_ifs with bad used
    · exact hs.refuses i rfl fits ((answer _).trans (if_pos bad))
    · exact hs.refuses i rfl fits ((answer _).trans ((if_neg bad).trans (if_pos used)))
    · exact hs.answers i rfl fits ((answer _).trans ((if_neg bad).trans (if_neg used)))
  · have whole := splitLines_flatten [] h.code
    rwa [splitLines_rest ended, List.append_nil, List.nil_append] at whole
  · unfold ruleHeader State.forMove
    rw [found]
    show some (State.emitHeader m s) = _
    unfold State.emitHeader
    rw [loaded]
  · refine ⟨?_, rfl, rfl⟩
    show (if 0 < m.blankDue then m.headerLeft else m.prefixCount lines) = _
    rw [if_neg (by omega), Move.prefixCount_eq]
  · dsimp only
    unfold Move.emitHeader
    rw [headerLine_eq]
    simp only [Move.countRepair_eq]
    exact ⟨trivial, trivial, trivial, trivial⟩

/-! ## Lines that enter a queue (R104 to R109) -/

@[simp] theorem mapLast_append {α : Type} (f : α → α) (l : List α) (a : α) : mapLast f (l ++ [a]) = l ++ [f a] := by
  induction l with
  | nil => rfl
  | cons b l ih =>
    cases l with
    | nil => rfl
    | cons c l => exact congrArg (b :: ·) ih

theorem Move.makeReady_eq (head : Nat) (m : Move) (l : SlotLine) : m.makeReady head l = { l with
    dots := if m.isPrint = true ∨ m.diverted ≠ none then fitLine head l.dots else l.dots
    state := .ready } := by
  unfold Move.makeReady
  simp only [Move.fitsHead_iff]

/-- With no line held back, nothing becomes READY (R109). -/
theorem Move.promote_of_none {head : Nat} {m : Move} (clear : ∀ x ∈ m.queue, x.state ≠ .heldBack) :
    (m.promote head).queue = m.queue := by
  unfold Move.promote
  refine (List.map_congr_left fun x mem => ?_).trans (List.map_id _)
  exact if_neg (clear x mem)

/-- The line held back at the tail becomes READY (R109). -/
theorem Move.promote_of_heldBack {head : Nat} {m : Move} {before : List SlotLine} {l : SlotLine}
    (queue : m.queue = before ++ [l]) (held : l.state = .heldBack) (clear : ∀ x ∈ before, x.state ≠ .heldBack) :
    (m.promote head).queue = before ++ [m.makeReady head l] := by
  have stay : before.map (fun x => if x.state = .heldBack then m.makeReady head x else x) = before :=
    (List.map_congr_left fun x mem => if_neg (clear x mem)).trans (List.map_id _)
  unfold Move.promote
  rw [queue, List.map_append, stay, List.map_singleton, if_pos held]

@[simp] theorem Move.length_promote (head : Nat) (m : Move) : (m.promote head).queue.length = m.queue.length :=
  List.length_map _

/-- The line at the tail as its group closes (R106, R109): a SCAN line that does not end its page is held back. -/
def Move.closedLine (head : Nat) (pageEnd : Bool) (m : Move) (l : SlotLine) : SlotLine :=
  if m.isScan = true ∧ pageEnd = false then { l with state := .heldBack }
  else { m.makeReady head l with pageEnd := pageEnd }

theorem Move.closeGroup_append {head : Nat} {pageEnd : Bool} {m : Move} {before : List SlotLine} {l : SlotLine}
    (queue : m.queue = before ++ [l]) : m.closeGroup head pageEnd
      = { m with merge := 0, queue := before ++ [m.closedLine head pageEnd l] } := by
  unfold Move.closeGroup Move.closedLine
  rw [queue, mapLast_append]
  simp only [Bool.and_eq_true, Bool.not_eq_true']

section enter

variable (m : Move) (head slot : Nat) (density : Density) (dots : RawLine) (pageEnd : Bool)

/-- The line that enters, reduced under the option (R102). -/
def Move.entering : RawLine := if m.reduce = true then reduceLine dots else dots

/-- The record with the entered line as a group of its own, in a slot of its own (R105, R108). -/
def Move.withGroup : Move := { m with
  granted := none
  srcLines := m.srcLines + 1
  counters := { m.counters with taken := m.counters.taken + 1 }
  merge := 1
  queue := (m.promote head).queue ++ [⟨slot, m.target, m.entering dots, false, .opened, false⟩] }

/-- The record with the entered line merged into the line at the tail (R105). -/
def Move.withMerged : Move := { m with
  granted := none
  srcLines := m.srcLines + 1
  counters := { m.counters with taken := m.counters.taken + 1, merged := m.counters.merged + 1 }
  merge := m.merge + 1
  queue := mapLast (fun l => { l with dots := mergeLines l.dots (m.entering dots) }) m.queue }

theorem Move.enter_eq_withGroup (closed : m.merge = 0) : m.enter head slot density dots pageEnd =
    if pageEnd = true ∨ mergeFactor density m.target ≤ 1 then (m.withGroup head slot dots).closeGroup head pageEnd
    else m.withGroup head slot dots := by
  unfold Move.enter
  dsimp only
  rw [if_pos closed]
  simp only [Bool.or_eq_true, decide_eq_true_eq]
  rfl

theorem Move.enter_eq_withMerged (opened : 0 < m.merge) : m.enter head slot density dots pageEnd =
    if pageEnd = true ∨ mergeFactor density m.target ≤ m.merge + 1 then (m.withMerged dots).closeGroup head pageEnd
    else m.withMerged dots := by
  unfold Move.enter
  dsimp only
  rw [if_neg (show ¬m.merge = 0 by omega)]
  simp only [Bool.or_eq_true, decide_eq_true_eq]
  rfl

theorem Move.enter_of_closed (closed : m.merge = 0) :
    let n := m.enter head slot density dots pageEnd
    let l : SlotLine := ⟨slot, m.target, m.entering dots, false, .opened, false⟩
    let closes := pageEnd = true ∨ mergeFactor density m.target ≤ 1
    n.queue = (m.promote head).queue ++ [if closes then m.closedLine head pageEnd l else l]
      ∧ n.merge = (if closes then 0 else 1) ∧ n.counters.merged = m.counters.merged := by
  intro n l closes
  have entered : n = _ := m.enter_eq_withGroup head slot density dots pageEnd closed
  by_cases h : closes
  · rw [if_pos h, Move.closeGroup_append rfl] at entered
    rw [entered, if_pos h, if_pos h]
    exact ⟨rfl, rfl, rfl⟩
  · rw [if_neg h] at entered
    rw [entered, if_neg h, if_neg h]
    exact ⟨rfl, rfl, rfl⟩

theorem Move.enter_of_open (opened : 0 < m.merge) {before : List SlotLine} {last : SlotLine}
    (queue : m.queue = before ++ [last]) :
    let n := m.enter head slot density dots pageEnd
    let l : SlotLine := { last with dots := mergeLines last.dots (m.entering dots) }
    let closes := pageEnd = true ∨ mergeFactor density m.target ≤ m.merge + 1
    n.queue = before ++ [if closes then m.closedLine head pageEnd l else l]
      ∧ n.merge = (if closes then 0 else m.merge + 1) ∧ n.counters.merged = m.counters.merged + 1 := by
  intro n l closes
  have entered : n = _ := m.enter_eq_withMerged head slot density dots pageEnd opened
  have joined : (m.withMerged dots).queue = before ++ [l] := by
    unfold Move.withMerged
    rw [queue, mapLast_append]
  by_cases h : closes
  · rw [if_pos h, Move.closeGroup_append joined] at entered
    rw [entered, if_pos h, if_pos h]
    exact ⟨rfl, rfl, rfl⟩
  · rw [if_neg h] at entered
    rw [entered, if_neg h, if_neg h]
    exact ⟨joined, rfl, rfl⟩

/-- What the entry of a line counts, and what it leaves (R104, R108). -/
theorem Move.enter_keeps :
    let n := m.enter head slot density dots pageEnd
    n.counters.taken = m.counters.taken + 1 ∧ n.srcLines = m.srcLines + 1 ∧ n.granted = none
      ∧ n.state = m.state ∧ n.source = m.source ∧ n.sink = m.sink ∧ n.srcPage = m.srcPage ∧ n.id = m.id := by
  dsimp only
  obtain closed | opened := Nat.eq_zero_or_pos m.merge
  · rw [m.enter_eq_withGroup head slot density dots pageEnd closed]
    split
    · exact ⟨rfl, rfl, rfl, rfl, rfl, rfl, rfl, rfl⟩
    · exact ⟨rfl, rfl, rfl, rfl, rfl, rfl, rfl, rfl⟩
  · rw [m.enter_eq_withMerged head slot density dots pageEnd opened]
    split
    · exact ⟨rfl, rfl, rfl, rfl, rfl, rfl, rfl, rfl⟩
    · exact ⟨rfl, rfl, rfl, rfl, rfl, rfl, rfl, rfl⟩

end enter

theorem mergeFactor_pos (a b : Density) : 1 ≤ mergeFactor a b := by
  cases a
  all_goals
    cases b
    all_goals decide

theorem length_mergeLines {a b : RawLine} (same : a.length = b.length) : (mergeLines a b).length = a.length := by
  simp [mergeLines, same]

theorem getD_mergeLines {a b : RawLine} (same : a.length = b.length) (i : Nat) :
    (mergeLines a b).getD i false = (a.getD i false || b.getD i false) := by
  by_cases inside : i < a.length
  · have second : i < b.length := same ▸ inside
    simp [mergeLines, List.getD_eq_getElem?_getD, inside, second]
  · have second : ¬i < b.length := same ▸ inside
    simp [mergeLines, List.getD_eq_getElem?_getD, inside, second]

/-- Settles O47. -/
theorem linesEnterTheQueue : Obligations.LinesEnterTheQueue := by
  unfold Obligations.LinesEnterTheQueue
  refine ⟨fun line size => if_pos size, fun line size => if_neg (by omega), fun head line size => if_pos size,
    fun line size => (if_neg (by omega)).trans (if_pos rfl), fun line size => (if_neg (by omega)).trans (if_neg (by omega)),
    fun a b same => ⟨length_mergeLines same, getD_mergeLines same⟩, fun m head slot density dots pageEnd => ?_⟩
  intro line n
  obtain ⟨taken, srcLines, granted, state, source, sink, -, -⟩ := m.enter_keeps head slot density dots pageEnd
  have factor := mergeFactor_pos density m.target
  refine ⟨taken, srcLines, granted, state, source, sink, fun closed => ?_, fun before l opened last => ?_⟩
  · obtain ⟨queue, merge, merged⟩ := m.enter_of_closed head slot density dots pageEnd closed
    change n.queue = _ at queue
    change n.merge = _ at merge
    refine ⟨by simp [queue], merged, fun other closes clear => ?_, fun before l last held clear => ?_,
      fun scan one inner => ?_, fun more inner clear => ?_⟩
    · have closes : pageEnd = true ∨ mergeFactor density m.target ≤ 1 := closes.symm.imp_right Nat.le_of_eq
      rw [queue, merge, if_pos closes, if_pos closes, Move.promote_of_none clear]
      exact ⟨rfl, by simp [Move.closedLine, other, Move.makeReady_eq, Move.entering, line]⟩
    · rw [queue, Move.promote_of_heldBack last held clear, Move.makeReady_eq]
      exact List.take_left' (by simp [last])
    · have closes : pageEnd = true ∨ mergeFactor density m.target ≤ 1 := by omega
      rw [queue, merge, if_pos closes, if_pos closes, List.drop_left' (by simp)]
      exact ⟨rfl, by simp [Move.closedLine, scan, inner, Move.entering, line]⟩
    · have stays : ¬(pageEnd = true ∨ mergeFactor density m.target ≤ 1) := by simp [inner]; omega
      rw [queue, merge, if_neg stays, if_neg stays, Move.promote_of_none clear]
      exact ⟨rfl, rfl⟩
  · obtain ⟨queue, merge, merged⟩ := m.enter_of_open head slot density dots pageEnd opened last
    change n.queue = _ at queue
    change n.merge = _ at merge
    refine ⟨merged, by simp [queue, last], fun other closes => ?_, fun scan closes inner => ?_, fun more inner => ?_⟩
    · have closes : pageEnd = true ∨ mergeFactor density m.target ≤ m.merge + 1 := closes.symm
      rw [queue, merge, if_pos closes, if_pos closes]
      exact ⟨rfl, by simp [Move.closedLine, other, Move.makeReady_eq, Move.entering, line]⟩
    · have closes : pageEnd = true ∨ mergeFactor density m.target ≤ m.merge + 1 := .inr closes
      rw [queue, merge, if_pos closes, if_pos closes]
      exact ⟨rfl, by simp [Move.closedLine, scan, inner, Move.entering, line]⟩
    · have stays : ¬(pageEnd = true ∨ mergeFactor density m.target ≤ m.merge + 1) := by simp [inner]; omega
      rw [queue, merge, if_neg stays, if_neg stays]
      exact ⟨rfl, rfl⟩

end Sys2Proof.Machine
end

section
/-! PROOFS. LINE_DATA (R137, R138). -/

namespace Sys2Proof.Machine

/-! ## The room of a move (R107, R137) -/

theorem Move.flowing_iff (m : Move) : m.flowing = true ↔ m.state = .running ∨ m.state = .draining := by
  simp [Move.flowing]

theorem Move.room_eq (m : Move) : m.room = m.depth - (m.queue.length + if m.granted = none then 0 else 1) := by
  unfold Move.room Move.slotsHeld
  cases m.granted
  · rfl
  · rfl

theorem Move.shownRoom_eq (m : Move) : m.shownRoom = if m.state = .running ∨ m.state = .draining then
    m.depth - (m.queue.length + if m.granted = none then 0 else 1) else 0 := by
  unfold Move.shownRoom
  rw [Move.room_eq]
  exact if_congr m.flowing_iff rfl rfl

/-! ## The cases of R137 -/

section answers

variable {s : State} {num endPage endMove rsv : Byte} {coded : List Byte} {m : Move}

/-- What LINE_DATA refuses with BAD_VALUE. -/
abbrev LineRefused (endPage endMove rsv : Byte) (m : Move) : Prop :=
  1 < endPage.toNat ∨ 1 < endMove.toNat ∨ rsv ≠ 0 ∨ m.isLinkIn = false

theorem answerLineData_of_unknown (unknown : s.moveNumbered? num.toNat = none) :
    answerLineData num endPage endMove rsv coded s = refuseLine .noSuchMove 0 := by
  unfold answerLineData
  rw [unknown]

theorem answerLineData_of_bad (found : s.moveNumbered? num.toNat = some m) (bad : LineRefused endPage endMove rsv m) :
    answerLineData num endPage endMove rsv coded s = refuseLine .badValue m.shownRoom := by
  unfold answerLineData
  rw [found]
  dsimp only
  split
  next p e hp he =>
    have mark {b : Byte} {v : Bool} (h : markOf b = some v) : ¬1 < b.toNat := fun k => by simp [markOf_eq_none k] at h
    exact if_pos ((bad.resolve_left (mark hp)).resolve_left (mark he))
  · rfl

theorem Move.closed_iff (m : Move) : (m.live = false ∨ m.state = .draining)
    ↔ m.state ≠ .pending ∧ m.state ≠ .starting ∧ m.state ≠ .running := by
  unfold Move.live
  cases m.state with
  | pending | starting | running | draining | done | failed | aborted => simp

theorem answerLineData_of_known (found : s.moveNumbered? num.toNat = some m)
    (good : ¬LineRefused endPage endMove rsv m) :
    answerLineData num endPage endMove rsv coded s =
      if m.state ≠ .pending ∧ m.state ≠ .starting ∧ m.state ≠ .running then refuseLine .moveEnded m.shownRoom
      else if m.state ≠ .running ∨ m.room = 0 ∨ 0 < m.headerLeft then refuseLine .noRoom m.shownRoom
      else if ¬(endPage = 1 ∨ endMove = 1) ∧ 8190 ≤ m.srcLines then refuseLine .pageLong m.shownRoom
      else
        .ok [byte1 ((((s.acceptLine m coded (endPage == 1) (endMove == 1)).move? m.id).map Move.shownRoom).getD 0)]
          fun s => (s.acceptLine m coded (endPage == 1) (endMove == 1)).settle := by
  rw [LineRefused, not_or, not_or] at good
  obtain ⟨hp, he, rest⟩ := good
  unfold answerLineData
  rw [found, markOf_eq_some (by omega), markOf_eq_some (by omega)]
  refine (if_neg rest).trans ?_
  have tooMany : m.lineTooMany (endPage == 1 || endMove == 1) = true
      ↔ ¬(endPage = 1 ∨ endMove = 1) ∧ 8190 ≤ m.srcLines := by
    simp [Move.lineTooMany]
  simp only [Move.closed_iff, tooMany]

end answers

/-! ## The accepted line (R138) -/

theorem State.headerLines_onMove (s : State) (id : Nat) (f : Move → Move) :
    (s.onMove id f).headerLines = s.headerLines := rfl

/-- The record of a move after its line has been accepted. -/
theorem State.move?_acceptLine {s : State} {m : Move} {w : Nat} {d : Density} (source : m.source = .linkIn w d)
    (found : s.move? m.id = some m) (coded : List Byte) (endPage endMove : Bool) :
    let line := decodeLine w coded
    let entered := (m.countRepair line.2).enter s.headWidth s.freeSlot d line.1 (endPage || endMove)
    (s.acceptLine m coded endPage endMove).move? m.id = some (
      if endMove then { entered with state := .draining }
      else if endPage then entered.nextSourcePage s.headerLines
      else entered) := by
  intro line entered
  have keeps (n : Move) : ((n.countRepair line.2).enter s.headWidth s.freeSlot (s.sourceDensity n) line.1
      (endPage || endMove)).id = n.id := by
    obtain ⟨-, -, -, -, -, -, -, id⟩ :=
      (n.countRepair line.2).enter_keeps s.headWidth s.freeSlot (s.sourceDensity n) line.1 (endPage || endMove)
    rw [id, Move.countRepair_eq]
  have width : s.sourceWidth m = w := by rw [State.sourceWidth, source]
  have density : s.sourceDensity m = d := by rw [State.sourceDensity, source]
  have first := (State.move?_onMove (s := s) (id := m.id) keeps).trans (congrArg (Option.map _) found)
  rw [Option.map_some, density] at first
  unfold State.acceptLine
  dsimp only
  rw [width]
  cases endMove
  · cases endPage
    · exact first
    · exact (State.move?_onMove (f := Move.nextSourcePage s.headerLines) fun _ => rfl).trans
        (congrArg (Option.map _) first)
  · exact (State.move?_onMove (f := fun m => { m with state := .draining }) fun _ => rfl).trans
      (congrArg (Option.map _) first)

/-- What the room shown needs does not see the link. -/
theorem State.move?_acceptLine_inHand (s : State) (f : Frame) (m : Move) (coded : List Byte) (endPage endMove : Bool)
    (id : Nat) : ((s.inHand f).acceptLine m coded endPage endMove).move? id
      = (s.acceptLine m coded endPage endMove).move? id := by
  cases endMove
  · cases endPage
    · rfl
    · rfl
  · rfl

/-- Settles O46. -/
theorem lineDataByCases : Obligations.LineDataByCases := by
  unfold Obligations.LineDataByCases
  intro s tag num endPage endMove rsv coded hs long short i
  have fits : i.LengthFits := ⟨long, short⟩
  refine ⟨fun unknown => hs.answers i rfl fits (answerLineData_of_unknown unknown), fun m found => ?_⟩
  intro room ends bad closed full
  have shown : m.shownRoom = room := m.shownRoom_eq
  have answer (f : Frame) (good : ¬bad) := answerLineData_of_known (s := s.inHand f) (coded := coded) found good
  have filled : (m.state ≠ .running ∨ m.room = 0 ∨ 0 < m.headerLeft) ↔ full := by
    by_cases running : m.state = .running
    · rw [← show m.shownRoom = m.room from if_pos (m.flowing_iff.mpr (.inl running)), shown]
    · simp [full, running]
  simp only [shown, filled] at answer
  refine ⟨fun k => ?_, fun good shut => ?_, fun good waits k => ?_, fun good waits empty inner many => ?_,
    fun good waits empty few => ?_⟩
  · exact hs.answers i rfl fits (shown ▸ answerLineData_of_bad (s := s.inHand _) found k)
  · exact hs.answers i rfl fits ((answer _ good).trans (if_pos shut))
  · exact hs.answers i rfl fits ((answer _ good).trans ((if_neg waits).trans (if_pos k)))
  · exact hs.answers i rfl fits ((answer _ good).trans ((if_neg waits).trans ((if_neg empty).trans
      (if_pos ⟨inner, many⟩))))
  · have room : ¬(¬ends ∧ 8190 ≤ m.srcLines) := by
      rintro ⟨inner, many⟩
      exact absurd (few.resolve_left inner) (by omega)
    have taken := hs.answers i rfl fits ((answer _ good).trans ((if_neg waits).trans ((if_neg empty).trans (if_neg room))))
    refine ⟨_, taken, fun w d source known => ?_⟩
    intro line entered
    have after := State.move?_acceptLine source known coded (endPage == 1) (endMove == 1)
    obtain ⟨count, -, -, state, -, -, page, -⟩ := (m.countRepair line.2).enter_keeps s.headWidth s.freeSlot d line.1
      (endPage == 1 || endMove == 1)
    have same : (m.countRepair line.2).enter s.headWidth s.freeSlot d line.1 (endPage == 1 || endMove == 1) = entered :=
      rfl
    rw [same, Move.countRepair_eq] at count state page
    rw [not_not.mp fun other => empty (.inl other)] at state
    dsimp only at after
    rw [same] at after
    refine ⟨_, after, by rw [State.move?_acceptLine_inHand, after]; rfl, ?_⟩
    clear_value entered
    by_cases last : endMove = 1
    · subst last
      exact ⟨rfl, rfl, count, rfl, page.trans (if_neg fun k => absurd k.2 (by decide)).symm⟩
    · have mark : ¬1 < endMove.toNat := fun k => good (.inr (.inl k))
      have goes : endMove = 0 := by bv_omega
      rw [if_neg (by simpa using last), if_neg last]
      by_cases ended : endPage = 1
      · subst ended
        exact ⟨rfl, rfl, count, state, (congrArg (· + 1) page).trans (if_pos ⟨rfl, goes⟩).symm⟩
      · rw [if_neg (by simpa using ended), if_neg fun k => ended k.1]
        exact ⟨rfl, rfl, count, state, page⟩

end Sys2Proof.Machine
end

section
/-! PROOFS. START_MOVE: the fields and the checks (11.4, R121, R198). -/

namespace Sys2Proof.Machine

/-! ## The operand bytes read back -/

theorem markOf_eq_some_iff {b : Byte} {v : Bool} : markOf b = some v ↔ b = markByte v := by
  by_cases high : 1 < b.toNat
  · rw [markOf_eq_none high]
    cases v
    · simp [markByte]; bv_omega
    · simp [markByte]; bv_omega
  · obtain rfl | rfl : b = 0 ∨ b = 1 := by bv_omega
    · cases v
      · decide
      · decide
    · cases v
      · decide
      · decide

theorem densityOf_eq_some_iff {b : Byte} {d : Density} : densityOf b = some d ↔ b = d.code := by
  by_cases high : 2 < b.toNat
  · rw [densityOf_eq_none high]
    cases d
    all_goals simp only [Density.code, reduceCtorEq, false_iff]; bv_omega
  · obtain rfl | rfl | rfl : b = 0 ∨ b = 1 ∨ b = 2 := by bv_omega
    all_goals
      cases d
      all_goals decide

theorem classOf_eq_some_iff {b : Byte} {c : DocClass} : classOf b = some c ↔ b = c.code := by
  have same : classOf b = (densityOf b).map fun
      | .v1 => .received
      | .v2 => .outgoing
      | .v4 => .copySpool := by
    unfold classOf densityOf
    split
    all_goals rfl
  rw [same, Option.map_eq_some_iff]
  simp only [densityOf_eq_some_iff]
  constructor
  · rintro ⟨d, rfl, rfl⟩
    cases d
    all_goals rfl
  · rintro rfl
    cases c
    · exact ⟨.v1, rfl, rfl⟩
    · exact ⟨.v2, rfl, rfl⟩
    · exact ⟨.v4, rfl, rfl⟩

theorem widthOf_eq_some_iff {w : Word16} {n : Nat} : widthOf w = some n ↔ w.toNat = n ∧ (n = 1728 ∨ n = 2048) := by
  by_cases odd : w.toNat ≠ 1728 ∧ w.toNat ≠ 2048
  · rw [widthOf_eq_none odd]
    simp only [reduceCtorEq, false_iff]
    omega
  · rw [widthOf_eq_some odd, Option.some.injEq]
    omega

/-! ## The fields of a request (11.4) -/

section fields

variable {f8 f9 f12 f13 f16 : Byte} {f10 f14 : Word16}

theorem sourceOf_scan {r : Source} : sourceOf 0 f8 f9 f10 f12 = some r
    ↔ ∃ d, r = .scan d f9.toNat ∧ f8 = d.code ∧ f10 = 0 ∧ f12 = 0 := by
  show (if f10 = 0 ∧ f12 = 0 then (densityOf f8).map fun d => Source.scan d f9.toNat else none) = some r ↔ _
  simp only [Option.ite_none_right_eq_some, Option.map_eq_some_iff, densityOf_eq_some_iff]
  constructor
  · rintro ⟨⟨h10, h12⟩, d, h8, rfl⟩
    exact ⟨d, rfl, h8, h10, h12⟩
  · rintro ⟨d, rfl, h8, h10, h12⟩
    exact ⟨⟨h10, h12⟩, d, h8, rfl⟩

theorem sourceOf_linkIn {r : Source} : sourceOf 1 f8 f9 f10 f12 = some r
    ↔ ∃ w d, r = .linkIn w d ∧ f8 = d.code ∧ f9 = 0 ∧ f10.toNat = w ∧ (w = 1728 ∨ w = 2048) ∧ f12 = 0 := by
  have shape : sourceOf 1 f8 f9 f10 f12 = if f9 = 0 ∧ f12 = 0 then
      (densityOf f8).bind fun d => (widthOf f10).map fun w => Source.linkIn w d else none := by
    show (if f9 = 0 ∧ f12 = 0 then _ else none) = _
    cases densityOf f8
    · rfl
    · cases widthOf f10
      · rfl
      · rfl
  rw [shape]
  simp only [Option.ite_none_right_eq_some, Option.bind_eq_some_iff, Option.map_eq_some_iff, densityOf_eq_some_iff,
    widthOf_eq_some_iff]
  constructor
  · rintro ⟨⟨h9, h12⟩, d, h8, w, ⟨h10, width⟩, rfl⟩
    exact ⟨w, d, rfl, h8, h9, h10, width, h12⟩
  · rintro ⟨w, d, rfl, h8, h9, h10, width, h12⟩
    exact ⟨⟨h9, h12⟩, d, h8, w, ⟨h10, width⟩, rfl⟩

theorem sourceOf_store {r : Source} : sourceOf 2 f8 f9 f10 f12 = some r
    ↔ r = .store f10.toNat f12.toNat f9.toNat ∧ f8 = 0 ∧ f9 ≠ 0 := by
  show (if f8 = 0 ∧ f9 ≠ 0 then some (Source.store f10.toNat f12.toNat f9.toNat) else none) = some r ↔ _
  simp only [Option.ite_none_right_eq_some, Option.some.injEq]
  exact ⟨fun ⟨h, e⟩ => ⟨e.symm, h⟩, fun ⟨e, h⟩ => ⟨h, e.symm⟩⟩

theorem sourceOf_other {source : Byte} (other : 2 < source.toNat) : sourceOf source f8 f9 f10 f12 = none := by
  unfold sourceOf
  split
  · omega
  · omega
  · omega
  · rfl

theorem sourceOf_eq_some_iff {source : Byte} {r : Source} : sourceOf source f8 f9 f10 f12 = some r ↔ (match r with
    | .scan d limit => source = 0 ∧ f8 = d.code ∧ f9.toNat = limit ∧ f10 = 0 ∧ f12 = 0
    | .linkIn w d => source = 1 ∧ f8 = d.code ∧ f9 = 0 ∧ f10.toNat = w ∧ (w = 1728 ∨ w = 2048) ∧ f12 = 0
    | .store doc first count =>
      source = 2 ∧ f8 = 0 ∧ f9.toNat = count ∧ 1 ≤ count ∧ f10.toNat = doc ∧ f12.toNat = first) := by
  by_cases other : 2 < source.toNat
  · rw [sourceOf_other other]
    have zero : source ≠ 0 := by bv_omega
    have one : source ≠ 1 := by bv_omega
    have two : source ≠ 2 := by bv_omega
    cases r with
    | scan d limit => exact ⟨fun h => (nomatch h), fun h => absurd h.1 zero⟩
    | linkIn w d => exact ⟨fun h => (nomatch h), fun h => absurd h.1 one⟩
    | store doc first count => exact ⟨fun h => (nomatch h), fun h => absurd h.1 two⟩
  · obtain rfl | rfl | rfl : source = 0 ∨ source = 1 ∨ source = 2 := by bv_omega
    · rw [sourceOf_scan]
      cases r with
      | scan d limit => simp; tauto
      | linkIn w d => simp
      | store doc first count => simp
    · rw [sourceOf_linkIn]
      cases r with
      | scan d limit => simp
      | linkIn w d =>
        simp only [Source.linkIn.injEq, true_and]
        constructor
        · rintro ⟨w, d, ⟨rfl, rfl⟩, fields⟩
          exact fields
        · exact fun fields => ⟨w, d, ⟨rfl, rfl⟩, fields⟩
      | store doc first count => simp
    · rw [sourceOf_store]
      cases r with
      | scan d limit => simp
      | linkIn w d => simp
      | store doc first count =>
        have some_ : f9 ≠ 0 ↔ 1 ≤ f9.toNat := by bv_omega
        simp only [Source.store.injEq, some_, true_and]
        constructor
        · rintro ⟨⟨rfl, rfl, rfl⟩, h8, h9⟩
          exact ⟨h8, rfl, h9, rfl, rfl⟩
        · rintro ⟨h8, rfl, h9, rfl, rfl⟩
          exact ⟨⟨rfl, rfl, rfl⟩, h8, h9⟩

variable {close : Bool}

theorem sinkOf_store {r : Sink} : sinkOf 2 close f13 f14 f16 = some r ↔
    ∃ doc c auto, r = .store doc c auto close ∧ f14.toNat = doc
      ∧ (doc = 0 → f13 = c.code ∧ f16 = markByte auto)
      ∧ (doc ≠ 0 → f13 = 0 ∧ f16 = 0 ∧ c = .received ∧ auto = false) := by
  have shape : sinkOf 2 close f13 f14 f16 = if f14 = 0 then
      (classOf f13).bind fun c => (markOf f16).map fun a => Sink.store 0 c a close
      else if f13 = 0 ∧ f16 = 0 then some (.store f14.toNat .received false close) else none := by
    show (if f14 = 0 then _ else _) = _
    congr 1
    cases classOf f13
    · rfl
    · cases markOf f16
      · rfl
      · rfl
  rw [shape]
  split
  next zero =>
    subst zero
    simp only [Option.bind_eq_some_iff, Option.map_eq_some_iff, classOf_eq_some_iff, markOf_eq_some_iff]
    constructor
    · rintro ⟨c, h13, a, h16, rfl⟩
      exact ⟨0, c, a, rfl, rfl, fun _ => ⟨h13, h16⟩, fun k => absurd rfl k⟩
    · rintro ⟨doc, c, a, rfl, rfl, fields, -⟩
      obtain ⟨h13, h16⟩ := fields rfl
      exact ⟨c, h13, a, h16, rfl⟩
  next named =>
    have named : f14.toNat ≠ 0 := by bv_omega
    simp only [Option.ite_none_right_eq_some, Option.some.injEq]
    constructor
    · rintro ⟨⟨h13, h16⟩, rfl⟩
      exact ⟨_, _, _, rfl, rfl, fun k => absurd k named, fun _ => ⟨h13, h16, rfl, rfl⟩⟩
    · rintro ⟨doc, c, a, rfl, rfl, -, fields⟩
      obtain ⟨h13, h16, rfl, rfl⟩ := fields named
      exact ⟨⟨h13, h16⟩, rfl⟩

theorem sinkOf_other {sink : Byte} (other : 2 < sink.toNat) : sinkOf sink close f13 f14 f16 = none := by
  unfold sinkOf
  split
  · omega
  · omega
  · omega
  · rfl

theorem sinkOf_eq_some_iff {sink : Byte} {r : Sink} : sinkOf sink close f13 f14 f16 = some r ↔ (match r with
    | .print => sink = 0 ∧ f13 = 0 ∧ f14 = 0 ∧ f16 = 0
    | .linkOut => sink = 1 ∧ f13 = 0 ∧ f14 = 0 ∧ f16 = 0
    | .store doc c auto closes => sink = 2 ∧ f14.toNat = doc ∧ closes = close
      ∧ (doc = 0 → f13 = c.code ∧ f16 = markByte auto)
      ∧ (doc ≠ 0 → f13 = 0 ∧ f16 = 0 ∧ c = .received ∧ auto = false)) := by
  by_cases other : 2 < sink.toNat
  · rw [sinkOf_other other]
    have zero : sink ≠ 0 := by bv_omega
    have one : sink ≠ 1 := by bv_omega
    have two : sink ≠ 2 := by bv_omega
    cases r with
    | print => exact ⟨fun h => (nomatch h), fun h => absurd h.1 zero⟩
    | linkOut => exact ⟨fun h => (nomatch h), fun h => absurd h.1 one⟩
    | store doc c auto closes => exact ⟨fun h => (nomatch h), fun h => absurd h.1 two⟩
  · obtain rfl | rfl | rfl : sink = 0 ∨ sink = 1 ∨ sink = 2 := by bv_omega
    · show (if f13 = 0 ∧ f14 = 0 ∧ f16 = 0 then some Sink.print else none) = some r ↔ _
      cases r with
      | print | linkOut | store doc c auto closes => simp
    · show (if f13 = 0 ∧ f14 = 0 ∧ f16 = 0 then some Sink.linkOut else none) = some r ↔ _
      cases r with
      | print | linkOut | store doc c auto closes => simp
    · rw [sinkOf_store]
      cases r with
      | print | linkOut => simp
      | store doc c auto closes =>
        simp only [Sink.store.injEq, true_and]
        constructor
        · rintro ⟨doc, c, a, ⟨rfl, rfl, rfl, rfl⟩, fields⟩
          exact ⟨fields.1, rfl, fields.2⟩
        · rintro ⟨named, rfl, fields⟩
          exact ⟨doc, c, auto, ⟨rfl, rfl, rfl, rfl⟩, named, fields⟩

end fields

theorem requestOf_eq_some_iff {source sink depth target reduce header fallback close f8 f9 : Byte} {f10 : Word16}
    {f12 f13 : Byte} {f14 : Word16} {f16 f17 : Byte} {r : MoveRequest} :
    requestOf source sink depth target reduce header fallback close f8 f9 f10 f12 f13 f14 f16 f17 = some r
      ↔ r.depth = depth.toNat ∧ 2 ≤ r.depth ∧ r.depth ≤ 12 ∧ f17 = 0 ∧ target = r.target.code
        ∧ reduce = markByte r.reduce ∧ header = markByte r.withHeader ∧ fallback = markByte r.fallback
        ∧ close = markByte r.close ∧ sourceOf source f8 f9 f10 f12 = some r.source
        ∧ sinkOf sink r.close f13 f14 f16 = some r.sink := by
  simp only [← markOf_eq_some_iff, ← densityOf_eq_some_iff]
  unfold requestOf
  split
  next rd h fb cl t hr hh hf hc ht =>
    rw [hr, hh, hf, hc, ht]
    simp only [Option.some.injEq]
    split
    next a b ha hb =>
      simp only [Option.ite_none_right_eq_some, Option.some.injEq]
      constructor
      · rintro ⟨⟨low, high, rsv⟩, rfl⟩
        exact ⟨rfl, low, high, rsv, rfl, rfl, rfl, rfl, rfl, ha, hb⟩
      · rintro ⟨depth, low, high, rsv, rfl, rfl, rfl, rfl, rfl, ka, kb⟩
        obtain rfl := Option.some.inj (ha.symm.trans ka)
        obtain rfl := Option.some.inj (hb.symm.trans kb)
        exact ⟨⟨depth ▸ low, depth ▸ high, rsv⟩, by rw [← depth]⟩
    next missing =>
      simp only [reduceCtorEq, false_iff]
      rintro ⟨-, -, -, -, -, -, -, -, rfl, ka, kb⟩
      exact missing _ _ ka kb
  next missing =>
    simp only [reduceCtorEq, false_iff]
    rintro ⟨-, -, -, -, kt, kr, kh, kf, kc, -, -⟩
    exact missing _ _ _ _ _ kr kh kf kc kt

/-! ## The checks (R121) -/

section checks

variable (s : State) (r : MoveRequest)

theorem MoveRequest.badRoute_iff : r.badRoute = true
    ↔ (r.source.isLinkIn = true ∧ r.sink = .linkOut) ∨ (r.source.isStore = true ∧ r.sink.isStore = true) := by
  simp only [MoveRequest.badRoute, Bool.or_eq_true, Bool.and_eq_true, beq_iff_eq]

/-- The density of a source, when it has one of its own. -/
def Source.density? : Source → Option Density
  | .scan d _ => some d
  | .linkIn _ d => some d
  | .store _ _ _ => none

theorem MoveRequest.targetTooHigh_eq :
    r.targetTooHigh = r.source.density?.any fun d => decide (d.rank < r.target.rank) := by
  unfold MoveRequest.targetTooHigh
  cases r.source
  all_goals rfl

theorem MoveRequest.badOption_iff : r.badOption = true
    ↔ (r.withHeader = true ∧ r.sink.isStore = true)
      ∨ (r.fallback = true ∧ (r.source.isLinkIn = false ∨ r.sink ≠ .print))
      ∨ (r.close = true ∧ r.sink.isStore = false)
      ∨ (r.source.density?.any fun d => decide (d.rank < r.target.rank)) = true := by
  simp only [MoveRequest.badOption, MoveRequest.targetTooHigh_eq, Bool.or_eq_true, Bool.and_eq_true,
    Bool.not_eq_true', Bool.and_eq_false_iff, beq_eq_false_iff_ne, or_assoc, ne_eq]

def Source.isScan : Source → Bool
  | .scan _ _ => true
  | _ => false

theorem State.noSheet_iff : s.noSheet r = true
    ↔ r.source.isScan = true ∧ (s.feed.doc = .none ∨ s.feed.doc = .jammed) := by
  unfold State.noSheet
  cases r.source with
  | scan d n => simp [Source.isScan]
  | linkIn w d => simp [Source.isScan]
  | store a b c => simp [Source.isScan]

theorem State.tableFull_eq : s.tableFull = s.path.table.all fun e => e.any Move.live := by
  unfold State.tableFull
  congr 1
  funext e
  cases e
  · rfl
  · rfl

theorem State.moveProblem_eq : s.moveProblem r =
    if (r.source.isLinkIn = true ∧ r.sink = .linkOut) ∨ (r.source.isStore = true ∧ r.sink.isStore = true) then
      some .badRoute
    else if (r.withHeader = true ∧ r.sink.isStore = true)
        ∨ (r.fallback = true ∧ (r.source.isLinkIn = false ∨ r.sink ≠ .print))
        ∨ (r.close = true ∧ r.sink.isStore = false)
        ∨ (r.source.density?.any fun d => decide (d.rank < r.target.rank)) = true then some .badValue
    else (s.sourceProblem r).orElse fun _ => (s.sinkProblem r).orElse fun _ =>
      if r.source.isScan = true ∧ (s.feed.doc = .none ∨ s.feed.doc = .jammed) then some .notLoaded
      else if (s.path.table.all fun e => e.any Move.live) = true then some .tableFull
      else none := by
  unfold State.moveProblem
  simp only [MoveRequest.badRoute_iff, MoveRequest.badOption_iff, State.noSheet_iff, State.tableFull_eq]
  congr 2
  cases s.sourceProblem r with
  | some x => rfl
  | none =>
    cases s.sinkProblem r with
    | some x => rfl
    | none => rfl

/-- A page that a STORE source may read (R121, log 19). -/
theorem Document.readable_iff (target : Density) (d : Document) (index : Nat) : d.readable target index = true
    ↔ ∃ p, d.page? index = some p ∧ p.condition = .complete ∧ target.rank ≤ p.density.rank := by
  unfold Document.readable
  cases d.page? index with
  | none => simp
  | some p => simp

variable {s r}

theorem State.sourceProblem_of_store {doc first count : Nat} (source : r.source = .store doc first count) :
    (s.sourceProblem r = some .noSuchDoc ↔ s.store.doc? doc = none)
    ∧ (s.sourceProblem r = none ↔ ∃ d, s.store.doc? doc = some d ∧ ∀ i < count, ∃ p,
      d.page? (first + i) = some p ∧ p.condition = .complete ∧ r.target.rank ≤ p.density.rank)
    ∧ (s.sourceProblem r = none ∨ s.sourceProblem r = some .noSuchDoc ∨ s.sourceProblem r = some .badValue) := by
  unfold State.sourceProblem
  rw [source]
  dsimp only
  cases s.store.doc? doc with
  | none => simp
  | some d =>
    simp only [← Document.readable_iff, Option.some.injEq, exists_eq_left']
    have all : ((List.range count).map fun i => first + i).all (d.readable r.target) = true
        ↔ ∀ i < count, d.readable r.target (first + i) = true := by simp
    rw [← all]
    split
    next good => simp [good]
    next bad => simp [bad]

theorem State.sinkProblem_of_store {doc : Nat} {c : DocClass} {auto closes : Bool}
    (sink : r.sink = .store doc c auto closes) (named : doc ≠ 0) :
    s.sinkProblem r = (match s.store.doc? doc with
      | none => some .noSuchDoc
      | some d =>
        if d.closed = true then some .badValue
        else if (s.moves.any fun m => m.live && m.sinkDoc? == some doc) = true then some .inUse
        else none) := by
  unfold State.sinkProblem
  rw [sink]
  dsimp only
  rw [if_neg named]
  rfl

end checks

/-- Settles O44. -/
theorem startMoveChecks : Obligations.StartMoveChecks := by
  unfold Obligations.StartMoveChecks
  refine ⟨fun source sink depth target reduce header fallback close f8 f9 f10 f12 f13 f14 f16 f17 r => ?_, fun s r => ?_⟩
  · have fields : requestOf source sink depth target reduce header fallback close f8 f9 f10 f12 f13 f14 f16 f17 = some r
        ↔ _ := requestOf_eq_some_iff
    rw [sourceOf_eq_some_iff, sinkOf_eq_some_iff] at fields
    exact fields
  · refine ⟨s.moveProblem_eq r, fun doc first count source => State.sourceProblem_of_store source,
      fun doc c auto closes sink named => State.sinkProblem_of_store sink named, fun other => ?_, fun free => ?_⟩
    · unfold State.sourceProblem
      cases source : r.source with
      | scan d n | linkIn w d => rfl
      | store a b c => simp [source] at other
    · unfold State.sinkProblem
      obtain other | ⟨c, auto, closes, sink⟩ := free
      · cases sink : r.sink with
        | print | linkOut => rfl
        | store a b c d => simp [sink] at other
      · rw [sink]
        rfl

end Sys2Proof.Machine
end

section
/-! PROOFS. START_MOVE: the record that is accepted, its number and the state shown (R118, R119, R122). -/

namespace Sys2Proof.Machine

/-! ## The number of a new move (R119) -/

/-- The number after another, 1 after 255. -/
def numberAfter (n : Nat) : Nat := if 255 ≤ n then 1 else n + 1

/-- The numbers are tried in turn: the first one not held is taken, unless all that are tried are held. -/
theorem nextNumber_cases (held : List Nat) (fuel n : Nat) :
    (∃ k < fuel, nextNumber held fuel n = numberAfter^[k + 1] n ∧ numberAfter^[k + 1] n ∉ held
      ∧ ∀ j < k, numberAfter^[j + 1] n ∈ held)
    ∨ ∀ j < fuel, numberAfter^[j + 1] n ∈ held := by
  induction fuel generalizing n with
  | zero => exact .inr fun j h => absurd h (by omega)
  | succ fuel ih =>
    have tries : nextNumber held (fuel + 1) n =
        if held.contains (numberAfter n) then nextNumber held fuel (numberAfter n) else numberAfter n := rfl
    by_cases mem : numberAfter n ∈ held
    · rw [if_pos (by simpa using mem)] at tries
      have before (k : Nat) (all : ∀ j < k, numberAfter^[j + 1] (numberAfter n) ∈ held) :
          ∀ j < k + 1, numberAfter^[j + 1] n ∈ held := by
        intro j small
        cases j with
        | zero => exact mem
        | succ j => exact all j (by omega)
      obtain ⟨k, small, taken, free, held'⟩ | all := ih (numberAfter n)
      · exact .inl ⟨k + 1, by omega, tries.trans taken, free, before k held'⟩
      · exact .inr (before fuel all)
    · rw [if_neg (by simpa using mem)] at tries
      exact .inl ⟨0, by omega, tries, mem, fun j h => absurd h (by omega)⟩

/-- Four numbers in turn are four. -/
theorem numberAfter_nodup (n : Nat) : ((List.range 4).map fun j => numberAfter^[j + 1] n).Nodup := by
  have four : (List.range 4).map (fun j => numberAfter^[j + 1] n) = [numberAfter n, numberAfter (numberAfter n),
    numberAfter (numberAfter (numberAfter n)), numberAfter (numberAfter (numberAfter (numberAfter n)))] := rfl
  rw [four]
  simp only [numberAfter]
  split_ifs
  all_goals simp
  all_goals omega

theorem nextNumber_first {held : List Nat} (few : held.length ≤ 3) (n : Nat) :
    ∃ k ≤ 3, nextNumber held 4 n = numberAfter^[k + 1] n ∧ nextNumber held 4 n ∉ held
      ∧ ∀ j < k, numberAfter^[j + 1] n ∈ held := by
  obtain ⟨k, small, taken, free, before⟩ | all := nextNumber_cases held 4 n
  · exact ⟨k, by omega, taken, taken ▸ free, before⟩
  · have inside : (List.range 4).map (fun j => numberAfter^[j + 1] n) ⊆ held := by
      intro x mem
      obtain ⟨j, small, rfl⟩ := List.mem_map.mp mem
      exact all j (List.mem_range.mp small)
    have enough := ((numberAfter_nodup n).subperm inside).length_le
    simp only [List.length_map, List.length_range] at enough
    omega

/-- The entry of a new move: the lowest empty one, or that of the move that ended earliest (R119). -/
theorem Path.entryFor_eq {p : Path} {e : Nat} (entry : p.table.findIdx? Option.isNone = some e
    ∨ (p.table.findIdx? Option.isNone = none ∧ ∃ id, p.endings.head? = some id
      ∧ p.table.findIdx? (fun x => x.map Move.id == some id) = some e)) : p.entryFor = e := by
  unfold Path.entryFor
  obtain empty | ⟨full, id, head, found⟩ := entry
  · rw [empty]
  · have holds : p.entryOf id = some e := by
      rw [← found]
      unfold Path.entryOf
      congr 1
      funext x
      cases x
      · rfl
      · simp
    rw [full, head]
    simp [holds]

/-! ## The state shown (R122) -/

/-- The record of an acceptance order, where there is one, is in STARTING or has failed. -/
def State.Entered (id : Nat) (s : State) : Prop := ∀ n, s.move? id = some n → n.state = .starting ∨ n.state = .failed

section entered

variable {id : Nat} {s : State}

theorem State.Entered.of_path {t : State} (h : s.Entered id) (same : t.path = s.path) : t.Entered id := by
  unfold State.Entered State.move? State.moves
  rw [same]
  exact h

theorem State.Entered.failMove (h : s.Entered id) (cause : MoveCause) (other : Nat) :
    (s.failMove cause other).Entered id := by
  intro n found
  unfold State.failMove at found
  rw [State.endMove_move?] at found
  split at found
  · obtain ⟨m, stands, rfl⟩ := Option.map_eq_some_iff.mp found
    split
    · exact .inr rfl
    · exact h m stands
  · exact h n found

theorem State.Entered.onMove (h : s.Entered id) (other : Nat) {f : Move → Move} (keeps : ∀ m, (f m).id = m.id)
    (state : ∀ m, (f m).state = m.state) : (s.onMove other f).Entered id := by
  intro n found
  rw [State.move?_onMove_ite keeps] at found
  split at found
  · obtain ⟨m, stands, rfl⟩ := Option.map_eq_some_iff.mp found
    rw [state]
    exact h m stands
  · exact h n found

theorem State.Entered.moveRequest (h : s.Entered id) (ch : ChannelId) (other : Nat) :
    (s.moveRequest ch other).Entered id := by
  unfold State.moveRequest
  split
  · exact h.failMove _ _
  · exact h.failMove _ _
  · exact h.of_path (by cases ch <;> rfl)

theorem State.Entered.storeFull (h : s.Entered id) (other doc page : Nat) :
    (s.storeFull other doc page).Entered id :=
  (h.of_path (State.report_path ..)).failMove _ _

theorem State.Entered.makeSinkDoc (h : s.Entered id) (m : Move) : (s.makeSinkDoc m).Entered id := by
  unfold State.makeSinkDoc
  split
  · split
    · exact h.storeFull _ _ _
    · exact State.Entered.onMove (h.of_path rfl) _ (fun _ => rfl) fun _ => rfl
  · exact h

theorem State.enterStarting_entered (id : Nat) (s : State) : (s.enterStarting id).Entered id := by
  have begun : (s.onMove id fun m => { m with state := .starting }).Entered id := by
    intro n found
    rw [State.move?_onMove (f := fun m => { m with state := .starting }) fun _ => rfl] at found
    obtain ⟨m, -, rfl⟩ := Option.map_eq_some_iff.mp found
    exact .inl rfl
  unfold State.enterStarting
  dsimp only
  split
  · exact begun
  · split_ifs
    · exact begun.failMove _ _
    · exact begun.failMove _ _
    · exact begun.failMove _ _
    · exact (begun.makeSinkDoc _).moveRequest _ _
    · exact begun.makeSinkDoc _

theorem State.Entered.scanRequest (h : s.Entered id) : ((ruleScanRequest s).getD s).Entered id := by
  unfold ruleScanRequest State.forMove
  cases s.oldestMove? fun m => m.scanStarting && s.feed.doc == .loaded && !(s.df.asks (.move m.id)) with
  | none => exact h
  | some m => exact h.moveRequest _ _

end entered

/-- The state shown is PENDING unless the arbitration admits the move, which then starts or fails (R122, log 30). -/
theorem State.shownState_cases (id : Nat) (s : State) :
    (s.shownState id = .pending ↔ s.admitted? ≠ some id)
    ∧ (s.shownState id = .pending ∨ s.shownState id = .starting ∨ s.shownState id = .failed) := by
  unfold State.shownState
  split
  next admitted =>
    have entered := (s.enterStarting_entered id).scanRequest
    have shown : ((((ruleScanRequest (s.enterStarting id)).getD (s.enterStarting id)).move? id).map Move.state).getD
        .starting = .starting ∨ ((((ruleScanRequest (s.enterStarting id)).getD (s.enterStarting id)).move? id).map
        Move.state).getD .starting = .failed := by
      cases found : ((ruleScanRequest (s.enterStarting id)).getD (s.enterStarting id)).move? id with
      | none => exact .inl rfl
      | some n => exact entered n found
    dsimp only
    refine ⟨?_, .inr shown⟩
    obtain shown | shown := shown
    · simp [shown, admitted]
    · simp [shown, admitted]
  next refused => exact ⟨iff_of_true rfl refused, .inl rfl⟩

/-- Settles O43. -/
theorem startMoveAcceptsOrRefuses : Obligations.StartMoveAcceptsOrRefuses := by
  unfold Obligations.StartMoveAcceptsOrRefuses
  refine ⟨fun s tag source sink depth target reduce header fallback close f8 f9 f10 f12 f13 f14 f16 f17 hs => ?_,
    fun p r e entry => ?_⟩
  · intro i asked
    have answer (f : Frame) : answerOf i (s.inHand f) = (match asked with
        | none => .refuse .badValue
        | some r => match s.moveProblem r with
          | some x => .refuse x
          | none => .ok [byte1 s.path.numberFor, (((s.inHand f).onPath (Path.accept r)).shownState s.path.nextId).code]
            fun s => (s.onPath (Path.accept r)).settle) := rfl
    refine ⟨fun bad => hs.refuses i rfl trivial (r := .badValue) ((answer _).trans (by rw [bad])), fun r asks =>
      ⟨fun x problem => ?_, fun good f framed => ?_⟩⟩
    · exact hs.refuses i rfl trivial (r := x) ((answer _).trans (by rw [asks]; dsimp only; rw [problem]))
    · obtain rfl := Option.some.inj framed
      intro shown
      have taken := hs.answers i rfl trivial (p := [0x00, byte1 s.path.numberFor, shown.code])
        (e := fun s => (s.onPath (Path.accept r)).settle)
        ((answer _).trans (by rw [asks]; dsimp only; rw [good]; rfl))
      obtain ⟨waits, states⟩ := State.shownState_cases s.path.nextId ((s.inHand _).onPath (Path.accept r))
      exact ⟨taken, waits, states⟩
  · have own := Path.entryFor_eq entry
    have number : p.numberFor = nextNumber ((p.table.set e none).filterMap fun x => x.map Move.number) 4 p.lastNumber := by
      rw [← own]
      rfl
    refine ⟨by rw [← own]; rfl, rfl, rfl, rfl, ?_⟩
    intro others next few
    rw [number]
    exact nextNumber_first few p.lastNumber

end Sys2Proof.Machine
end

section
/-! PROOFS. The memory check (R164 to R166), the shading run (R77 to R79) and the output pins (R18, R19, R87, R96,
R168). -/

namespace Sys2Proof.Machine

/-! ## Segments and the map -/

theorem mapRead_mapSet_same (n : Nat) (u : SegUse) (m : List (Nat × SegUse)) : mapRead n (mapSet n u m) = some u := by
  induction m with
  | nil => simp [mapSet, mapRead]
  | cons e rest ih =>
    obtain ⟨k, v⟩ := e
    unfold mapSet
    split_ifs with below same
    · simp [mapRead]
    · simp [mapRead]
    · simp [mapRead, Ne.symm same, ih]

theorem mapRead_mapSet_other {k n : Nat} (other : k ≠ n) (u : SegUse) (m : List (Nat × SegUse)) :
    mapRead k (mapSet n u m) = mapRead k m := by
  induction m with
  | nil => simp [mapSet, mapRead, other.symm]
  | cons e rest ih =>
    obtain ⟨j, v⟩ := e
    unfold mapSet
    split_ifs with below same
    · simp [mapRead, other.symm]
    · subst same
      simp [mapRead, other.symm]
    · simp [mapRead, ih]

/-- A segment written leaves every other one. -/
theorem PageMemory.read_write_other {k n : Nat} (other : k ≠ n) (seg : Segment) (m : PageMemory) :
    PageMemory.read k (m.write n seg) = PageMemory.read k m := by
  induction m with
  | nil =>
    unfold PageMemory.write
    split
    · rfl
    · simp [PageMemory.read, other.symm]
  | cons e rest ih =>
    obtain ⟨j, old⟩ := e
    unfold PageMemory.write
    split_ifs with below blank same blank
    · rfl
    · simp [PageMemory.read, other.symm]
    · subst same
      simp [PageMemory.read, other.symm]
    · subst same
      simp [PageMemory.read, other.symm]
    · simp [PageMemory.read, ih]

section nextFree

variable {st : Store} {total first n : Nat}

/-- The first FREE segment from a number on. -/
theorem Store.nextFree_eq_some (inside : n < total) (reached : first ≤ n) (free : mapRead n st.map = none)
    (taken : ∀ k, first ≤ k → k < n → mapRead k st.map ≠ none) : st.nextFree total first = some n := by
  unfold Store.nextFree Store.freeSegments
  rw [List.find?_filter, List.find?_range_eq_some]
  refine ⟨by simp [free, reached], List.mem_range.mpr inside, fun k small => ?_⟩
  by_cases low : first ≤ k
  · simp [taken k low small]
  · simp [low]

theorem Store.nextFree_eq_none (taken : ∀ k, first ≤ k → k < total → mapRead k st.map ≠ none) :
    st.nextFree total first = none := by
  unfold Store.nextFree Store.freeSegments
  rw [List.find?_filter, List.find?_range_eq_none]
  intro k small
  by_cases low : first ≤ k
  · simp [taken k low small]
  · simp [low]

end nextFree

/-- The late reply of the command in hand, which frees the hand for the frame that waits (R5, R8). -/
theorem Link.answerLate_of_handed {l : Link} {f : Frame} (hand : l.hand = some ⟨f, .handed⟩) (p : List Byte) :
    l.answerLate p = { l with
      outbound := l.outbound ++ [replyRecord .reply f p]
      hand := l.waiting.map fun g => Hand.takenWith (l.outbound.length + 1) ⟨g, .untaken⟩
      waiting := none } := by
  unfold Link.answerLate
  rw [hand]
  exact Link.answer_eq .reply f p l

/-! ## CHECK_STORE and the memory check (R164 to R166) -/

section check

variable {s : State} (running : s.held = false) (awake : s.power.state ≠ .sleep) {c : CheckRun}
  (checking : s.store.check = some c)
include running awake checking

theorem State.exec_segmentTested {n : Nat} (next : s.store.nextFree s.total c.next = some n) (passed : Bool) :
    exec (.segmentTested passed) s
      = .next ((s.onStore (Store.testSegment n passed c)).degradedSince s.storeStateCode) := by
  show execSegmentTested passed s = _
  unfold execSegmentTested
  rw [checking]
  dsimp only
  rw [next]
  exact congrArg Host.Outcome.next (if_pos (State.clocked_of running awake))

theorem State.exec_memoryCheckDone (next : s.store.nextFree s.total c.next = none) :
    exec .memoryCheckDone s = .next (s.checkEnded c).finish := by
  show execMemoryCheckDone s = _
  unfold execMemoryCheckDone
  rw [checking]
  dsimp only
  rw [next]
  exact congrArg Host.Outcome.next (if_pos (by rw [State.clocked_of running awake]; rfl))

end check

/-- A segment that passes its test leaves the map, and with it the store state. -/
theorem State.storeStateCode_of_map {s t : State} (startup : t.startup = s.startup) (phase : t.resetPhase = s.resetPhase)
    (straps : t.straps = s.straps) (map : t.store.map = s.store.map) : t.storeStateCode = s.storeStateCode := by
  unfold State.storeStateCode State.recovering Store.retiredCount State.total
  rw [startup, phase, straps, map]

/-- Settles O54. -/
theorem memoryIsChecked : Obligations.MemoryIsChecked := by
  unfold Obligations.MemoryIsChecked
  refine ⟨fun s tag rsv hs => ?_, fun s c n passed running awake checking inside reached free taken => ?_,
    fun s c running awake checking taken => ?_⟩
  · let i : Instr := .checkStore tag rsv
    split_ifs with bad used
    · exact hs.refuses i rfl trivial (r := .badValue) (if_pos bad)
    · exact hs.refuses i rfl trivial (r := .inUse) ((if_neg bad).trans (if_pos used))
    · exact hs.answeredLate i _ rfl trivial (frameStatement i) ((if_neg bad).trans (if_neg used))
  · have tested := State.exec_segmentTested running awake checking
      (Store.nextFree_eq_some inside reached free taken) passed
    refine ⟨tested.trans (congrArg Host.Outcome.next ?_), mapRead_mapSet_same .., fun k other => mapRead_mapSet_other other ..,
      fun k seg other => PageMemory.read_write_other other ..⟩
    cases passed
    · rfl
    · refine if_neg fun ⟨before, after⟩ => ?_
      have same : (s.onStore (Store.testSegment n true c)).storeStateCode = s.storeStateCode :=
        State.storeStateCode_of_map rfl rfl rfl rfl
      rw [same, before] at after
      exact absurd after (by decide)
  · have ended := State.exec_memoryCheckDone running awake checking (Store.nextFree_eq_none taken)
    refine ⟨fun starting => ended.trans ?_, fun tag rsv done hand => ended.trans ?_⟩
    · exact congrArg (Host.Outcome.next ∘ State.finish) (if_pos starting)
    · have late : s.checkEnded c = State.answerLate (0x00 :: (bytes2 c.tested ++ bytes2 c.retired))
          { s with store := { s.store with check := none } } := if_neg (by simp [State.onStore, done])
      rw [late]
      exact congrArg (fun l => Host.Outcome.next
        (State.finish { s with store := { s.store with check := none }, link := l })) (Link.answerLate_of_handed hand _)

/-! ## The shading run (R77 to R79) -/

section scan

variable (s : State)

theorem State.setDoc_scan (d : DocState) (cause : DocCause) (overrun : Nat) :
    (s.setDoc d cause overrun).scan = s.scan := by
  simp [State.setDoc, State.reportDoc]

theorem State.beginAlign_scan (offset overrun : Nat) : (s.beginAlign offset overrun).scan = s.scan := by
  unfold State.beginAlign
  split
  · rfl
  · simp [State.setDoc_scan]

theorem State.enterJammed_scan (cause : DocCause) : (s.enterJammed cause).scan = s.scan := by
  simp [State.enterJammed]

theorem State.gapGate_scan : s.gapGate.scan = s.scan := by
  unfold State.gapGate
  split
  · split
    · rfl
    · rfl
  · rfl

/-- What FDC makes of a sheet at the scan sensor leaves the scan unit (R48, R53, R56, R57). -/
theorem State.scanTakenPresent_scan : s.scanTakenPresent.scan = s.scan := by
  unfold State.scanTakenPresent
  split
  · exact s.enterJammed_scan _
  · split
    · exact State.beginAlign_scan _ _ _
    · rfl
  · split
    · rfl
    · exact State.setDoc_scan _ .loading .nextSheet 0
  · exact State.gapGate_scan _
  · rfl

end scan

section ends

variable {s : State} {f : Frame} (hand : s.link.hand = some ⟨f, .handed⟩)
include hand

/-- The end of a shading run answers the SHADE in hand (R79). -/
theorem State.endShading_replies (r : Result) :
    replyRecord .reply f [r.code] ∈ (s.endShading r).link.outbound := by
  have late : (s.endShading r).link = s.link.answerLate [r.code] := rfl
  rw [late, Link.answerLate_of_handed hand]
  exact List.mem_append_right _ (List.mem_singleton.mpr rfl)

/-- A sheet seen at the scan sensor ends a shading run with its reply (R79). -/
theorem State.docScanTaken_endsShading (shading : s.scan.shading ≠ .none) (present : s.scanPresent = true) :
    (s.sensorTaken .docScan).scan.shading = .none ∧ (s.sensorTaken .docScan).scan.table = s.scan.table
      ∧ replyRecord .reply f [Result.docPresent.code] ∈ (s.sensorTaken .docScan).link.outbound := by
  have ended : s.shadingSeesSheet = s.endShading .docPresent := if_neg shading
  have reply := State.endShading_replies hand .docPresent
  have taken : s.sensorTaken .docScan = if (s.endShading .docPresent).feedActs then
      (s.endShading .docPresent).scanTakenPresent else s.endShading .docPresent := by
    unfold State.sensorTaken
    dsimp only
    rw [if_pos present, ended]
    cases acts : (s.endShading .docPresent).feedActs
    · rfl
    · exact (if_neg (by simp)).trans (if_pos present)
  rw [taken]
  split
  · have scan := (s.endShading .docPresent).scanTakenPresent_scan
    have leads := (Follows.refl (w := False) (s.endShading .docPresent)).scanTakenPresent.leads
    rw [scan]
    exact ⟨rfl, rfl, leads.queue.subset reply⟩
  · exact ⟨rfl, rfl, reply⟩

/-- A lamp that is not lit ends a shading run that waits, with its reply (R79, R173). -/
theorem State.scanFault_endsShading {c : ScanSettings} (waiting : s.scan.shading = .waiting c) :
    (s.domainFault .scan).scan.shading = .none ∧ (s.domainFault .scan).scan.table = s.scan.table
      ∧ replyRecord .reply f [Result.domainFault.code] ∈ (s.domainFault .scan).link.outbound := by
  let after := (s.faultDomain .scan s.power).settle.power
  let told := (s.onPower fun p => (p.setDomain .scan .fault).follow).reportPowerOf after (.domainFault .scan)
  have scan : told.scan = s.scan := State.report_scan ..
  have ends : s.domainTold .scan after = told.endShading .domainFault := by
    refine if_pos ⟨rfl, ?_⟩
    show told.scan.shading.isWaiting = true
    rw [scan, waiting]
    rfl
  have kept : told.link.hand = some ⟨f, .handed⟩ :=
    (congrArg Kept.hand ((Follows.refl (w := False) _).reportPowerOf after (.domainFault .scan)).leads.kept).trans hand
  have fails : (s.domainFault .scan).scan = (s.domainTold .scan after).scan := State.failWhere_scan ..
  have leads : (s.domainTold .scan after).Leads (s.domainFault .scan) := State.faultDomain_leads ..
  rw [fails, ends]
  have table : told.scan.table = s.scan.table := by rw [scan]
  refine ⟨rfl, table, leads.queue.subset ?_⟩
  rw [ends]
  exact State.endShading_replies kept .domainFault

end ends

section measure

variable {s : State} {c : ScanSettings} {count : Nat} {sums : List Nat} {pixels : List Pixel}

theorem State.exec_shadingLineRead (running : s.held = false) (awake : s.power.state ≠ .sleep)
    (measuring : s.scan.shading = .measuring c count sums) (size : pixels.length = s.headWidth) :
    exec (.shadingLineRead pixels) s = .next (s.shadingLine c count sums pixels).finish := by
  show execShadingLineRead pixels s = _
  unfold execShadingLineRead
  rw [measuring]
  exact congrArg Host.Outcome.next (if_pos (by simp [State.clocked_of running awake, size]))

/-- The eighth line ends the run, with the old table when too many positions are weak (R78). -/
theorem State.shadingMeasured_of_handed {f : Frame} (hand : s.link.hand = some ⟨f, .handed⟩) :
    let whites := sums.map (· / 8)
    let weak := weakCount c.black whites
    s.shadingMeasured c sums = { s with
      scan := { s.scan with
        shading := .none
        table := if s.headWidth / 8 < weak then s.scan.table else whites }
      link := { s.link with
        outbound := s.link.outbound ++ [replyRecord .reply f
          ((if s.headWidth / 8 < weak then 0x14 else 0x00) :: bytes2 weak)]
        hand := s.link.waiting.map fun g => Hand.takenWith (s.link.outbound.length + 1) ⟨g, .untaken⟩
        waiting := none } } := by
  intro whites weak
  unfold State.shadingMeasured
  dsimp only
  split
  next many =>
    have many : s.headWidth / 8 < weak := many
    rw [if_pos many, if_pos many]
    exact congrArg (fun l => ({ s with scan := { s.scan with shading := .none }, link := l } : State))
      (Link.answerLate_of_handed hand _)
  next few =>
    have few : ¬s.headWidth / 8 < weak := few
    rw [if_neg few, if_neg few]
    exact congrArg (fun l => ({ s with scan := { s.scan with shading := .none, table := whites }, link := l } : State))
      (Link.answerLate_of_handed hand _)

end measure

/-- Settles O37. -/
theorem shadingRunMeasures : Obligations.ShadingRunMeasures := by
  unfold Obligations.ShadingRunMeasures
  refine ⟨fun s tag rsv running awake hand => ?_, fun s => ⟨fun c waiting => ?_, fun other => ?_⟩,
    fun s c count sums pixels running awake measuring size => ?_⟩
  · intro ends
    refine ⟨fun shading timer reading => ?_, fun c reading waiting starting dark => ?_⟩
    · refine ⟨(s.onFeed (Feed.onSensor .docScan Sensor.takeReading)).sensorTaken .docScan,
        congrArg Host.Outcome.next (if_pos ?_), ?_⟩
      · have due : (s.feed.sensor .docScan).timer.isSome = true := Option.isSome_iff_ne_none.mpr timer
        rw [State.clocked_of running awake, due]
        rfl
      · exact State.docScanTaken_endsShading (s := s.onFeed (Feed.onSensor .docScan Sensor.takeReading)) hand shading
          reading
    · have unlit : ¬s.lampLit reading = true := by
        unfold State.lampLit invertPixel
        simpa using dark
      refine ⟨s.domainFault .scan, congrArg Host.Outcome.next ((if_pos ?_).trans (congrArg State.finish (if_neg unlit))),
        State.scanFault_endsShading hand waiting⟩
      rw [State.clocked_of running awake, starting]
      rfl
  · unfold ruleMeasure State.doWhen
    rw [waiting]
    simp only [Bool.and_eq_true, beq_iff_eq]
    exact ⟨fun on idle => if_pos ⟨on, idle⟩, fun other => if_neg fun ⟨on, idle⟩ => other.elim (· on) (· idle)⟩
  · unfold ruleMeasure
    split
    next c waiting => exact absurd waiting (other c)
    · rfl
  · intro now whites weak
    have read := State.exec_shadingLineRead running awake measuring size
    refine ⟨fun more => read.trans (congrArg (Host.Outcome.next ∘ State.finish) (if_neg (by exact not_le.mpr more))),
      fun tag eighth hand => read.trans (congrArg (Host.Outcome.next ∘ State.finish) ?_)⟩
    exact (if_pos eighth).trans (State.shadingMeasured_of_handed hand)

/-! ## The output pins (R18, R19, R87, R96, R168) -/

/-- The pattern of the phase index, output by output (R19). -/
theorem phasePattern_iff (index : BitVec 3) :
    ((phasePattern index).a = true ↔ index.toNat = 7 ∨ index.toNat = 0 ∨ index.toNat = 1)
    ∧ ((phasePattern index).b = true ↔ index.toNat = 1 ∨ index.toNat = 2 ∨ index.toNat = 3)
    ∧ ((phasePattern index).c = true ↔ index.toNat = 3 ∨ index.toNat = 4 ∨ index.toNat = 5)
    ∧ ((phasePattern index).d = true ↔ index.toNat = 5 ∨ index.toNat = 6 ∨ index.toNat = 7) := by
  unfold phasePattern
  have small := index.isLt
  generalize index.toNat = n at small ⊢
  interval_cases n
  all_goals decide

section pins

variable {s : State} (running : s.held = false)
include running

theorem State.enable_iff (d : DomainId) :
    s.enable d = true ↔ s.power.domain d = .starting ∨ s.power.domain d = .on := by
  simp [State.enable, running]

theorem State.phaseOutputs_eq (ch : ChannelId) : s.phaseOutputs ch = (s.channel ch).outputs :=
  if_neg (by simp [running])

theorem State.strobeLine_iff (block : Nat) : s.strobeLine block = true
    ↔ (s.power.print = .starting ∨ s.power.print = .on) ∧ ∃ l heavy p rest strobe gap,
      s.print.strobe = .strobing l heavy (p :: rest) false strobe gap ∧ block ∈ p.blocks := by
  unfold State.strobeLine
  rw [Bool.and_eq_true]
  refine and_congr (State.enable_iff running .print) ?_
  split
  next l heavy p rest inGap strobe gap strobing =>
    rw [strobing]
    constructor
    · intro active
      obtain ⟨first, mem⟩ := Bool.and_eq_true_iff.mp active
      obtain rfl : inGap = false := by simpa using first
      exact ⟨l, heavy, p, rest, strobe, gap, rfl, by simpa using mem⟩
    · rintro ⟨l', heavy', p', rest', strobe', gap', same, mem⟩
      cases same
      simpa using mem
  next other =>
    simp only [Bool.false_eq_true, false_iff]
    rintro ⟨l, heavy, p, rest, strobe, gap, strobing, -⟩
    exact other _ _ _ _ _ _ _ strobing

theorem State.headData_of_loading {l : HeadLine} {m : Move} {before after : List SlotLine} {q : SlotLine}
    (loading : s.print.load = .loading l) (powered : s.power.print = .starting ∨ s.power.print = .on)
    (found : s.move? l.move = some m) (queue : m.queue = before ++ q :: after) (own : q.slot = l.slot)
    (others : ∀ x ∈ before, x.slot ≠ l.slot) : s.headData = some q.dots := by
  unfold State.headData
  rw [loading]
  dsimp only
  rw [if_pos ((State.enable_iff running .print).mpr powered), found, Option.bind_some, queue, List.find?_append,
    List.find?_eq_none.mpr (by simpa using others)]
  simp [own]

theorem State.headData_eq_none (dark : ¬(s.power.print = .starting ∨ s.power.print = .on)
    ∨ ∀ l, s.print.load ≠ .loading l) : s.headData = none := by
  unfold State.headData
  split
  next l loading =>
    obtain off | empty := dark
    · exact if_neg fun on => off ((State.enable_iff running .print).mp on)
    · exact absurd loading (empty l)
  · rfl

omit running in
theorem Print.latched?_eq_some_iff (p : Print) (l : HeadLine) : p.latched? = some l
    ↔ ∃ heavy phases inGap strobe gap, p.strobe = .strobing l heavy phases inGap strobe gap := by
  unfold Print.latched?
  cases p.strobe with
  | idle | latchWait => simp
  | strobing l' heavy phases inGap strobe gap => simp

theorem State.headLatch_iff (before : State) : s.headLatch before = true
    ↔ (s.power.print = .starting ∨ s.power.print = .on) ∧ ∃ l,
      (∃ heavy phases inGap strobe gap, s.print.strobe = .strobing l heavy phases inGap strobe gap)
      ∧ ¬∃ heavy phases inGap strobe gap, before.print.strobe = .strobing l heavy phases inGap strobe gap := by
  have latched : s.headLatch before = true ↔ s.enable .print = true
      ∧ s.print.latched?.isSome = true ∧ s.print.latched? ≠ before.print.latched? := by
    simp only [State.headLatch, Bool.and_eq_true, bne_iff_ne, and_assoc]
  rw [latched, State.enable_iff running]
  refine and_congr Iff.rfl ?_
  simp only [← Print.latched?_eq_some_iff]
  cases s.print.latched? with
  | none => simp
  | some l => simp [eq_comm]

theorem State.cutter_iff : s.cutter = true
    ↔ (s.power.motor = .starting ∨ s.power.motor = .on) ∧ ∃ pulse, s.print.cut = .pulse pulse := by
  unfold State.cutter
  rw [Bool.and_eq_true]
  refine and_congr (State.enable_iff running .motor) ?_
  cases s.print.cut with
  | none | feed n => simp [CutState.isPulse]
  | pulse n => simp [CutState.isPulse]

omit running in
theorem State.txd_eq_none (silent : s.power.state = .sleep
    ∨ ∀ r ∈ s.link.outbound, s.link.state = .unset ∧ r.kind = .report) : s.txd = none := by
  have nothing : s.sending? = none := by
    unfold State.sending?
    obtain asleep | reports := silent
    · exact if_neg (by simp [State.clocked, asleep])
    · split
      · refine List.find?_eq_none.mpr fun r mem => ?_
        obtain ⟨unset, kind⟩ := reports r mem
        simp [Link.eligible, unset, OutRecord.isReport, kind]
      · rfl
  rw [State.txd, nothing]
  rfl

end pins

/-- Settles O41. -/
theorem outputsFollowTheState : Obligations.OutputsFollowTheState := by
  unfold Obligations.OutputsFollowTheState
  intro s running
  refine ⟨fun ch => ?_, State.enable_iff running, State.enable_iff running .scan,
    ⟨State.strobeLine_iff running, fun l m before q after loading powered found queue own others => ?_, fun dark => ?_,
      State.headLatch_iff running⟩, State.cutter_iff running, State.txd_eq_none⟩
  · intro c out index
    have outputs : out = c.outputs := State.phaseOutputs_eq running ch
    refine ⟨fun rests => outputs.trans (if_pos rests), fun idle fault => ?_⟩
    have pattern : out = phasePattern c.phase := outputs.trans (if_neg (not_or.mpr ⟨idle, fault⟩))
    rw [pattern]
    exact phasePattern_iff c.phase
  · have data := State.headData_of_loading running loading powered found queue own others
    exact ⟨data, by rw [State.headClock, data]; rfl⟩
  · have data := State.headData_eq_none running dark
    exact ⟨data, by rw [State.headClock, data]; rfl⟩

end Sys2Proof.Machine
end

section
/-! PROOFS. Into SLEEP and out of it (R64, R180 to R183). -/

namespace Sys2Proof.Machine

/-! ## What starts afresh (R64, R177, R183) -/

/-- A sensor whose debounce starts afresh from the present reading (R64). -/
theorem State.restartDebounce_eq (s : State) :
    let afresh (id : SensorId) : Sensor :=
      let x := s.feed.sensor id
      let reading := s.inputs.sensor id != (s.cfg.feed.sensor id).polarity
      { x with
        reading := reading
        timer := if x.known = false ∨ reading = x.debounced then none else some (s.cfg.feed.sensor id).debounce }
    s.restartDebounce = { s with feed := { s.feed with
      docEntry := afresh .docEntry
      docScan := afresh .docScan
      paper := afresh .paper
      cover := afresh .cover } } := by
  intro afresh
  unfold State.restartDebounce
  rw [State.formReadings_eq]
  simp only [Sensor.retime_eq]
  rfl

theorem State.restartIdle_eq (s : State) : s.restartIdle = { s with power := { s.power with
    idleTimer := if s.power.state = .sleep ∨ s.power.entry ≠ .none ∨ s.idle = false ∨ s.cfg.power.idleTime = 0 then
      .stopped else .running s.cfg.power.idleTime } } := by
  have timer : (s.onPower fun p => { p with idleTimer := .stopped }).idleTimerNow
      = if s.power.state = .sleep ∨ s.power.entry ≠ .none ∨ s.idle = false ∨ s.cfg.power.idleTime = 0 then .stopped
        else .running s.cfg.power.idleTime := by
    have idle : (s.onPower fun p => { p with idleTimer := .stopped }).idle = s.idle := rfl
    unfold State.idleTimerNow
    rw [idle]
    simp [or_assoc]
  exact congrArg (fun x => { s with power := { s.power with idleTimer := x } }) timer

theorem State.lookAtFlt_of_low {s : State} {ch : ChannelId} (low : s.flt ch = false ∨ (s.channel ch).state = .fault) :
    s.lookAtFlt ch = s := by
  refine if_neg ?_
  obtain low | fault := low
  · simp [low]
  · simp [fault]

/-- A fault input seen again at its level (R41). -/
theorem State.exec_driverFault_again {s : State} {ch : ChannelId} (high : s.flt ch = true) (running : s.held = false)
    (awake : s.power.state ≠ .sleep) : exec (.driverFault ch true) s = .next (s.lookAtFlt ch).settle := by
  have same : s.inputs.setFlt ch true = s.inputs := by
    cases ch
    · exact congrArg (fun x => { s.inputs with fltd := x }) high.symm
    · exact congrArg (fun x => { s.inputs with fltr := x }) high.symm
  show execDriverFault ch true s = _
  unfold execDriverFault
  rw [same]
  exact congrArg Host.Outcome.next (if_pos (State.clocked_of running awake))

/-! ## The cancelling of a sleep entry (R181) -/

section cancel

variable {s : State}

theorem State.cancelSleep_eq (awake : s.power.state ≠ .sleep) (entry : s.power.entry ≠ .none) (causes : WakeCauses) :
    s.cancelSleep causes = (({ s with power := { s.power with
      state := s.power.computed
      entry := .none } } : State).report 0xE6 [3, s.power.computed.code, s.power.scan.code, s.power.print.code,
        s.power.motor.code, causes.byte, 0xFF]).restartIdle := by
  refine (if_neg entry).trans (congrArg State.restartIdle ?_)
  exact congrArg (fun p : Power => State.reportPower (.sleepCancelled causes) { s with power := { p with entry := .none } })
    (Power.follow_of_awake awake)

theorem State.cancelSleep_of_none (entry : s.power.entry = .none) (causes : WakeCauses) : s.cancelSleep causes = s :=
  if_pos entry

theorem Power.computed_ne_sleep (p : Power) : p.computed ≠ .sleep := by
  unfold Power.computed
  split
  · decide
  · decide

/-- A cancelled entry leaves none, and the part awake. -/
theorem State.cancelSleep_power (awake : s.power.state ≠ .sleep) (causes : WakeCauses) :
    (s.cancelSleep causes).power.entry = .none ∧ (s.cancelSleep causes).power.state ≠ .sleep := by
  by_cases entry : s.power.entry = .none
  · rw [State.cancelSleep_of_none entry]
    exact ⟨entry, awake⟩
  · rw [State.cancelSleep_eq awake entry]
    exact ⟨rfl, s.power.computed_ne_sleep⟩

theorem State.cancelSleep_held (causes : WakeCauses) : (s.cancelSleep causes).held = s.held := by
  unfold State.cancelSleep
  split
  · rfl
  · rfl

theorem State.cancelSleep_inputs (causes : WakeCauses) : (s.cancelSleep causes).inputs = s.inputs := by
  unfold State.cancelSleep
  split
  · rfl
  · rfl

/-- A cause taken again finds no entry to cancel. -/
theorem State.causeTaken_again (awake : s.power.state ≠ .sleep) (c d : WakeCause) :
    (s.causeTaken c).causeTaken d = s.causeTaken c :=
  State.cancelSleep_of_none (State.cancelSleep_power awake _).1 _

/-- A character is heard as it is behind the cause that it brings (R181). -/
theorem State.heard_causeTaken (running : s.held = false) (awake : s.power.state ≠ .sleep) (f : State → State) :
    (s.causeTaken .rxd).heard f = s.heard f := by
  have held : (s.causeTaken .rxd).held = false := (State.cancelSleep_held _).trans running
  have alert : (s.causeTaken .rxd).power.state ≠ .sleep := (State.cancelSleep_power awake _).2
  have hears (t : State) (free : t.held = false) (clocks : t.power.state ≠ .sleep) : t.heard f
      = if (t.causeTaken .rxd).link.awaitMark then t.causeTaken .rxd else f (t.causeTaken .rxd) :=
    (if_neg (by simp [free])).trans (if_neg clocks)
  rw [hears _ held alert, hears _ running awake, State.causeTaken_again awake]

theorem State.exec_breakDetected_causeTaken (running : s.held = false) (awake : s.power.state ≠ .sleep) :
    exec .breakDetected (s.causeTaken .breakSeen) = exec .breakDetected s := by
  have held : (s.causeTaken .breakSeen).held = false := (State.cancelSleep_held _).trans running
  have alert : (s.causeTaken .breakSeen).power.state ≠ .sleep := (State.cancelSleep_power awake _).2
  show execBreakDetected _ = execBreakDetected _
  unfold execBreakDetected
  rw [if_neg (by simp [held]), if_neg alert, if_neg (by simp [running]), if_neg awake, State.causeTaken_again awake]

theorem State.restartIdle_setInput (sensor : SensorId) (level : Bool) :
    (s.setInput sensor level).restartIdle = s.restartIdle.setInput sensor level := rfl

theorem State.causeTaken_setInput (awake : s.power.state ≠ .sleep) (sensor : SensorId) (level : Bool) (c : WakeCause) :
    (s.setInput sensor level).causeTaken c = (s.causeTaken c).setInput sensor level := by
  unfold State.causeTaken
  by_cases entry : s.power.entry = .none
  · rw [State.cancelSleep_of_none entry]
    exact State.cancelSleep_of_none (s := s.setInput sensor level) entry _
  · rw [State.cancelSleep_eq awake entry, ← State.restartIdle_setInput]
    exact State.cancelSleep_eq (s := s.setInput sensor level) awake entry _

/-- The change of a sensor input is taken as it is behind the cause that it brings (R181). -/
theorem State.exec_sensorInputChange_causeTaken (running : s.held = false) (awake : s.power.state ≠ .sleep)
    {sensor : SensorId} {level : Bool} {c : WakeCause} (brings : SensorId.wakeCause? sensor = some c)
    (changes : s.inputs.sensor sensor ≠ level) :
    exec (.sensorInputChange sensor level) (s.causeTaken c) = exec (.sensorInputChange sensor level) s := by
  have held : (s.causeTaken c).held = false := (State.cancelSleep_held _).trans running
  have alert : (s.causeTaken c).power.state ≠ .sleep := (State.cancelSleep_power awake _).2
  have inputs : (s.causeTaken c).inputs = s.inputs := State.cancelSleep_inputs _
  have runs (t : State) (free : t.held = false) (clocks : t.power.state ≠ .sleep) (turns : t.inputs.sensor sensor ≠ level) :
      exec (.sensorInputChange sensor level) t
        = .next ((t.causeTaken c).setInput sensor level |>.formReading sensor) := by
    show execSensorInputChange sensor level t = _
    unfold execSensorInputChange State.inputCause
    rw [if_neg turns, brings]
    dsimp only
    rw [State.causeTaken_setInput clocks]
    exact congrArg Host.Outcome.next ((if_neg (by simp [State.setInput, free])).trans (if_neg clocks))
  rw [runs _ held alert (by rwa [inputs]), runs _ running awake changes, State.causeTaken_again awake]

end cancel

/-! ## The rules of a sleep entry (R180, R181) -/

section rules

variable {s : State}

theorem ruleSleepLost_of_lost (entry : s.power.entry ≠ .none)
    (lost : s.idle = false ∨ s.df.state = .fault ∨ s.rf.state = .fault) :
    ruleSleepLost s = some (s.cancelSleep WakeCauses.empty) := by
  refine if_pos ?_
  rw [Bool.and_eq_true, Bool.or_eq_true, bne_iff_ne]
  refine ⟨entry, lost.imp (by simp) fun fault => ?_⟩
  simpa [State.anyFault] using fault

theorem ruleSleepLost_of_kept (idle : s.idle = true) (df : s.df.state ≠ .fault) (rf : s.rf.state ≠ .fault) :
    ruleSleepLost s = none := by
  refine if_neg ?_
  rw [(State.anyFault_eq_false_iff s).mpr ⟨df, rf⟩, idle]
  simp

theorem Link.drained_iff (l : Link) : l.drained = true ↔ ∀ r ∈ l.outbound, l.state = .unset ∧ r.kind = .report := by
  have held (r : OutRecord) : l.eligible r = false ↔ l.state = .unset ∧ r.kind = .report := by
    unfold Link.eligible OutRecord.isReport
    cases l.state with
    | unset => simp
    | ready => simp
  simp only [Link.drained, Bool.not_eq_true', List.any_eq_false, Bool.not_eq_true, held]

end rules

/-! ## In SLEEP (R64, R182) -/

section asleep

variable {s : State} (running : s.held = false)
include running

theorem State.exec_sleepClocksStop (awake : s.power.state ≠ .sleep) (stopping : s.power.entry = .stopping) :
    exec .sleepClocksStop s = .next s.stopClocks := by
  refine congrArg Host.Outcome.next (if_pos ?_)
  rw [State.clocked_of running awake, stopping]
  rfl

theorem State.exec_wakeInput_of_awake (awake : s.power.state ≠ .sleep) :
    exec .wakeInput s = .next (s.causeTaken .wake) :=
  congrArg Host.Outcome.next ((if_neg (by simp [running])).trans (if_neg awake))

variable (asleep : s.power.state = .sleep)
include asleep

theorem State.causeDetected_of_asleep (c : WakeCause) :
    s.causeDetected c = s.onPower fun p => { p with waking := true, causes := p.causes.add c } :=
  if_neg (by simp [running, asleep])

theorem State.heard_of_asleep (f : State → State) : s.heard f = s.causeDetected .rxd :=
  (if_neg (by simp [running])).trans (if_pos asleep)

theorem State.exec_wakeCause_of_asleep (c : WakeCause) :
    exec (.wakeCause c) s = .next ((s.changeInput c).causeDetected c) :=
  congrArg Host.Outcome.next (if_pos (by simp [running, asleep]))

/-- In SLEEP the change of a sensor input is a cause, but for SNS (R64). -/
theorem State.exec_sensorInputChange_of_asleep (sensor : SensorId) :
    exec (.sensorInputChange sensor (!(s.inputs.sensor sensor))) s
      = .next ((s.toggleInput sensor).inputCause State.causeDetected sensor) := by
  have turns : s.inputs.sensor sensor ≠ !(s.inputs.sensor sensor) := by cases s.inputs.sensor sensor <;> decide
  refine congrArg Host.Outcome.next ((if_neg turns).trans ?_)
  exact (if_neg (by simp [State.setInput, running])).trans (if_pos asleep)

end asleep

/-! ## The wake (R183) -/

section wake

variable {s : State}

theorem State.exec_wakeComplete (running : s.held = false) (asleep : s.power.state = .sleep)
    (waking : s.power.waking = true) : exec .wakeComplete s
      = .next ((((s.wakeLink).restartDebounce.lookAtFlt .df).lookAtFlt .rf).restartIdle).finish :=
  congrArg Host.Outcome.next (if_pos (by simp [running, asleep, waking]))

theorem State.wakeLink_of_quiet (quiet : s.power.causes.breakSeen = false) :
    s.wakeLink =
      let t : State := { s with power := { s.power with state := .standby, waking := false } }
      let u := t.report 0xE6 [4, 1, s.power.scan.code, s.power.print.code, s.power.motor.code,
        s.power.causes.byte, 0xFF]
      { u with
        power := { u.power with causes := ⟨false, false, false, false, false, false⟩ }
        link := { u.link with awaitMark := s.power.causes.rxd } } := by
  have mark : (s.power.causes.rxd && !s.power.causes.breakSeen) = s.power.causes.rxd := by simp [quiet]
  unfold State.wakeLink
  dsimp only
  rw [if_neg (by simp [quiet]), mark]
  rfl

/-- A wake with a break takes the break's effects on the link (R12, R183). -/
theorem State.wakeLink_of_break (seen : s.power.causes.breakSeen = true) :
    s.wakeLink.link.state = .unset ∧ s.wakeLink.link.rate = .b125000 ∧ s.wakeLink.link.parser = .hunt
      ∧ s.wakeLink.link.awaitMark = false ∧ s.wakeLink.power.state = .standby := by
  let t := (s.onPower fun p => { p with state := .standby, waking := false }).takeBreak
  have broken : t.link = s.link.broken := rfl
  have leads := ((Follows.refl (w := False) t).reportPower (.wake s.power.causes)).leads
  have woken : s.wakeLink = ((t.reportPower (.wake s.power.causes)).onPower fun p =>
      { p with causes := WakeCauses.empty }).onLink fun l =>
        { l with awaitMark := s.power.causes.rxd && !s.power.causes.breakSeen } := by
    unfold State.wakeLink
    dsimp only
    rw [if_pos seen]
  rw [woken]
  rw [Link.broken_eq] at broken
  refine ⟨(congrArg Kept.linkState leads.kept).trans ?_, (congrArg Kept.rate leads.kept).trans ?_,
    (congrArg Kept.parser leads.kept).trans ?_, ?_, ?_⟩
  · exact congrArg Link.state broken
  · exact congrArg Link.rate broken
  · exact congrArg Link.parser broken
  · show (s.power.causes.rxd && !s.power.causes.breakSeen) = false
    simp [seen]
  · rfl

end wake

/-- Settles O58. -/
theorem sleepAndWake : Obligations.SleepAndWake := by
  unfold Obligations.SleepAndWake
  refine ⟨fun s => ⟨s.restartDebounce_eq, s.restartIdle_eq, fun ch => ?_⟩, fun s running =>
    ⟨fun awake stopping => State.exec_sleepClocksStop running awake stopping, fun awake entry => ?_,
      fun awake entry => ?_, fun asleep => ?_, fun asleep waking => ⟨State.exec_wakeComplete running asleep waking,
        State.wakeLink_of_quiet, State.wakeLink_of_break⟩⟩⟩
  · cases ch
    · exact ⟨State.lookAtFlt_of_low (ch := .df), State.exec_driverFault_again (ch := .df)⟩
    · exact ⟨State.lookAtFlt_of_low (ch := .rf), State.exec_driverFault_again (ch := .rf)⟩
  · exact (State.exec_wakeInput_of_awake running awake).trans
      (congrArg Host.Outcome.next (State.cancelSleep_of_none entry _))
  · intro cancelled
    have cancels (causes : WakeCauses) : s.cancelSleep causes = cancelled causes.byte :=
      State.cancelSleep_eq awake entry causes
    have wake : s.causeTaken .wake = cancelled 0x20 := cancels _
    have rxd : s.causeTaken .rxd = cancelled 0x02 := cancels _
    have breakSeen : s.causeTaken .breakSeen = cancelled 0x03 := cancels _
    have docEntry : s.causeTaken .docEntry = cancelled 0x04 := cancels _
    have cover : s.causeTaken .cover = cancelled 0x08 := cancels _
    have paper : s.causeTaken .paper = cancelled 0x10 := cancels _
    have hears (f : State → State) : s.heard f = (cancelled 0x02).heard f := by
      rw [← rxd, State.heard_causeTaken running awake]
    refine ⟨wake ▸ State.exec_wakeInput_of_awake running awake, fun c => congrArg Host.Outcome.next (hears _),
      fun i f framed => ?_, congrArg Host.Outcome.next (hears _),
      breakSeen ▸ (State.exec_breakDetected_causeTaken running awake).symm, fun level => ⟨fun turns => ?_, fun turns => ?_,
        fun turns => ?_⟩, fun lost => ?_, ruleSleepLost_of_kept, fun draining => ?_⟩
    · rw [exec_command framed, exec_command framed]
      unfold State.receiveCommand
      rw [framed]
      exact congrArg Host.Outcome.next (hears _)
    · exact docEntry ▸ (State.exec_sensorInputChange_causeTaken running awake (sensor := .docEntry) rfl turns).symm
    · exact cover ▸ (State.exec_sensorInputChange_causeTaken running awake (sensor := .cover) rfl turns).symm
    · exact paper ▸ (State.exec_sensorInputChange_causeTaken running awake (sensor := .paper) rfl turns).symm
    · exact (ruleSleepLost_of_lost entry lost).trans (congrArg some (cancels WakeCauses.empty))
    · unfold ruleDrained State.doWhen
      rw [draining]
      simp only [beq_self_eq_true, Bool.true_and, Link.drained_iff]
      rfl
  · intro c woken
    have detects (c : WakeCause) := State.causeDetected_of_asleep running asleep c
    have input {sensor : SensorId} {c : WakeCause} (brings : SensorId.wakeCause? sensor = some c)
        (behind : sensorBehind? c = some sensor) (i : Instr)
        (row : i = .wakeCause c ∨ i = .sensorInputChange sensor (!(s.inputs.sensor sensor))) :
        exec i s = .next ((s.toggleInput sensor).causeDetected c) := by
      obtain rfl | rfl := row
      · rw [State.exec_wakeCause_of_asleep running asleep, State.changeInput, behind]
      · rw [State.exec_sensorInputChange_of_asleep running asleep, State.inputCause, brings]
    have toggled (sensor : SensorId) (c : WakeCause) : (s.toggleInput sensor).causeDetected c = _ :=
      State.causeDetected_of_asleep (s := s.toggleInput sensor) running asleep c
    have rxd (f : State → State) : s.heard f = woken s.inputs { c with rxd := true } :=
      (State.heard_of_asleep running asleep f).trans (detects .rxd)
    refine ⟨?_, ?_, ?_, fun i row => ?_, fun i row => ?_, fun i row => ?_, ?_, fun id => ?_⟩
    · rintro i (rfl | rfl)
      · exact congrArg Host.Outcome.next ((if_neg (by simp [running])).trans ((if_pos asleep).trans (detects .wake)))
      · exact (State.exec_wakeCause_of_asleep running asleep .wake).trans (congrArg Host.Outcome.next (detects .wake))
    · rintro i (rfl | ⟨b, rfl⟩ | rfl | ⟨f, framed⟩)
      · exact (State.exec_wakeCause_of_asleep running asleep .rxd).trans (congrArg Host.Outcome.next (detects .rxd))
      · exact congrArg Host.Outcome.next (rxd _)
      · exact congrArg Host.Outcome.next (rxd _)
      · rw [exec_command framed]
        unfold State.receiveCommand
        rw [framed]
        exact congrArg Host.Outcome.next (rxd _)
    · rintro i (rfl | rfl)
      · exact (State.exec_wakeCause_of_asleep running asleep .breakSeen).trans
          (congrArg Host.Outcome.next (detects .breakSeen))
      · exact congrArg Host.Outcome.next
          ((if_neg (by simp [running])).trans ((if_pos asleep).trans (detects .breakSeen)))
    · exact (input (sensor := .docEntry) rfl rfl i row).trans (congrArg Host.Outcome.next (toggled ..))
    · exact (input (sensor := .paper) rfl rfl i row).trans (congrArg Host.Outcome.next (toggled ..))
    · exact (input (sensor := .cover) rfl rfl i row).trans (congrArg Host.Outcome.next (toggled ..))
    · exact State.exec_sensorInputChange_of_asleep running asleep .docScan
    · exact congrArg Host.Outcome.next (if_pos rfl)

end Sys2Proof.Machine
end


section
/-! PROOFS. The directory under the store's operations (R148, R157, R158). -/

namespace Sys2Proof.Machine

/-! ## Documents and pages read back -/

section find

variable {α : Type} {p : α → Bool} {f : α → α}

/-- The first element with a property, in a list whose elements change but keep the property. -/
theorem find?_map_of_keeps (keeps : ∀ a, p (f a) = p a) (l : List α) : (l.map f).find? p = (l.find? p).map f := by
  rw [List.find?_map]
  exact congrArg (fun q => (l.find? q).map f) (funext keeps)

end find

/-- The record of a document after a change that keeps its number. -/
theorem Store.doc?_onDoc {f : Document → Document} (keeps : ∀ d, (f d).number = d.number) (n k : Nat) (st : Store) :
    (st.onDoc n f).doc? k = if k = n then (st.doc? k).map f else st.doc? k := by
  have same (d : Document) : ((if d.number = n then f d else d).number == k) = (d.number == k) := by
    split
    · rw [keeps]
    · rfl
  refine (find?_map_of_keeps same st.directory).trans ?_
  show (st.doc? k).map _ = _
  cases found : st.doc? k with
  | none => simp
  | some d =>
    have own : d.number = k := by simpa using List.find?_some found
    simp only [Option.map_some, own]
    split
    · rfl
    · rfl

theorem Store.doc?_onDoc_same {f : Document → Document} (keeps : ∀ d, (f d).number = d.number) (n : Nat) (st : Store) :
    (st.onDoc n f).doc? n = (st.doc? n).map f := (Store.doc?_onDoc keeps n n st).trans (if_pos rfl)

theorem Store.doc?_onDoc_other {f : Document → Document} (keeps : ∀ d, (f d).number = d.number) {n k : Nat}
    (other : k ≠ n) (st : Store) : (st.onDoc n f).doc? k = st.doc? k := (Store.doc?_onDoc keeps n k st).trans (if_neg other)

/-- The record of a page after a change that keeps its index. -/
theorem Document.page?_onPage {f : Page → Page} (keeps : ∀ p, (f p).index = p.index) (n k : Nat) (d : Document) :
    (d.onPage n f).page? k = if k = n then (d.page? k).map f else d.page? k := by
  have same (p : Page) : ((if p.index = n then f p else p).index == k) = (p.index == k) := by
    split
    · rw [keeps]
    · rfl
  refine (find?_map_of_keeps same d.pages).trans ?_
  show (d.page? k).map _ = _
  cases found : d.page? k with
  | none => simp
  | some p =>
    have own : p.index = k := by simpa using List.find?_some found
    simp only [Option.map_some, own]
    split
    · rfl
    · rfl

theorem Document.page?_onPage_same {f : Page → Page} (keeps : ∀ p, (f p).index = p.index) (n : Nat) (d : Document) :
    (d.onPage n f).page? n = (d.page? n).map f := (Document.page?_onPage keeps n n d).trans (if_pos rfl)

theorem Document.mem_of_page? {d : Document} {n : Nat} {p : Page} (found : d.page? n = some p) :
    p ∈ d.pages ∧ p.index = n := ⟨List.mem_of_find?_eq_some found, by simpa using List.find?_some found⟩

theorem Store.mem_of_doc? {st : Store} {n : Nat} {d : Document} (found : st.doc? n = some d) :
    d ∈ st.directory ∧ d.number = n := ⟨List.mem_of_find?_eq_some found, by simpa using List.find?_some found⟩

/-! ## Header rewrites that fall due (R146, R157, R158) -/

/-- Header rewrites fall due, and nothing else changes. -/
def Store.Rewrites (st after : Store) : Prop := ∃ ws, after = { st with rewrites := st.rewrites ++ ws }

section rewrites

variable {st a b : Store}

theorem Store.Rewrites.refl (st : Store) : st.Rewrites st := ⟨[], by rw [List.append_nil]⟩

theorem Store.Rewrites.trans (first : st.Rewrites a) (second : a.Rewrites b) : st.Rewrites b := by
  obtain ⟨v, rfl⟩ := first
  obtain ⟨w, rfl⟩ := second
  exact ⟨v ++ w, by rw [← List.append_assoc]⟩

theorem Store.rewritePage_rewrites (n i : Nat) (st : Store) : st.Rewrites (st.rewritePage n i) := by
  unfold Store.rewritePage
  split
  · exact .refl st
  · split
    · exact .refl st
    · split
      · exact .refl st
      · split
        · split
          · exact .refl st
          · exact ⟨_, rfl⟩
        · exact .refl st

theorem Store.rewriteLowest_rewrites (n : Nat) (st : Store) : st.Rewrites (st.rewriteLowest n) := by
  unfold Store.rewriteLowest
  split
  · exact .refl st
  · exact st.rewritePage_rewrites _ _

theorem Store.Rewrites.doc? (h : st.Rewrites a) (n : Nat) : a.doc? n = st.doc? n := by
  obtain ⟨ws, rfl⟩ := h
  rfl

theorem Store.Rewrites.map (h : st.Rewrites a) : a.map = st.map := by
  obtain ⟨ws, rfl⟩ := h
  rfl

theorem Store.Rewrites.memory (h : st.Rewrites a) : a.memory = st.memory := by
  obtain ⟨ws, rfl⟩ := h
  rfl

theorem Store.Rewrites.prefix (h : st.Rewrites a) : st.rewrites <+: a.rewrites := by
  obtain ⟨ws, rfl⟩ := h
  exact List.prefix_append _ _

end rewrites

/-! ## A printed page (R157, R158) -/

/-- A document with a page printed, and its hold cleared when that was the last one. -/
def Document.withPrinted (index : Nat) (d : Document) : Document :=
  let d := d.onPage index fun p => { p with printed := true }
  if d.holdClears then { d with hold := false } else d

theorem Document.withPrinted_eq (index : Nat) (d : Document) : ∃ hold, d.withPrinted index
    = { d.onPage index fun p => { p with printed := true } with hold := hold } := by
  unfold Document.withPrinted
  dsimp only
  split
  · exact ⟨false, rfl⟩
  · exact ⟨d.hold, rfl⟩

theorem Store.pagePrinted_of_printed {st : Store} {number index : Nat} {d : Document} {p : Page}
    (doc : st.doc? number = some d) (page : d.page? index = some p) (printed : p.printed = true) :
    st.pagePrinted number index = st := by
  unfold Store.pagePrinted
  rw [doc, Option.bind_some, page]
  exact if_pos printed

theorem Store.pagePrinted_of_not {st : Store} {number index : Nat} {d : Document} {p : Page}
    (doc : st.doc? number = some d) (page : d.page? index = some p) (fresh : p.printed = false) :
    (st.onDoc number (Document.withPrinted index)).Rewrites (st.pagePrinted number index) := by
  unfold Store.pagePrinted
  rw [doc, Option.bind_some, page]
  dsimp only
  rw [if_neg (by simp [fresh])]
  have first := (st.onDoc number (Document.withPrinted index)).rewritePage_rewrites number index
  split
  · exact first
  · exact first.trans (Store.rewriteLowest_rewrites _ _)

theorem Document.allPrinted_onPage (d : Document) (index : Nat) :
    (d.onPage index fun p => { p with printed := true }).allPrinted = true
      ↔ ∀ q ∈ d.pages, q.index = index ∨ q.printed = true := by
  unfold Document.allPrinted Document.onPage
  simp only [List.all_map, List.all_eq_true, Function.comp]
  refine forall₂_congr fun q _ => ?_
  split
  next own => simp [own]
  next other => simp [other]

/-- The hold of a document of which a page has printed (R158). -/
theorem Document.withPrinted_hold {d : Document} {index : Nat} {p : Page} (page : d.page? index = some p) :
    (d.withPrinted index).hold = true ↔ d.hold = true
      ∧ ¬(d.closed = true ∧ ∀ q ∈ d.pages, q.index = index ∨ q.printed = true) := by
  have some_ : d.pages.isEmpty = false := by
    rw [List.isEmpty_eq_false_iff]
    exact List.ne_nil_of_mem (Document.mem_of_page? page).1
  have clears : (d.onPage index fun p => { p with printed := true }).holdClears = true ↔ d.hold = true ∧ d.closed = true
      ∧ ∀ q ∈ d.pages, q.index = index ∨ q.printed = true := by
    unfold Document.holdClears
    rw [Bool.and_eq_true, Document.allPrinted_onPage]
    simp [Document.onPage, some_, and_assoc]
  unfold Document.withPrinted
  dsimp only
  split
  next h =>
    rw [clears] at h
    exact ⟨fun k => (nomatch k), fun ⟨_, k⟩ => absurd h.2 k⟩
  next h =>
    rw [clears] at h
    show d.hold = true ↔ _
    tauto

end Sys2Proof.Machine
end

section
/-! PROOFS. The recording head (R83 to R93, R126, R130, R133, R157). -/

namespace Sys2Proof.Machine

/-! ## Loading, strobing and delivery (R83, R84, R87, R88) -/

section head

variable {s : State} {l : HeadLine}

theorem State.loadComplete_of_loading (loading : s.print.load = .loading l) :
    s.loadComplete = { s with print :=
      if s.print.strobe = .latchWait then
        { s.print with
          load := .empty
          strobe := .strobing l (l.counts.any fun c => decide (s.cfg.print.limit < c))
            (phaseList s.cfg.print.limit l.counts) false s.cfg.print.strobe s.cfg.print.gap }
      else { s.print with load := .loaded l } } := by
  unfold State.loadComplete
  rw [loading]
  dsimp only
  split
  · rfl
  · rfl

variable {heavy inGap : Bool} {p q : Phase} {rest phases : List Phase} {strobe gap : Nat}

/-- The strobe time of a phase ends in its gap (R87). -/
theorem State.phaseEnd_of_strobe (strobing : s.print.strobe = .strobing l heavy phases false strobe gap)
    (wide : 0 < gap) : s.phaseEnd = { s with print := { s.print with
      strobe := .strobing l heavy phases true strobe gap } } := by
  unfold State.phaseEnd
  rw [strobing]
  dsimp only
  rw [if_pos (by simp [wide])]
  rfl

theorem State.phaseEnd_of_next (strobing : s.print.strobe = .strobing l heavy (p :: q :: rest) inGap strobe gap)
    (over_ : inGap = true ∨ gap = 0) : s.phaseEnd = { s with print := { s.print with
      strobe := .strobing l heavy (q :: rest) false strobe gap } } := by
  unfold State.phaseEnd
  rw [strobing]
  dsimp only
  rw [if_neg (by obtain rfl | rfl := over_ <;> simp)]
  rfl

theorem State.phaseEnd_of_last (strobing : s.print.strobe = .strobing l heavy [p] inGap strobe gap)
    (over_ : inGap = true ∨ gap = 0) :
    s.phaseEnd = ({ s with print := { s.print with strobe := .idle } } : State).strobeDone l heavy := by
  unfold State.phaseEnd
  rw [strobing]
  dsimp only
  rw [if_neg (by obtain rfl | rfl := over_ <;> simp)]
  rfl

theorem State.exec_phaseTimerExpiry (running : s.held = false) (awake : s.power.state ≠ .sleep)
    (strobing : s.print.strobe = .strobing l heavy phases inGap strobe gap) :
    exec .phaseTimerExpiry s = .next s.phaseEnd.settle := by
  refine congrArg Host.Outcome.next (if_pos ?_)
  rw [State.clocked_of running awake, Print.inStrobe, strobing]
  rfl

/-- The delivered line leaves its queue (R88, R110), and a page end is due for its cut (R92). -/
theorem State.strobeDone_of_held {m : Move} {x : SlotLine} {rest : List SlotLine} (found : s.move? l.move = some m)
    (print : m.isPrint = true) (flows : m.flowing = true) (queue : m.queue = x :: rest) (own : x.slot = l.slot)
    (heavy : Bool) : (s.strobeDone l heavy).move? l.move = some (
      if l.pageEnd then { m.deliver heavy with cutDue := true } else m.deliver heavy) := by
  have held : s.headLineHeld l = true := by
    unfold State.headLineHeld
    rw [found]
    simp [print, flows, queue, own]
  have delivered : (s.onMove l.move (Move.deliver heavy)).move? l.move = some (m.deliver heavy) := by
    rw [State.move?_onMove (f := Move.deliver heavy) fun _ => rfl, found]
    rfl
  show (s.deliverHead l heavy).move? l.move = _
  unfold State.deliverHead
  rw [if_pos held]
  dsimp only
  split
  · exact (State.move?_onMove (f := fun m => { m with cutDue := true }) fun _ => rfl).trans
      (congrArg (Option.map _) delivered)
  · exact delivered

/-- The line of a move that has ended delivers nothing (R88). -/
theorem State.strobeDone_of_gone (gone : s.move? l.move = none ∨ ∃ m, s.move? l.move = some m ∧ m.flowing = false)
    (heavy : Bool) : s.strobeDone l heavy = s.onChannel .rf Channel.strobeDone := by
  have lost : ¬s.headLineHeld l = true := by
    unfold State.headLineHeld
    obtain absent | ⟨m, found, still⟩ := gone
    · simp [absent]
    · simp [found, still]
  exact congrArg (State.onChannel .rf Channel.strobeDone) (if_neg lost)

theorem HeadLine.isWhite_iff (l : HeadLine) : l.isWhite = true ↔ ∀ c ∈ l.counts, c = 0 := by
  simp [HeadLine.isWhite]

theorem ruleLoad_of_untaken {m : Move} {x : SlotLine} {rest : List SlotLine} (serving : s.serving? = some m)
    (empty : s.print.load = .empty) (untaken : s.untakenLines m = x :: rest) :
    ruleLoad s = some (s.takeLoad m x) := by
  unfold ruleLoad
  rw [serving]
  dsimp only
  rw [untaken]
  exact if_pos (by rw [empty]; rfl)

/-- A boundary finds its line still loading, white, or black somewhere (R84). -/
theorem State.boundaryAtHead_of_loaded (loaded : s.print.load = .loaded l) :
    s.boundaryAtHead = if ∀ c ∈ l.counts, c = 0 then
        ({ s with print := { s.print with load := .empty } } : State).strobeDone l false
      else { s with print := { s.print with
        load := .empty
        strobe := .strobing l (l.counts.any fun c => decide (s.cfg.print.limit < c))
          (phaseList s.cfg.print.limit l.counts) false s.cfg.print.strobe s.cfg.print.gap } } := by
  unfold State.boundaryAtHead
  rw [loaded]
  simp only [HeadLine.isWhite_iff]
  rfl

end head

/-! ## RF at rest under the serving move (R92, R128, R133) -/

section rests

variable {s : State} {m : Move}

/-- RF stands stopped under a move with no order. -/
theorem State.rfRests_iff (m : Move) (s : State) : s.rfRests m = true ↔ s.rf.user = some (.move m.id)
    ∧ s.rf.releasing = false ∧ (s.rf.state = .idle ∨ s.rf.state = .holding) ∧ s.rf.startWaiting = none := by
  simp only [State.rfRests, Channel.usedBy, Channel.ready, Bool.and_eq_true, Bool.or_eq_true, Bool.not_eq_true',
    beq_iff_eq, Option.isNone_iff_eq_none, and_assoc]

theorem ruleCut_eq (serving : s.serving? = some m) : ruleCut s =
    if s.rfRests m = true ∧ m.cutDue = true ∧ s.print.cut = .none then some (s.beginCut m) else none := by
  unfold ruleCut State.doWhen
  rw [serving]
  refine if_congr ?_ rfl rfl
  simp only [Bool.and_eq_true, beq_iff_eq]
  tauto

theorem rulePaperOut_eq (serving : s.serving? = some m) : rulePaperOut s =
    if (s.rfRests m = true ∧ m.cutDue = false ∧ s.print.cut = .none) ∧ m.paperOut = true then some (s.actOnPaperOut m)
    else none := by
  unfold rulePaperOut State.doWhen
  rw [serving]
  refine if_congr ?_ rfl rfl
  simp only [Bool.and_eq_true, beq_iff_eq, Bool.not_eq_true']
  tauto

theorem rulePrintRun_eq (serving : s.serving? = some m) : rulePrintRun s =
    if (s.rfRests m = true ∧ m.cutDue = false ∧ s.print.cut = .none) ∧ m.paperOut = false
      ∧ (m.state = .running ∨ m.queue ≠ [] ∨ 0 < m.blankDue) then
      some { s with rf := { s.rf with startWaiting := some (.line m.target true) } } else none := by
  unfold rulePrintRun State.doWhen
  rw [serving]
  refine if_congr ?_ rfl rfl
  simp only [Bool.and_eq_true, Bool.or_eq_true, beq_iff_eq, Bool.not_eq_true', List.isEmpty_eq_false_iff,
    decide_eq_true_eq, or_assoc]
  tauto

theorem State.beginCut_eq (m : Move) (s : State) :
    let t := s.onMove m.id fun m => { m with cutDue := false }
    s.beginCut m = if s.cfg.print.margin = 0 then { t with print := { t.print with cut := .pulse s.cfg.print.pulse } }
      else { t with
        print := { t.print with cut := .feed s.cfg.print.pulse }
        rf := { t.rf with startWaiting := some (.ramp 1 true s.cfg.print.margin) } } := rfl

end rests

/-! ## The end of the cut (R93, R130) -/

section cut

variable {s : State} {m : Move}

/-- The counters of a move whose sink page is complete: the page is printed for its stored document (R130, R157). -/
def State.pageCut (m : Move) (s : State) : State :=
  let t := (({ s with print := { s.print with cut := .none } } : State).report 0xE5
    ([byte1 m.number, 2] ++ bytes2 m.counters.curPage ++ bytes2 m.counters.curLines)).onMove m.id Move.completePage
  match m.source with
  | .store doc first _ => (t.onStore (Store.pagePrinted doc (first + (m.counters.curPage - 1)))).testAutoDelete doc
  | _ => t

theorem State.pageCut_induct {P : State → Prop} (t : P ((({ s with print := { s.print with cut := .none } } : State).report
    0xE5 ([byte1 m.number, 2] ++ bytes2 m.counters.curPage ++ bytes2 m.counters.curLines)).onMove m.id Move.completePage))
    (store : ∀ u (st : Store), P u → P (u.onStore fun _ => st)) : P (s.pageCut m) := by
  unfold State.pageCut
  dsimp only
  split
  · exact store _ _ (store _ _ t)
  · exact t

theorem State.pageCut_move? (found : s.move? m.id = some m) : (s.pageCut m).move? m.id = some m.completePage := by
  refine State.pageCut_induct (P := fun u => u.move? m.id = some m.completePage) ?_ fun u st h => h
  rw [State.move?_onMove (f := Move.completePage) fun _ => rfl]
  exact congrArg (Option.map Move.completePage) found

theorem State.pageCut_feed : (s.pageCut m).feed = s.feed :=
  State.pageCut_induct (P := fun u => u.feed = s.feed) (by exact State.report_feed 0xE5 ([byte1 m.number, 2] ++ bytes2 m.counters.curPage ++ bytes2 m.counters.curLines) _)
    fun u st h => h

/-- The cut of a page: what is left of the move decides (R93, R130, log 36). -/
theorem State.cutDone_of_serving (serving : s.serving? = some m) (found : s.move? m.id = some m) :
    let spent := m.state = .draining ∧ m.queue = [] ∧ m.blankDue = 0
    let paperOut := m.paperOut = true ∨ s.feed.paper.debounced = false
    s.cutDone = if spent then (s.pageCut m).endMove m.id .done none false
      else if paperOut then (s.pageCut m).actOnPaperOut m.completePage else s.pageCut m := by
  intro spent paperOut
  obtain ⟨mem, serves⟩ : m ∈ s.moves ∧ (m.isPrint && m.flowing) = true :=
    ⟨List.mem_of_find?_eq_some serving, by simpa using List.find?_some (show s.moves.find? (fun m => m.isPrint && m.flowing) = some m from serving)⟩
  have flows : m.flowing = true := (Bool.and_eq_true_iff.mp serves).2
  have after := State.pageCut_move? found
  let begun : State := { s with print := { s.print with cut := .none } }
  have counted : (begun.completeSinkPage m.id .printedAndCut).countPrinted m = s.pageCut m := by
    have complete : begun.completeSinkPage m.id .printedAndCut = (begun.report 0xE5 ([byte1 m.number, 2]
        ++ bytes2 m.counters.curPage ++ bytes2 m.counters.curLines)).onMove m.id Move.completePage := by
      unfold State.completeSinkPage
      rw [show begun.move? m.id = some m from found]
      rfl
    rw [complete]
    unfold State.countPrinted storedPage State.pageCut
    cases m.source
    · rfl
    · rfl
    · rfl
  have ends : (s.pageCut m).endIfDrained m.id
      = if spent then (s.pageCut m).endMove m.id .done none false else s.pageCut m := by
    unfold State.endIfDrained
    rw [after]
    refine if_congr ?_ rfl rfl
    simp [Move.completePage, spent, and_assoc]
  have done_ : s.cutDone = (match ((s.pageCut m).endIfDrained m.id).move? m.id with
      | none => (s.pageCut m).endIfDrained m.id
      | some n => if n.flowing && (n.paperOut || !((s.pageCut m).endIfDrained m.id).paperPresent) then
          ((s.pageCut m).endIfDrained m.id).actOnPaperOut n else (s.pageCut m).endIfDrained m.id) := by
    unfold State.cutDone
    dsimp only
    rw [show (s.onPrint fun p => { p with cut := .none }).serving? = some m from serving]
    dsimp only
    rw [show ((s.onPrint fun p => { p with cut := .none }).completeSinkPage m.id .printedAndCut).countPrinted m
      = s.pageCut m from counted] <;> rfl
  rw [done_, ends]
  by_cases h : spent
  · have ended : ((s.pageCut m).endMove m.id .done none false).move? m.id = some (m.completePage.ended .done none) := by
      have live : m.completePage.live = true := by simp [Move.completePage, Move.live, h.1]
      rw [State.endMove_move?, if_pos rfl, after, Option.map_some, if_pos live]
    rw [if_pos h, if_pos h, ended]
    rfl
  · have acts : (m.completePage.flowing && (m.completePage.paperOut || !(s.pageCut m).paperPresent)) = true ↔ paperOut := by
      have stillFlows : m.completePage.flowing = true := flows
      have paper : (s.pageCut m).paperPresent = s.feed.paper.debounced :=
        congrArg (fun f : Feed => f.paper.debounced) State.pageCut_feed
      have notes : m.completePage.paperOut = m.paperOut := rfl
      simp [stillFlows, paper, paperOut, notes]
    rw [if_neg h, if_neg h, after]
    exact if_congr acts rfl rfl

/-- With no move that prints, the cut is over and nothing else (R93). -/
theorem State.cutDone_of_none (free : s.serving? = none) :
    s.cutDone = { s with print := { s.print with cut := .none } } := by
  unfold State.cutDone
  dsimp only
  rw [show (s.onPrint fun p => { p with cut := .none }).serving? = none from free]
  rfl

theorem State.exec_cutterPulseEnd (running : s.held = false) (awake : s.power.state ≠ .sleep) {pulse : Nat}
    (cutting : s.print.cut = .pulse pulse) : exec .cutterPulseEnd s = .next s.cutDone.settle := by
  refine congrArg Host.Outcome.next (if_pos ?_)
  rw [State.clocked_of running awake, cutting]
  rfl

/-- The last step of the cut feed brings RF to HOLDING under its move, and the pulse begins (R92, R93). -/
theorem State.exec_cutFeedStep {x : RampRun} {id pulse : Nat} (running : s.held = false) (awake : s.power.state ≠ .sleep)
    (run : s.rf.run = .ramp x) (ramping : s.rf.state = .ramping) (last : x.r = 1) (user : s.rf.user = some (.move id))
    (own : s.rf.releasing = false) (feeding : s.print.cut = .feed pulse) (closed : s.feed.cover.debounced = false) :
    ∃ t : State, exec (.channelStep .rf) s = .next t.settle ∧ t.print = { s.print with cut := .pulse pulse }
      ∧ t.rf.state = .holding ∧ t.rf.user = some (.move id) ∧ t.path = s.path := by
  have due : (s.channel .rf).stepDue = true := by
    unfold Channel.stepDue
    rw [show (s.channel .rf).run = .ramp x from run, show (s.channel .rf).state = .ramping from ramping]
    rfl
  have ending : x.toGo = 0 := by simp [RampRun.toGo, last]
  have holds : s.rf.stepRamp s.cfg.rf x = (s.rf.issue s.cfg.rf.invert x.forward).enterHolding s.cfg.rf.holdTime :=
    if_pos ending
  rw [Channel.issue_eq] at holds
  have fed : State.rampEnded .rf { s with rf := s.rf.stepRamp s.cfg.rf x }
      = { s with rf := s.rf.stepRamp s.cfg.rf x, print := { s.print with cut := .pulse pulse } } := by
    have mine : (s.rf.stepRamp s.cfg.rf x).releasing = false := by rw [holds]; exact own
    have served : (s.rf.stepRamp s.cfg.rf x).user = some (.move id) := by rw [holds]; exact user
    refine (if_neg (by exact Bool.eq_false_iff.mp mine)).trans ?_
    show (match (s.rf.stepRamp s.cfg.rf x).user with
      | none => _ | some .host => _ | some .feed => _ | some (.move _) => _) = _
    rw [served]
    show State.cutFeedEnded _ = _
    unfold State.cutFeedEnded
    dsimp only
    rw [feeding]
    rfl
  refine ⟨_, (State.exec_channelStep running awake closed due).trans (congrArg (Host.Outcome.next ∘ State.settle)
    ((State.issueStep_ramp (ch := .rf) run).trans ((if_pos (by simp [RampRun.ending, ending])).trans fed))), rfl, ?_, ?_, rfl⟩
  · rw [holds]
    rfl
  · rw [holds]
    exact user

end cut

/-- Settles O39. -/
theorem headEvents : Obligations.HeadEvents := by
  unfold Obligations.HeadEvents
  refine ⟨fun s running awake => ⟨fun l loading => ?_, fun l heavy phases strobe gap strobing wide => ?_,
      fun l heavy p q rest inGap strobe gap strobing over_ => ?_, fun l heavy p inGap strobe gap strobing over_ => ?_,
      fun pulse cutting => ⟨State.exec_cutterPulseEnd running awake cutting, State.cutDone_of_none,
        fun m serving found => ?_⟩⟩,
    fun st number index d p doc page => ?_, fun s l heavy => ⟨fun m q rest found print flows queue own => ?_,
      fun gone => State.strobeDone_of_gone gone heavy⟩,
    fun s m l rest serving empty untaken => ?_, fun s l => ⟨fun loading => ?_, fun loaded white => ?_, fun loaded black => ?_⟩,
    fun s m serving due idle user own rests free => ?_, fun s => ⟨fun m serving => ?_, fun free => ?_⟩,
    fun s x id pulse running awake run ramping last user own feeding closed =>
      State.exec_cutFeedStep running awake run ramping last user own feeding closed⟩
  · exact (congrArg Host.Outcome.next (if_pos (State.clocked_of running awake))).trans
      (congrArg (Host.Outcome.next ∘ State.settle) (State.loadComplete_of_loading loading))
  · exact (State.exec_phaseTimerExpiry running awake strobing).trans
      (congrArg (Host.Outcome.next ∘ State.settle) (State.phaseEnd_of_strobe strobing wide))
  · exact (State.exec_phaseTimerExpiry running awake strobing).trans
      (congrArg (Host.Outcome.next ∘ State.settle) (State.phaseEnd_of_next strobing over_))
  · exact (State.exec_phaseTimerExpiry running awake strobing).trans
      (congrArg (Host.Outcome.next ∘ State.settle) (State.phaseEnd_of_last strobing over_))
  · intro complete t u spent paperOut
    have cut : s.pageCut m = u := by
      unfold State.pageCut
      cases source : m.source
      all_goals simp only [u, source]; rfl
    have done_ := State.cutDone_of_serving serving found
    rw [cut] at done_
    exact ⟨fun h => done_.trans (if_pos h), fun h out => done_.trans ((if_neg h).trans (if_pos out)),
      fun h some_ => done_.trans ((if_neg h).trans (if_neg some_))⟩
  · refine ⟨Store.pagePrinted_of_printed doc page, fun fresh => ?_⟩
    have printed := Store.pagePrinted_of_not doc page fresh
    obtain ⟨hold, same⟩ := d.withPrinted_eq index
    have keeps (d : Document) : (d.withPrinted index).number = d.number := by
      obtain ⟨hold, same⟩ := d.withPrinted_eq index
      rw [same]
      rfl
    refine ⟨printed.map, printed.memory, printed.prefix, d.withPrinted index, ?_, ?_, by rw [same]; rfl,
      Document.withPrinted_hold page⟩
    · rw [printed.doc?, Store.doc?_onDoc_same keeps, doc]
      rfl
    · rw [same]
      exact (Document.page?_onPage_same (f := fun p => { p with printed := true }) (fun _ => rfl) index d).trans
        (congrArg (Option.map _) page)
  · refine ⟨_, State.strobeDone_of_held found print flows queue own heavy, ?_⟩
    have tail : m.queue.tail = rest := by rw [queue]; rfl
    cases l.pageEnd
    · exact ⟨tail, rfl, rfl, rfl, fun k => nomatch k⟩
    · exact ⟨tail, rfl, rfl, rfl, fun _ => rfl⟩
  · intro size counts line
    refine (ruleLoad_of_untaken serving empty untaken).trans (congrArg some ?_)
    have white := HeadLine.isWhite_iff line
    show ({ s with print := { s.print with load := if line.isWhite then .loaded line else .loading line } } : State) = _
    simp only [white]
    rfl
  · unfold State.boundaryAtHead
    rw [loading]
    rfl
  · exact (State.boundaryAtHead_of_loaded loaded).trans (if_pos white)
  · refine (State.boundaryAtHead_of_loaded loaded).trans (if_neg ?_)
    push Not
    exact black
  · exact (ruleCut_eq serving).trans (if_pos ⟨(s.rfRests_iff m).mpr ⟨user, own, rests, free⟩, due, idle⟩)
  · intro rests stands more
    have cut := ruleCut_eq serving
    have out := rulePaperOut_eq serving
    have run := rulePrintRun_eq serving
    simp only [State.rfRests_iff] at cut out run
    exact ⟨fun h some_ m => run.trans (if_pos ⟨h, some_, m⟩), fun h => run.trans (if_neg h),
      fun h p => out.trans (if_pos ⟨h, p⟩), fun h => out.trans (if_neg h), fun h => cut.trans (if_neg h)⟩
  · unfold rulePrintRun rulePaperOut ruleCut
    rw [free]
    exact ⟨rfl, rfl, rfl⟩

end Sys2Proof.Machine
end


section
/-! PROOFS. READ_LINES: the lines that a reply takes (R111, R139), and the end of a reply that carried lines (R140). -/

namespace Sys2Proof.Machine

/-! ## The length of a coded line (R98, R99) -/

theorem length_encodeRun (n : Nat) : (encodeRun n).length ≤ max 1 n := by
  unfold encodeRun
  split
  · exact Nat.le_max_left 1 n
  next long => exact le_trans (by decide : 2 ≤ 192) (le_max_of_le_right (Nat.le_of_not_lt long))

/-- No run costs more bytes than dots, but for a first run of no dots. -/
theorem length_encodeRuns (line : RawLine) (colour : Bool) (n : Nat) :
    ((runsFrom colour n line).flatMap encodeRun).length ≤ line.length + max 1 n := by
  induction line generalizing colour n with
  | nil =>
    show (encodeRun n ++ []).length ≤ 0 + max 1 n
    rw [List.append_nil, Nat.zero_add]
    exact length_encodeRun n
  | cons d ds ih =>
    unfold runsFrom
    rw [List.length_cons]
    split
    · have rest := ih colour (n + 1)
      omega
    · have rest := ih d 1
      have run := length_encodeRun n
      rw [List.flatMap_cons, List.length_append]
      omega

theorem length_encodeLine (line : RawLine) : (encodeLine line).length ≤ line.length + 2 := by
  have runs := length_encodeRuns line false 0
  rw [encodeLine, runsOf, List.length_append, List.length_singleton]
  omega

/-! ## The lines placed (R111, R139) -/

/-- The bytes that placed lines take in the payload: two of length, the page-end mark and the coded line, each. -/
abbrev placedBytes (placed : List (SlotLine × List Byte)) : Nat := (placed.map fun x => x.2.length + 3).sum

/-- A line of the width of the reply, coded, that still fits behind the bytes used. -/
abbrev Placeable (width used : Nat) (l : SlotLine) : Prop :=
  l.dots.length = width ∧ used + (encodeLine l.dots).length + 3 ≤ Config.maxPayload

theorem placeLines_of_placeable {width used : Nat} {l : SlotLine} (fits : Placeable width used l) (k : Nat)
    (ls : List SlotLine) : placeLines width (k + 1) used (l :: ls)
      = (l, encodeLine l.dots) :: placeLines width k (used + (encodeLine l.dots).length + 3) ls :=
  if_pos fits

theorem placeLines_of_not_placeable {width used : Nat} {l : SlotLine} (bad : ¬Placeable width used l) (k : Nat)
    (ls : List SlotLine) : placeLines width (k + 1) used (l :: ls) = [] :=
  if_neg bad

theorem placeLines_nil (width k used : Nat) : placeLines width k used [] = [] := by
  cases k with
  | zero => rfl
  | succ k => rfl

/-- The lines placed are the first of the list, coded, of one width and within the payload. -/
theorem placeLines_sound (width k used : Nat) (ls : List SlotLine) (room : used ≤ Config.maxPayload) :
    (placeLines width k used ls).length ≤ k
      ∧ (placeLines width k used ls).map Prod.fst <+: ls
      ∧ (∀ x ∈ placeLines width k used ls, x.2 = encodeLine x.1.dots ∧ x.1.dots.length = width)
      ∧ used + placedBytes (placeLines width k used ls) ≤ Config.maxPayload := by
  induction k generalizing used ls with
  | zero => exact ⟨le_refl 0, List.nil_prefix, nofun, room⟩
  | succ k ih =>
    cases ls with
    | nil => exact ⟨Nat.zero_le _, List.nil_prefix, nofun, room⟩
    | cons l ls =>
      by_cases fits : Placeable width used l
      · obtain ⟨short, first, coded, bytes⟩ := ih (used + (encodeLine l.dots).length + 3) ls fits.2
        rw [placeLines_of_placeable fits]
        refine ⟨Nat.succ_le_succ short, (List.cons_prefix_cons).mpr ⟨rfl, first⟩, fun x mem => ?_, ?_⟩
        · rcases List.mem_cons.mp mem with rfl | later
          · exact ⟨rfl, fits.1⟩
          · exact coded x later
        · rw [placedBytes, List.map_cons, List.sum_cons]
          rw [placedBytes] at bytes
          dsimp only
          omega
      · rw [placeLines_of_not_placeable fits]
        exact ⟨Nat.zero_le _, List.nil_prefix, nofun, room⟩

/-- The line at which a reply ends before it holds k lines does not fit in it. -/
theorem placeLines_stops (width k used : Nat) (ls : List SlotLine) (l : SlotLine)
    (few : (placeLines width k used ls).length < k)
    (next : ls[(placeLines width k used ls).length]? = some l) :
    ¬Placeable width (used + placedBytes (placeLines width k used ls)) l := by
  induction k generalizing used ls with
  | zero => exact absurd few (Nat.not_lt_zero _)
  | succ k ih =>
    cases ls with
    | nil => cases next
    | cons a ls =>
      by_cases fits : Placeable width used a
      · rw [placeLines_of_placeable fits] at few next ⊢
        have stop := ih (used + (encodeLine a.dots).length + 3) ls (Nat.lt_of_succ_lt_succ few) next
        rw [placedBytes] at stop
        rw [placedBytes, List.map_cons, List.sum_cons]
        dsimp only
        intro more
        exact stop ⟨more.1, by have := more.2; omega⟩
      · rw [placeLines_of_not_placeable fits] at next ⊢
        cases next
        exact fits

/-- A reply may take only lines that wait: past those being sent, and READY. -/
theorem Move.readable_prefix (m : Move) : m.readable <+: m.queue.dropWhile SlotLine.sending :=
  List.takeWhile_prefix _

theorem Move.readable_ready {m : Move} {l : SlotLine} (mem : l ∈ m.readable) : l.state = .ready := by
  have ready := List.mem_takeWhile_imp mem
  simpa using ready

/-- The lines placed, when some line may be taken. -/
theorem Move.placed_of_readable {m : Move} {l : SlotLine} {ls : List SlotLine} (readable : m.readable = l :: ls)
    (k : Nat) : m.placed k = placeLines l.dots.length k 8 (l :: ls) := by
  unfold Move.placed
  rw [readable]

theorem Move.placed_of_none {m : Move} (readable : m.readable = []) (k : Nat) : m.placed k = [] := by
  unfold Move.placed
  rw [readable]

/-- The line behind the ones that may be taken is not READY. -/
theorem getElem?_of_takeWhile {α : Type} (p : α → Bool) (l : List α) (n : Nat) (short : n ≤ (l.takeWhile p).length)
    (x : α) (at_n : l[n]? = some x) : (l.takeWhile p)[n]? = some x ∨ p x = false := by
  induction l generalizing n with
  | nil => cases at_n
  | cons a l ih =>
    cases holds : p a with
    | false =>
      rw [List.takeWhile_cons_of_neg (by simp [holds])] at short
      obtain rfl : n = 0 := Nat.le_zero.mp short
      cases at_n
      exact .inr holds
    | true =>
      rw [List.takeWhile_cons_of_pos holds] at short ⊢
      cases n with
      | zero => exact .inl at_n
      | succ n => exact ih n (Nat.le_of_succ_le_succ short) at_n

/-- The lines of a reply (R139): the first that wait, READY, of one width, as many as fit. -/
theorem Move.placed_spec (m : Move) (k : Nat) :
    let placed := m.placed k
    let waiting := m.queue.dropWhile SlotLine.sending
    placed.length ≤ k
      ∧ placed.map Prod.fst <+: waiting
      ∧ (∀ x ∈ placed, x.1.state = .ready ∧ x.2 = encodeLine x.1.dots
        ∧ x.1.dots.length = (waiting.headD x.1).dots.length)
      ∧ 8 + placedBytes placed ≤ 2304
      ∧ (∀ l rest, waiting = l :: rest → l.state = .ready → 0 < k → l.dots.length ≤ 2048 → placed ≠ [])
      ∧ (∀ l, placed.length < k → waiting[placed.length]? = some l →
        l.state ≠ .ready ∨ l.dots.length ≠ (waiting.headD l).dots.length
          ∨ 2304 < 8 + placedBytes placed + ((encodeLine l.dots).length + 3)) := by
  intro placed waiting
  have readable : m.readable = waiting.takeWhile fun l => l.state == .ready := rfl
  cases lines : m.readable with
  | nil =>
    have empty : placed = [] := Move.placed_of_none lines k
    rw [empty]
    have first : ∀ l, waiting[0]? = some l → l.state ≠ .ready := by
      intro l at_0 ready
      rcases getElem?_of_takeWhile (fun l : SlotLine => l.state == .ready) waiting 0 (Nat.zero_le _) l at_0
        with taken | other
      · rw [← readable, lines] at taken
        cases taken
      · simp [ready] at other
    exact ⟨Nat.zero_le k, List.nil_prefix, nofun, by decide,
      fun l rest split ready => absurd ready (first l (by rw [split]; rfl)), fun l _ at_0 => .inl (first l at_0)⟩
  | cons h hs =>
    have head : ∀ d, waiting.headD d = h := by
      obtain ⟨rest, whole⟩ := m.readable_prefix
      intro d
      show (m.queue.dropWhile SlotLine.sending).headD d = h
      rw [← whole, lines]
      rfl
    have eq : placed = placeLines h.dots.length k 8 m.readable := by
      rw [lines]
      exact Move.placed_of_readable lines k
    obtain ⟨short, first, coded, bytes⟩ := placeLines_sound h.dots.length k 8 m.readable (by decide)
    rw [← eq] at short first coded bytes
    refine ⟨short, first.trans m.readable_prefix, fun x mem => ?_, bytes, fun l rest split ready some narrow => ?_,
      fun l few next => ?_⟩
    · obtain ⟨bytes, width⟩ := coded x mem
      exact ⟨Move.readable_ready (first.subset (List.mem_map_of_mem mem)), bytes, by rw [head]; exact width⟩
    · obtain ⟨k, rfl⟩ := Nat.exists_eq_succ_of_ne_zero some.ne'
      have same : l = h := by
        rw [← head l, split]
        rfl
      have code := length_encodeLine h.dots
      subst same
      rw [eq, lines, placeLines_of_placeable ⟨rfl, by show _ ≤ 2304; omega⟩]
      exact List.cons_ne_nil _ _
    · have within : placed.length ≤ (waiting.takeWhile fun l => l.state == .ready).length := by
        rw [← readable, ← List.length_map (as := placed) Prod.fst]
        exact first.length_le
      rcases getElem?_of_takeWhile _ waiting _ within l next with taken | other
      · rw [← readable] at taken
        have stop := placeLines_stops h.dots.length k 8 m.readable l (by rw [← eq]; exact few) (by rw [← eq]; exact taken)
        rw [← eq] at stop
        rw [head]
        by_cases width : l.dots.length = h.dots.length
        · refine .inr (.inr (Nat.lt_of_not_le fun fits => stop ⟨width, ?_⟩))
          show _ ≤ 2304
          omega
        · exact .inr (.inl width)
      · exact .inl (by simpa using other)

/-! ## The reply (R139) -/

theorem Move.isLinkOut_iff (m : Move) : m.isLinkOut = true ↔ m.sink = .linkOut := beq_iff_eq

theorem Move.isLinkOut_eq_false_iff (m : Move) : m.isLinkOut = false ↔ m.sink ≠ .linkOut := by
  rw [Bool.eq_false_iff, ne_eq, Move.isLinkOut_iff]

theorem Move.finishedBy_eq (m : Move) (n : Nat) :
    m.finishedBy n = decide (m.state = .draining ∧ m.blankDue = 0 ∧ n = m.queue.length) := by
  rw [Bool.eq_iff_iff, decide_eq_true_eq]
  simp only [Move.finishedBy, Bool.and_eq_true, beq_iff_eq, and_assoc]

theorem Move.markSending_eq (slots : List Nat) (m : Move) : m.markSending slots
    = { m with queue := m.queue.map fun l => { l with sending := l.sending || slots.contains l.slot } } := by
  unfold Move.markSending
  refine congrArg (fun q => { m with queue := q }) (List.map_congr_left fun l _ => ?_)
  cases slots.contains l.slot with
  | false => rw [Bool.or_false]; rfl
  | true => rw [Bool.or_true]; rfl

theorem Move.markSending_nil (m : Move) : m.markSending [] = m := by
  unfold Move.markSending
  simp

/-- A change of one record that leaves every record as it is. -/
theorem State.onMove_of_fixed (s : State) (id : Nat) {f : Move → Move} (fixed : ∀ m, f m = m) : s.onMove id f = s := by
  have table : (s.path.onMove id f).table = s.path.table := by
    show s.path.table.map _ = s.path.table
    simp [fixed]
  show { s with path := { s.path with table := (s.path.onMove id f).table } } = s
  rw [table]

/-- What READ_LINES refuses with BAD_VALUE. -/
abbrev ReadLinesRefused (m : Move) (k rsv : Byte) : Prop :=
  k.toNat = 0 ∨ 32 < k.toNat ∨ rsv ≠ 0 ∨ m.sink ≠ .linkOut

section read

variable {s : State} {num k rsv : Byte} {m : Move} (named : s.moveNumbered? num.toNat = some m)
include named

theorem answerReadLines_of_bad (bad : ReadLinesRefused m k rsv) : answerReadLines num k rsv s = .refuse .badValue := by
  unfold answerReadLines
  rw [named]
  refine if_pos ?_
  rw [Move.isLinkOut_eq_false_iff]
  exact bad

theorem answerReadLines_of_good (good : ¬ReadLinesRefused m k rsv) : answerReadLines num k rsv s
    = if m.live = false then .refuse .moveEnded
      else
        let placed := if m.flowing then m.placed k.toNat else []
        ⟨.linesReply m.id placed.length (m.finishedBy placed.length),
          some (linesPayload m placed (m.finishedBy placed.length)), fun s =>
          s.onMove m.id (Move.markSending (placed.map fun x => x.1.slot))⟩ := by
  unfold answerReadLines
  rw [named]
  refine if_neg ?_
  rw [Move.isLinkOut_eq_false_iff]
  exact good

end read

/-- READ_LINES by the cases of R139. -/
theorem State.Serves.readLines {s : State} (hs : s.Serves) (tag num k rsv : Byte) :
    let i := Instr.readLines tag num k rsv
    (s.moveNumbered? num.toNat = none → exec i s = .next (s.replied 0x54 tag [0x09]))
    ∧ ∀ m, s.moveNumbered? num.toNat = some m →
      (ReadLinesRefused m k rsv → exec i s = .next (s.replied 0x54 tag [0x03]))
      ∧ (¬ReadLinesRefused m k rsv → m.live = false → exec i s = .next (s.replied 0x54 tag [0x0C]))
      ∧ (¬ReadLinesRefused m k rsv → m.state = .pending ∨ m.state = .starting →
        exec i s = .next (s.queued ⟨.linesReply m.id 0 false, 0xD4, tag,
          [0x00, byte1 m.number, 0, 0, 0, 0, m.target.code, 0]⟩))
      ∧ (¬ReadLinesRefused m k rsv → m.state = .running ∨ m.state = .draining →
        let placed := m.placed k.toNat
        let finished := decide (m.state = .draining ∧ m.blankDue = 0 ∧ placed.length = m.queue.length)
        let slots := placed.map fun x => x.1.slot
        exec i s = .next ((s.queued ⟨.linesReply m.id placed.length finished, 0xD4, tag,
            linesPayload m placed finished⟩).onMove m.id fun n => { n with queue := n.queue.map fun l =>
              { l with sending := l.sending || slots.contains l.slot } })) := by
  intro i
  refine ⟨fun absent => hs.refuses i rfl trivial (r := .noSuchMove) ?_, fun m named => ⟨fun bad => ?_,
    fun good ended => ?_, fun good waits => ?_, fun good flows => ?_⟩⟩
  · show answerReadLines num k rsv _ = _
    unfold answerReadLines
    rw [show (s.inHand _).moveNumbered? num.toNat = none from absent]
  · exact hs.refuses i rfl trivial (answerReadLines_of_bad named bad)
  · exact hs.refuses i rfl trivial ((answerReadLines_of_good named good).trans (if_pos ended))
  · have live : ¬m.live = false := by
      rcases waits with waits | waits
      · simp [Move.live, waits]
      · simp [Move.live, waits]
    have still : m.flowing = false := by
      rcases waits with waits | waits
      · simp [Move.flowing, waits]
      · simp [Move.flowing, waits]
    have unfinished : m.finishedBy 0 = false := by
      rcases waits with waits | waits
      · simp [Move.finishedBy, waits]
      · simp [Move.finishedBy, waits]
    have answer := (answerReadLines_of_good (s := s.inHand ⟨0x54, tag, [num, k, rsv]⟩) named good).trans (if_neg live)
    simp only [still, Bool.false_eq_true, if_false, List.length_nil, unfinished] at answer
    refine (hs.answers i rfl trivial answer).trans (congrArg Host.Outcome.next ?_)
    exact State.onMove_of_fixed _ _ Move.markSending_nil
  · have flowing := (Move.flowing_iff m).mpr flows
    have live : ¬m.live = false := by
      rcases flows with flows | flows
      · simp [Move.live, flows]
      · simp [Move.live, flows]
    have answer := (answerReadLines_of_good (s := s.inHand ⟨0x54, tag, [num, k, rsv]⟩) named good).trans (if_neg live)
    simp only [flowing, if_true, Move.finishedBy_eq] at answer
    refine (hs.answers i rfl trivial answer).trans (congrArg Host.Outcome.next ?_)
    exact congrArg (State.onMove m.id · _) (funext fun n => Move.markSending_eq _ n)

/-! ## The end of a reply that carried lines (R140) -/

section sent

variable {s : State} {id : Nat} {m : Move} (found : s.move? id = some m)
include found

/-- A line without the page-end mark is delivered, and no more. -/
theorem State.lineSent_of_line {l : SlotLine} (head : m.queue.head? = some l) (inside : l.pageEnd = false) :
    s.lineSent id = s.onMove id (Move.deliver false) := by
  unfold State.lineSent
  simp only [found, head, inside, Bool.false_eq_true, if_false]

/-- A line with the mark completes its sink page as well. -/
theorem State.lineSent_of_pageEnd {l : SlotLine} (head : m.queue.head? = some l) (ends : l.pageEnd = true) :
    s.lineSent id = (s.onMove id (Move.deliver false)).completeSinkPage id .sent := by
  unfold State.lineSent
  simp only [found, head, ends, if_true]

theorem State.lineSent_of_empty (head : m.queue.head? = none) : s.lineSent id = s := by
  unfold State.lineSent
  simp only [found, head]

theorem State.move?_deliver : (s.onMove id (Move.deliver false)).move? id = some (m.deliver false) := by
  rw [State.move?_onMove (f := Move.deliver false) fun _ => rfl, found]
  rfl

/-- PAGE_EVENT carries the counters before the page counts (R130). -/
theorem State.completeSinkPage_of_some (mark : PageMark) : s.completeSinkPage id mark
    = (s.reportPage m.number mark m.counters.curPage m.counters.curLines).onMove id Move.completePage := by
  unfold State.completeSinkPage
  rw [found]

/-- A line that goes leaves the state and the sink of its move. -/
theorem State.lineSent_move? : ∃ n, (s.lineSent id).move? id = some n ∧ n.state = m.state ∧ n.sink = m.sink := by
  cases head : m.queue.head? with
  | none =>
    rw [State.lineSent_of_empty found head]
    exact ⟨m, found, rfl, rfl⟩
  | some l =>
    have delivered := State.move?_deliver found
    cases ends : l.pageEnd with
    | false =>
      rw [State.lineSent_of_line found head ends]
      exact ⟨_, delivered, rfl, rfl⟩
    | true =>
      rw [State.lineSent_of_pageEnd found head ends, State.completeSinkPage_of_some delivered,
        State.move?_onMove (f := Move.completePage) fun _ => rfl]
      refine ⟨(m.deliver false).completePage, ?_, rfl, rfl⟩
      exact congrArg (Option.map Move.completePage) delivered

/-- So do the lines of a whole reply. -/
theorem State.lineSent_iterate_move? (count : Nat) :
    ∃ n, ((State.lineSent id)^[count] s).move? id = some n ∧ n.state = m.state ∧ n.sink = m.sink := by
  induction count with
  | zero => exact ⟨m, found, rfl, rfl⟩
  | succ count ih =>
    obtain ⟨n, before, state, sink⟩ := ih
    obtain ⟨n', after, state', sink'⟩ := State.lineSent_move? before
    rw [Function.iterate_succ_apply']
    exact ⟨n', after, state'.trans state, sink'.trans sink⟩

/-- Lines without the page-end mark leave the head of the queue and count as delivered. -/
theorem State.lineSent_iterate_of_lines (count : Nat) (enough : count ≤ m.queue.length)
    (inside : ∀ l ∈ m.queue.take count, l.pageEnd = false) :
    ∃ n, ((State.lineSent id)^[count] s).move? id = some n ∧ n.queue = m.queue.drop count
      ∧ n.counters = { m.counters with
        delivered := m.counters.delivered + count
        curLines := m.counters.curLines + count } := by
  induction count with
  | zero => exact ⟨m, found, rfl, rfl⟩
  | succ count ih =>
    obtain ⟨n, before, queue, counters⟩ := ih (Nat.le_of_succ_le enough) fun l mem =>
      inside l (List.take_subset_take_left _ (Nat.le_succ count) mem)
    have at_count := List.getElem?_eq_getElem (Nat.lt_of_succ_le enough)
    have head : n.queue.head? = some m.queue[count] := by
      rw [queue, List.head?_drop, at_count]
    have plain : m.queue[count].pageEnd = false :=
      inside _ (List.mem_of_getElem? (i := count) (by rw [List.getElem?_take_of_lt (Nat.lt_succ_self count), at_count]))
    rw [Function.iterate_succ_apply', State.lineSent_of_line before head plain]
    refine ⟨_, State.move?_deliver before, ?_, ?_⟩
    · show n.queue.tail = _
      rw [queue, List.tail_drop]
    · show ({ n.counters with
        delivered := n.counters.delivered + 1
        heavy := n.counters.heavy + 0
        curLines := n.counters.curLines + 1 } : Counters) = _
      rw [counters]
      rfl

theorem State.linesSent_of_flowing (flowing : m.flowing = true) (sink : m.sink = .linkOut) (count : Nat)
    (finished : Bool) : s.linesSent id count finished
      = if finished then ((State.lineSent id)^[count] s).endMove id .done none false
        else (State.lineSent id)^[count] s := by
  have serving : (m.flowing && m.isLinkOut) = true := by rw [flowing, (Move.isLinkOut_iff m).mpr sink]; rfl
  unfold State.linesSent
  simp only [found, if_pos serving, List.foldl_const, List.length_range]

theorem State.linesSent_of_still (still : m.flowing = false) (count : Nat) (finished : Bool) :
    s.linesSent id count finished = s := by
  unfold State.linesSent
  simp only [found, still, Bool.false_and, Bool.false_eq_true, if_false]

end sent

theorem State.linesSent_of_none {s : State} {id : Nat} (absent : s.move? id = none) (count : Nat) (finished : Bool) :
    s.linesSent id count finished = s := by
  unfold State.linesSent
  simp only [absent]

/-- Two changes of one record, one after the other. -/
theorem State.onMove_onMove (s : State) (id : Nat) {f g : Move → Move} (keeps : ∀ m, (f m).id = m.id) :
    (s.onMove id f).onMove id g = s.onMove id (g ∘ f) := by
  have table : ((s.path.onMove id f).onMove id g).table = (s.path.onMove id (g ∘ f)).table := by
    show (s.path.table.map _).map _ = s.path.table.map _
    rw [List.map_map]
    refine List.map_congr_left fun e _ => ?_
    cases e with
    | none => rfl
    | some m =>
      by_cases own : m.id = id
      · simp [own, keeps]
      · simp [own]
  show { s with path := { s.path with table := ((s.path.onMove id f).onMove id g).table } } = _
  rw [table]
  rfl

/-- Settles O48. -/
theorem readLinesSendsAndDelivers : Obligations.ReadLinesSendsAndDelivers := by
  unfold Obligations.ReadLinesSendsAndDelivers
  refine ⟨fun s tag num k rsv hs => hs.readLines tag num k rsv, Move.placed_spec,
    fun s before after r id count finished held awake sends kind => ?_⟩
  intro t
  have flowing_alive {m n : Move} (flowing : m.flowing = true) (state : n.state = m.state) : n.live = true := by
    rcases (Move.flowing_iff m).mp flowing with flows | flows
    · simp [Move.live, state, flows]
    · simp [Move.live, state, flows]
  refine ⟨?_, fun still => ?_, fun m found flowing sink going enough inside => ?_,
    fun m l rest found flowing sink queue ends => ?_, fun m n found flowing sink => ?_,
    fun m found flowing sink last => ?_⟩
  · rw [sends.recordSent (State.clocked_of held awake), kind]
    unfold State.recordGone State.onLink
    rw [sends.dropSent]
  · rcases still with absent | ⟨m, found, still⟩
    · exact State.linesSent_of_none (s := t) absent count finished
    · exact State.linesSent_of_still (s := t) found still count finished
  · rw [State.linesSent_of_flowing (s := t) found flowing sink, going, if_neg Bool.false_ne_true]
    exact State.lineSent_iterate_of_lines (s := t) found count enough inside
  · have head : m.queue.head? = some l := by rw [queue]; rfl
    rw [State.linesSent_of_flowing (s := t) found flowing sink, if_neg Bool.false_ne_true, Function.iterate_one,
      State.lineSent_of_pageEnd (s := t) found head ends, State.completeSinkPage_of_some (State.move?_deliver (s := t) found)]
    exact State.onMove_onMove (t.report 0xE5 _) id fun _ => rfl
  · obtain ⟨n', before, state, sink'⟩ := State.lineSent_iterate_move? (s := t) found n
    rw [State.linesSent_of_flowing (s := t) found flowing sink, State.linesSent_of_flowing (s := t) found flowing sink,
      if_neg Bool.false_ne_true, if_neg Bool.false_ne_true,
      State.linesSent_of_flowing before ((Move.flowing_iff n').mpr (by rw [state]; exact (Move.flowing_iff m).mp flowing))
        (sink'.trans sink),
      if_neg Bool.false_ne_true, Function.iterate_succ_apply']
    rfl
  · obtain ⟨n, before, state, _⟩ := State.lineSent_iterate_move? (s := t) found count
    rw [State.linesSent_of_flowing (s := t) found flowing sink, last, if_pos rfl, State.endMove_move?, if_pos rfl, before]
    exact ⟨_, rfl, congrArg Move.state (if_pos (flowing_alive flowing state))⟩

end Sys2Proof.Machine
end


section
/-! PROOFS. The phase list of a line (R84 to R86). -/

namespace Sys2Proof.Machine

/-- The black dots of the blocks of a phase. -/
abbrev blackDots (counts blocks : List Nat) : Nat := (blocks.map fun b => counts.getD b 0).sum

/-- A phase of the list before the phases without a black dot are removed: consecutive blocks, their true sum, and one
block alone above the limit. -/
structure Phase.Formed (limit : Nat) (counts : List Nat) (p : Phase) : Prop where
  some : p.blocks ≠ []
  consecutive : ∃ first, p.blocks = List.range' first p.blocks.length
  sum : p.sum = blackDots counts p.blocks
  alone : limit < p.sum → ∃ b, p.blocks = [b]

/-- The open phase at block b: the blocks just before b, their true sum, within the limit. -/
structure PhaseOpen (limit : Nat) (counts : List Nat) (b : Nat) (blocks : List Nat) (sum : Nat) : Prop where
  consecutive : ∃ first, blocks = List.range' first blocks.length ∧ first + blocks.length = b
  total : sum = blackDots counts blocks
  fits : sum ≤ limit

/-- The first block of the second phase would have taken the first phase above the limit. -/
def Phase.Full (limit : Nat) (counts : List Nat) (p q : Phase) : Prop :=
  limit < p.sum + counts.getD (q.blocks.headD 0) 0

/-- The open phase ends; a phase without blocks is none. -/
def closePhase (blocks : List Nat) (sum : Nat) : List Phase :=
  if blocks.isEmpty then [] else [⟨blocks, sum⟩]

section build

variable {limit b sum c : Nat} {counts blocks cs : List Nat}

theorem PhaseOpen.start (limit : Nat) (counts : List Nat) (b : Nat) : PhaseOpen limit counts b [] 0 :=
  ⟨⟨b, rfl, rfl⟩, rfl, Nat.zero_le limit⟩

/-- A block that fits goes into the open phase. -/
theorem PhaseOpen.add (opened : PhaseOpen limit counts b blocks sum) (at_b : counts.getD b 0 = c)
    (fits : sum + c ≤ limit) : PhaseOpen limit counts (b + 1) (blocks ++ [b]) (sum + c) := by
  obtain ⟨first, run, reach⟩ := opened.consecutive
  refine ⟨⟨first, ?_, ?_⟩, ?_, fits⟩
  · rw [List.length_append, List.length_singleton, List.range'_concat, Nat.one_mul, reach, ← run]
  · rw [List.length_append, List.length_singleton, ← Nat.add_assoc, reach]
  · rw [opened.total, blackDots, blackDots, List.map_append, List.sum_append, List.map_singleton, List.sum_singleton, at_b]

theorem closePhase_formed (opened : PhaseOpen limit counts b blocks sum) (p : Phase) (mem : p ∈ closePhase blocks sum) :
    p.Formed limit counts ∧ p = ⟨blocks, sum⟩ := by
  unfold closePhase at mem
  split at mem
  · cases mem
  next some =>
    obtain rfl := List.mem_singleton.mp mem
    obtain ⟨first, run, _⟩ := opened.consecutive
    exact ⟨⟨by simpa using some, ⟨first, run⟩, opened.total, fun above => absurd above (Nat.not_lt.mpr opened.fits)⟩, rfl⟩

theorem closePhase_blocks (blocks : List Nat) (sum : Nat) : (closePhase blocks sum).flatMap Phase.blocks = blocks := by
  cases blocks with
  | nil => rfl
  | cons b bs => exact List.append_nil _

theorem closePhase_chain (R : Phase → Phase → Prop) (blocks : List Nat) (sum : Nat) :
    (closePhase blocks sum).IsChain R := by
  cases blocks with
  | nil => exact .nil
  | cons b bs => exact .singleton _

/-- A block above the limit is a phase of its own (R85). -/
theorem phasesFrom_of_above (opened : PhaseOpen limit counts b blocks sum) (above : limit < c) :
    phasesFrom limit b blocks sum (c :: cs) = closePhase blocks sum ++ ⟨[b], c⟩ :: phasesFrom limit (b + 1) [] 0 cs := by
  rw [phasesFrom, if_pos above, if_pos above]
  cases blocks with
  | nil =>
    obtain rfl : sum = 0 := opened.total
    rw [Nat.zero_add]
    rfl
  | cons a as =>
    refine if_neg ?_
    simp only [List.isEmpty_cons, Bool.false_or, decide_eq_true_eq]
    omega

theorem phasesFrom_of_fits (low : ¬limit < c) (fits : blocks = [] ∨ sum + c ≤ limit) :
    phasesFrom limit b blocks sum (c :: cs) = phasesFrom limit (b + 1) (blocks ++ [b]) (sum + c) cs := by
  rw [phasesFrom, if_neg low, if_neg low]
  exact if_pos (by simpa using fits)

theorem phasesFrom_of_not_fits (low : ¬limit < c) (full : ¬(blocks = [] ∨ sum + c ≤ limit)) :
    phasesFrom limit b blocks sum (c :: cs) = closePhase blocks sum ++ phasesFrom limit (b + 1) [b] c cs := by
  rw [phasesFrom, if_neg low, if_neg low]
  cases blocks with
  | nil => exact absurd (.inl rfl) full
  | cons a as => exact if_neg (by simpa using full)

end build

/-- What the phases from block b on are, with the open phase in front. -/
structure PhasesFormed (limit : Nat) (counts blocks : List Nat) (b n : Nat) (phases : List Phase) : Prop where
  each : ∀ p ∈ phases, p.Formed limit counts
  blocks : phases.flatMap Phase.blocks = blocks ++ List.range' b n
  chain : phases.IsChain (Phase.Full limit counts)

section chain

variable {limit b n sum c : Nat} {counts blocks : List Nat} {rest : List Phase}

/-- The first phase begins with the first block. -/
theorem PhasesFormed.first {a : Nat} {as : List Nat} (formed : PhasesFormed limit counts (a :: as) b n rest) (q : Phase)
    (head : q ∈ rest.head?) : q.blocks.headD 0 = a := by
  cases rest with
  | nil => cases head
  | cons p ps =>
    obtain rfl : p = q := by simpa using head
    have whole := formed.blocks
    have some := (formed.each p List.mem_cons_self).some
    rw [List.flatMap_cons] at whole
    cases blocks : p.blocks with
    | nil => exact absurd blocks some
    | cons x xs =>
      rw [blocks, List.cons_append, List.cons_append] at whole
      exact (List.cons.inj whole).1

/-- An open phase that ends before phases whose first block would take it above the limit. -/
theorem PhasesFormed.close {a : Nat} (opened : PhaseOpen limit counts a blocks sum) {n : Nat}
    (formed : PhasesFormed limit counts [a] (a + 1) n rest) (above : limit < sum + counts.getD a 0) :
    PhasesFormed limit counts blocks a (n + 1) (closePhase blocks sum ++ rest) := by
  refine ⟨fun p mem => ?_, ?_, List.isChain_append.mpr ⟨closePhase_chain _ _ _, formed.chain, fun p last q head => ?_⟩⟩
  · rcases List.mem_append.mp mem with ended | later
    · exact (closePhase_formed opened p ended).1
    · exact formed.each p later
  · rw [List.flatMap_append, closePhase_blocks, formed.blocks, List.range'_succ]
    rfl
  · rw [(closePhase_formed opened p (List.mem_of_getLast? last)).2, Phase.Full, formed.first q head]
    exact above

/-- A phase above the limit, before phases of their own. -/
theorem PhasesFormed.alone (formed : PhasesFormed limit counts [] (b + 1) n rest) (at_b : counts.getD b 0 = c)
    (above : limit < c) : PhasesFormed limit counts [b] (b + 1) n (⟨[b], c⟩ :: rest) := by
  refine ⟨fun p mem => ?_, ?_, List.isChain_cons.mpr ⟨fun q _ => Nat.lt_add_right _ above, formed.chain⟩⟩
  · rcases List.mem_cons.mp mem with rfl | later
    · exact ⟨List.cons_ne_nil _ _, ⟨b, rfl⟩, by rw [blackDots, List.map_singleton, List.sum_singleton, at_b],
        fun _ => ⟨b, rfl⟩⟩
    · exact formed.each p later
  · rw [List.flatMap_cons, formed.blocks]
    rfl

end chain

/-- The phases from block b on are formed of the blocks left, in order. -/
theorem phasesFrom_formed {limit b sum : Nat} {counts blocks cs : List Nat} (left : counts.drop b = cs)
    (opened : PhaseOpen limit counts b blocks sum) :
    PhasesFormed limit counts blocks b cs.length (phasesFrom limit b blocks sum cs) := by
  induction cs generalizing b blocks sum with
  | nil =>
    show PhasesFormed limit counts blocks b 0 (closePhase blocks sum)
    refine ⟨fun p mem => (closePhase_formed opened p mem).1, ?_, closePhase_chain _ _ _⟩
    rw [closePhase_blocks, List.range'_zero, List.append_nil]
  | cons c cs ih =>
    have at_b : counts.getD b 0 = c := by
      rw [List.getD_eq_getElem?_getD, ← Nat.add_zero b, ← List.getElem?_drop, left]
      rfl
    have tail : counts.drop (b + 1) = cs := by rw [← List.tail_drop, left, List.tail_cons]
    by_cases above : limit < c
    · rw [phasesFrom_of_above opened above]
      exact ((ih tail (PhaseOpen.start limit counts (b + 1))).alone at_b above).close opened
        (Nat.lt_add_left sum (at_b.symm ▸ above))
    · by_cases fits : blocks = [] ∨ sum + c ≤ limit
      · have room : sum + c ≤ limit := by
          rcases fits with rfl | fits
          · rw [opened.total]
            show 0 + c ≤ limit
            omega
          · exact fits
        rw [phasesFrom_of_fits above fits]
        have formed := ih tail (opened.add at_b room)
        refine ⟨formed.each, ?_, formed.chain⟩
        rw [formed.blocks, List.length_cons, List.range'_succ, List.append_assoc]
        rfl
      · rw [phasesFrom_of_not_fits above fits]
        have alone : PhaseOpen limit counts (b + 1) [b] c := by
          have first := (PhaseOpen.start limit counts b).add at_b (by omega)
          rwa [Nat.zero_add] at first
        refine (ih tail alone).close opened ?_
        rw [at_b]
        omega

/-- A phase without a black dot can go: the phase before it is full for the block after it all the more. -/
theorem isChain_filter_sum {limit : Nat} {counts : List Nat} {phases : List Phase}
    (chain : phases.IsChain (Phase.Full limit counts)) :
    (phases.filter fun p => p.sum != 0).IsChain (Phase.Full limit counts) := by
  have first (l : List Phase) (chain : l.IsChain (Phase.Full limit counts)) (p : Phase)
      (full : ∀ q ∈ l.head?, p.Full limit counts q) : ∀ q ∈ (l.filter fun p => p.sum != 0).head?, p.Full limit counts q := by
    induction l with
    | nil => exact nofun
    | cons a l ih =>
      obtain ⟨next, chain⟩ := List.isChain_cons.mp chain
      by_cases zero : a.sum = 0
      · rw [List.filter_cons_of_neg (by simp [zero])]
        refine ih chain fun q head => ?_
        have after : limit < a.sum + counts.getD (q.blocks.headD 0) 0 := next q head
        rw [Phase.Full]
        omega
      · rw [List.filter_cons_of_pos (by simpa using zero)]
        exact full
  induction phases with
  | nil => exact .nil
  | cons p l ih =>
    obtain ⟨next, chain⟩ := List.isChain_cons.mp chain
    by_cases zero : p.sum = 0
    · rw [List.filter_cons_of_neg (by simp [zero])]
      exact ih chain
    · rw [List.filter_cons_of_pos (by simpa using zero)]
      exact List.isChain_cons.mpr ⟨first l chain p next, ih chain⟩

/-- Phases with some block each are no more than their blocks. -/
theorem length_le_length_flatMap_blocks (phases : List Phase) (some : ∀ p ∈ phases, p.blocks ≠ []) :
    phases.length ≤ (phases.flatMap Phase.blocks).length := by
  induction phases with
  | nil => exact Nat.le_refl 0
  | cons p l ih =>
    have rest := ih fun q mem => some q (List.mem_cons_of_mem p mem)
    have own := List.length_pos_iff.mpr (some p List.mem_cons_self)
    rw [List.flatMap_cons, List.length_append, List.length_cons]
    omega

theorem le_blackDots {counts blocks : List Nat} {b : Nat} (mem : b ∈ blocks) : counts.getD b 0 ≤ blackDots counts blocks :=
  List.le_sum_of_mem (List.mem_map_of_mem mem)

theorem isHeavy_iff (limit : Nat) (counts : List Nat) : isHeavy limit counts = true ↔ ∃ c ∈ counts, limit < c := by
  simp [isHeavy]

/-- Settles O38: the phases are formed as a list that covers the blocks in order, and those without a black dot go. -/
theorem strobePhases : Obligations.StrobePhases := by
  unfold Obligations.StrobePhases
  intro limit counts eight phases
  have formed := phasesFrom_formed (limit := limit) (counts := counts) List.drop_zero (PhaseOpen.start limit counts 0)
  rw [eight] at formed
  have kept : ∀ p, p ∈ phases ↔ p ∈ phasesFrom limit 0 [] 0 counts ∧ p.sum ≠ 0 := by
    intro p
    simp [phases, phaseList]
  have sublist : (phases.flatMap Phase.blocks).Sublist (List.range' 0 8) := by
    have all := formed.blocks
    rw [List.nil_append] at all
    rw [← all]
    exact List.filter_sublist.flatMap Phase.blocks
  have covered : ∀ b, b < 8 → 0 < counts.getD b 0 → b ∈ phases.flatMap Phase.blocks := by
    intro b small black
    have mem : b ∈ (phasesFrom limit 0 [] 0 counts).flatMap Phase.blocks := by
      rw [formed.blocks]
      simpa using small
    obtain ⟨p, phase, own⟩ := List.mem_flatMap.mp mem
    have sum := (formed.each p phase).sum
    have dots := le_blackDots (counts := counts) own
    exact List.mem_flatMap.mpr ⟨p, (kept p).mpr ⟨phase, by omega⟩, own⟩
  refine ⟨?_, fun p mem => ?_, fun i p q at_i at_next => ?_, ?_, covered, isHeavy_iff limit counts, fun empty c mem => ?_,
    fun white => ?_⟩
  · have few := length_le_length_flatMap_blocks phases fun p mem => (formed.each p ((kept p).mp mem).1).some
    exact few.trans sublist.length_le
  · obtain ⟨phase, black⟩ := (kept p).mp mem
    obtain ⟨_, ⟨first, run⟩, sum, alone⟩ := formed.each p phase
    exact ⟨Nat.pos_of_ne_zero black, sum, ⟨first, by rw [← List.range'_eq_map_range]; exact run⟩, alone⟩
  · obtain ⟨small, rfl⟩ := List.getElem?_eq_some_iff.mp at_next
    obtain ⟨_, rfl⟩ := List.getElem?_eq_some_iff.mp at_i
    exact List.isChain_iff_getElem.mp (isChain_filter_sum formed.chain) i small
  · exact List.Pairwise.sublist sublist (List.pairwise_lt_range' 1)
  · obtain ⟨b, small, rfl⟩ := List.mem_iff_getElem.mp mem
    refine Nat.eq_zero_of_not_pos fun black => ?_
    have shown : 0 < counts.getD b 0 := by
      rw [List.getD_eq_getElem _ _ small]
      exact black
    have covers := covered b (by omega) shown
    rw [empty] at covers
    cases covers
  · refine List.eq_nil_iff_forall_not_mem.mpr fun p mem => ?_
    obtain ⟨phase, black⟩ := (kept p).mp mem
    refine black ((formed.each p phase).sum.trans (List.sum_eq_zero fun n dots => ?_))
    obtain ⟨b, _, rfl⟩ := List.mem_map.mp dots
    rw [List.getD_eq_getElem?_getD]
    cases at_b : counts[b]? with
    | none => rfl
    | some c => exact white c (List.mem_of_getElem? at_b)

end Sys2Proof.Machine
end


section
/-! PROOFS. CLOSE_DOC, DELETE_DOC and RELEASE_DOC, the auto-delete test, and what the store does for them (R158 to
R161). -/

namespace Sys2Proof.Machine

/-! ## A deletion (R160) -/

section free

variable {st u : Store}

/-- The map of one store gives no segment but those of another, and as that one has them. -/
def Store.MapWithin (st u : Store) : Prop := ∀ k, mapRead k u.map = none ∨ mapRead k u.map = mapRead k st.map

/-- A chain stops early, if it changes at all, where segments have become FREE. -/
theorem Store.MapWithin.chainFrom (within : st.MapWithin u) (fuel : Nat) (n : Option Nat) :
    u.chainFrom fuel n <+: st.chainFrom fuel n := by
  induction fuel generalizing n with
  | zero => exact List.prefix_rfl
  | succ fuel ih =>
    cases n with
    | none => exact List.prefix_rfl
    | some n =>
      refine List.cons_prefix_cons.mpr ⟨rfl, ?_⟩
      rcases within n with free | same
      · have stop : u.nextOf n = none := by
          unfold Store.nextOf
          rw [free]
        have last : u.chainFrom fuel none = [] := by
          cases fuel with
          | zero => rfl
          | succ fuel => rfl
        rw [stop, last]
        exact List.nil_prefix
      · have next : u.nextOf n = st.nextOf n := by
          unfold Store.nextOf
          rw [same]
        rw [next]
        exact ih _

theorem Store.MapWithin.freePage (within : st.MapWithin u) (p : Page) : st.MapWithin (u.freePage p) := by
  intro k
  rw [Store.freePage_eq]
  dsimp only
  rw [mapRead_foldl_mapFree]
  split
  · exact .inl rfl
  · exact within k

/-- The marks of a deletion leave all but the memory and the map. -/
theorem Store.foldl_freePage_keeps (pages : List Page) (u : Store) : ∃ memory map,
    pages.foldl (fun st p => st.freePage p) u = { u with memory := memory, map := map } := by
  induction pages generalizing u with
  | nil => exact ⟨_, _, rfl⟩
  | cons p pages ih =>
    obtain ⟨memory, map, eq⟩ := ih (u.freePage p)
    rw [List.foldl_cons, eq, Store.freePage_eq]
    exact ⟨memory, map, rfl⟩

/-- The segments of no page of the document stay as they are, whatever chains share. -/
theorem Store.MapWithin.mapRead_foldl_freePage (pages : List Page) (within : st.MapWithin u) {n : Nat}
    (outside : ∀ p ∈ pages, n ∉ st.chainOf p) :
    mapRead n (pages.foldl (fun st p => st.freePage p) u).map = mapRead n u.map := by
  induction pages generalizing u with
  | nil => rfl
  | cons p pages ih =>
    have own : n ∉ u.chainOf p := fun mem =>
      outside p List.mem_cons_self ((within.chainFrom p.segments p.first).subset mem)
    rw [List.foldl_cons, ih (within.freePage p) fun q mem => outside q (List.mem_cons_of_mem p mem), Store.freePage_eq]
    dsimp only
    rw [mapRead_foldl_mapFree, if_neg own]

end free

/-- One segment fewer is in the map. -/
theorem length_mapFree {n : Nat} {m : List (Nat × SegUse)} (distinct : (m.map Prod.fst).Nodup)
    (used : mapRead n m ≠ none) : (mapFree n m).length + 1 = m.length := by
  induction m with
  | nil => exact absurd rfl used
  | cons e rest ih =>
    obtain ⟨k, u⟩ := e
    obtain ⟨fresh, distinct⟩ := List.nodup_cons.mp distinct
    by_cases own : k = n
    · have others : mapFree n rest = rest := List.filter_eq_self.mpr fun e mem => by
        refine bne_iff_ne.mpr fun same => fresh ?_
        show k ∈ _
        rw [own, ← same]
        exact List.mem_map_of_mem mem
      have drop : mapFree n ((k, u) :: rest) = mapFree n rest := List.filter_cons_of_neg (by simp [own])
      rw [drop, others, List.length_cons]
    · have keep : mapFree n ((k, u) :: rest) = (k, u) :: mapFree n rest := List.filter_cons_of_pos (by simpa using own)
      have there : mapRead n rest ≠ none := by
        rw [mapRead, if_neg own] at used
        exact used
      rw [keep, List.length_cons, List.length_cons, ih distinct there]

/-- As many segments fewer as become FREE. -/
theorem length_foldl_mapFree {ns : List Nat} {m : List (Nat × SegUse)} (apart : ns.Nodup)
    (distinct : (m.map Prod.fst).Nodup) (used : ∀ n ∈ ns, mapRead n m ≠ none) :
    (ns.foldl (fun m n => mapFree n m) m).length + ns.length = m.length := by
  induction ns generalizing m with
  | nil => rfl
  | cons n ns ih =>
    obtain ⟨fresh, apart⟩ := List.nodup_cons.mp apart
    have distinct' : ((mapFree n m).map Prod.fst).Nodup := distinct.sublist (List.filter_sublist.map _)
    have used' : ∀ k ∈ ns, mapRead k (mapFree n m) ≠ none := by
      intro k mem
      rw [mapRead_mapFree, if_neg fun same : k = n => fresh (same ▸ mem)]
      exact used k (List.mem_cons_of_mem n mem)
    have first := length_mapFree distinct (used n List.mem_cons_self)
    have rest := ih apart distinct' used'
    rw [List.foldl_cons, List.length_cons]
    omega

section delete

variable {st : Store} {doc : Nat} {d : Document} (found : st.doc? doc = some d)
include found

/-- A deletion makes the writes left, frees segments, and takes the document from the directory. -/
theorem Store.delete_keeps : ∃ memory map, st.delete doc = { st.flush with
    memory := memory
    map := map
    directory := st.directory.filter fun e => e.number != doc } := by
  obtain ⟨memory, map, eq⟩ := Store.foldl_freePage_keeps d.pages st.flush
  unfold Store.delete
  rw [found]
  dsimp only
  rw [eq]
  exact ⟨memory, map, rfl⟩

theorem Store.mapRead_delete_other {n : Nat} (outside : ∀ p ∈ d.pages, n ∉ st.chainOf p) :
    mapRead n (st.delete doc).map = mapRead n st.map := by
  have within : st.MapWithin st.flush := fun _ => .inr rfl
  unfold Store.delete
  rw [found]
  exact within.mapRead_foldl_freePage d.pages outside

variable (apart : (d.pages.flatMap fun p => st.chainOf p).Nodup)
include apart

theorem Store.mapRead_delete_own {n : Nat} (own : n ∈ d.pages.flatMap fun p => st.chainOf p) :
    mapRead n (st.delete doc).map = none := by
  rw [Store.delete_eq st doc d found apart]
  dsimp only
  rw [mapRead_foldl_mapFree, if_pos own]

theorem Store.memory_delete : (st.delete doc).memory
    = st.flush.memory.freeAll (d.pages.flatMap fun p => st.chainOf p) := by
  rw [Store.delete_eq st doc d found apart]

/-- The free count rises by the segments of the document (R145, R160). -/
theorem Store.freeCount_delete {total : Nat} (distinct : (st.map.map Prod.fst).Nodup) (room : st.map.length ≤ total)
    (used : ∀ n ∈ d.pages.flatMap fun p => st.chainOf p, mapRead n st.map ≠ none) :
    (st.delete doc).freeCount total = st.freeCount total + (d.pages.flatMap fun p => st.chainOf p).length := by
  have fewer := length_foldl_mapFree apart distinct used
  rw [Store.delete_eq st doc d found apart]
  unfold Store.freeCount
  dsimp only
  omega

end delete

/-! ## The hold (R158) -/

/-- A document without its hold. -/
def Document.released (d : Document) : Document := { d with hold := false }

section hold

variable {st : Store} {doc : Nat} {d : Document} (found : st.doc? doc = some d)
include found

theorem Store.doc?_released : (st.onDoc doc Document.released).doc? doc = some d.released := by
  rw [Store.doc?_onDoc_same (f := Document.released) (fun _ => rfl) doc st, found]
  rfl

theorem Store.clearHold_doc? : (st.clearHold doc).doc? doc = some d.released := by
  exact ((Store.rewriteLowest_rewrites doc (st.onDoc doc Document.released)).doc? doc).trans (Store.doc?_released found)

/-- A document without pages has no header to rewrite. -/
theorem Store.clearHold_of_empty (empty : d.pages = []) : (st.clearHold doc).rewrites = st.rewrites := by
  have lowest : d.released.lowest? = none := by
    show d.pages.head?.map Page.index = none
    rw [empty]
    rfl
  unfold Store.clearHold Store.rewriteLowest
  rw [show (st.onDoc doc fun d => { d with hold := false }).doc? doc = _ from Store.doc?_released found,
    Option.bind_some, lowest]
  rfl

/-- The last segment of the lowest page is due with the attributes then in force. -/
theorem Store.clearHold_of_pages {p : Page} {rest : List Page} {n : Nat} {h : UsedHeader} (pages : d.pages = p :: rest)
    (closed : p.condition ≠ .opened) (last : (st.chainOf p).getLast? = some n) (used : st.headerAt n = .used h) :
    (st.clearHold doc).rewrites = st.rewrites ++ [(n, .used { h with last := some (lastAttrs d.released p) })] := by
  have named := Store.doc?_released found
  have lowest : d.released.lowest? = some p.index := by
    show d.pages.head?.map Page.index = _
    rw [pages]
    rfl
  have page : d.released.page? p.index = some p := by
    show d.pages.find? _ = _
    rw [pages, List.find?_cons_of_pos (by simp)]
  have chain : (st.onDoc doc Document.released).chainOf p = st.chainOf p :=
    Store.chainFrom_congr st (st.onDoc doc Document.released) p.segments p.first fun _ _ => rfl
  have header : (st.onDoc doc Document.released).headerAt n = .used h := used
  show ((st.onDoc doc Document.released).rewriteLowest doc).rewrites = _
  unfold Store.rewriteLowest
  rw [named, Option.bind_some, lowest]
  dsimp only
  unfold Store.rewritePage
  simp only [named, page, chain, last, header, if_neg closed]
  rfl

end hold

/-- The hold test leaves all of a document but its hold, and the open pages. -/
theorem Store.testHold_spec (n : Nat) {st : Store} {d : Document} (found : st.doc? n = some d) :
    (st.testHold n).openPages = st.openPages ∧ ∃ hold, (st.testHold n).doc? n = some { d with hold := hold } := by
  unfold Store.testHold
  simp only [found]
  split
  · refine ⟨?_, false, Store.clearHold_doc? found⟩
    obtain ⟨ws, eq⟩ := Store.rewriteLowest_rewrites n (st.onDoc n fun d => { d with hold := false })
    unfold Store.clearHold
    rw [eq]
    rfl
  · exact ⟨rfl, d.hold, found⟩

/-! ## A document closes (R154, R161) -/

/-- The last segment of a page that closes changes neither the directory nor the open pages. -/
theorem Store.closeLast_keeps (o : OpenPage) (a : LastAttrs) (c : PageCondition) (st : Store) :
    (st.closeLast o a c).directory = st.directory ∧ (st.closeLast o a c).openPages = st.openPages := by
  unfold Store.closeLast
  split
  · exact ⟨rfl, rfl⟩
  · split
    · exact ⟨rfl, rfl⟩
    · exact ⟨rfl, rfl⟩

/-- A page that closes takes its condition in the directory, and leaves the open pages. -/
theorem Store.closePage_of_open {st : Store} {doc : Nat} {o : OpenPage} (opened : st.openPage? doc = some o)
    (c : PageCondition) :
    (st.closePage doc c).directory
        = (st.onDoc doc fun d => d.onPage o.index fun p => { p with condition := c }).directory
      ∧ (st.closePage doc c).openPages = st.openPages.filter fun x => x.doc != doc := by
  unfold Store.closePage
  rw [opened]
  dsimp only
  split
  · exact ⟨rfl, rfl⟩
  · split
    · exact ⟨rfl, rfl⟩
    · exact Store.closeLast_keeps ..

theorem Store.closePage_of_none {st : Store} {doc : Nat} (absent : st.openPage? doc = none) (c : PageCondition) :
    st.closePage doc c = st := by
  unfold Store.closePage
  rw [absent]

theorem Store.closePage_openPage? (st : Store) (doc : Nat) (c : PageCondition) :
    (st.closePage doc c).openPage? doc = none := by
  cases opened : st.openPage? doc with
  | none => rw [Store.closePage_of_none opened, opened]
  | some o =>
    unfold Store.openPage?
    rw [(Store.closePage_of_open opened c).2]
    exact List.find?_eq_none.mpr fun x mem => by simpa using (List.mem_filter.mp mem).2

theorem Store.doc?_of_directory {st u : Store} (same : u.directory = st.directory) (n : Nat) : u.doc? n = st.doc? n := by
  unfold Store.doc?
  rw [same]

theorem Store.closePage_doc? {st : Store} {doc : Nat} {d : Document} (found : st.doc? doc = some d)
    (c : PageCondition) : ∃ pages, (st.closePage doc c).doc? doc = some { d with pages := pages } := by
  cases opened : st.openPage? doc with
  | none => exact ⟨d.pages, by rw [Store.closePage_of_none opened, found]⟩
  | some o =>
    let f : Document → Document := fun d => d.onPage o.index fun p => { p with condition := c }
    refine ⟨(f d).pages, ?_⟩
    rw [Store.doc?_of_directory (Store.closePage_of_open opened c).1 doc,
      Store.doc?_onDoc_same (f := f) (fun _ => rfl) doc st, found]
    rfl

theorem Store.close_spec {st : Store} {doc : Nat} {d : Document} (found : st.doc? doc = some d) :
    (∃ pages hold, (st.close doc).doc? doc = some { d with pages := pages, hold := hold, closed := true })
      ∧ (st.close doc).openPage? doc = none := by
  obtain ⟨pages, page⟩ := Store.closePage_doc? found .truncated
  have closed : ((st.closePage doc .truncated).onDoc doc fun d => { d with closed := true }).doc? doc
      = some { d with pages := pages, closed := true } := by
    rw [Store.doc?_onDoc_same (f := fun d => { d with closed := true }) (fun _ => rfl), page]
    rfl
  obtain ⟨opened, hold, tested⟩ := Store.testHold_spec doc closed
  refine ⟨⟨pages, hold, tested⟩, ?_⟩
  unfold Store.openPage? Store.close
  rw [opened]
  exact Store.closePage_openPage? st doc .truncated

/-! ## The auto-delete test (R159) -/

theorem Document.allPrinted_iff (d : Document) : d.allPrinted = true ↔ ∀ p ∈ d.pages, p.printed = true := by
  unfold Document.allPrinted
  exact List.all_eq_true

theorem Store.testAutoDelete_of_some {st : Store} {doc : Nat} {d : Document} (found : st.doc? doc = some d)
    (referenced : Bool) : st.testAutoDelete doc referenced
      = if d.autoDelete = true ∧ d.hold = false ∧ d.closed = true ∧ (∀ p ∈ d.pages, p.printed = true)
          ∧ referenced = false then st.delete doc else st := by
  unfold Store.testAutoDelete
  rw [found]
  refine if_congr ?_ rfl rfl
  simp only [Document.autoDeletes, Bool.and_eq_true, Bool.not_eq_true', Document.allPrinted_iff, and_assoc]

theorem State.testAutoDelete_eq (s : State) (doc : Nat) : s.testAutoDelete doc =
    (match s.store.doc? doc with
    | none => s
    | some d =>
      if d.autoDelete = true ∧ d.hold = false ∧ d.closed = true ∧ (∀ p ∈ d.pages, p.printed = true)
          ∧ s.referenced doc = false then s.onStore (Store.delete doc)
      else s) := by
  unfold State.testAutoDelete State.onStore
  cases found : s.store.doc? doc with
  | none =>
    have kept : s.store.testAutoDelete doc (s.referenced doc) = s.store := by
      unfold Store.testAutoDelete
      rw [found]
    rw [kept]
  | some d =>
    rw [Store.testAutoDelete_of_some found]
    dsimp only
    split
    · rfl
    · rfl

/-! ## The commands (R158, R160, R161) -/

section answers

variable {s : State} {doc : Word16} {rsv : Byte}

theorem docRefused (bad : doc.toNat = 0 ∨ rsv ≠ 0) :
    answerCloseDoc doc rsv s = .refuse .badValue ∧ answerDeleteDoc doc rsv s = .refuse .badValue
      ∧ answerReleaseDoc doc rsv s = .refuse .badValue :=
  ⟨if_pos bad, if_pos bad, if_pos bad⟩

theorem docUnknown (good : ¬(doc.toNat = 0 ∨ rsv ≠ 0)) (absent : s.store.doc? doc.toNat = none) :
    answerCloseDoc doc rsv s = .refuse .noSuchDoc ∧ answerDeleteDoc doc rsv s = .refuse .noSuchDoc
      ∧ answerReleaseDoc doc rsv s = .refuse .noSuchDoc := by
  refine ⟨(if_neg good).trans ?_, (if_neg good).trans ?_, (if_neg good).trans ?_⟩
  · rw [absent]
  · rw [absent]
  · rw [absent]

variable (good : ¬(doc.toNat = 0 ∨ rsv ≠ 0)) {d : Document} (found : s.store.doc? doc.toNat = some d)
include good found

theorem answerCloseDoc_of_some : answerCloseDoc doc rsv s
    = if s.written d.number then .refuse .inUse else .ok [] (State.closeDoc d) := by
  refine (if_neg good).trans ?_
  rw [found]

theorem answerDeleteDoc_of_some : answerDeleteDoc doc rsv s
    = if d.hold then .refuse .held else if s.referenced d.number then .refuse .inUse
      else .ok [] (State.onStore (Store.delete d.number)) := by
  refine (if_neg good).trans ?_
  rw [found]

theorem answerReleaseDoc_of_some : answerReleaseDoc doc rsv s = .ok [] (State.releaseDoc d) := by
  refine (if_neg good).trans ?_
  rw [found]

end answers

/-- Settles O51. -/
theorem documentsCloseReleaseAndGo : Obligations.DocumentsCloseReleaseAndGo := by
  unfold Obligations.DocumentsCloseReleaseAndGo
  refine ⟨fun s tag doc rsv hs => ?_, State.testAutoDelete_eq, fun st doc d found => ?_⟩
  · let close : Instr := .closeDoc tag doc rsv
    let delete : Instr := .deleteDoc tag doc rsv
    let release : Instr := .releaseDoc tag doc rsv
    refine ⟨fun bad => ⟨?_, ?_, ?_⟩, fun named zero => ?_⟩
    · exact hs.refuses close rfl trivial (docRefused bad).1
    · exact hs.refuses delete rfl trivial (docRefused bad).2.1
    · exact hs.refuses release rfl trivial (docRefused bad).2.2
    have good : ¬(doc.toNat = 0 ∨ rsv ≠ 0) := not_or.mpr ⟨named, not_not.mpr zero⟩
    refine ⟨fun absent => ⟨?_, ?_, ?_⟩, fun d found => ?_⟩
    · exact hs.refuses close rfl trivial (docUnknown good absent).1
    · exact hs.refuses delete rfl trivial (docUnknown good absent).2.1
    · exact hs.refuses release rfl trivial (docUnknown good absent).2.2
    obtain ⟨-, own⟩ := Store.mem_of_doc? found
    refine ⟨?_, ?_, ?_⟩
    · split
      next written =>
        exact hs.refuses close rfl trivial ((answerCloseDoc_of_some good found).trans (if_pos (by rw [own]; exact written)))
      next unwritten =>
        refine (hs.answers close rfl trivial ((answerCloseDoc_of_some good found).trans
          (if_neg (by rw [own]; exact unwritten)))).trans ?_
        unfold State.closeDoc
        rw [own]
        split
        · rfl
        · rfl
    · split
      next held => exact hs.refuses delete rfl trivial ((answerDeleteDoc_of_some good found).trans (if_pos held))
      next free =>
        have answer (s' : State) (same : s'.store = s.store) :=
          (answerDeleteDoc_of_some (s := s') (rsv := rsv) good (by rw [same]; exact found)).trans (if_neg free)
        split
        next used =>
          exact hs.refuses delete rfl trivial ((answer _ rfl).trans (if_pos (by rw [own]; exact used)))
        next unused =>
          refine (hs.answers delete rfl trivial ((answer _ rfl).trans (if_neg (by rw [own]; exact unused)))).trans ?_
          rw [own]
          rfl
    · refine (hs.answers release rfl trivial (answerReleaseDoc_of_some good found)).trans ?_
      unfold State.releaseDoc
      rw [own]
      split
      · rfl
      · rfl
  · obtain ⟨memory, map, deleted⟩ := Store.delete_keeps found
    obtain ⟨⟨pages, hold, closed⟩, opened⟩ := Store.close_spec found
    refine ⟨?_, ?_, ?_, ?_, fun n outside => Store.mapRead_delete_other found outside, fun apart => ?_, ?_,
      Store.clearHold_of_empty found, fun p rest n h pages closed last used =>
        Store.clearHold_of_pages found pages closed last used, ⟨_, closed, rfl, opened⟩⟩
    · rw [deleted]
    · rw [deleted]; rfl
    · rw [deleted]; rfl
    · rw [deleted]; rfl
    · refine ⟨fun n own => Store.mapRead_delete_own found apart own, ?_, fun wf n => ?_, fun total distinct room used =>
        Store.freeCount_delete found apart distinct room used⟩
      · rw [Store.memory_delete found apart, PageMemory.freeAll_eq_writeHeaders]
        rfl
      · rw [Store.memory_delete found apart, PageMemory.read_freeAll n _ st.flush.memory (PageMemory.wf_writeHeaders _ _ wf)]
        rfl
    · exact ⟨_, Store.clearHold_doc? found, rfl, rfl, rfl⟩

end Sys2Proof.Machine
end


section
/-! PROOFS. The number of a new document (R149), CREATE_DOC, SET_RESERVE, LIST_DOCS and DOC_INFO (R150, R152, R162,
R163), and the fallback switch (R142). -/

namespace Sys2Proof.Machine

/-! ## The number of a new document (R149) -/

/-- Some document of the directory has the number. -/
abbrev Store.Holds (st : Store) (n : Nat) : Prop := ∃ d ∈ st.directory, d.number = n

theorem Store.doc?_isNone_iff (st : Store) (n : Nat) : (st.doc? n).isNone = true ↔ ¬st.Holds n := by
  unfold Store.doc? Store.Holds
  rw [Option.isNone_iff_eq_none, List.find?_eq_none]
  simp

/-- A number of the range sought is taken as soon as no document holds it. -/
theorem Store.freeNumberFrom_some {st : Store} {lo n : Nat} (sought : st.freeNumberFrom lo = some n) :
    lo ≤ n ∧ n ≤ 65535 ∧ ¬st.Holds n ∧ ∀ k, lo ≤ k → k < n → st.Holds k := by
  unfold Store.freeNumberFrom at sought
  rw [List.find?_map, Option.map_eq_some_iff] at sought
  obtain ⟨i, first, rfl⟩ := sought
  obtain ⟨ok, _, before⟩ := List.find?_range_eq_some.mp first
  simp only [Function.comp, Bool.and_eq_true, decide_eq_true_eq, Store.doc?_isNone_iff] at ok
  refine ⟨Nat.le_add_right lo i, ok.1, ok.2, fun k low high => ?_⟩
  have held := before (k - lo) (by omega)
  rw [Function.comp, Nat.add_sub_cancel' low, Bool.not_eq_true', Bool.and_eq_false_iff] at held
  rcases held with above | held
  · have small : k ≤ 65535 := by omega
    simp [small] at above
  · exact not_not.mp fun free => by simp [(st.doc?_isNone_iff k).mpr free] at held

/-- Fewer than 64 documents leave one of 65 numbers in a row free. -/
theorem Store.not_all_held {st : Store} (few : st.directory.length < 64) (lo : Nat) :
    ¬∀ i < 65, st.Holds (lo + i) := by
  intro held
  have distinct : ((List.range 65).map (lo + ·)).Nodup :=
    List.nodup_range.map fun a b same => Nat.add_left_cancel same
  have among : (List.range 65).map (lo + ·) ⊆ st.directory.map Document.number := by
    intro n mem
    obtain ⟨i, small, rfl⟩ := List.mem_map.mp mem
    obtain ⟨d, there, number⟩ := held i (List.mem_range.mp small)
    exact List.mem_map.mpr ⟨d, there, number⟩
  have most := (distinct.subperm among).length_le
  rw [List.length_map, List.length_range, List.length_map] at most
  omega

/-- With fewer than 64 documents no number is found only when the range ends above 65535, and all up to there are
held. -/
theorem Store.freeNumberFrom_none {st : Store} (few : st.directory.length < 64) {lo : Nat}
    (absent : st.freeNumberFrom lo = none) : 65535 < lo + 64 ∧ ∀ k, lo ≤ k → k ≤ 65535 → st.Holds k := by
  unfold Store.freeNumberFrom at absent
  rw [List.find?_map, Option.map_eq_none_iff, List.find?_eq_none] at absent
  have held : ∀ i < 65, lo + i ≤ 65535 → st.Holds (lo + i) := by
    intro i small low
    have taken := absent i (List.mem_range.mpr small)
    simp only [Function.comp, Bool.and_eq_true, decide_eq_true_eq, Store.doc?_isNone_iff, not_and, not_not] at taken
    exact taken low
  have high : 65535 < lo + 64 :=
    Nat.lt_of_not_le fun low => st.not_all_held few lo fun i small => held i small (by omega)
  refine ⟨high, fun k above below => ?_⟩
  have own := held (k - lo) (by omega) (by omega)
  rwa [Nat.add_sub_cancel' above] at own

/-- The number of a new document: free, the lowest free one above the last number given, or else the lowest free
one. -/
theorem Store.newNumber_spec {st : Store} (few : st.directory.length < 64) :
    1 ≤ st.newNumber ∧ st.newNumber ≤ 65535 ∧ ¬st.Holds st.newNumber
      ∧ (st.lastDoc < st.newNumber → ∀ k, st.lastDoc < k → k < st.newNumber → st.Holds k)
      ∧ (st.newNumber ≤ st.lastDoc → (∀ k, st.lastDoc < k → k ≤ 65535 → st.Holds k)
        ∧ ∀ k, 1 ≤ k → k < st.newNumber → st.Holds k) := by
  unfold Store.newNumber
  cases above : st.freeNumberFrom (st.lastDoc + 1) with
  | some n =>
    obtain ⟨low, high, free, before⟩ := Store.freeNumberFrom_some above
    dsimp only
    exact ⟨by omega, high, free, fun _ => before, fun small => by omega⟩
  | none =>
    have rest := (Store.freeNumberFrom_none few above).2
    cases whole : st.freeNumberFrom 1 with
    | none =>
      have full := (Store.freeNumberFrom_none few whole).1
      omega
    | some n =>
      obtain ⟨low, high, free, before⟩ := Store.freeNumberFrom_some whole
      exact ⟨low, high, free, fun large => absurd (rest n large high) free, fun _ => ⟨rest, before⟩⟩

/-! ## CREATE_DOC (R150) -/

theorem Store.directoryFull_iff (st : Store) : st.directoryFull = true ↔ 64 ≤ st.directory.length :=
  decide_eq_true_iff

theorem classOf_of_le {b : Byte} (small : b.toNat ≤ 2) :
    classOf b = some (if b = 0 then .received else if b = 1 then .outgoing else .copySpool) := by
  obtain rfl | rfl | rfl : b = 0 ∨ b = 1 ∨ b = 2 := by bv_omega
  · rfl
  · rfl
  · rfl

theorem classOf_eq_none {b : Byte} (large : 2 < b.toNat) : classOf b = none := by
  unfold classOf
  split
  · omega
  · omega
  · omega
  · rfl

theorem answerCreateDoc_of_bad {cls auto rsv : Byte} (bad : 2 < cls.toNat ∨ 1 < auto.toNat ∨ rsv ≠ 0) (s : State) :
    answerCreateDoc cls auto rsv s = .refuse .badValue := by
  unfold answerCreateDoc
  split
  next c a isClass isMark =>
    refine if_pos ?_
    rcases bad with high | high | reserved
    · rw [classOf_eq_none high] at isClass
      cases isClass
    · rw [markOf_eq_none high] at isMark
      cases isMark
    · exact reserved
  · rfl

theorem answerCreateDoc_of_good {cls auto : Byte} (small : cls.toNat ≤ 2) (mark : auto.toNat ≤ 1) (s : State) :
    answerCreateDoc cls auto 0 s = if s.store.directoryFull then .refuse .storeFull
      else .ok (bytes2 s.store.newNumber) (State.onStore (Store.create
        (if cls = 0 then .received else if cls = 1 then .outgoing else .copySpool) (auto == 1))) := by
  unfold answerCreateDoc
  rw [classOf_of_le small, markOf_eq_some mark]
  exact if_neg (not_not.mpr rfl)

/-- A document is held from the start when it is RECEIVED (R150). -/
theorem received_iff_code {cls : Byte} (small : cls.toNat ≤ 2) :
    ((if cls = 0 then DocClass.received else if cls = 1 then .outgoing else .copySpool) == .received) = (cls == 0) := by
  obtain rfl | rfl | rfl : cls = 0 ∨ cls = 1 ∨ cls = 2 := by bv_omega
  · rfl
  · rfl
  · rfl

theorem State.Serves.createDoc {s : State} (hs : s.Serves) (tag cls auto rsv : Byte) :
    (2 < cls.toNat ∨ 1 < auto.toNat ∨ rsv ≠ 0 →
      exec (.createDoc tag cls auto rsv) s = .next (s.replied 0x60 tag [0x03]))
    ∧ (cls.toNat ≤ 2 → auto.toNat ≤ 1 → rsv = 0 →
      (64 ≤ s.store.directory.length →
        exec (.createDoc tag cls auto rsv) s = .next (s.replied 0x60 tag [0x0E]))
      ∧ (s.store.directory.length < 64 →
        exec (.createDoc tag cls auto rsv) s = .next (
          let t := s.replied 0x60 tag (0x00 :: bytes2 s.store.newNumber)
          let c : DocClass := if cls = 0 then .received else if cls = 1 then .outgoing else .copySpool
          { t with store := { t.store with
            directory := t.store.directory ++ [⟨s.store.newNumber, c, false, cls == 0, auto == 1, []⟩]
            lastDoc := s.store.newNumber } }))) := by
  let i : Instr := .createDoc tag cls auto rsv
  refine ⟨fun bad => hs.refuses i rfl trivial (answerCreateDoc_of_bad bad _), fun small mark zero => ?_⟩
  subst zero
  refine ⟨fun full => ?_, fun room => ?_⟩
  · exact hs.refuses (.createDoc tag cls auto 0) rfl trivial
      ((answerCreateDoc_of_good small mark _).trans (if_pos ((Store.directoryFull_iff _).mpr full)))
  · refine (hs.answers (.createDoc tag cls auto 0) rfl trivial ((answerCreateDoc_of_good small mark _).trans
      (if_neg ((Store.directoryFull_iff _).not.mpr (Nat.not_le.mpr room))))).trans ?_
    unfold State.onStore Store.create
    rw [received_iff_code small]
    rfl

/-! ## SET_RESERVE, LIST_DOCS and DOC_INFO (R152, R162, R163) -/

theorem reserveSegments_eq (total : Nat) {code : Byte} (small : code.toNat ≤ 4) :
    Config.reserveSegments total code.toNat
      = if code = 0 then 0 else if code = 1 then total / 16 else if code = 2 then total / 8
        else if code = 3 then total / 4 else total / 2 := by
  obtain rfl | rfl | rfl | rfl | rfl : code = 0 ∨ code = 1 ∨ code = 2 ∨ code = 3 ∨ code = 4 := by bv_omega
  · rfl
  · rfl
  · rfl
  · rfl
  · rfl

theorem State.Serves.setReserve {s : State} (hs : s.Serves) (tag code rsv : Byte) :
    exec (.setReserve tag code rsv) s = .next (
      if 4 < code.toNat ∨ rsv ≠ 0 then s.replied 0x66 tag [0x03]
      else
        let segments := if code = 0 then 0 else if code = 1 then s.total / 16 else if code = 2 then s.total / 8
          else if code = 3 then s.total / 4 else s.total / 2
        let t := s.replied 0x66 tag (0x00 :: bytes2 segments)
        { t with cfg := { t.cfg with reserveCode := code.toNat } }) := by
  let i : Instr := .setReserve tag code rsv
  split
  next bad => exact hs.refuses i rfl trivial (if_pos bad)
  next good =>
    refine (hs.answers i rfl trivial (if_neg good)).trans ?_
    rw [← reserveSegments_eq s.total (by omega)]
    rfl

theorem State.Serves.listDocs {s : State} (hs : s.Serves) (tag start rsv : Byte) :
    exec (.listDocs tag start rsv) s = .next (
      if 63 < start.toNat ∨ rsv ≠ 0 then s.replied 0x64 tag [0x03]
      else
        let shown := (s.store.directory.drop start.toNat).take 16
        s.replied 0x64 tag (0x00 :: byte1 s.store.directory.length :: byte1 shown.length
          :: shown.flatMap fun d => bytes2 d.number ++ [d.cls.code, markByte d.closed, markByte d.hold,
            markByte d.autoDelete, markByte (s.referenced d.number), byte1 d.pages.length,
            byte1 (d.pages.filter Page.printed).length, 0])) := by
  let i : Instr := .listDocs tag start rsv
  split
  next bad => exact hs.refuses i rfl trivial (if_pos bad)
  next good => exact hs.answers i rfl trivial (if_neg good)

theorem answerDocInfo_of_bad {doc : Word16} {start rsv : Byte} {s : State}
    (bad : doc.toNat = 0 ∨ 254 < start.toNat ∨ rsv ≠ 0) : answerDocInfo doc start rsv s = .refuse .badValue :=
  if_pos bad

theorem answerDocInfo_of_none {doc : Word16} {start rsv : Byte} {s : State}
    (good : ¬(doc.toNat = 0 ∨ 254 < start.toNat ∨ rsv ≠ 0)) (absent : s.store.doc? doc.toNat = none) :
    answerDocInfo doc start rsv s = .refuse .noSuchDoc := by
  refine (if_neg good).trans ?_
  rw [absent]

theorem answerDocInfo_of_some {doc : Word16} {start rsv : Byte} {s : State} {d : Document}
    (good : ¬(doc.toNat = 0 ∨ 254 < start.toNat ∨ rsv ≠ 0)) (found : s.store.doc? doc.toNat = some d) :
    answerDocInfo doc start rsv s = .ok (bytes2 d.number ++ [d.cls.code, markByte d.closed, markByte d.hold,
        markByte d.autoDelete, byte1 d.pagesPrinted, byte1 d.pages.length,
        byte1 ((d.pages.drop start.toNat).take 64).length, 0]
      ++ ((d.pages.drop start.toNat).take 64).flatMap pageBytes) id := by
  refine (if_neg good).trans ?_
  rw [found]

theorem State.Serves.docInfo {s : State} (hs : s.Serves) (tag : Byte) (doc : Word16) (start rsv : Byte) :
    exec (.docInfo tag doc start rsv) s = .next (
      if doc.toNat = 0 ∨ 254 < start.toNat ∨ rsv ≠ 0 then s.replied 0x65 tag [0x03]
      else
        match s.store.directory.find? fun d => d.number == doc.toNat with
        | none => s.replied 0x65 tag [0x0A]
        | some d =>
          let shown := (d.pages.drop start.toNat).take 64
          s.replied 0x65 tag (0x00 :: bytes2 d.number ++ [d.cls.code, markByte d.closed, markByte d.hold,
              markByte d.autoDelete, byte1 (d.pages.filter Page.printed).length, byte1 d.pages.length,
              byte1 shown.length, 0]
            ++ shown.flatMap fun p => byte1 p.index :: bytes2 p.width ++ [p.density.code] ++ bytes2 p.lines
              ++ bytes4 p.bytes ++ bytes2 (p.first.getD 0xFFFF) ++ bytes2 p.segments ++ [p.condition.code]
              ++ bytes2 (p.startOffset.getD 0) ++ bytes2 p.damaged ++ [markByte p.printed])) := by
  let i : Instr := .docInfo tag doc start rsv
  split
  next bad => exact hs.refuses i rfl trivial (answerDocInfo_of_bad bad)
  next good =>
    cases found : s.store.directory.find? fun d => d.number == doc.toNat with
    | none => exact hs.refuses i rfl trivial (answerDocInfo_of_none good found)
    | some d => exact hs.answers i rfl trivial (answerDocInfo_of_some good found)

/-! ## The fallback switch (R142) -/

/-- A document that joins the directory is found by its number. -/
theorem Store.doc?_create {st : Store} (few : st.directory.length < 64) (c : DocClass) (auto : Bool) :
    (st.create c auto).doc? st.newNumber = some ⟨st.newNumber, c, false, c == .received, auto, []⟩ := by
  have free := (Store.newNumber_spec few).2.2.1
  have absent : st.directory.find? (fun d => d.number == st.newNumber) = none :=
    List.find?_eq_none.mpr fun d mem => by simpa using fun own => free ⟨d, mem, own⟩
  show (st.directory ++ [_]).find? _ = _
  rw [List.find?_append, absent, Option.none_or, List.find?_cons_of_pos (by simp)]

/-- The first page of a document just created. -/
theorem Store.addPage_create {st : Store} (few : st.directory.length < 64) (c : DocClass) (auto : Bool)
    (curPage width : Nat) (density : Density) (offset : Option Nat) :
    (st.create c auto).addPage ⟨st.newNumber, c, false, c == .received, auto, []⟩ curPage width density offset
      = { st with
        directory := st.directory ++ [⟨st.newNumber, c, false, c == .received, auto,
          [⟨curPage, width, density, 0, 0, none, 0, .opened, offset, 0, false⟩]⟩]
        lastDoc := st.newNumber
        openPages := st.openPages ++ [⟨st.newNumber, curPage, none, 0, 0, false, []⟩] } := by
  have free := (Store.newNumber_spec few).2.2.1
  have others (f : Document → Document) :
      st.directory.map (fun d => if d.number = st.newNumber then f d else d) = st.directory :=
    (List.map_congr_left fun d mem => if_neg fun own => free ⟨d, mem, own⟩).trans (List.map_id _)
  unfold Store.addPage Store.onDoc Store.create
  dsimp only
  rw [List.map_append, others, List.map_singleton, if_pos rfl]
  rfl

theorem Store.cannotDivert_iff (st : Store) : st.cannotDivert = true
    ↔ 64 ≤ st.directory.length ∨ 256 ≤ (st.directory.map fun d => d.pages.length).sum := by
  unfold Store.cannotDivert
  rw [Bool.or_eq_true, Store.directoryFull_iff, decide_eq_true_eq]
  rfl

/-- A document created has no page. -/
theorem Store.pageCount_create (c : DocClass) (auto : Bool) (st : Store) :
    (st.create c auto).pageCount = st.pageCount := by
  unfold Store.pageCount Store.create
  simp

/-- A page of a document just created can be opened while its index is in range (R153). -/
theorem Store.canOpen_create {st : Store} {c : DocClass} {auto : Bool} {d : Document} (empty : d.pages = [])
    (room : (st.directory.map fun d => d.pages.length).sum < 256) (curPage : Nat) :
    (st.create c auto).canOpen curPage d = true ↔ curPage ≤ 255 := by
  have index : d.newIndex curPage = curPage := by
    unfold Document.newIndex
    rw [empty]
    rfl
  have count : (st.create c auto).pageCount < Config.maxPages := by
    rw [Store.pageCount_create]
    exact room
  unfold Store.canOpen
  rw [index, empty]
  rw [decide_eq_true count, Bool.and_true, Bool.and_eq_true, decide_eq_true_eq, decide_eq_true_eq]
  exact and_iff_left (by decide)

theorem Move.switchOffset_eq (m : Move) :
    m.switchOffset = if m.counters.curLines = 0 then none else some m.counters.curLines := by
  unfold Move.switchOffset
  split
  next some => exact (if_neg (by omega)).symm
  next none => exact (if_pos (by omega)).symm

/-- The state once a move has been diverted, with a store. -/
def State.divertedTo (m : Move) (doc : Nat) (st : Store) (s : State) : State :=
  ({ s with
    store := st
    print := s.print.stopServing
    rf := s.rf.giveUp (.move m.id) s.cfg.rf.holdTime } : State).onMove m.id (Move.divert doc)

section switch

variable {s : State} {m : Move} (found : s.move? m.id = some m) (few : s.store.directory.length < 64)
  (room : (s.store.directory.map fun d => d.pages.length).sum < 256)
include found

theorem State.switchToStore_eq : s.switchToStore m
    = (s.divertedTo m s.store.newNumber (s.store.create .received false)).openPageFor (m.divert s.store.newNumber)
      s.store.newNumber m.switchOffset := by
  have diverted : (s.divertedTo m s.store.newNumber (s.store.create .received false)).move? m.id
      = some (m.divert s.store.newNumber) := by
    unfold State.divertedTo
    rw [State.move?_onMove (f := Move.divert s.store.newNumber) fun _ => rfl]
    exact congrArg (Option.map (Move.divert s.store.newNumber)) found
  show (match (s.divertedTo m s.store.newNumber (s.store.create .received false)).move? m.id with
    | none => _
    | some n => State.openPageFor n _ _ _) = _
  rw [diverted]
  rfl

include few room

/-- The page that the move goes on with is opened at once (R153). -/
theorem State.switchToStore_of_index (low : m.counters.curPage ≤ 255) : s.switchToStore m
    = s.divertedTo m s.store.newNumber { s.store with
      directory := s.store.directory ++ [⟨s.store.newNumber, .received, false, true, false,
        [⟨m.counters.curPage, s.headWidth, m.target, 0, 0, none, 0, .opened, m.switchOffset, 0, false⟩]⟩]
      lastDoc := s.store.newNumber
      openPages := s.store.openPages ++ [⟨s.store.newNumber, m.counters.curPage, none, 0, 0, false, []⟩] } := by
  have created := Store.doc?_create few .received false
  have opens := (Store.canOpen_create (c := .received) (auto := false)
    (d := ⟨s.store.newNumber, .received, false, true, false, []⟩) rfl room m.counters.curPage).mpr low
  rw [State.switchToStore_eq found]
  unfold State.openPageFor
  rw [show (s.divertedTo m s.store.newNumber (s.store.create .received false)).store.doc? s.store.newNumber = _
    from created]
  refine (if_pos opens).trans ?_
  exact congrArg (s.divertedTo m s.store.newNumber ·) (Store.addPage_create few .received false _ _ _ _)

/-- A page index above 255: the move has been diverted, and fails (R153, R154). -/
theorem State.switchToStore_of_no_index (high : 255 < m.counters.curPage) : s.switchToStore m
    = (s.divertedTo m s.store.newNumber (s.store.create .received false)).storeFull m.id s.store.newNumber 0 := by
  have created := Store.doc?_create few .received false
  have none_ := (Store.canOpen_create (c := .received) (auto := false)
    (d := ⟨s.store.newNumber, .received, false, true, false, []⟩) rfl room m.counters.curPage).not.mpr (by omega)
  rw [State.switchToStore_eq found]
  unfold State.openPageFor
  rw [show (s.divertedTo m s.store.newNumber (s.store.create .received false)).store.doc? s.store.newNumber = _
    from created]
  exact if_neg none_

end switch

theorem State.actOnPaperOut_of_not {m : Move} (stays : m.fallback = false ∨ m.isLinkIn = false) (s : State) :
    s.actOnPaperOut m = s.failMove .paperOut m.id := by
  refine if_neg ?_
  rcases stays with off | other
  · simp [off]
  · simp [other]

theorem State.actOnPaperOut_of_fallback {m : Move} (on : m.fallback = true) (link : m.isLinkIn = true) (s : State) :
    s.actOnPaperOut m = if s.store.cannotDivert then (s.reportStore .storeFull 0 0).failMove .paperOut m.id
      else s.switchToStore m :=
  if_pos (by rw [on, link]; rfl)

/-! ## The end of a diverted move (R132, R142) -/

theorem Store.foldl_freeSegment_directory (ns : List Nat) (st : Store) :
    (ns.foldl (fun st n => st.freeSegment n) st).directory = st.directory := by
  induction ns generalizing st with
  | nil => rfl
  | cons n ns ih => exact ih (st.freeSegment n)

/-- A line abandoned changes pages alone in the directory. -/
theorem Store.abandonLine_doc? {st : Store} {n : Nat} {d : Document} (found : st.doc? n = some d) (o : OpenPage) :
    ∃ pages, (st.abandonLine o).doc? n = some { d with pages := pages } := by
  let f : Document → Document := fun d => d.onPage o.index fun p =>
    { p with
      first := if p.segments ≤ o.allocated.length then none else p.first
      segments := p.segments - o.allocated.length }
  have freed : ((o.allocated.foldl (fun st n => st.freeSegment n) st).setOpenPage { o with allocated := [] }).doc? n
      = some d := by
    rw [← found]
    exact Store.doc?_of_directory (Store.foldl_freeSegment_directory o.allocated st) n
  have after := Store.doc?_onDoc (f := f) (fun _ => rfl) o.doc n
    ((o.allocated.foldl (fun st n => st.freeSegment n) st).setOpenPage { o with allocated := [] })
  rw [freed] at after
  by_cases own : n = o.doc
  · exact ⟨(f d).pages, after.trans (if_pos own)⟩
  · exact ⟨d.pages, after.trans (if_neg own)⟩

theorem Store.dropTransfer_doc? {st : Store} {n : Nat} {d : Document} (found : st.doc? n = some d) (m : Move) :
    ∃ pages, (st.dropTransfer m).doc? n = some { d with pages := pages } := by
  have still : (if st.transfer = some m.id then { st with transfer := none } else st).doc? n = some d := by
    split
    · exact found
    · exact found
  unfold Store.dropTransfer
  dsimp only
  split
  · exact ⟨d.pages, still⟩
  · split
    · exact ⟨d.pages, still⟩
    · exact Store.abandonLine_doc? still _

/-- The document of a diverted move closes at its end. -/
theorem State.endMove_closes {s : State} {m : Move} {doc : Nat} {c : DocClass} {auto closes : Bool} {d : Document}
    (found : s.move? m.id = some m) (active : m.active = true) (link : m.isLinkIn = true)
    (sink : m.sink = .store doc c auto closes) (named : doc ≠ 0) (diverted : m.diverted = some doc)
    (there : s.store.doc? doc = some d) (kept : d.autoDelete = false) (outcome : MoveState)
    (cause : Option MoveCause) :
    ∃ e, (s.endMove m.id outcome cause false).store.doc? doc = some e ∧ e.closed = true
      ∧ (s.endMove m.id outcome cause false).store.openPage? doc = none := by
  have live : m.live = true := by
    unfold Move.active at active
    unfold Move.live
    simp only [Bool.or_eq_true, beq_iff_eq] at active ⊢
    tauto
  have plain : m.isPrint = false := by simp [Move.isPrint, sink]
  have own : m.isStoreSource = false := by
    unfold Move.isLinkIn at link
    unfold Move.isStoreSource
    cases source : m.source with
    | scan d limit => rfl
    | linkIn w d => rfl
    | store d first count =>
      rw [source] at link
      contradiction
  have docs : m.documents = [doc] := by
    rw [Move.documents_of_not_store own, Move.sinkDoc?, sink]
    dsimp only
    rw [if_neg named]
    rfl
  have store : (s.stopWork m).store = (s.store.dropTransfer m).close doc := by
    unfold State.stopWork
    rw [if_pos active, plain, Bool.false_and, if_neg Bool.false_ne_true, State.onStore_store]
    unfold Store.endWriter
    rw [sink]
    dsimp only
    rw [diverted]
    exact if_pos (by simp)
  obtain ⟨pages, dropped⟩ := Store.dropTransfer_doc? there m
  obtain ⟨⟨pages', hold, closed⟩, opened⟩ := Store.close_spec dropped
  have tested (referenced : Bool) : ((s.stopWork m).store.testAutoDelete doc referenced) = (s.stopWork m).store := by
    rw [store, Store.testAutoDelete_of_some closed]
    exact if_neg fun h => by simp [kept] at h
  have after : (s.endMove m.id outcome cause false).store = (s.store.dropTransfer m).close doc := by
    rw [State.endMove_store outcome cause found live, docs, ← store]
    exact tested _
  rw [after]
  exact ⟨_, closed, rfl, opened⟩

/-- Settles O50. -/
theorem documentsAreCreatedAndListed : Obligations.DocumentsAreCreatedAndListed := by
  unfold Obligations.DocumentsAreCreatedAndListed
  refine ⟨fun s tag cls auto rsv hs => ?_, fun s tag code rsv hs => hs.setReserve tag code rsv,
    fun s tag start rsv hs => hs.listDocs tag start rsv, fun s tag doc start rsv hs => hs.docInfo tag doc start rsv,
    fun s m found => ?_, fun s m doc c auto closes d outcome cause found active link sink named diverted there kept =>
      State.endMove_closes found active link sink named diverted there kept outcome cause⟩
  · obtain ⟨refused, created⟩ := hs.createDoc tag cls auto rsv
    refine ⟨refused, fun small mark zero => ?_⟩
    obtain ⟨full, room⟩ := created small mark zero
    refine ⟨full, fun few => ?_⟩
    obtain ⟨low, high, free, above, below⟩ := Store.newNumber_spec few
    exact ⟨s.store.newNumber, low, high, fun d mem own => free ⟨d, mem, own⟩, above, below, room few⟩
  · refine ⟨fun stays => State.actOnPaperOut_of_not stays s, fun on link => ⟨fun full => ?_, fun few room =>
      ⟨fun low => ?_, fun high => ?_⟩⟩⟩
    · rw [State.actOnPaperOut_of_fallback on link, if_pos ((Store.cannotDivert_iff _).mpr full)]
      rfl
    · have diverts : ¬s.store.cannotDivert = true := by
        rw [Store.cannotDivert_iff]
        omega
      rw [State.actOnPaperOut_of_fallback on link, if_neg diverts, State.switchToStore_of_index found few room low,
        Move.switchOffset_eq]
      rfl
    · have diverts : ¬s.store.cannotDivert = true := by
        rw [Store.cannotDivert_iff]
        omega
      rw [State.actOnPaperOut_of_fallback on link, if_neg diverts, State.switchToStore_of_no_index found few room high]
      have unopened : s.store.openPages = s.store.openPages ++ [] := (List.append_nil _).symm
      exact congrArg (fun opened => ((s.divertedTo m s.store.newNumber { s.store.create .received false with
        openPages := opened }).reportStore .storeFull s.store.newNumber 0).failMove .storeFull m.id) unopened

end Sys2Proof.Machine
end


section
/-! PROOFS. The capture and its end (R70, R71), the tail count and the end of a scan page (R51 to R54, R129). -/

namespace Sys2Proof.Machine

/-! ## The exposure and the capture (R70, R71) -/

section capture

variable {s : State} {ctx : CaptureCtx} {pixels : List Pixel} {m : Move}

theorem State.exec_exposureEnd (clocked : s.clocked = true) (exposing : s.scan.capture = .exposing ctx) :
    exec .exposureEnd s = .next { s with scan := { s.scan with capture := .writing ctx } } := by
  show execExposureEnd s = _
  unfold execExposureEnd State.onScan
  rw [if_pos clocked]
  dsimp only
  rw [exposing]
  rfl

/-- CAPTURE_DONE hands the line, tells DF, and settles. -/
theorem State.exec_captureDone {u : State} (clocked : s.clocked = true) (writing : s.scan.capture = .writing ctx)
    (one : pixels.length = s.headWidth)
    (handed : (s.onScan fun c => { c with capture := .idle }).captured ctx
      (captureLine ctx.settings ctx.y ctx.table pixels) = u) (cfg : u.cfg = s.cfg) :
    exec (.captureDone pixels) s = .next (u.onChannel .df (Channel.captureDone s.cfg.df.holdTime)).settle := by
  have due : s.captureDue? pixels = some ctx := by
    unfold State.captureDue?
    rw [writing]
    exact if_pos (by simp [clocked, one])
  show execCaptureDone pixels s = _
  unfold execCaptureDone
  rw [due]
  dsimp only
  rw [handed, cfg]

variable {dots : RawLine}

/-- The line is dropped when its move has ended or its slot is gone (R71). -/
theorem State.captured_of_dropped (dropped : s.move? ctx.move = none
    ∨ ∃ m, s.move? ctx.move = some m ∧ (m.flowing = false ∨ m.granted ≠ some ctx.slot)) :
    s.captured ctx dots = s := by
  unfold State.captured
  rcases dropped with absent | ⟨m, found, gone⟩
  · rw [absent]
  · rw [found]
    refine if_neg ?_
    rcases gone with ended | lost
    · simp [ended]
    · simp [lost]

/-- The line is handed to its move, and FDC counts it (R71, R104). -/
theorem State.captured_of_flowing (found : s.move? ctx.move = some m) (flowing : m.flowing = true)
    (granted : m.granted = some ctx.slot) : s.captured ctx dots
      = ((s.onScan fun c => { c with lineCounter := c.lineCounter + 1 }).onMove ctx.move
          (Move.enter s.headWidth ctx.slot (scanDensity m) dots false)).scanLineCounted
        (m.enter s.headWidth ctx.slot (scanDensity m) dots false) := by
  obtain ⟨-, own⟩ := State.move?_mem found
  unfold State.captured
  rw [found]
  refine (if_pos (by simp [flowing, granted])).trans ?_
  have after : (((s.onScan fun c => { c with lineCounter := c.lineCounter + 1 }).onMove ctx.move
      (Move.enter s.headWidth ctx.slot (scanDensity m) dots false)).move? ctx.move)
      = some (m.enter s.headWidth ctx.slot (scanDensity m) dots false) := by
    rw [State.move?_onMove (f := Move.enter s.headWidth ctx.slot (scanDensity m) dots false)
      fun n => (Move.enter_same _ _ _ _ _ n).1]
    exact congrArg (Option.map _) found
  unfold State.handCapture
  rw [own]
  show (match ((s.onScan fun c => { c with lineCounter := c.lineCounter + 1 }).onMove ctx.move
      (Move.enter s.headWidth ctx.slot (scanDensity m) dots false)).move? ctx.move with
    | none => _
    | some n => State.scanLineCounted n _) = _
  rw [after] <;> rfl

end capture

/-! ## The tail count (R51, R54) -/

/-- The configuration is kept by what follows from an event. -/
theorem State.Leads.cfg {s t : State} (leads : s.Leads t) : t.cfg = s.cfg := congrArg Kept.cfg leads.kept

section tail

variable {s : State} {m : Move}

theorem State.scanLineCounted_of_none (untold : s.feed.tail = none) : s.scanLineCounted m
    = if Config.maxPageLines ≤ s.scan.lineCounter then s.jamScan .pageLong else s := by
  unfold State.scanLineCounted
  rw [untold]

theorem State.scanLineCounted_of_some {k : Nat} (counts : s.feed.tail = some k) :
    let left := if s.feed.tailSkip = true then k else k - 1
    let t := s.onFeed fun f => { f with tail := some left, tailSkip := false }
    s.scanLineCounted m = if left = 0 ∨ Config.maxPageLines ≤ s.scan.lineCounter then t.pageEnd m else t := by
  unfold State.scanLineCounted
  rw [counts]
  rfl

/-- DOC_SCAN taken ABSENT while a page is scanned begins the tail count (R51). -/
theorem State.sensorTaken_docScan_of_scanning (absent : s.scanPresent = false) (acts : s.feedActs = true)
    (doc : s.feed.doc = .scanning) (seq : s.feed.seq = .none) (scanning : s.scanning? = some m)
    (gated : s.df.gatedRun = true) : s.sensorTaken .docScan = s.tailSeen m := by
  have none_ : ¬s.scanPresent = true := by rw [absent]; exact Bool.false_ne_true
  unfold State.sensorTaken
  dsimp only
  rw [if_neg none_, if_neg (by rw [acts]; exact Bool.false_ne_true), if_neg none_]
  unfold State.scanTakenAbsent
  simp only [doc, seq, scanning]
  exact if_pos gated

end tail

/-! ## A gap begins, or the source ends (R51 to R53, R129) -/

/-- FDC changes DF alone when it orders the gating of a gap. -/
theorem State.gapGate_df (s : State) : ∃ c, s.gapGate = { s with df := c } := by
  unfold State.gapGate
  split
  · split
    · exact ⟨_, rfl⟩
    · exact ⟨s.df, rfl⟩
  · exact ⟨s.df, rfl⟩

/-- A gating ordered while a line run still waits is that of the order; a run under way keeps the order that waits. -/
theorem Channel.setGating_startWaiting (gated : Bool) (d : Density) (g : Bool) (c : Channel)
    (waits : c.startWaiting = some (.line d g)) : (c.setGating gated).startWaiting = some (.line d gated) := by
  have waiting : (c.gateWaiting gated).startWaiting = some (.line d gated) := by
    unfold Channel.gateWaiting
    rw [waits]
  unfold Channel.setGating Channel.gateRun
  split
  · split
    · split
      · exact waiting
      · exact waiting
    · exact waiting
  · exact waiting

/-- The sequence that a gap begins with (R53). -/
def gapSeq (present : Bool) (offset preload : Nat) : FeedSeq :=
  if present then .gapAlign offset 0 else .gapSeek offset preload 0

/-- What a gap leaves, and the order that it gives (R53). -/
theorem State.beginGap_keeps (s : State) (m : Move) : ∃ c,
    s.beginGap m = { s with
      feed := { s.feed with
        seq := gapSeq s.scanPresent s.cfg.feed.offset s.cfg.feed.preload
        tailOffset := s.cfg.feed.offset }
      df := c }
    ∧ c.startWaiting = some (.line (scanDensity m) (s.scanPresent && decide (s.cfg.feed.offset = 0))) := by
  let u := (s.onFeed fun f => { f with
    seq := gapSeq s.scanPresent s.cfg.feed.offset s.cfg.feed.preload
    tailOffset := s.cfg.feed.offset }).onChannel .df (Channel.order (.line (scanDensity m) false))
  have begins : s.beginGap m = u.gapGate := rfl
  have seq : u.feed.seq = gapSeq s.scanPresent s.cfg.feed.offset s.cfg.feed.preload := rfl
  have ordered : u.df.startWaiting = some (.line (scanDensity m) false) := rfl
  rw [begins]
  cases present : s.scanPresent with
  | false =>
    refine ⟨u.df, ?_, ordered⟩
    rw [present] at seq
    unfold State.gapGate
    rw [seq]
    show u = _
    simp only [u, present]
    rfl
  | true =>
    rw [present] at seq
    unfold State.gapGate
    rw [seq]
    by_cases travelled : s.cfg.feed.offset ≤ 0
    · refine ⟨u.df.setGating true, (if_pos travelled).trans ?_, ?_⟩
      · simp only [u, present]
        rfl
      · rw [Channel.setGating_startWaiting true _ _ u.df ordered, decide_eq_true (Nat.le_zero.mp travelled)]
        rfl
    · refine ⟨u.df, (if_neg travelled).trans ?_, ?_⟩
      · simp only [u, present]
        rfl
      · rw [ordered, decide_eq_false fun zero => travelled zero.le]
        rfl

/-! ## The end of a scan page (R51, R52, R129) -/

/-- The record of a move at the end of a page of its scan (R109, R129). -/
def Move.sourcePageEnded (head : Nat) (m : Move) : Move :=
  if m.srcLines = 0 then { m with blankDue := m.blankDue + 1 } else m.endScanPage head

theorem Move.sourcePageEnded_keeps (head : Nat) (m : Move) :
    (m.sourcePageEnded head).id = m.id ∧ (m.sourcePageEnded head).state = m.state
      ∧ (m.sourcePageEnded head).source = m.source ∧ (m.sourcePageEnded head).srcPage = m.srcPage
      ∧ (m.sourcePageEnded head).blankDue = m.blankDue + (if m.srcLines = 0 then 1 else 0) := by
  unfold Move.sourcePageEnded
  split
  · exact ⟨rfl, rfl, rfl, rfl, rfl⟩
  · exact ⟨rfl, rfl, rfl, rfl, rfl⟩

/-- The last line of a page with lines takes the mark, and is READY (R109). -/
theorem Move.sourcePageEnded_queue {head : Nat} {m : Move} (some_ : 0 < m.srcLines) {before : List SlotLine}
    {l : SlotLine} (queue : m.queue = before ++ [l]) :
    ∃ e, (m.sourcePageEnded head).queue = before ++ [e] ∧ e.pageEnd = true ∧ e.state = .ready ∧ e.slot = l.slot := by
  refine ⟨{ m.makeReady head l with pageEnd := true }, ?_, rfl, rfl, rfl⟩
  unfold Move.sourcePageEnded
  rw [if_neg some_.ne']
  show mapLast _ m.queue = _
  rw [queue, mapLast_append]

/-- The state at the end of a page, before what follows the page (R51). -/
def State.pageEnded (m : Move) (s : State) : State :=
  (((s.onFeed fun f => { f with tail := none, tailSkip := false }).onChannel .df
    (Channel.endLine s.cfg.df.holdTime)).onScan fun c => { c with lineCounter := 0 }).scanPageEnded m

section pageEnd

variable {s : State} {m : Move}

/-- The record and the report are all that the page path changes. -/
theorem State.scanPageEnded_eq (s : State) (m : Move) : ∃ path, s.scanPageEnded m
    = ({ s with path := path } : State).reportPage m.number .scanned m.srcPage (max m.srcLines 1) := by
  unfold State.scanPageEnded
  dsimp only
  split
  · exact ⟨_, rfl⟩
  · exact ⟨_, rfl⟩

theorem State.scanPageEnded_move? (found : s.move? m.id = some m) :
    (s.scanPageEnded m).move? m.id = some (m.sourcePageEnded s.headWidth) := by
  unfold State.scanPageEnded Move.sourcePageEnded
  dsimp only
  split
  · refine (State.move?_onMove (s := s) (f := fun m => { m with blankDue := m.blankDue + 1 }) fun _ => rfl).trans ?_
    rw [found]
    rfl
  · refine (State.move?_onMove (s := s) (f := Move.endScanPage s.headWidth) fun _ => rfl).trans ?_
    rw [found]
    rfl

/-- What the end of a page leaves as it is, and the feed and the scan unit after it. -/
theorem State.pageEnded_keeps (s : State) (m : Move) :
    (s.pageEnded m).feed = { s.feed with tail := none, tailSkip := false }
      ∧ (s.pageEnded m).scan = { s.scan with lineCounter := 0 } ∧ (s.pageEnded m).cfg = s.cfg
      ∧ (s.pageEnded m).link = s.link.report 0xE5
        ([byte1 m.number, 0] ++ bytes2 m.srcPage ++ bytes2 (max m.srcLines 1)) := by
  obtain ⟨path, eq⟩ := State.scanPageEnded_eq (((s.onFeed fun f => { f with tail := none, tailSkip := false }).onChannel
    .df (Channel.endLine s.cfg.df.holdTime)).onScan fun c => { c with lineCounter := 0 }) m
  unfold State.pageEnded
  rw [eq, State.reportPage]
  exact ⟨State.report_feed .., State.report_scan .., State.report_cfg .., rfl⟩

theorem State.pageEnded_move? (found : s.move? m.id = some m) :
    (s.pageEnded m).move? m.id = some (m.sourcePageEnded s.headWidth) :=
  State.scanPageEnded_move? (s := ((s.onFeed fun f => { f with tail := none, tailSkip := false }).onChannel
    .df (Channel.endLine s.cfg.df.holdTime)).onScan fun c => { c with lineCounter := 0 }) found

theorem State.pageEnd_eq (s : State) (m : Move) : s.pageEnd m
    = if furtherPage m s.entryPresent then
        ((s.pageEnded m).onMove m.id (Move.nextSourcePage (s.pageEnded m).headerLines)).beginGap m
      else ((s.pageEnded m).onMove m.id fun m => { m with state := .draining }).setDoc .ejecting .pagesDone 0 := by
  have entry : (s.pageEnded m).entryPresent = s.entryPresent := by
    unfold State.entryPresent
    rw [(s.pageEnded_keeps m).1]
  rw [← entry]
  rfl

theorem State.pageEnd_cfg (s : State) (m : Move) : (s.pageEnd m).cfg = s.cfg := by
  obtain ⟨-, -, cfg, -⟩ := s.pageEnded_keeps m
  rw [State.pageEnd_eq]
  split
  · obtain ⟨c, eq, -⟩ :=
      ((s.pageEnded m).onMove m.id (Move.nextSourcePage (s.pageEnded m).headerLines)).beginGap_keeps m
    rw [eq]
    exact cfg
  · refine Eq.trans ?_ cfg
    simp [State.setDoc, State.reportDoc]

theorem furtherPage_iff {d : Density} {limit : Nat} (source : m.source = .scan d limit) (entry : Bool) :
    furtherPage m entry = true ↔ entry = true ∧ (limit = 0 ∨ m.srcPage < limit) := by
  unfold furtherPage
  rw [source]
  simp

/-- The page ends, and a further one is taken: a gap begins (R53). -/
theorem State.pageEnd_of_further {d : Density} {limit : Nat} (source : m.source = .scan d limit)
    (further : s.feed.docEntry.debounced = true ∧ (limit = 0 ∨ m.srcPage < limit)) : ∃ c,
    s.pageEnd m = { (s.pageEnded m).onMove m.id (Move.nextSourcePage (s.pageEnded m).headerLines) with
      feed := { (s.pageEnded m).feed with
        seq := gapSeq s.scanPresent s.cfg.feed.offset s.cfg.feed.preload
        tailOffset := s.cfg.feed.offset }
      df := c }
    ∧ c.startWaiting = some (.line d (s.feed.docScan.debounced && decide (s.cfg.feed.offset = 0))) := by
  obtain ⟨feed, -, cfg, -⟩ := s.pageEnded_keeps m
  obtain ⟨c, eq, waits⟩ :=
    ((s.pageEnded m).onMove m.id (Move.nextSourcePage (s.pageEnded m).headerLines)).beginGap_keeps m
  have density : scanDensity m = d := by unfold scanDensity; rw [source]
  have present : ((s.pageEnded m).onMove m.id (Move.nextSourcePage (s.pageEnded m).headerLines)).scanPresent
      = s.scanPresent := by
    show (s.pageEnded m).feed.docScan.debounced = _
    rw [feed]
    rfl
  rw [State.onMove_cfg, cfg, present, density] at waits
  refine ⟨c, ?_, waits⟩
  rw [State.pageEnd_eq, if_pos ((furtherPage_iff source s.entryPresent).mpr further), eq]
  simp only [State.onMove_cfg, State.onMove_feed, cfg, present]

theorem State.pageEnd_of_last {d : Density} {limit : Nat} (source : m.source = .scan d limit)
    (last : ¬(s.feed.docEntry.debounced = true ∧ (limit = 0 ∨ m.srcPage < limit))) : s.pageEnd m
      = ((s.pageEnded m).onMove m.id fun m => { m with state := .draining }).setDoc .ejecting .pagesDone 0 := by
  rw [State.pageEnd_eq, if_neg ((furtherPage_iff source s.entryPresent).not.mpr last)]

end pageEnd

/-! ## The white line of an empty page (R129) -/

/-- A white line fitted to a head is white. -/
theorem fitLine_white {head w : Nat} (heads : head = 1728 ∨ head = 2048) (widths : w = head ∨ w = 1728) :
    fitLine head (List.replicate w false) = List.replicate head false := by
  unfold fitLine
  rw [List.length_replicate]
  by_cases same : w = head
  · rw [if_pos same, same]
  · obtain rfl : w = 1728 := widths.resolve_left same
    obtain rfl : head = 2048 := heads.resolve_left fun narrow => same narrow.symm
    rw [if_neg same, if_neg (by decide), centreLine, List.length_replicate, if_pos rfl, List.replicate_append_replicate,
      List.replicate_append_replicate]

theorem State.headWidth_cases (s : State) : s.headWidth = 1728 ∨ s.headWidth = 2048 := by
  unfold State.headWidth Config.headWidth
  split
  · exact .inr rfl
  · exact .inl rfl

theorem State.lineWidth_of_scan {s : State} {m : Move} {d : Density} {limit : Nat} (source : m.source = .scan d limit) :
    s.lineWidth m = if m.reduce = true then 1728 else s.headWidth := by
  unfold State.lineWidth State.sourceWidth
  rw [source]

theorem Move.diverted_isSome (m : Move) : m.fitsHead = true ↔ m.isPrint = true ∨ m.diverted ≠ none := by
  unfold Move.fitsHead
  rw [Bool.or_eq_true, Option.isSome_iff_ne_none]

/-- The white line has the width of the lines of the move. -/
theorem State.whiteLine_eq {s : State} {m : Move} {d : Density} {limit : Nat} (source : m.source = .scan d limit) :
    (if m.fitsHead then fitLine s.headWidth (List.replicate (s.lineWidth m) false)
      else List.replicate (s.lineWidth m) false)
      = List.replicate (if m.isPrint = true ∨ m.diverted ≠ none then s.headWidth
        else if m.reduce = true then 1728 else s.headWidth) false := by
  have width := State.lineWidth_of_scan (s := s) source
  have fits := Move.diverted_isSome m
  by_cases head : m.isPrint = true ∨ m.diverted ≠ none
  · rw [if_pos (fits.mpr head), if_pos head]
    refine fitLine_white s.headWidth_cases ?_
    rw [width]
    split
    · exact .inr rfl
    · exact .inl rfl
  · rw [if_neg (fits.not.mpr head), if_neg head, width]


theorem State.blankPage_move? {s : State} {m : Move} {d : Density} {limit : Nat} (found : s.move? m.id = some m)
    (source : m.source = .scan d limit) :
    let width := if m.isPrint = true ∨ m.diverted ≠ none then s.headWidth
      else if m.reduce = true then 1728 else s.headWidth
    let headers := if m.withHeader = true ∧ m.diverted = none then (s.path.header.map HeaderBuffer.count).getD 0 else 0
    (s.blankPage m).move? m.id = some { m with
      blankDue := m.blankDue - 1
      headerLeft := if 1 < m.blankDue ∨ m.state = .running then headers else 0
      queue := m.queue ++ [⟨s.freeSlot, m.target, List.replicate width false, true, .ready, false⟩]
      counters := { m.counters with taken := m.counters.taken + 1 } } := by
  intro width headers
  have blank : m.enterBlank s.headWidth (s.lineWidth m) s.freeSlot s.headerLines = { m with
      blankDue := m.blankDue - 1
      headerLeft := if 1 < m.blankDue ∨ m.state = .running then headers else 0
      queue := m.queue ++ [⟨s.freeSlot, m.target, List.replicate width false, true, .ready, false⟩]
      counters := { m.counters with taken := m.counters.taken + 1 } } := by
    unfold Move.enterBlank
    dsimp only
    rw [State.whiteLine_eq source, Move.prefixCount_eq]
    rfl
  unfold State.blankPage
  rw [State.move?_onMove (f := Move.enterBlank s.headWidth (s.lineWidth m) s.freeSlot s.headerLines) fun _ => rfl, found,
    Option.map_some, blank]

/-- A white line is due, its header lines are out, and there is room for it. -/
abbrev Move.BlankDue (m : Move) : Prop :=
  (m.state = .running ∨ m.state = .draining) ∧ 0 < m.blankDue ∧ m.headerLeft = 0 ∧ 0 < m.room

theorem ruleBlankPage_eq (s : State) :
    ruleBlankPage s = (s.oldestMove? fun m => decide m.BlankDue).map fun m => s.blankPage m := by
  have same : (fun m : Move => m.flowing && decide (0 < m.blankDue) && m.headerLeft == 0 && decide (0 < m.room))
      = fun m => decide m.BlankDue := by
    funext m
    rw [Bool.eq_iff_iff, decide_eq_true_eq]
    simp only [Bool.and_eq_true, Move.flowing_iff, decide_eq_true_eq, beq_iff_eq, and_assoc]
  unfold ruleBlankPage State.forMove
  rw [same]

/-- Settles O36. -/
theorem captureEvents : Obligations.CaptureEvents := by
  unfold Obligations.CaptureEvents
  refine ⟨fun s ctx held awake => ?_, fun s m held awake scanning timer reading entry known free doc seq gated => ?_,
    fun s m d limit found source => State.blankPage_move? found source, fun s m => ?_,
    fun s m d limit found source => ?_⟩
  · have clocked := State.clocked_of held awake
    refine ⟨State.exec_exposureEnd clocked, fun pixels writing one => ?_⟩
    intro line t
    refine ⟨fun dropped => ?_, fun m found flowing granted untold short => ?_, fun m found flowing granted => ?_⟩
    · exact State.exec_captureDone clocked writing one (State.captured_of_dropped (s := t) dropped) rfl
    · have handed := State.captured_of_flowing (s := t) (dots := line) found flowing granted
      let v := (t.onScan fun c => { c with lineCounter := c.lineCounter + 1 }).onMove ctx.move
        (Move.enter s.headWidth ctx.slot (scanDensity m) line false)
      have stays : v.scanLineCounted (m.enter s.headWidth ctx.slot (scanDensity m) line false) = v := by
        rw [State.scanLineCounted_of_none (s := v) untold, if_neg (by exact Nat.not_le.mpr short)]
      exact State.exec_captureDone clocked writing one (handed.trans stays) rfl
    · have handed := State.captured_of_flowing (s := t) (dots := line) found flowing granted
      intro n u
      refine ⟨fun untold long => ?_, fun k counts => ?_⟩
      · let v := (t.onScan fun c => { c with lineCounter := c.lineCounter + 1 }).onMove ctx.move
          (Move.enter s.headWidth ctx.slot (scanDensity m) line false)
        have same : v = u none := by
          have feed : s.feed = { s.feed with tail := none } := by rw [← untold]
          show v = State.onMove ctx.move _ { t with scan := _, feed := { s.feed with tail := none } }
          rw [← feed]
          rfl
        have jams : v.scanLineCounted n = (u none).jamScan .pageLong := by
          rw [State.scanLineCounted_of_none (s := v) untold, if_pos (by exact long), same]
        exact State.exec_captureDone clocked writing one (handed.trans jams)
          ((Follows.refl (w := False) (u none)).jamScan .pageLong).leads.cfg
      · intro left
        let v := (t.onScan fun c => { c with lineCounter := c.lineCounter + 1 }).onMove ctx.move
          (Move.enter s.headWidth ctx.slot (scanDensity m) line false)
        have falls : (v.onFeed fun f => { f with tail := some left, tailSkip := false }) = u (some left) := rfl
        have counted := State.scanLineCounted_of_some (s := v) (m := n) counts
        dsimp only at counted
        rw [show (if v.feed.tailSkip = true then k else k - 1) = left from rfl, falls] at counted
        refine State.exec_captureDone clocked writing one (handed.trans counted) ?_
        split
        · exact State.pageEnd_cfg (u (some left)) n
        · rfl
  · intro steps n t
    let u := s.onFeed (Feed.onSensor .docScan Sensor.takeReading)
    have due : (s.clocked && (s.feed.sensor .docScan).timer.isSome) = true := by
      rw [State.clocked_of held awake, Option.isSome_iff_ne_none.mpr (by exact timer)]
      rfl
    have acts : u.feedActs = true := by
      show (s.feed.docEntry.known && true && !s.feedHeld) = true
      rw [entry, free]
      rfl
    have taken := State.sensorTaken_docScan_of_scanning (s := u) reading acts doc seq scanning gated
    have count : n = (u.feed.tailOffset + ((scanDensity m).steps - 1)) / (scanDensity m).steps := by
      show (s.feed.tailOffset + (match scanDensity m with | .v1 => 4 | .v2 => 2 | .v4 => 1) - 1)
        / (match scanDensity m with | .v1 => 4 | .v2 => 2 | .v4 => 1) = _
      cases scanDensity m with
      | _ => rfl
    have told : (u.onFeed fun f => { f with
        tail := some ((u.feed.tailOffset + ((scanDensity m).steps - 1)) / (scanDensity m).steps)
        tailSkip := s.df.captureOutstanding }) = t := by
      rw [← count]
      show ({ s with feed := { s.feed with
        docScan := ⟨s.feed.docScan.reading, s.feed.docScan.reading, none, true⟩
        tail := some n
        tailSkip := s.df.captureOutstanding } } : State) = t
      rw [reading]
    refine (congrArg Host.Outcome.next (if_pos due)).trans (congrArg (Host.Outcome.next ∘ State.finish) (taken.trans ?_))
    unfold State.tailSeen
    dsimp only
    rw [show u.df.captureOutstanding = s.df.captureOutstanding from rfl, told, ← count]
  · intro due
    rw [ruleBlankPage_eq]
    refine ⟨fun found own oldest => ?_, fun none_ => ?_⟩
    · rw [State.oldestMove?_eq_some found (decide_eq_true own) fun n mem h => oldest n mem (of_decide_eq_true h)]
      rfl
    · rw [State.oldestMove?_eq_none fun n mem => decide_eq_false (none_ n mem)]
      rfl
  · intro t further offset
    obtain ⟨feed, scan, cfg, link⟩ := s.pageEnded_keeps m
    obtain ⟨-, state, -, page, blank⟩ := m.sourcePageEnded_keeps s.headWidth
    have ended := State.pageEnded_move? found
    have room (few : s.link.outbound.length + s.link.reserved < 16) (fewer : s.link.reports < 15) :
        s.link.outbound ++ [⟨.report, 0xE5, 0, [byte1 m.number, 0] ++ bytes2 m.srcPage ++ bytes2 (max m.srcLines 1)⟩]
          = (s.pageEnded m).link.outbound := by
      rw [link, Link.report_outbound_of_room few fewer]
    by_cases more : further
    · obtain ⟨c, eq, waits⟩ := State.pageEnd_of_further source more
      have goes : t = _ := eq
      refine ⟨by rw [goes]; exact congrArg Scan.lineCounter scan, by rw [goes]; exact congrArg Feed.tail feed,
        fun few fewer => ?_, (m.sourcePageEnded s.headWidth).nextSourcePage (s.pageEnded m).headerLines, ?_, blank,
        fun before l some_ queue => Move.sourcePageEnded_queue some_ queue, fun _ => ⟨state, ?_, rfl, ?_, ?_, ?_⟩,
        fun last => absurd more last⟩
      · rw [room few fewer, goes]
        exact List.prefix_rfl
      · rw [goes]
        refine (State.move?_onMove (f := Move.nextSourcePage (s.pageEnded m).headerLines) fun _ => rfl).trans ?_
        rw [ended]
        rfl
      · exact congrArg (· + 1) page
      · rw [goes]
        show (s.pageEnded m).feed.doc = _
        rw [feed]
      · rw [goes]
        rfl
      · rw [goes]
        exact waits
    · have goes : t = _ := State.pageEnd_of_last source more
      have leads := ((Follows.refl (w := False) ((s.pageEnded m).onMove m.id fun m =>
        { m with state := .draining })).setDoc .ejecting .pagesDone 0).leads
      refine ⟨?_, ?_, fun few fewer => ?_, { m.sourcePageEnded s.headWidth with state := .draining }, ?_, blank,
        fun before l some_ queue => Move.sourcePageEnded_queue some_ queue, fun next => absurd next more,
        fun _ => ⟨rfl, ?_⟩⟩
      · rw [goes, State.setDoc_scan]
        exact congrArg Scan.lineCounter scan
      · rw [goes]
        refine Eq.trans ?_ (congrArg Feed.tail feed)
        simp [State.setDoc, State.reportDoc]
      · rw [room few fewer, goes]
        exact leads.queue
      · rw [goes]
        refine (State.move?_onMove (s := s.pageEnded m) (f := fun m => { m with state := .draining }) fun _ => rfl).trans ?_
        rw [ended]
        rfl
      · rw [goes]
        simp [State.setDoc, State.reportDoc]

end Sys2Proof.Machine
end


section
/-! PROOFS. The cover and the paper (R34, R58, R59, R79, R90, R91, R94, R126, R133), and the request for a load (R47). -/

namespace Sys2Proof.Machine

/-! ## A channel under an open cover (R34) -/

/-- The channel has stopped, with no user, no requester and no order left. -/
theorem Channel.coverStop_spec (hold : Nat) (c : Channel) :
    (c.coverStop hold).user = none ∧ (c.coverStop hold).queue = [] ∧ (c.coverStop hold).startWaiting = none
      ∧ ((c.coverStop hold).state = .idle ∨ (c.coverStop hold).state = .holding ∨ (c.coverStop hold).state = .fault)
      ∧ (c.coverStop hold).position = c.position ∧ (c.coverStop hold).phase = c.phase := by
  have held (c : Channel) (holding : c.state = .holding) (user : c.user = none) (queue : c.queue = [])
      (order : c.startWaiting = none) : c.startHold.user = none ∧ c.startHold.queue = []
        ∧ c.startHold.startWaiting = none
        ∧ (c.startHold.state = .idle ∨ c.startHold.state = .holding ∨ c.startHold.state = .fault)
        ∧ c.startHold.position = c.position ∧ c.startHold.phase = c.phase := by
    unfold Channel.startHold
    rw [if_pos holding]
    split
    · exact ⟨user, queue, order, .inl rfl, rfl, rfl⟩
    · exact ⟨user, queue, order, .inr (.inl holding), rfl, rfl⟩
  unfold Channel.coverStop
  dsimp only
  split
  next idle => exact ⟨rfl, rfl, rfl, .inl idle, rfl, rfl⟩
  next fault => exact ⟨rfl, rfl, rfl, .inr (.inr fault), rfl, rfl⟩
  next holding =>
    split
    · exact ⟨rfl, rfl, rfl, .inr (.inl holding), rfl, rfl⟩
    · exact held _ holding rfl rfl rfl
  next => exact held _ rfl rfl rfl rfl

/-! ## Reports with room in the queue (R9) -/

theorem Link.report_of_room {l : Link} (room : l.outbound.length + l.reserved < 16) (few : l.reports < 15)
    (type : Byte) (payload : List Byte) :
    l.report type payload = { l with outbound := l.outbound ++ [⟨.report, type, 0, payload⟩] } := by
  have admitted : l.admits = true := by
    unfold Link.admits
    simpa using ⟨few, room⟩
  unfold Link.report
  rw [if_pos admitted]

/-- The link with reports of one type behind its queue. -/
def Link.told (l : Link) (rs : List OutRecord) : Link := { l with outbound := l.outbound ++ rs }

/-- At most so many reports are told, all of one type, when there is room for them. -/
def Link.TellsAtMost (n : Nat) (type : Byte) (l l' : Link) : Prop :=
  l.outbound.length + l.reserved + n ≤ 16 → l.reports + n ≤ 15 →
    ∃ rs : List OutRecord, (∀ r ∈ rs, r.type = type ∧ r.kind = .report) ∧ rs.length ≤ n ∧ l' = l.told rs

section told

variable {l l' : Link} {n : Nat} {type : Byte}

theorem Link.reports_told {rs : List OutRecord} (all : ∀ r ∈ rs, r.kind = .report) :
    (l.told rs).reports = l.reports + rs.length := by
  have kept : rs.filter OutRecord.isReport = rs := List.filter_eq_self.mpr fun r mem => by
    simp [OutRecord.isReport, all r mem]
  unfold Link.reports Link.told
  rw [List.filter_append, List.length_append, kept]

theorem Link.TellsAtMost.refl (type : Byte) (l : Link) : l.TellsAtMost 0 type l :=
  fun _ _ => ⟨[], nofun, Nat.le_refl 0, by rw [Link.told, List.append_nil]⟩

theorem Link.TellsAtMost.report (tells : l.TellsAtMost n type l') (payload : List Byte) :
    l.TellsAtMost (n + 1) type (l'.report type payload) := by
  intro room few
  obtain ⟨rs, all, short, rfl⟩ := tells (by omega) (by omega)
  have reports := Link.reports_told (l := l) fun r mem => (all r mem).2
  have length : (l.told rs).outbound.length = l.outbound.length + rs.length := List.length_append
  have reserved : (l.told rs).reserved = l.reserved := rfl
  refine ⟨rs ++ [⟨.report, type, 0, payload⟩], fun r mem => ?_, ?_, ?_⟩
  · rcases List.mem_append.mp mem with old | new
    · exact all r old
    · obtain rfl := List.mem_singleton.mp new
      exact ⟨rfl, rfl⟩
  · rw [List.length_append, List.length_singleton]
    omega
  · rw [Link.report_of_room (by omega) (by omega)]
    unfold Link.told
    rw [List.append_assoc]

theorem Link.TellsAtMost.mono {k : Nat} (tells : l.TellsAtMost n type l') (le : n ≤ k) : l.TellsAtMost k type l' := by
  intro room few
  obtain ⟨rs, all, short, eq⟩ := tells (by omega) (by omega)
  exact ⟨rs, all, short.trans le, eq⟩

end told

/-- A jam raises one or two DOC_EVENTs. -/
theorem State.jam_tells (cause : DocCause) (s : State) : s.link.TellsAtMost 2 0xE3 (s.jam cause).link := by
  have once := (Link.TellsAtMost.refl 0xE3 s.link).report ([DocState.jammed.code, cause.code] ++ bytes2 0)
  unfold State.jam
  dsimp only
  split
  · exact once.mono (by decide)
  · exact once.report _

/-! ## The cover opens (R34, R58) -/

/-- The mechanism stopped by an open cover, before the document is judged. -/
def State.coverStopped (s : State) : State :=
  ((s.onChannel .df (Channel.coverStop s.cfg.df.holdTime)).onChannel .rf
    (Channel.coverStop s.cfg.rf.holdTime)).onPrint fun p => { p.drop with cut := .none }

/-- The report of the cover, or none at a first reading (log 45). -/
def State.coverReport (first : Bool) : State → State := if first then id else State.reportPaper

/-- The cover is open, up to the ends of the moves. -/
def State.coverActed (first : Bool) (s : State) : State :=
  let told := State.coverReport first s.coverStopped.coverJam
  if told.scan.shading = .none then told else told.endShading .busy

theorem State.coverOpens_eq (first : Bool) (s : State) : s.coverOpens (State.coverReport first)
    = (s.coverActed first).failWhere (fun m => m.active && (m.isScan || m.isPrint)) .coverOpen := by
  rw [State.coverActed]
  rfl

/-- The document state that an open cover leaves. -/
def coverDoc (sheet : Bool) : DocState → DocState
  | .loading => if sheet then .jammed else .none
  | .scanning => if sheet then .jammed else .none
  | .ejecting => if sheet then .jammed else .none
  | d => d

theorem coverDoc_ne_scanning (sheet : Bool) (d : DocState) : coverDoc sheet d ≠ .scanning := by
  cases d with
  | scanning => cases sheet <;> decide
  | loading => cases sheet <;> decide
  | ejecting => cases sheet <;> decide
  | none => exact nofun
  | settling => exact nofun
  | loaded => exact nofun
  | jammed => exact nofun

section cover

variable {s : State} (first : Bool)

theorem State.coverReport_keeps (s : State) : (State.coverReport first s).feed = s.feed
    ∧ (State.coverReport first s).scan = s.scan ∧ (State.coverReport first s).path = s.path
    ∧ (State.coverReport first s).print = s.print ∧ (∀ ch, (State.coverReport first s).channel ch = s.channel ch)
    ∧ (State.coverReport first s).link.hand = s.link.hand := by
  cases first with
  | true => exact ⟨rfl, rfl, rfl, rfl, fun _ => rfl, rfl⟩
  | false =>
    refine ⟨State.report_feed .., State.report_scan .., State.report_path .., State.report_print .., fun ch => ?_,
      Link.report_hand ..⟩
    cases ch with
    | df => exact State.report_df ..
    | rf => exact State.report_rf ..

theorem State.coverStopped_channel (s : State) (ch : ChannelId) :
    (s.coverStopped).channel ch = (s.channel ch).coverStop (s.channelCfg ch).holdTime := by
  cases ch with
  | df => rfl
  | rf => rfl

/-- What an open cover does to the document (R58). -/
structure State.CoverJammed (s t : State) : Prop where
  scan : t.scan = s.scan
  path : t.path = s.path
  print : t.print = s.print
  hand : t.link.hand = s.link.hand
  channel : ∀ ch, (s.channel ch).user = none → (s.channel ch).queue = [] → t.channel ch = s.channel ch
  cover : t.feed.cover = s.feed.cover
  paper : t.feed.paper = s.feed.paper
  doc : t.feed.doc = coverDoc (s.entryPresent || s.scanPresent) s.feed.doc
  tells : s.link.TellsAtMost 2 0xE3 t.link

/-- A document that moves jams, any other stays as it is. -/
theorem State.coverJam_cases (free : s.feedHeld = false) :
    (s.coverJam = s.jam .coverOpen ∧ coverDoc (s.entryPresent || s.scanPresent) s.feed.doc
        = if s.entryPresent || s.scanPresent then .jammed else .none)
      ∨ (s.coverJam = s ∧ coverDoc (s.entryPresent || s.scanPresent) s.feed.doc = s.feed.doc) := by
  have held : ¬s.feedHeld = true := by rw [free]; exact Bool.false_ne_true
  unfold State.coverJam
  rw [if_neg held]
  cases s.feed.doc with
  | loading => exact .inl ⟨rfl, rfl⟩
  | scanning => exact .inl ⟨rfl, rfl⟩
  | ejecting => exact .inl ⟨rfl, rfl⟩
  | none => exact .inr ⟨rfl, rfl⟩
  | settling => exact .inr ⟨rfl, rfl⟩
  | loaded => exact .inr ⟨rfl, rfl⟩
  | jammed => exact .inr ⟨rfl, rfl⟩

theorem State.coverJam_spec (free : s.feedHeld = false) : s.CoverJammed s.coverJam := by
  rcases State.coverJam_cases free with ⟨jams, doc⟩ | ⟨stays, doc⟩
  · have hand := congrArg Kept.hand (s.jam_leads .coverOpen).kept
    rw [jams]
    refine ⟨s.jam_scan _, s.jam_path _, s.jam_print _, hand, fun ch => s.jam_channel _ ch, ?_, ?_, ?_, s.jam_tells _⟩
    · rw [State.jam_feed]
    · rw [State.jam_feed]
    · rw [State.jam_feed, doc]
  · rw [stays]
    exact ⟨rfl, rfl, rfl, rfl, fun _ _ _ => rfl, rfl, rfl, doc.symm, (Link.TellsAtMost.refl _ _).mono (by decide)⟩

/-- What the cover brings about before moves end. -/
structure State.CoverActed (first : Bool) (s t : State) : Prop where
  channel : ∀ ch, t.channel ch = (s.channel ch).coverStop (s.channelCfg ch).holdTime
  print : t.print = ⟨.empty, .idle, .none⟩
  path : t.path = s.path
  scan : t.scan = { s.scan with shading := .none }
  cover : t.feed.cover = s.feed.cover
  doc : t.feed.doc = coverDoc (s.entryPresent || s.scanPresent) s.feed.doc
  told : s.link.outbound.length + s.link.reserved < 14 → s.link.reports < 13 → first = false →
    ∃ jam : List OutRecord, (∀ r ∈ jam, r.type = 0xE3)
      ∧ s.link.outbound ++ jam ++ [⟨.report, 0xE4, 0, [markByte s.feed.paper.debounced, markByte s.feed.cover.debounced]⟩]
        <+: t.link.outbound
  reply : ∀ f : Frame, s.scan.shading ≠ .none → s.link.hand = some ⟨f, .handed⟩ →
    replyRecord .reply f [Result.busy.code] ∈ t.link.outbound

theorem State.coverActed_spec (free : s.feedHeld = false) : s.CoverActed first (s.coverActed first) := by
  obtain ⟨scan, path, print, hand, channel, cover, paper, doc, tells⟩ :=
    State.coverJam_spec (s := s.coverStopped) free
  obtain ⟨feed', scan', path', print', channel', hand'⟩ := State.coverReport_keeps first s.coverStopped.coverJam
  let told := State.coverReport first s.coverStopped.coverJam
  have stopped (ch : ChannelId) : told.channel ch = (s.channel ch).coverStop (s.channelCfg ch).holdTime := by
    have spec := Channel.coverStop_spec (s.channelCfg ch).holdTime (s.channel ch)
    rw [channel', channel ch (by rw [State.coverStopped_channel]; exact spec.1)
      (by rw [State.coverStopped_channel]; exact spec.2.1), State.coverStopped_channel]
  have ends : (s.coverActed first).feed = told.feed ∧ (s.coverActed first).path = told.path
      ∧ (s.coverActed first).print = told.print ∧ (∀ ch, (s.coverActed first).channel ch = told.channel ch)
      ∧ (s.coverActed first).scan = { told.scan with shading := .none }
      ∧ told.link.outbound <+: (s.coverActed first).link.outbound := by
    unfold State.coverActed
    dsimp only
    split
    next off => exact ⟨rfl, rfl, rfl, fun _ => rfl, by rw [← off], List.prefix_rfl⟩
    next on =>
      refine ⟨rfl, rfl, rfl, fun ch => ?_, rfl, Link.answerLate_grows _ _⟩
      cases ch with
      | df => rfl
      | rf => rfl
  obtain ⟨feedE, pathE, printE, channelE, scanE, queueE⟩ := ends
  refine ⟨fun ch => (channelE ch).trans (stopped ch), ?_, ?_, ?_, ?_, ?_, fun room few again => ?_, fun f on handed => ?_⟩
  · rw [printE, print', print]
    rfl
  · rw [pathE, path', path]
    rfl
  · rw [scanE, scan', scan]
    rfl
  · rw [feedE, feed', cover]
    rfl
  · rw [feedE, feed', doc]
    rfl
  · subst again
    obtain ⟨jam, all, short, link⟩ := tells (by show s.link.outbound.length + s.link.reserved + 2 ≤ 16; omega)
      (by show s.link.reports + 2 ≤ 15; omega)
    refine ⟨jam, fun r mem => (all r mem).1, List.IsPrefix.trans ?_ queueE⟩
    have reports : s.coverStopped.coverJam.link.reports = s.link.reports + jam.length := by
      rw [link, Link.reports_told fun r mem => (all r mem).2]
      rfl
    have outbound : s.coverStopped.coverJam.link.outbound = s.link.outbound ++ jam := by
      rw [link]
      rfl
    have length : s.coverStopped.coverJam.link.outbound.length = s.link.outbound.length + jam.length := by
      rw [outbound, List.length_append]
    have reserved : s.coverStopped.coverJam.link.reserved = s.link.reserved := by
      rw [link]
      rfl
    show _ <+: (s.coverStopped.coverJam.link.report 0xE4 _).outbound
    rw [Link.report_outbound_of_room (by omega) (by omega), outbound]
    show _ <+: s.link.outbound ++ jam ++ [⟨.report, 0xE4, 0,
      [markByte s.coverStopped.coverJam.feed.paper.debounced, markByte s.coverStopped.coverJam.feed.cover.debounced]⟩]
    rw [paper, cover]
    exact List.prefix_rfl
  · have shading : ¬told.scan.shading = .none := by
      rw [scan', scan]
      exact on
    have ends : s.coverActed first = told.endShading .busy := if_neg shading
    rw [ends]
    exact State.endShading_replies ((hand'.trans hand).trans handed) .busy

end cover

/-! ## The paper (R59, R126, R133) -/

/-- A channel of which at most the queue has changed. -/
def Channel.SameButQueue (c d : Channel) : Prop := d = { c with queue := d.queue }

theorem Channel.SameButQueue.refl (c : Channel) : c.SameButQueue c := rfl

theorem Channel.SameButQueue.trans {c d e : Channel} (first : c.SameButQueue d) (second : d.SameButQueue e) :
    c.SameButQueue e := by
  rw [first] at second
  exact second

section still

variable {s : State} {id : Nat}

/-- A move whose lines do not flow, as the record of its id. -/
abbrev State.StillAt (s : State) (id : Nat) : Prop := ∀ m ∈ s.moves, m.id = id → m.flowing = false

/-- The table at the end of a move (R132). -/
theorem State.endMove_moves (s : State) (id : Nat) (o : MoveState) (c : Option MoveCause) :
    (s.endMove id o c false).moves = s.moves
      ∨ (s.endMove id o c false).moves = s.moves.map fun m => if m.id = id then m.ended o c else m := by
  refine State.endMove_cases (P := fun t => t.moves = s.moves
    ∨ t.moves = s.moves.map fun m => if m.id = id then m.ended o c else m) o c false (.inl rfl) fun m st _ _ => .inr ?_
  rw [if_neg Bool.false_ne_true]
  show Path.moves (State.path _) = _
  rw [State.ejectPartScanned_path, State.reportMoveDone, State.report_path, State.giveUpChannels, State.onChannel_path,
    State.onChannel_path]
  exact Path.moves_onMove id (Move.ended o c) s.path

/-- The end of a move that does not print or scan yet leaves the document, the head and the move that prints. -/
theorem State.failMove_of_still (still : s.StillAt id) (cause : MoveCause) :
    let t := s.failMove cause id
    t.feed = s.feed ∧ t.print = s.print ∧ t.serving? = s.serving?
      ∧ t.moves.map Move.id = s.moves.map Move.id ∧ (∀ n, s.StillAt n → t.StillAt n)
      ∧ (s.rf.user ≠ some (.move id) → s.rf.SameButQueue t.rf) := by
  intro t
  have flows (m : Move) : (m.ended .failed (some cause)).flowing = false := rfl
  have moves : t.moves = s.moves
      ∨ t.moves = s.moves.map fun m => if m.id = id then m.ended .failed (some cause) else m :=
    s.endMove_moves id .failed (some cause)
  have parts : t.feed = s.feed ∧ t.print = s.print := by
    refine State.endMove_cases (P := fun t => t.feed = s.feed ∧ t.print = s.print) .failed (some cause) false
      ⟨rfl, rfl⟩ fun m st found _ => ?_
    have stays := still m (State.move?_mem found).1 (State.move?_mem found).2
    have kept : ∀ u : State, u.ejectPartScanned m = u := fun u => if_neg (by simp [stays])
    rw [if_neg Bool.false_ne_true, kept]
    simp [State.giveUpChannels, State.reportMoveDone, State.retire, stays]
  refine ⟨parts.1, parts.2, ?_, ?_, fun n calm m mem own => ?_, fun other => ?_⟩
  · rcases moves with same | ended
    · show List.find? _ t.moves = _
      rw [same]
      rfl
    · show List.find? _ t.moves = List.find? _ s.moves
      rw [ended]
      have unserved : ∀ m ∈ s.moves, m.id = id → (m.isPrint && m.flowing) = false := fun m mem own => by
        rw [still m mem own, Bool.and_false]
      generalize s.moves = l at unserved
      induction l with
      | nil => rfl
      | cons m l ih =>
        have rest := ih fun n mem => unserved n (List.mem_cons_of_mem m mem)
        rw [List.map_cons, List.find?_cons, List.find?_cons, rest]
        by_cases own : m.id = id
        · rw [if_pos own, flows, Bool.and_false, unserved m List.mem_cons_self own]
        · rw [if_neg own]
  · rcases moves with same | ended
    · rw [same]
    · rw [ended, List.map_map]
      refine List.map_congr_left fun m _ => ?_
      rw [Function.comp]
      split
      · rfl
      · rfl
  · rcases moves with same | ended
    · exact calm m (same ▸ mem) own
    · rw [ended] at mem
      obtain ⟨a, there, rfl⟩ := List.mem_map.mp mem
      split at own
      next => rw [if_pos ‹_›]; rfl
      next => rw [if_neg ‹_›]; exact calm a there own
  · rcases s.endMove_channel id .failed (some cause) false .rf with same | gives
    · have same : t.rf = s.rf := same
      rw [same]
      exact .refl _
    · have gives : t.rf = s.rf.giveUp (.move id) (s.channelCfg .rf).holdTime := gives
      rw [gives]
      unfold Channel.giveUp
      rw [if_neg other]
      rfl

/-- So do the ends of several such moves. -/
theorem State.failMoves_of_still (ids : List Nat) (still : ∀ id ∈ ids, s.StillAt id) (cause : MoveCause) :
    let t := ids.foldl (fun s id => s.failMove cause id) s
    t.feed = s.feed ∧ t.print = s.print ∧ t.serving? = s.serving?
      ∧ ((∀ id ∈ ids, s.rf.user ≠ some (.move id)) → s.rf.SameButQueue t.rf) := by
  induction ids generalizing s with
  | nil => exact ⟨rfl, rfl, rfl, fun _ => .refl _⟩
  | cons id ids ih =>
    obtain ⟨feed, print, serving, -, calm, rf⟩ := State.failMove_of_still (still id List.mem_cons_self) cause
    obtain ⟨feed', print', serving', rf'⟩ := ih (s := s.failMove cause id) fun n mem =>
      calm n (still n (List.mem_cons_of_mem id mem))
    refine ⟨feed'.trans feed, print'.trans print, serving'.trans serving, fun others => ?_⟩
    have first := rf (others id List.mem_cons_self)
    refine first.trans (rf' fun n mem => ?_)
    rw [first]
    exact others n (List.mem_cons_of_mem id mem)

end still

/-- A PRINT move that waits to print. -/
abbrev Move.printStarting (m : Move) : Bool := m.isPrint && m.state == .starting

theorem Move.not_flowing_of_printStarting {m : Move} (waits : m.printStarting = true) :
    m.flowing = false ∧ m.live = true := by
  unfold Move.printStarting at waits
  rw [Bool.and_eq_true, beq_iff_eq] at waits
  simp [Move.flowing, Move.live, waits.2]

section paper

variable {s : State} (distinct : (s.moves.map Move.id).Nodup)
include distinct

theorem State.still_of_printStarting (id : Nat) (mem : id ∈ s.moveIds Move.printStarting) : s.StillAt id := by
  obtain ⟨m, there, waits, own⟩ := (State.mem_moveIds ..).mp mem
  intro n mem' same
  rw [State.eq_of_id distinct there mem' (same.trans own.symm)]
  exact (Move.not_flowing_of_printStarting waits).1

/-- The PRINT moves in STARTING fail; the move that prints, the document and the head stay. -/
theorem State.failPrintStarting_spec (cause : MoveCause) :
    let t := s.failWhere Move.printStarting cause
    t.feed = s.feed ∧ t.print = s.print ∧ t.serving? = s.serving?
      ∧ ∀ m, s.serving? = some m → t.move? m.id = some m
        ∧ (s.rf.user = some (.move m.id) → s.rf.SameButQueue t.rf) := by
  intro t
  obtain ⟨feed, print, serving, rf⟩ := State.failMoves_of_still (s.moveIds Move.printStarting)
    (State.still_of_printStarting distinct) cause
  refine ⟨feed, print, serving, fun m serves => ?_⟩
  have mem := List.mem_of_find?_eq_some serves
  have flowing : m.flowing = true := by
    have has := List.find?_some serves
    simp only [Bool.and_eq_true] at has
    exact has.2
  have found := State.move?_of_mem distinct mem
  refine ⟨State.failWhere_keeps found (.inr fun a there same => ?_), fun user => rf fun id among own => ?_⟩
  · rw [State.eq_of_id distinct mem there same]
    exact Bool.eq_false_iff.mpr fun waits => by
      rw [(Move.not_flowing_of_printStarting waits).1] at flowing
      cases flowing
  · rw [user, Option.some.injEq, User.move.injEq] at own
    have still := State.still_of_printStarting distinct id among m mem own
    rw [still] at flowing
    cases flowing

end paper

/-- The order to end a line run, on a channel whose user stays (R36). -/
theorem Channel.endLine_of_line {c : Channel} {x : LineRun} (run : c.run = .line x) (stays : c.releasing = false)
    (hold : Nat) :
    (c.state = .lineRun → (c.endLine hold).state = .lineRun ∧ (c.endLine hold).run = .line { x with endOrdered := true })
      ∧ (c.state = .lineHold → (c.endLine hold).state = .holding ∧ (c.endLine hold).run = .none
        ∧ (c.endLine hold).user = c.user) := by
  have dropped : ∃ w, c.dropLineWaiting = { c with startWaiting := w } := by
    unfold Channel.dropLineWaiting
    split
    · exact ⟨none, rfl⟩
    · exact ⟨c.startWaiting, rfl⟩
  obtain ⟨w, eq⟩ := dropped
  unfold Channel.endLine
  rw [eq]
  refine ⟨fun runs => ?_, fun holds => ?_⟩
  · rw [Channel.endRun_of_lineRun (c := { c with startWaiting := w }) _ run runs]
    exact ⟨runs, rfl⟩
  · rw [Channel.endRun_of_hold (c := { c with startWaiting := w }) _ run holds, Channel.settleHolding_of_used (by exact stays)]
    exact ⟨rfl, rfl, rfl⟩

/-- Paper taken ABSENT (R59, R126, R133). -/
theorem State.paperTakenAbsent_eq (s : State) : s.paperTakenAbsent
    = (match (s.reportPaper.failWhere Move.printStarting .paperOut).serving? with
      | none => s.reportPaper.failWhere Move.printStarting .paperOut
      | some m =>
        if (s.reportPaper.failWhere Move.printStarting .paperOut).print.cut = .none then
          ((s.reportPaper.failWhere Move.printStarting .paperOut).onMove m.id fun m => { m with paperOut := true }).onChannel
            .rf (Channel.endLine (s.reportPaper.failWhere Move.printStarting .paperOut).cfg.rf.holdTime)
        else s.reportPaper.failWhere Move.printStarting .paperOut) := by
  rfl

/-! ## The request for a load (R47) -/

section load

variable {s : State}

theorem State.feedWants_of_settling (doc : s.feed.doc = .settling) (due : s.feed.settle = .expired)
    (free : s.feedHeld = false) (unasked : ¬(s.df.user = some .feed ∧ s.df.releasing = false)) (absent : .feed ∉ s.df.queue) :
    s.feedWants = !s.feed.cover.debounced := by
  have asks : s.df.asks .feed = false := by
    unfold Channel.asks Channel.usedBy
    simpa [not_and] using ⟨fun user => by simpa [user] using unasked, absent⟩
  unfold State.feedWants State.coverOpen
  rw [free, asks, doc, due]
  simp

theorem State.feedRequest_of_granted (opened : s.feed.cover.debounced = false) (stopped : s.df.state = .idle ∨ s.df.state = .holding)
    (user : s.df.user = none) (queue : s.df.queue = []) :
    s.feedRequest = { s with df := { s.df with user := some .feed, releasing := false, holdTimer := none } } := by
  have sound : ¬s.df.state = .fault := by
    rcases stopped with state | state
    · rw [state]
      decide
    · rw [state]
      decide
  have granted : s.df.requestAnswer s.coverOpen = .granted := by
    unfold Channel.requestAnswer State.coverOpen
    rw [if_neg sound, opened, if_neg Bool.false_ne_true]
    refine if_pos ?_
    unfold Channel.free
    rw [user, queue]
    simpa using stopped
  unfold State.feedRequest
  rw [granted]
  show { s with df := s.df.request .feed s.coverOpen } = _
  unfold Channel.request
  rw [if_neg (by simp [user, queue]), granted]

theorem State.feedRequest_of_queued (opened : s.feed.cover.debounced = false) (sound : s.df.state ≠ .fault)
    (used : s.df.user ≠ none) (unasked : ¬(s.df.user = some .feed ∧ s.df.releasing = false)) (absent : .feed ∉ s.df.queue) :
    s.feedRequest = { s with df := { s.df with queue := s.df.queue ++ [.feed] } } := by
  have queued : s.df.requestAnswer s.coverOpen = .queued := by
    unfold Channel.requestAnswer State.coverOpen
    rw [if_neg sound, opened, if_neg Bool.false_ne_true]
    refine if_neg ?_
    unfold Channel.free
    rw [Option.isNone_eq_false_iff.mpr (Option.isSome_iff_ne_none.mpr used)]
    exact Bool.false_ne_true
  unfold State.feedRequest
  rw [queued]
  show { s with df := s.df.request .feed s.coverOpen } = _
  unfold Channel.request
  rw [if_neg (not_or.mpr ⟨unasked, absent⟩), queued]

end load

/-! ## The debounced changes -/

/-- DEBOUNCE_EXPIRY of a sensor that runs its debounce (R45). -/
theorem State.exec_debounceExpiry {s : State} (clocked : s.clocked = true) (sensor : SensorId)
    (timer : (s.feed.sensor sensor).timer ≠ none) : exec (.debounceExpiry sensor) s
      = .next ((s.onFeed (Feed.onSensor sensor Sensor.takeReading)).sensorTaken sensor).finish :=
  congrArg Host.Outcome.next (if_pos (by rw [clocked, Option.isSome_iff_ne_none.mpr timer]; rfl))

/-- The cover taken OPEN, or found open at its first reading. -/
theorem State.exec_coverOpen {s : State} (clocked : s.clocked = true) (first : Bool) (reading : s.feed.cover.reading = true)
    (due : if first then s.feed.cover.known = false else s.feed.cover.timer ≠ none) :
    exec (if first then .firstReadingsSteady .cover else .debounceExpiry .cover) s
      = .next ((s.onFeed (Feed.onSensor .cover Sensor.takeReading)).coverOpens (State.coverReport first)).finish := by
  cases first with
  | true =>
    have unknown : (s.clocked && !(s.feed.sensor .cover).known) = true := by
      rw [clocked, show (s.feed.sensor .cover).known = false from due]
      rfl
    refine (congrArg Host.Outcome.next (if_pos unknown)).trans (congrArg (Host.Outcome.next ∘ State.finish) ?_)
    exact if_pos reading
  | false =>
    refine (State.exec_debounceExpiry clocked .cover due).trans (congrArg (Host.Outcome.next ∘ State.finish) ?_)
    exact if_pos reading

/-- A move that scans or prints, and is at work. -/
abbrev Move.atMechanism (m : Move) : Bool := m.active && (m.isScan || m.isPrint)

theorem Move.live_of_active {m : Move} (active : m.active = true) : m.live = true := by
  unfold Move.active at active
  unfold Move.live
  simp only [Bool.or_eq_true, beq_iff_eq] at active ⊢
  tauto

/-- The cover is open (R34, R58, R79, R90, R91, R94, R133). -/
theorem State.coverOpens_spec {u : State} (first : Bool) (free : u.feedHeld = false) :
    let t := u.coverOpens (State.coverReport first)
    (∀ ch, t.channel ch = (u.channel ch).coverStop (u.channelCfg ch).holdTime)
      ∧ t.feed = (u.coverActed first).feed ∧ t.print = ⟨.empty, .idle, .none⟩
      ∧ t.scan = { u.scan with shading := .none } ∧ (u.coverActed first).link.outbound <+: t.link.outbound
      ∧ ∀ m ∈ u.moves, (u.moves.map Move.id).Nodup →
        (m.atMechanism = true → t.move? m.id = some (m.ended .failed (some .coverOpen)))
        ∧ (m.atMechanism = false → t.move? m.id = some m) := by
  intro t
  have acted := State.coverActed_spec first free
  have spec (ch : ChannelId) := Channel.coverStop_spec (u.channelCfg ch).holdTime (u.channel ch)
  have eq : t = (u.coverActed first).failWhere Move.atMechanism .coverOpen := State.coverOpens_eq first u
  have still : (u.coverActed first).feed.doc ≠ .scanning := by
    rw [acted.doc]
    exact coverDoc_ne_scanning _ _
  have moves : (u.coverActed first).moves = u.moves := congrArg Path.moves acted.path
  rw [eq]
  refine ⟨fun ch => ?_, State.failWhere_feed _ _ _ still, State.failWhere_print _ _ _ acted.print, ?_,
    (State.failWhere_leads ..).queue, fun m mem distinct => ⟨fun at_ => ?_, fun off => ?_⟩⟩
  · rw [State.failWhere_channel (ch := ch) (user := by rw [acted.channel]; exact (spec ch).1)
      (queue := by rw [acted.channel]; exact (spec ch).2.1), acted.channel]
  · rw [State.failWhere_scan, acted.scan]
  · have found : (u.coverActed first).move? m.id = some m :=
      State.move?_of_mem (by rw [moves]; exact distinct) (by rw [moves]; exact mem)
    have active : m.active = true := ((Bool.and_eq_true ..).mp at_).1
    exact State.failWhere_fails found at_ (Move.live_of_active active)
  · have found : (u.coverActed first).move? m.id = some m :=
      State.move?_of_mem (by rw [moves]; exact distinct) (by rw [moves]; exact mem)
    refine State.failWhere_keeps found (.inr fun a there same => ?_)
    rw [State.eq_of_id distinct mem (moves ▸ there) same]
    exact off

/-- The move that prints is to act on the paper, and its RF run ends (R133). -/
def State.paperRunsOut (m : Move) (t : State) : State :=
  (t.onMove m.id fun m => { m with paperOut := true }).onChannel .rf (Channel.endLine t.cfg.rf.holdTime)

theorem State.paperRunsOut_move? (m : Move) (t : State) (n : Nat) :
    (t.paperRunsOut m).move? n = if n = m.id then (t.move? n).map fun m => { m with paperOut := true } else t.move? n :=
  State.move?_onMove_ite (s := t) (f := fun m => { m with paperOut := true }) (fun _ => rfl) n

theorem State.paperRunsOut_rf {m : Move} {t : State} {x : LineRun} (run : t.rf.run = .line x)
    (user : t.rf.user = some (.move m.id)) (stays : t.rf.releasing = false) :
    (t.rf.state = .lineRun → (t.paperRunsOut m).rf.state = .lineRun
        ∧ (t.paperRunsOut m).rf.run = .line { x with endOrdered := true })
      ∧ (t.rf.state = .lineHold → (t.paperRunsOut m).rf.state = .holding ∧ (t.paperRunsOut m).rf.run = .none
        ∧ (t.paperRunsOut m).rf.user = some (.move m.id)) := by
  obtain ⟨runs, holds⟩ := Channel.endLine_of_line run stays t.cfg.rf.holdTime
  refine ⟨runs, fun state => ?_⟩
  obtain ⟨holding, ended, same⟩ := holds state
  exact ⟨holding, ended, same.trans user⟩

/-- What running out of paper does to the move that prints and to RF, of which the ends of other moves have changed the
queue alone. -/
theorem State.paperRunsOut_spec {u t : State} {m : Move} (found : t.move? m.id = some m)
    (rf : u.rf.user = some (.move m.id) → u.rf.SameButQueue t.rf) :
    (t.paperRunsOut m).move? m.id = some { m with paperOut := true }
      ∧ ∀ x : LineRun, u.rf.run = .line x → u.rf.user = some (.move m.id) → u.rf.releasing = false →
        (u.rf.state = .lineRun → (t.paperRunsOut m).rf.state = .lineRun
          ∧ (t.paperRunsOut m).rf.run = .line { x with endOrdered := true })
        ∧ (u.rf.state = .lineHold → (t.paperRunsOut m).rf.state = .holding ∧ (t.paperRunsOut m).rf.run = .none
          ∧ (t.paperRunsOut m).rf.user = some (.move m.id)) := by
  refine ⟨?_, fun x run user stays => ?_⟩
  · rw [State.paperRunsOut_move?, if_pos rfl, found]
    rfl
  · have same : t.rf = { u.rf with queue := t.rf.queue } := rf user
    have state : t.rf.state = u.rf.state := by rw [same]
    have runs : t.rf.run = u.rf.run := by rw [same]
    have uses : t.rf.user = u.rf.user := by rw [same]
    have holds : t.rf.releasing = u.rf.releasing := by rw [same]
    have ends := State.paperRunsOut_rf (m := m) (t := t) (x := x) (runs.trans run) (uses.trans user) (holds.trans stays)
    rwa [state] at ends

/-- Paper taken ABSENT (R59, R126, R133), after the report. -/
theorem State.paperTakenAbsent_spec {u : State} (distinct : (u.moves.map Move.id).Nodup) :
    u.paperTakenAbsent.feed = u.feed ∧ u.paperTakenAbsent.print.cut = u.print.cut
      ∧ (∀ m ∈ u.moves, m.printStarting = true →
        ∃ n, u.paperTakenAbsent.move? m.id = some n ∧ n.state = .failed ∧ n.cause = some .paperOut)
      ∧ ∀ m, u.serving? = some m →
        (u.print.cut ≠ .none → u.paperTakenAbsent.move? m.id = some m)
        ∧ (u.print.cut = .none → u.paperTakenAbsent.move? m.id = some { m with paperOut := true }
          ∧ ∀ x : LineRun, u.rf.run = .line x → u.rf.user = some (.move m.id) → u.rf.releasing = false →
            (u.rf.state = .lineRun → u.paperTakenAbsent.rf.state = .lineRun
              ∧ u.paperTakenAbsent.rf.run = .line { x with endOrdered := true })
            ∧ (u.rf.state = .lineHold → u.paperTakenAbsent.rf.state = .holding ∧ u.paperTakenAbsent.rf.run = .none
              ∧ u.paperTakenAbsent.rf.user = some (.move m.id))) := by
  let t := u.reportPaper.failWhere Move.printStarting .paperOut
  have told : u.reportPaper.feed = u.feed ∧ u.reportPaper.print = u.print :=
    ⟨State.report_feed .., State.report_print ..⟩
  obtain ⟨feed, print, serving, serves⟩ := State.failPrintStarting_spec (s := u.reportPaper) distinct .paperOut
  have fails : ∀ m ∈ u.moves, m.printStarting = true →
      t.move? m.id = some (m.ended .failed (some .paperOut)) := fun m mem waits =>
    State.failWhere_fails (s := u.reportPaper) (State.move?_of_mem (s := u.reportPaper) distinct mem) waits
      (Move.not_flowing_of_printStarting waits).2
  have cut : t.print.cut = u.print.cut := congrArg Print.cut (print.trans told.2)
  have serving : t.serving? = u.serving? := serving
  cases serve : u.serving? with
  | none =>
    have eq : u.paperTakenAbsent = t := by
      rw [State.paperTakenAbsent_eq, show (u.reportPaper.failWhere _ _).serving? = none from serving.trans serve]
    rw [eq]
    exact ⟨feed.trans told.1, cut, fun m mem waits => ⟨_, fails m mem waits, rfl, rfl⟩,
      fun m same => absurd same.symm (Option.some_ne_none m)⟩
  | some m =>
    obtain ⟨found, rf⟩ := serves m serve
    have eq : u.paperTakenAbsent = if t.print.cut = .none then t.paperRunsOut m else t := by
      rw [State.paperTakenAbsent_eq, show (u.reportPaper.failWhere _ _).serving? = some m from serving.trans serve]
      rfl
    have acts := State.paperRunsOut_spec (u := u) found fun user => rf user
    rw [eq, cut]
    by_cases free : u.print.cut = .none
    · rw [if_pos free]
      refine ⟨feed.trans told.1, cut, fun n mem waits => ?_, fun n same => ?_⟩
      · rw [State.paperRunsOut_move?, fails n mem waits]
        split
        · exact ⟨_, rfl, rfl, rfl⟩
        · exact ⟨_, rfl, rfl, rfl⟩
      · obtain rfl : m = n := Option.some.inj same
        exact ⟨fun cutting => absurd free cutting, fun _ => acts⟩
    · rw [if_neg free]
      refine ⟨feed.trans told.1, cut, fun m mem waits => ⟨_, fails m mem waits, rfl, rfl⟩, fun n same =>
        ⟨fun _ => ?_, fun none_ => absurd none_ free⟩⟩
      obtain rfl : m = n := Option.some.inj same
      exact found

/-- Settles O31. -/
theorem coverOpeningStopsTheMechanism : Obligations.CoverOpeningStopsTheMechanism := by
  unfold Obligations.CoverOpeningStopsTheMechanism
  refine ⟨fun s first held awake free reading due => ?_, fun s => ⟨fun held awake timer reading => ?_,
    fun doc settle free unasked absent => ⟨fun opened => ?_, fun closed => ⟨?_, fun stopped user queue => ?_,
      fun sound used => ?_⟩⟩⟩, fun s held awake timer => ?_⟩
  · let u := s.onFeed (Feed.onSensor .cover Sensor.takeReading)
    have acted := State.coverActed_spec (s := u) first free
    obtain ⟨channel, feed, print, scan, queue, moves⟩ := State.coverOpens_spec (u := u) first free
    have still (ch : ChannelId) : u.channel ch = s.channel ch := by
      cases ch with
      | df => rfl
      | rf => rfl
    have doc : (u.coverOpens (State.coverReport first)).feed.doc
        = coverDoc (s.entryPresent || s.scanPresent) s.feed.doc := by
      rw [feed, acted.doc]
      rfl
    refine ⟨_, State.exec_coverOpen (State.clocked_of held awake) first reading due, fun ch => ?_, ?_, ?_, ?_, ?_,
      fun moving => ?_, fun rests => ?_, fun m mem distinct => ⟨fun active at_ => ?_, fun off => ?_⟩,
      fun room few again => ?_, ?_, ?_, fun tag rsv on hand => ?_⟩
    · obtain ⟨user, queue, order, state, position, phase⟩ :=
        Channel.coverStop_spec (u.channelCfg ch).holdTime (u.channel ch)
      rw [channel ch]
      exact ⟨user, queue, order, state, position.trans (congrArg Channel.position (still ch)),
        phase.trans (congrArg Channel.phase (still ch))⟩
    · show (State.feed _).cover.debounced = true
      rw [feed, acted.cover]
      exact reading
    · rw [print]
    · rw [print]
    · rw [print]
    · rw [doc]
      rcases moving with moving | moving | moving
      all_goals
        rw [moving]
        simp [coverDoc]
    · rw [doc]
      rcases rests with rests | rests | rests | rests
      all_goals
        rw [rests]
        rfl
    · exact ⟨_, (moves m mem distinct).1 (by simpa [Move.atMechanism, active] using at_), rfl, rfl⟩
    · exact (moves m mem distinct).2 (by
        rcases off with idle | ⟨scan, print⟩
        · simp [Move.atMechanism, idle]
        · simp [Move.atMechanism, scan, print])
    · obtain ⟨jam, all, told⟩ := acted.told room few again
      refine ⟨jam, all, List.IsPrefix.trans ?_ queue⟩
      have opened : u.feed.cover.debounced = true := reading
      rw [opened] at told
      exact told
    · rw [scan]
    · rw [scan]
      rfl
    · exact queue.subset (acted.reply _ on hand)
  · refine (State.exec_debounceExpiry (State.clocked_of held awake) .cover timer).trans
      (congrArg (Host.Outcome.next ∘ State.finish) ?_)
    have closed : (s.onFeed (Feed.onSensor .cover Sensor.takeReading))
        = { s with feed := { s.feed with cover := ⟨false, false, none, true⟩ } } := by
      show { s with feed := { s.feed with cover := ⟨s.feed.cover.reading, s.feed.cover.reading, none, true⟩ } } = _
      rw [reading]
    rw [closed]
    rfl
  · unfold ruleFeedRequest State.doWhen
    rw [State.feedWants_of_settling doc settle free unasked absent, opened]
    rfl
  · unfold ruleFeedRequest State.doWhen
    rw [State.feedWants_of_settling doc settle free unasked absent, closed]
    rfl
  · exact State.feedRequest_of_granted closed stopped user queue
  · exact State.feedRequest_of_queued closed sound used unasked absent
  · intro u told
    have taken (present : Bool) (reading : s.feed.paper.reading = present) :
        s.onFeed (Feed.onSensor .paper Sensor.takeReading) = u present := by
      show { s with feed := { s.feed with paper := ⟨s.feed.paper.reading, s.feed.paper.reading, none, true⟩ } } = _
      rw [reading]
    have expires := State.exec_debounceExpiry (State.clocked_of held awake) .paper timer
    refine ⟨fun reading => ?_, fun reading => ⟨(u false).paperTakenAbsent, ?_, ?_, fun distinct => ?_,
      fun m mem distinct print starting => ?_, fun m serve distinct => ?_⟩⟩
    · rw [expires, taken true reading]
      rfl
    · rw [expires, taken false reading]
      rfl
    · exact (((Follows.refl (w := False) (u false).reportPaper).failWhere Move.printStarting .paperOut).leads.queue).trans
        (by
          rw [State.paperTakenAbsent_eq]
          split
          · exact List.prefix_rfl
          · split
            · exact List.prefix_rfl
            · exact List.prefix_rfl)
    · obtain ⟨feed, cut, -, -⟩ := State.paperTakenAbsent_spec (u := u false) distinct
      exact ⟨feed, cut⟩
    · obtain ⟨-, -, fails, -⟩ := State.paperTakenAbsent_spec (u := u false) distinct
      exact fails m mem (by simp [Move.printStarting, print, starting])
    · obtain ⟨-, -, -, serves⟩ := State.paperTakenAbsent_spec (u := u false) distinct
      exact serves m serve

end Sys2Proof.Machine
end


section
/-! PROOFS. The sensors and what their changes do to the document (R44 to R49, R53, R56, R57, R63). -/

namespace Sys2Proof.Machine

/-! ## What the taking of a sensor leaves (R45) -/

/-- The sensors, the settings, the inputs, the positions and the shading table are those of another state. -/
structure State.Senses (s t : State) : Prop where
  sensor : ∀ id, t.feed.sensor id = s.feed.sensor id
  cfg : t.cfg = s.cfg
  inputs : t.inputs = s.inputs
  df : t.df.position = s.df.position
  rf : t.rf.position = s.rf.position
  table : t.scan.table = s.scan.table

section senses

variable {s t u : State}

theorem State.Senses.refl (s : State) : s.Senses s := ⟨fun _ => rfl, rfl, rfl, rfl, rfl, rfl⟩

theorem State.Senses.trans (h : s.Senses t) (k : t.Senses u) : s.Senses u :=
  ⟨fun id => (k.sensor id).trans (h.sensor id), k.cfg.trans h.cfg, k.inputs.trans h.inputs, k.df.trans h.df,
    k.rf.trans h.rf, k.table.trans h.table⟩

theorem State.Senses.ite {c : Prop} [Decidable c] (h : s.Senses t) (k : s.Senses u) :
    s.Senses (if c then t else u) := by
  split
  · exact h
  · exact k

theorem State.Leads.senses (leads : s.Leads t) : s.Senses t := by
  have kept := leads.kept
  refine ⟨fun id => ?_, congrArg Kept.cfg kept, congrArg Kept.inputs kept, congrArg Kept.dfPosition kept,
    congrArg Kept.rfPosition kept, congrArg Kept.table kept⟩
  cases id with
  | docEntry => exact congrArg Kept.docEntry kept
  | docScan => exact congrArg Kept.docScan kept
  | paper => exact congrArg Kept.paper kept
  | cover => exact congrArg Kept.cover kept

theorem State.Senses.follows (h : s.Senses t) (k : Follows False t u) : s.Senses u := h.trans k.leads.senses

theorem State.Senses.endShading (h : s.Senses t) (r : Result) : s.Senses (t.endShading r) :=
  h.trans ⟨fun _ => rfl, rfl, rfl, rfl, rfl, rfl⟩

theorem State.Senses.coverOpens (h : s.Senses t) (report : State → State) (k : ∀ u, Follows False u (report u)) :
    s.Senses (t.coverOpens report) := by
  unfold State.coverOpens
  have stopped := ((((Follows.refl (w := False) t).onChannel .df (Channel.coverStop t.cfg.df.holdTime) fun cfg c =>
    c.coverStop_mild cfg _).onChannel .rf (Channel.coverStop t.cfg.rf.holdTime) fun cfg c =>
      c.coverStop_mild cfg _).onPrint fun p => { p.drop with cut := .none })
  have jammed := h.follows ((stopped.trans State.coverJam_follows).trans (k _))
  exact (jammed.ite (jammed.endShading _)).follows ((Follows.refl _).failWhere _ _)

theorem State.sensorTaken_senses (id : SensorId) (s : State) : s.Senses (s.sensorTaken id) := by
  have h := State.Senses.refl s
  unfold State.sensorTaken
  cases id with
  | docEntry => exact h.ite ((h.follows (Follows.refl s).entryTakenPresent).ite (h.follows (Follows.refl s).entryTakenAbsent))
  | docScan =>
    have seen : s.Senses (if s.scanPresent then s.shadingSeesSheet else s) :=
      State.Senses.ite (h.ite (h.endShading _)) h
    exact seen.ite ((seen.follows (Follows.refl _).scanTakenPresent).ite
      (seen.follows ((Follows.refl _).scanTakenAbsent False.elim)))
  | paper => exact (h.follows (Follows.refl s).reportPaper).ite (h.follows (Follows.refl s).paperTakenAbsent)
  | cover =>
    exact (h.coverOpens _ fun u => (Follows.refl u).reportPaper).ite (h.follows (Follows.refl s).reportPaper)

end senses

/-- A sensor after a change of one. -/
theorem Feed.sensor_onSensor (id other : SensorId) (g : Sensor → Sensor) (f : Feed) :
    (f.onSensor id g).sensor other = if other = id then g (f.sensor other) else f.sensor other := by
  cases id with
  | _ =>
    cases other with
    | _ => rfl

/-! ## SENSOR_INPUT_CHANGE (R44, R45) -/

/-- A change of an input with no sleep entry to cancel forms the reading (R44). -/
theorem State.exec_sensorInputChange {s : State} {id : SensorId} {level : Bool} (running : s.held = false)
    (awake : s.power.state ≠ .sleep) (none_ : s.power.entry = .none) (changes : s.inputs.sensor id ≠ level) :
    exec (.sensorInputChange id level) s = .next ((s.setInput id level).formReading id) := by
  have cause : (s.setInput id level).inputCause State.causeTaken id = s.setInput id level := by
    unfold State.inputCause
    split
    · rfl
    · exact State.cancelSleep_of_none (s := s.setInput id level) none_ _
  show execSensorInputChange id level s = _
  unfold execSensorInputChange
  rw [if_neg changes]
  dsimp only
  rw [cause]
  refine congrArg Host.Outcome.next ((if_neg ?_).trans (if_neg awake))
  rw [show (s.setInput id level).held = false from running]
  exact Bool.false_ne_true

theorem Inputs.sensor_setSensor (id : SensorId) (level : Bool) (i : Inputs) : (i.setSensor id level).sensor id = level := by
  cases id with
  | _ => rfl

theorem State.formReading_setInput (s : State) (id : SensorId) (level : Bool) :
    let c := s.cfg.feed.sensor id
    (s.setInput id level).formReading id = (s.setInput id level).onFeed (Feed.onSensor id fun x => { x with
      reading := level != c.polarity
      timer := if x.known = false ∨ (level != c.polarity) = x.debounced then none
        else if x.timer.isSome then x.timer else some c.debounce }) := by
  intro c
  unfold State.formReading
  dsimp only
  have input : (s.setInput id level).inputs.sensor id = level := Inputs.sensor_setSensor id level s.inputs
  rw [input]
  simp only [Sensor.retime_eq]
  rfl

/-! ## DOC_ENTRY (R47, R57) -/

section entry

variable {s : State}

theorem State.sensorTaken_docEntry (acts : s.feedActs = true) : s.sensorTaken .docEntry
    = if s.entryPresent then s.entryTakenPresent else s.entryTakenAbsent :=
  if_neg (by rw [acts]; exact Bool.false_ne_true)

theorem State.entryTakenAbsent_of_settling (doc : s.feed.doc = .settling) : s.entryTakenAbsent
    = (s.onChannel .df (Channel.giveUp .feed s.cfg.df.holdTime)).enterNone .removed := by
  unfold State.entryTakenAbsent
  rw [doc]

theorem State.entryTakenAbsent_of_jammed (doc : s.feed.doc = .jammed) : s.entryTakenAbsent
    = if s.scanPresent then s else s.enterNone .cleared := by
  unfold State.entryTakenAbsent
  rw [doc]

theorem State.entryTakenAbsent_of_other (settled : s.feed.doc ≠ .settling) (clear : s.feed.doc ≠ .jammed) :
    s.entryTakenAbsent = s := by
  unfold State.entryTakenAbsent
  split
  next doc => exact absurd doc settled
  next doc => exact absurd doc clear
  · rfl

end entry

/-! ## DOC_SCAN (R48, R49, R53, R56, R57) -/

section scan

variable {s : State}

/-- Without a shading run the change acts on the document alone. -/
theorem State.sensorTaken_docScan (acts : s.feedActs = true) (off : s.scan.shading = .none) : s.sensorTaken .docScan
    = if s.scanPresent then s.scanTakenPresent else s.scanTakenAbsent := by
  have seen : (if s.scanPresent then s.shadingSeesSheet else s) = s := by
    split
    · exact if_pos off
    · rfl
  unfold State.sensorTaken
  dsimp only
  rw [seen]
  exact if_neg (by rw [acts]; exact Bool.false_ne_true)

theorem State.scanTakenPresent_of_none (doc : s.feed.doc = .none) : s.scanTakenPresent = s.enterJammed .misfeed := by
  unfold State.scanTakenPresent
  simp only [doc]

theorem State.scanTakenPresent_of_seek {offset : Nat} (doc : s.feed.doc ≠ .none) (seq : s.feed.seq = .seek offset none) :
    s.scanTakenPresent = if s.df.startWaiting.isSome then
        (s.onChannel .df fun c => { c with startWaiting := none }).beginAlign offset 0
      else (s.onFeed fun f => { f with seq := .seek offset (some 0) }).onChannel .df (Channel.stop s.cfg.df.holdTime) := by
  unfold State.scanTakenPresent
  cases named : s.feed.doc with
  | none => exact absurd named doc
  | _ => simp only [seq]

theorem State.scanTakenPresent_of_eject (doc : s.feed.doc ≠ .none) (seq : s.feed.seq = .eject true) :
    s.scanTakenPresent = if s.df.startWaiting.isSome then s.onFeed fun f => { f with seq := .eject false }
      else ((s.onFeed fun f => { f with seq := .seek s.cfg.feed.offset (some 0) }).setDoc .loading .nextSheet 0).onChannel
        .df (Channel.stop ((s.onFeed fun f => { f with seq := .seek s.cfg.feed.offset (some 0) }).setDoc .loading
          .nextSheet 0).cfg.df.holdTime) := by
  unfold State.scanTakenPresent
  cases named : s.feed.doc with
  | none => exact absurd named doc
  | _ =>
    simp only [seq]
    rfl

theorem State.scanTakenPresent_of_gapSeek {offset preload n : Nat} (doc : s.feed.doc ≠ .none)
    (seq : s.feed.seq = .gapSeek offset preload n) :
    s.scanTakenPresent = (s.onFeed fun f => { f with seq := .gapAlign offset 0 }).gapGate := by
  unfold State.scanTakenPresent
  cases named : s.feed.doc with
  | none => exact absurd named doc
  | _ => simp only [seq]

theorem State.scanTakenPresent_of_idle (doc : s.feed.doc ≠ .none) (seq : s.feed.seq = .none) :
    s.scanTakenPresent = s := by
  unfold State.scanTakenPresent
  cases named : s.feed.doc with
  | none => exact absurd named doc
  | _ => simp only [seq]

theorem State.scanTakenAbsent_of_loaded (doc : s.feed.doc = .loaded) : s.scanTakenAbsent = s.enterNone .removed := by
  unfold State.scanTakenAbsent
  simp only [doc]

theorem State.scanTakenAbsent_of_jammed (doc : s.feed.doc = .jammed) :
    s.scanTakenAbsent = if s.entryPresent then s else s.enterNone .cleared := by
  unfold State.scanTakenAbsent
  simp only [doc]

theorem State.scanTakenAbsent_of_align {offset : Nat} (doc : s.feed.doc = .loading) (seq : s.feed.seq = .align offset) :
    s.scanTakenAbsent = s.enterJammed .misfeed := by
  unfold State.scanTakenAbsent
  simp only [doc, seq]

theorem State.scanTakenAbsent_of_seek {offset d : Nat} (doc : s.feed.doc = .loading)
    (seq : s.feed.seq = .seek offset (some d)) : s.scanTakenAbsent = s := by
  unfold State.scanTakenAbsent
  simp only [doc, seq]

theorem State.scanTakenAbsent_of_settling (doc : s.feed.doc = .settling) (seq : s.feed.seq = .none) :
    s.scanTakenAbsent = s := by
  unfold State.scanTakenAbsent
  simp only [doc, seq]

theorem State.scanTakenAbsent_of_gapAlign {offset n : Nat} (doc : s.feed.doc = .scanning)
    (seq : s.feed.seq = .gapAlign offset n) : s.scanTakenAbsent = s.jamScan .misfeed := by
  unfold State.scanTakenAbsent
  simp only [doc, seq]

theorem State.scanTakenAbsent_of_eject {cleared : Bool} (doc : s.feed.doc = .ejecting) (seq : s.feed.seq = .eject cleared) :
    s.scanTakenAbsent = s.onFeed fun f => { f with seq := .eject true } := by
  unfold State.scanTakenAbsent
  simp only [doc, seq]

end scan

/-! ## The sequences (R48, R49, R53, R56) -/

section sequences

variable {s : State}

theorem State.beginAlign_of_short {offset d : Nat} (short : d < offset) : s.beginAlign offset d = { s with
    feed := { s.feed with seq := .align offset }
    df := { s.df with startWaiting := some (.ramp 1 true (offset - d)) } } :=
  if_pos short

theorem State.beginAlign_of_long {offset d : Nat} (long : offset ≤ d) : s.beginAlign offset d =
    (({ s with feed := { s.feed with seq := .none, doc := .loaded } } : State).report 0xE3
      ([3, 4] ++ bytes2 (d - offset))).onChannel .df (Channel.giveUp .feed (10 * s.cfg.df.holdCode)) :=
  if_neg (Nat.not_lt.mpr long)

/-- ALIGN begins whatever the sequence was. -/
theorem State.beginAlign_of_seq (q : FeedSeq) (offset d : Nat) :
    ({ s with feed := { s.feed with seq := q } } : State).beginAlign offset d = s.beginAlign offset d := by
  by_cases short : d < offset
  · rw [State.beginAlign_of_short short, State.beginAlign_of_short short]
  · rw [State.beginAlign_of_long (Nat.le_of_not_lt short), State.beginAlign_of_long (Nat.le_of_not_lt short)]

theorem State.gapGate_of_other (other : ∀ offset n, s.feed.seq ≠ .gapAlign offset n) : s.gapGate = s := by
  unfold State.gapGate
  split
  next offset n seq => exact absurd seq (other offset n)
  · rfl

theorem State.gapGate_of_align {offset n : Nat} (seq : s.feed.seq = .gapAlign offset n) :
    s.gapGate = if offset ≤ n then s.onChannel .df (Channel.setGating true) else s := by
  unfold State.gapGate
  rw [seq]

/-- The grant of DF to FDC (R47, R56). -/
theorem State.feedGranted_due (user : s.df.user = some .feed) (stays : s.df.releasing = false)
    (stopped : s.df.state = .idle ∨ s.df.state = .holding) (none_ : s.df.startWaiting = none) (free : s.feedHeld = false) :
    (s.df.usedBy .feed && s.df.ready && !s.feedHeld) = true := by
  unfold Channel.usedBy Channel.ready
  rw [user, stays, none_, free]
  simpa using stopped

theorem ruleGapOver_eq (s : State) : ruleGapOver s = if s.gapOver then
    some { s with feed := { s.feed with seq := .none } } else none := rfl

/-- A gap is over when its run is gated and has no order left (R53). -/
theorem State.gapOver_iff (s : State) : s.gapOver = true ↔
    (∃ offset n, s.feed.seq = .gapAlign offset n) ∧ (∃ x, s.df.run = .line x ∧ x.gated = true)
      ∧ s.df.startWaiting = none := by
  unfold State.gapOver
  split
  next offset n x seq run =>
    rw [Bool.and_eq_true, Option.isNone_iff_eq_none]
    refine ⟨fun ⟨gated, none_⟩ => ⟨⟨offset, n, seq⟩, ⟨x, run, gated⟩, none_⟩, fun ⟨_, ⟨y, line, gated⟩, none_⟩ => ⟨?_, none_⟩⟩
    obtain rfl : x = y := Run.line.inj (run.symm.trans line)
    exact gated
  next other =>
    refine ⟨nofun, fun ⟨⟨offset, n, seq⟩, ⟨x, run, _⟩, _⟩ => absurd run (other offset n x seq)⟩

end sequences

/-! ## The end of a ramped move of FDC (R48, R49, R56) -/

section ramp

variable {s : State} {x : RampRun}

/-- The last step of a ramped move is issued, and the channel holds. -/
def State.rampHeld (x : RampRun) (s : State) : State := { s with df := { s.df with
  position := if x.forward then s.df.position + 1 else s.df.position - 1
  phase := if x.forward = s.cfg.df.invert then s.df.phase - 1 else s.df.phase + 1
  state := .holding
  run := .none
  holdLatched := 10 * s.cfg.df.holdCode
  holdTimer := none } }

theorem RampRun.ending_of_last (last : x.r ≤ 1 ∨ (x.stopOrdered = true ∧ x.a = 0)) : x.toGo = 0 := by
  unfold RampRun.toGo
  rcases last with short | ⟨stop, low⟩
  · split
    · omega
    · omega
  · rw [if_pos stop, low, Nat.min_zero]

theorem Channel.stepRamp_of_last {c : Channel} {cfg : ChannelSettings} (last : x.toGo = 0) :
    c.stepRamp cfg x = (c.issue cfg.invert x.forward).enterHolding cfg.holdTime :=
  if_pos last

/-- The last step of a ramped move of FDC lets its sequence go on. -/
theorem State.exec_channelStep_of_last (held : s.held = false) (awake : s.power.state ≠ .sleep)
    (closed : s.feed.cover.debounced = false) (run : s.df.run = .ramp x)
    (state : s.df.state = .ramping ∨ s.df.state = .stopping) (last : x.toGo = 0) (user : s.df.user = some .feed)
    (stays : s.df.releasing = false) (other : ∀ offset n, s.feed.countStep.seq ≠ .gapAlign offset n) :
    exec (.channelStep .df) s
      = .next ({ s.rampHeld x with feed := s.feed.countStep } : State).feedRampEnded.settle := by
  have due : (s.channel .df).stepDue = true := by
    show s.df.stepDue = true
    unfold Channel.stepDue
    rw [run]
    simpa using state
  have counted : s.countDfStep .df = { s with feed := s.feed.countStep } :=
    State.gapGate_of_other (s := s.onFeed Feed.countStep) other
  have ends : x.ending = true := by unfold RampRun.ending; rw [last]; rfl
  have steps : ({ s with feed := s.feed.countStep } : State).onChannel .df
      (Channel.stepRamp (({ s with feed := s.feed.countStep } : State).channelCfg .df) x)
        = { s.rampHeld x with feed := s.feed.countStep } := by
    show ({ s with feed := s.feed.countStep, df := s.df.stepRamp s.cfg.df x } : State) = _
    rw [Channel.stepRamp_of_last last, Channel.issue_eq]
    rfl
  rw [State.exec_channelStep held awake closed due, counted,
    State.issueStep_ramp (s := { s with feed := s.feed.countStep }) (ch := .df) run, if_pos ends, steps]
  unfold State.rampEnded
  have idle : ¬(({ s.rampHeld x with feed := s.feed.countStep } : State).channel .df).releasing = true := by
    rw [show (({ s.rampHeld x with feed := s.feed.countStep } : State).channel .df).releasing = false from stays]
    exact Bool.false_ne_true
  rw [if_neg idle, show (({ s.rampHeld x with feed := s.feed.countStep } : State).channel .df).user = some .feed from user]

end ramp

/-! ## FIRST_READINGS_STEADY (R63) -/

section first

variable {s : State}

theorem State.exec_firstReadingsSteady (clocked : s.clocked = true) {id : SensorId}
    (unknown : (s.feed.sensor id).known = false) : exec (.firstReadingsSteady id) s
      = .next ((s.onFeed (Feed.onSensor id Sensor.takeReading)).firstTaken id s.feed).finish :=
  congrArg Host.Outcome.next (if_pos (by rw [clocked, unknown]; rfl))

/-- The document state set from the sensors (R63). -/
theorem State.firstDocument_eq (s : State) : s.firstDocument =
    if s.feedHeld = false ∧ s.feed.doc = .none then
      if s.feed.docScan.debounced = true then s.setDoc .jammed .powerOn 0
      else if s.feed.docEntry.debounced = true then (s.setDoc .settling .powerOn 0).startSettle
      else s
    else s := by
  unfold State.firstDocument
  by_cases due : s.feedHeld = false ∧ s.feed.doc = .none
  · rw [if_pos due, if_neg (by simp [due])]
    rfl
  · rw [if_neg due]
    refine if_pos ?_
    rcases not_and_or.mp due with held | other
    · exact .inl (by simpa using held)
    · exact .inr other

end first

/-- The change of a sensor is taken as its debounce expires. -/
theorem State.debounceExpiry_senses {s : State} (clocked : s.clocked = true) (id : SensorId)
    (timer : (s.feed.sensor id).timer ≠ none) : ∃ t : State, exec (.debounceExpiry id) s = .next t.finish
      ∧ t.feed.sensor id = ⟨(s.feed.sensor id).reading, (s.feed.sensor id).reading, none, true⟩
      ∧ (∀ other, other ≠ id → t.feed.sensor other = s.feed.sensor other)
      ∧ t.cfg = s.cfg ∧ t.inputs = s.inputs ∧ t.df.position = s.df.position
      ∧ t.rf.position = s.rf.position ∧ t.scan.table = s.scan.table := by
  have senses := State.sensorTaken_senses id (s.onFeed (Feed.onSensor id Sensor.takeReading))
  refine ⟨_, State.exec_debounceExpiry clocked id timer, ?_, fun other ne => ?_, senses.cfg, senses.inputs, senses.df,
    senses.rf, senses.table⟩
  · exact (senses.sensor id).trans ((Feed.sensor_onSensor id id Sensor.takeReading s.feed).trans (if_pos rfl))
  · exact (senses.sensor other).trans ((Feed.sensor_onSensor id other Sensor.takeReading s.feed).trans (if_neg ne))

/-- What the expiry of DOC_ENTRY acts on, when both document sensors are known. -/
theorem State.exec_docEntry {s : State} (clocked : s.clocked = true) (timer : s.feed.docEntry.timer ≠ none)
    (free : s.feedHeld = false) (scan : s.feed.docScan.known = true) (present : Bool)
    (reading : s.feed.docEntry.reading = present) :
    let t : State := { s with feed := { s.feed with docEntry := ⟨present, present, none, true⟩ } }
    exec (.debounceExpiry .docEntry) s = .next (if present then t.entryTakenPresent else t.entryTakenAbsent).finish := by
  intro t
  have taken : s.onFeed (Feed.onSensor .docEntry Sensor.takeReading) = t := by
    show { s with feed := { s.feed with docEntry := ⟨s.feed.docEntry.reading, s.feed.docEntry.reading, none, true⟩ } } = t
    rw [reading]
  have acts : t.feedActs = true := by
    show (true && s.feed.docScan.known && !s.feedHeld) = true
    rw [scan, free]
    rfl
  rw [State.exec_debounceExpiry clocked .docEntry timer, taken, State.sensorTaken_docEntry acts]
  rfl

/-- What the expiry of DOC_SCAN acts on, when both document sensors are known and no shading run is under way. -/
theorem State.exec_docScan {s : State} (clocked : s.clocked = true) (timer : s.feed.docScan.timer ≠ none)
    (free : s.feedHeld = false) (entry : s.feed.docEntry.known = true) (off : s.scan.shading = .none) (present : Bool)
    (reading : s.feed.docScan.reading = present) :
    let t : State := { s with feed := { s.feed with docScan := ⟨present, present, none, true⟩ } }
    exec (.debounceExpiry .docScan) s = .next (if present then t.scanTakenPresent else t.scanTakenAbsent).finish := by
  intro t
  have taken : s.onFeed (Feed.onSensor .docScan Sensor.takeReading) = t := by
    show { s with feed := { s.feed with docScan := ⟨s.feed.docScan.reading, s.feed.docScan.reading, none, true⟩ } } = t
    rw [reading]
  have acts : t.feedActs = true := by
    show (s.feed.docEntry.known && true && !s.feedHeld) = true
    rw [entry, free]
    rfl
  rw [State.exec_debounceExpiry clocked .docScan timer, taken, State.sensorTaken_docScan acts off]
  rfl

/-- DOC_SCAN taken acts by the document and its sequence (R48, R49, R53, R56, R57). -/
theorem State.docScan_cases {s : State} (held : s.held = false) (awake : s.power.state ≠ .sleep)
    (timer : s.feed.docScan.timer ≠ none) (entry : s.feed.docEntry.known = true) (free : s.feedHeld = false)
    (off : s.scan.shading = .none) :
    let t (present : Bool) (doc : DocState) (seq : FeedSeq) : State := { s with feed := { s.feed with
      docScan := ⟨present, present, none, true⟩
      doc := doc
      seq := seq } }
    let comesTo (u : State) : Prop := exec (.debounceExpiry .docScan) s = .next u.finish
    (s.feed.docScan.reading = true →
      (s.feed.doc = .none → comesTo ((t true .none s.feed.seq).enterJammed .misfeed))
      ∧ (∀ offset, s.feed.doc = .loading → s.feed.seq = .seek offset none → s.df.startWaiting = none →
        comesTo ((t true .loading (.seek offset (some 0))).onChannel .df
          (Channel.stop (10 * s.cfg.df.holdCode))))
      ∧ (s.feed.doc = .ejecting → s.feed.seq = .eject true → s.df.startWaiting = none →
        comesTo (((t true .loading (.seek s.cfg.feed.offset (some 0))).report 0xE3 [2, 3, 0, 0]).onChannel .df
          (Channel.stop (10 * s.cfg.df.holdCode))))
      ∧ (∀ offset preload n, s.feed.doc = .scanning → s.feed.seq = .gapSeek offset preload n → 0 < offset →
        comesTo (t true .scanning (.gapAlign offset 0)))
      ∧ (∀ preload n, s.feed.doc = .scanning → s.feed.seq = .gapSeek 0 preload n →
        comesTo ((t true .scanning (.gapAlign 0 0)).onChannel .df (Channel.setGating true)))
      ∧ (∀ offset, s.feed.doc = .loading → s.feed.seq = .seek offset none → s.df.startWaiting ≠ none →
        comesTo (({ t true .loading s.feed.seq with
          df := { s.df with startWaiting := none } } : State).beginAlign offset 0))
      ∧ (s.feed.doc = .ejecting → s.feed.seq = .eject true → s.df.startWaiting ≠ none →
        comesTo (t true .ejecting (.eject false)))
      ∧ (s.feed.doc ≠ .none → s.feed.seq = .none → comesTo (t true s.feed.doc .none)))
    ∧ (s.feed.docScan.reading = false →
      (s.feed.doc = .loaded → comesTo ((t false .loaded s.feed.seq).enterNone .removed))
      ∧ (s.feed.doc = .jammed → s.feed.docEntry.debounced = false →
        comesTo ((t false .jammed s.feed.seq).enterNone .cleared))
      ∧ (s.feed.doc = .jammed → s.feed.docEntry.debounced = true → comesTo (t false .jammed s.feed.seq))
      ∧ (∀ offset, s.feed.doc = .loading → s.feed.seq = .align offset →
        comesTo ((t false .loading s.feed.seq).enterJammed .misfeed))
      ∧ (∀ offset d, s.feed.doc = .loading → s.feed.seq = .seek offset (some d) →
        comesTo (t false .loading s.feed.seq))
      ∧ (s.feed.doc = .settling → s.feed.seq = .none → comesTo (t false .settling .none))
      ∧ (∀ offset n, s.feed.doc = .scanning → s.feed.seq = .gapAlign offset n →
        comesTo ((t false .scanning s.feed.seq).jamScan .misfeed))
      ∧ (∀ cleared, s.feed.doc = .ejecting → s.feed.seq = .eject cleared →
        comesTo (t false .ejecting (.eject true)))) := by
  intro t comesTo
  let v (present : Bool) : State := { s with feed := { s.feed with docScan := ⟨present, present, none, true⟩ } }
  have taken := State.exec_docScan (State.clocked_of held awake) timer free entry off
  have stands (present : Bool) : v present = t present s.feed.doc s.feed.seq := rfl
  refine ⟨fun reading => ?_, fun reading => ?_⟩
  · have comes {u : State} (eq : (v true).scanTakenPresent = u) : comesTo u :=
      (taken true reading).trans (congrArg (Host.Outcome.next ∘ State.finish) eq)
    refine ⟨fun doc => ?_, fun offset doc seq idle => ?_, fun doc seq idle => ?_, fun offset preload n doc seq far => ?_,
      fun preload n doc seq => ?_, fun offset doc seq waits => ?_, fun doc seq waits => ?_, fun doc seq => ?_⟩
    · rw [← doc, ← stands]
      exact comes (State.scanTakenPresent_of_none (s := v true) doc)
    · refine comes ((State.scanTakenPresent_of_seek (s := v true) (by simp [v, doc]) seq).trans ?_)
      rw [if_neg (by simp [v, idle]), ← doc]
      rfl
    · refine comes ((State.scanTakenPresent_of_eject (s := v true) (by simp [v, doc]) seq).trans ?_)
      rw [if_neg (by simp [v, idle])]
      rfl
    · refine comes ((State.scanTakenPresent_of_gapSeek (s := v true) (by simp [v, doc]) seq).trans ?_)
      rw [State.gapGate_of_align rfl, if_neg (Nat.not_le.mpr far), ← doc]
      rfl
    · refine comes ((State.scanTakenPresent_of_gapSeek (s := v true) (by simp [v, doc]) seq).trans ?_)
      rw [State.gapGate_of_align rfl, if_pos (Nat.le_refl 0), ← doc]
      rfl
    · refine comes ((State.scanTakenPresent_of_seek (s := v true) (by simp [v, doc]) seq).trans ?_)
      rw [if_pos (Option.isSome_iff_ne_none.mpr (by exact waits)), ← doc]
      rfl
    · refine comes ((State.scanTakenPresent_of_eject (s := v true) (by simp [v, doc]) seq).trans ?_)
      rw [if_pos (Option.isSome_iff_ne_none.mpr (by exact waits)), ← doc]
      rfl
    · rw [← seq, ← stands]
      exact comes (State.scanTakenPresent_of_idle (s := v true) doc seq)
  · have comes {u : State} (eq : (v false).scanTakenAbsent = u) : comesTo u :=
      (taken false reading).trans (congrArg (Host.Outcome.next ∘ State.finish) eq)
    refine ⟨fun doc => ?_, fun doc gone => ?_, fun doc there => ?_, fun offset doc seq => ?_, fun offset d doc seq => ?_,
      fun doc seq => ?_, fun offset n doc seq => ?_, fun cleared doc seq => ?_⟩
    · rw [← doc, ← stands]
      exact comes (State.scanTakenAbsent_of_loaded (s := v false) doc)
    · rw [← doc, ← stands]
      exact comes ((State.scanTakenAbsent_of_jammed (s := v false) doc).trans
        (if_neg (by rw [show (v false).entryPresent = false from gone]; exact Bool.false_ne_true)))
    · rw [← doc, ← stands]
      exact comes ((State.scanTakenAbsent_of_jammed (s := v false) doc).trans (if_pos there))
    · rw [← doc, ← stands]
      exact comes (State.scanTakenAbsent_of_align (s := v false) doc seq)
    · rw [← doc, ← stands]
      exact comes (State.scanTakenAbsent_of_seek (s := v false) doc seq)
    · rw [← doc, ← seq, ← stands]
      exact comes (State.scanTakenAbsent_of_settling (s := v false) doc seq)
    · rw [← doc, ← stands]
      exact comes (State.scanTakenAbsent_of_gapAlign (s := v false) doc seq)
    · rw [← doc]
      exact comes (State.scanTakenAbsent_of_eject (s := v false) doc seq)

/-- The first debounced state of a sensor (R63). -/
theorem State.firstReadings_cases {s : State} (clocked : s.clocked = true) (id : SensorId)
    (unknown : (s.feed.sensor id).known = false) (closed : id ≠ .cover ∨ (s.feed.sensor id).reading = false) :
    exec (.firstReadingsSteady id) s = .next
      (let t := s.onFeed (Feed.onSensor id fun x => ⟨x.reading, x.reading, none, true⟩)
      if ((id = .docEntry ∧ s.feed.docScan.known = true)
          ∨ (id = .docScan ∧ s.feed.docEntry.known = true)) ∧ s.feedHeld = false ∧ s.feed.doc = .none then
        if t.feed.docScan.debounced = true then (t.setDoc .jammed .powerOn 0).finish
        else if t.feed.docEntry.debounced = true then ((t.setDoc .settling .powerOn 0).startSettle).finish
        else t.finish
      else t.finish) := by
  let t := s.onFeed (Feed.onSensor id Sensor.takeReading)
  have lifts : t.firstDocument.finish = if s.feedHeld = false ∧ s.feed.doc = .none then
      if t.feed.docScan.debounced = true then (t.setDoc .jammed .powerOn 0).finish
      else if t.feed.docEntry.debounced = true then ((t.setDoc .settling .powerOn 0).startSettle).finish
      else t.finish
    else t.finish := by
    have held : t.feedHeld = s.feedHeld := rfl
    have doc : t.feed.doc = s.feed.doc := by
      cases id with
      | _ => rfl
    rw [State.firstDocument_eq, held, doc]
    simp only [apply_ite State.finish]
  refine (State.exec_firstReadingsSteady clocked unknown).trans (congrArg Host.Outcome.next ?_)
  show (t.firstTaken id s.feed).finish = _
  cases id with
  | cover =>
    have shut : ¬t.coverOpen = true := by
      rw [show t.coverOpen = false from closed.resolve_left (not_not.mpr rfl)]
      exact Bool.false_ne_true
    have stays : t.firstTaken .cover s.feed = t := if_neg shut
    rw [stays]
    exact (if_neg (by simp)).symm
  | paper =>
    have stays : t.firstTaken .paper s.feed = t := if_neg (by
      show ¬(s.feed.documentKnown && !s.feed.documentKnown) = true
      simp)
    rw [stays]
    exact (if_neg (by simp)).symm
  | docEntry =>
    have new : (t.feed.documentKnown && !s.feed.documentKnown) = s.feed.docScan.known := by
      show ((true && s.feed.docScan.known) && !(s.feed.docEntry.known && s.feed.docScan.known)) = _
      rw [show s.feed.docEntry.known = false from unknown]
      simp
    have acts : t.firstTaken .docEntry s.feed = if s.feed.docScan.known then t.firstDocument else t := by
      rw [← new]
      rfl
    rw [acts]
    by_cases known : s.feed.docScan.known = true
    · rw [if_pos known, lifts]
      refine if_congr ?_ rfl rfl
      simp [known]
    · rw [if_neg known]
      exact (if_neg (by simp [known])).symm
  | docScan =>
    have new : (t.feed.documentKnown && !s.feed.documentKnown) = s.feed.docEntry.known := by
      show ((s.feed.docEntry.known && true) && !(s.feed.docEntry.known && s.feed.docScan.known)) = _
      rw [show s.feed.docScan.known = false from unknown]
      simp
    have acts : t.firstTaken .docScan s.feed = if s.feed.docEntry.known then t.firstDocument else t := by
      rw [← new]
      rfl
    rw [acts]
    by_cases known : s.feed.docEntry.known = true
    · rw [if_pos known, lifts]
      refine if_congr ?_ rfl rfl
      simp [known]
    · rw [if_neg known]
      exact (if_neg (by simp [known])).symm

/-! ## The steps of a gap (R53) -/

section gap

variable {c : Channel} {cfg : ChannelSettings} {x : LineRun}

/-- The step of a line keeps the user, unless it has been told to go. -/
theorem Channel.stepLine_user (stays : c.releasing = false) : (c.stepLine cfg x).user = c.user := by
  have issued : (c.issue cfg.invert true).releasing = false := by
    rw [Channel.issue_eq]
    exact stays
  have user : (c.issue cfg.invert true).user = c.user := by rw [Channel.issue_eq]
  have halted : ((c.issue cfg.invert true).enterHolding cfg.holdTime).settleHolding.user = c.user := by
    rw [Channel.settleHolding_of_used (by exact issued)]
    exact user
  unfold Channel.stepLine
  dsimp only
  split
  · exact halted
  · split
    · exact user
    · split
      · exact user
      · unfold Channel.boundary
        dsimp only
        split
        · exact halted
        · split
          · exact user
          · exact user

variable {s : State}

/-- A step of a line run on DF: FDC counts it, the channel issues it, and FDC looks at its gap. -/
theorem State.exec_channelStep_line (held : s.held = false) (awake : s.power.state ≠ .sleep)
    (closed : s.feed.cover.debounced = false) (run : s.df.run = .line x) (state : s.df.state = .lineRun)
    (period : x.period ≠ none) {u : State} (counted : (s.onFeed Feed.countStep).gapGate = u) {y : LineRun}
    (run' : u.df.run = .line y) :
    exec (.channelStep .df) s = .next ({ u with df := u.df.stepLine u.cfg.df y } : State).gapTimeout.settle := by
  have due : (s.channel .df).stepDue = true := by
    show s.df.stepDue = true
    unfold Channel.stepDue
    rw [run]
    simpa using ⟨state, Option.isSome_iff_ne_none.mpr period⟩
  rw [State.exec_channelStep held awake closed due, show s.countDfStep .df = u from counted,
    State.issueStep_line (s := u) (ch := .df) run']
  rfl

theorem State.gapTimeout_of_seek {offset preload n : Nat} (seq : s.feed.seq = .gapSeek offset preload n) :
    s.gapTimeout = if preload ≤ n then s.jamScan .gapTimeout else s := by
  unfold State.gapTimeout
  rw [seq]

theorem State.gapTimeout_of_align {offset n : Nat} (seq : s.feed.seq = .gapAlign offset n) : s.gapTimeout = s := by
  unfold State.gapTimeout
  rw [seq]

theorem Feed.countStep_of_gapSeek {f : Feed} {offset preload n : Nat} (seq : f.seq = .gapSeek offset preload n) :
    f.countStep = { f with seq := .gapSeek offset preload (n + 1) } := by
  unfold Feed.countStep
  rw [seq]

theorem Feed.countStep_of_gapAlign {f : Feed} {offset n : Nat} (seq : f.seq = .gapAlign offset n) :
    f.countStep = { f with seq := .gapAlign offset (n + 1) } := by
  unfold Feed.countStep
  rw [seq]

theorem Feed.countStep_of_seek {f : Feed} {offset d : Nat} (seq : f.seq = .seek offset (some d)) :
    f.countStep = { f with seq := .seek offset (some (d + 1)) } := by
  unfold Feed.countStep
  rw [seq]

/-- A sequence whose steps are not counted. -/
theorem Feed.countStep_of_other {f : Feed} (seek : ∀ offset d, f.seq ≠ .seek offset (some d))
    (gapSeek : ∀ offset preload n, f.seq ≠ .gapSeek offset preload n) (gapAlign : ∀ offset n, f.seq ≠ .gapAlign offset n) :
    f.countStep = f := by
  unfold Feed.countStep
  split
  next offset d seq => exact absurd seq (seek offset d)
  next offset preload n seq => exact absurd seq (gapSeek offset preload n)
  next offset n seq => exact absurd seq (gapAlign offset n)
  · rfl

/-- The gating ordered of a run under way, and none waiting. -/
theorem Channel.setGating_of_lineRun (none_ : c.startWaiting = none) (run : c.run = .line x) (state : c.state = .lineRun) :
    c.setGating true = { c with run := .line { x with gatingChange := some true } } := by
  rw [Channel.setGating_of_run _ none_]
  unfold Channel.gateRun
  rw [run]
  exact if_neg (by simp [state])

/-- The step that follows the order of the gating: the run is told, or gates at its boundary. -/
theorem Channel.stepLine_of_gating (goes : x.stopOrdered = false) :
    (1 < x.stepsLeft → ∃ y : LineRun,
        (Channel.stepLine cfg { x with gatingChange := some true } c).run = .line y ∧ y.gatingChange = some true)
      ∧ (x.stepsLeft ≤ 1 → x.waiting = false → x.endOrdered = false →
        (Channel.stepLine cfg { x with gatingChange := some true } c).state = .lineHold
          ∧ ∃ y : LineRun, (Channel.stepLine cfg { x with gatingChange := some true } c).run = .line y
            ∧ y.gated = true) := by
  refine ⟨fun more => ?_, fun last done_ runs => ?_⟩
  · rw [Channel.stepLine_of_more (x := { x with gatingChange := some true }) goes more]
    exact ⟨_, rfl, rfl⟩
  · rw [Channel.stepLine_of_boundary (x := { x with gatingChange := some true }) goes last done_,
      Channel.boundary_of_gated (x := { x with gatingChange := some true, stepsLeft := _, period := none }) runs rfl]
    exact ⟨rfl, _, rfl, rfl⟩

end gap

/-- The steps and the ends of GAP (R53). -/
theorem State.gap_cases {s : State} {x : LineRun} (held : s.held = false) (awake : s.power.state ≠ .sleep)
    (closed : s.feed.cover.debounced = false) (run : s.df.run = .line x) (state : s.df.state = .lineRun)
    (period : x.period ≠ none) (stays : s.df.releasing = false) :
    (∀ offset preload n, s.feed.seq = .gapSeek offset preload n →
      (n + 1 < preload → ∃ t : State, exec (.channelStep .df) s = .next t.settle
        ∧ t.feed = { s.feed with seq := .gapSeek offset preload (n + 1) })
      ∧ (preload ≤ n + 1 → ∃ t : State, exec (.channelStep .df) s = .next (t.jamScan .gapTimeout).settle
        ∧ t.path = s.path ∧ t.df.user = s.df.user))
    ∧ (∀ offset n, s.feed.seq = .gapAlign offset n →
      ∃ t : State, exec (.channelStep .df) s = .next t.settle
        ∧ t.feed = { s.feed with seq := .gapAlign offset (n + 1) }
        ∧ (offset ≤ n + 1 → x.stopOrdered = false → s.df.startWaiting = none →
          (1 < x.stepsLeft → ∃ y : LineRun, t.df.run = .line y ∧ y.gatingChange = some true)
          ∧ (x.stepsLeft ≤ 1 → x.waiting = false → x.endOrdered = false →
            t.df.state = .lineHold ∧ ∃ y : LineRun, t.df.run = .line y ∧ y.gated = true))) := by
  refine ⟨fun offset preload n seq => ?_, fun offset n seq => ?_⟩
  · let u : State := { s with feed := { s.feed with seq := .gapSeek offset preload (n + 1) } }
    let t : State := { u with df := u.df.stepLine u.cfg.df x }
    have counted : (s.onFeed Feed.countStep).gapGate = u := by
      have feed : s.onFeed Feed.countStep = u := by
        unfold State.onFeed
        rw [Feed.countStep_of_gapSeek seq]
      rw [feed]
      exact State.gapGate_of_other (s := u) nofun
    have steps := State.exec_channelStep_line held awake closed run state period counted (y := x) run
    have looks : t.gapTimeout = if preload ≤ n + 1 then t.jamScan .gapTimeout else t :=
      State.gapTimeout_of_seek (s := t) rfl
    have user : t.df.user = s.df.user := Channel.stepLine_user (c := s.df) stays
    refine ⟨fun more => ⟨t, ?_, rfl⟩, fun over_ => ⟨t, ?_, rfl, user⟩⟩
    · rw [steps, looks, if_neg (Nat.not_le.mpr more)]
    · rw [steps, looks, if_pos over_]
  · let u : State := { s with feed := { s.feed with seq := .gapAlign offset (n + 1) } }
    have feed : s.onFeed Feed.countStep = u := by
      unfold State.onFeed
      rw [Feed.countStep_of_gapAlign seq]
    by_cases travelled : offset ≤ n + 1
    · let v : State := { u with df := u.df.setGating true }
      have counted : (s.onFeed Feed.countStep).gapGate = v := by
        rw [feed, State.gapGate_of_align (s := u) rfl, if_pos travelled]
        rfl
      obtain ⟨y, gated⟩ := (Channel.setGating_run (c := s.df) true).2 x run
      have steps := State.exec_channelStep_line held awake closed run state period counted (y := y) gated
      rw [State.gapTimeout_of_align (offset := offset) (n := n + 1) rfl] at steps
      refine ⟨_, steps, rfl, fun _ goes none_ => ?_⟩
      have ordered := Channel.setGating_of_lineRun none_ run state
      have same : y = { x with gatingChange := some true } := by
        rw [ordered] at gated
        exact (Run.line.inj gated).symm
      subst same
      exact Channel.stepLine_of_gating goes
    · have counted : (s.onFeed Feed.countStep).gapGate = u := by
        rw [feed, State.gapGate_of_align (s := u) rfl, if_neg travelled]
      have steps := State.exec_channelStep_line held awake closed run state period counted (y := x) run
      rw [State.gapTimeout_of_align (offset := offset) (n := n + 1) rfl] at steps
      exact ⟨_, steps, rfl, fun arrived => absurd arrived travelled⟩

/-- The end of a ramped move of FDC, by its sequence (R48, R49, R56). -/
theorem State.rampEnded_cases {s : State} {x : RampRun} (held : s.held = false) (awake : s.power.state ≠ .sleep)
    (closed : s.feed.cover.debounced = false) (run : s.df.run = .ramp x)
    (state : s.df.state = .ramping ∨ s.df.state = .stopping) (last : x.r ≤ 1 ∨ (x.stopOrdered = true ∧ x.a = 0))
    (user : s.df.user = some .feed) (stays : s.df.releasing = false) :
    let t := s.rampHeld x
    (∀ offset d, s.feed.seq = .seek offset (some d) →
      exec (.channelStep .df) s = .next (t.beginAlign offset (d + 1)).settle)
    ∧ (∀ offset, s.feed.seq = .seek offset none →
      exec (.channelStep .df) s = .next (t.enterJammed .preloadTimeout).settle)
    ∧ (∀ offset, s.feed.seq = .align offset →
      exec (.channelStep .df) s = .next (t.beginAlign offset offset).settle)
    ∧ (s.feed.seq = .eject false →
      exec (.channelStep .df) s = .next (t.enterJammed .notCleared).settle)
    ∧ (s.feed.seq = .eject true →
      exec (.channelStep .df) s = .next (((({ t with feed := { t.feed with seq := .none } } : State).onChannel .df
        (Channel.giveUp .feed (10 * s.cfg.df.holdCode))).enterNone .ejected).settle)) := by
  intro t
  have ends (feed : Feed) (counted : s.feed.countStep = feed) (other : ∀ offset n, feed.seq ≠ .gapAlign offset n)
      {u : State} (acts : ({ t with feed := feed } : State).feedRampEnded = u) :
      exec (.channelStep .df) s = .next u.settle := by
    have steps := State.exec_channelStep_of_last held awake closed run state (RampRun.ending_of_last last) user stays
      (by rw [counted]; exact other)
    rw [counted] at steps
    exact steps.trans (congrArg (Host.Outcome.next ∘ State.settle) acts)
  refine ⟨fun offset d seq => ?_, fun offset seq => ?_, fun offset seq => ?_, fun seq => ?_, fun seq => ?_⟩
  · refine ends _ (Feed.countStep_of_seek seq) nofun ?_
    exact State.beginAlign_of_seq (s := t) (.seek offset (some (d + 1))) offset (d + 1)
  · refine ends s.feed (Feed.countStep_of_other (by simp [seq]) (by simp [seq]) (by simp [seq])) (by simp [seq]) ?_
    unfold State.feedRampEnded
    rw [show ({ t with feed := s.feed } : State).feed.seq = .seek offset none from seq]
    rfl
  · refine ends s.feed (Feed.countStep_of_other (by simp [seq]) (by simp [seq]) (by simp [seq])) (by simp [seq]) ?_
    unfold State.feedRampEnded
    rw [show ({ t with feed := s.feed } : State).feed.seq = .align offset from seq,
      State.beginAlign_of_long (Nat.le_refl offset), Nat.sub_self]
    rfl
  · refine ends s.feed (Feed.countStep_of_other (by simp [seq]) (by simp [seq]) (by simp [seq])) (by simp [seq]) ?_
    unfold State.feedRampEnded
    rw [show ({ t with feed := s.feed } : State).feed.seq = .eject false from seq]
    rfl
  · refine ends s.feed (Feed.countStep_of_other (by simp [seq]) (by simp [seq]) (by simp [seq])) (by simp [seq]) ?_
    unfold State.feedRampEnded
    rw [show ({ t with feed := s.feed } : State).feed.seq = .eject true from seq]
    rfl

/-! ## The document enters JAMMED or NONE (R46, R53, R54, R57, R133) -/

section shown

variable {s : State} (cause : DocCause)

/-- The first report of a jam is that of JAMMED. -/
theorem State.jam_shows (room : s.link.outbound.length + s.link.reserved < 16) (few : s.link.reports < 15) :
    s.link.outbound ++ [⟨.report, 0xE3, 0, [DocState.jammed.code, cause.code, 0, 0]⟩]
      <+: (s.jam cause).link.outbound := by
  have first : s.link.outbound ++ [⟨.report, 0xE3, 0, [DocState.jammed.code, cause.code, 0, 0]⟩]
      <+: (s.link.report 0xE3 ([DocState.jammed.code, cause.code] ++ bytes2 0)).outbound := by
    rw [Link.report_outbound_of_room room few]
    exact List.prefix_rfl
  unfold State.jam
  dsimp only
  split
  · exact first
  · refine List.IsPrefix.trans ?_ ((Follows.refl (w := False) _).setDoc .none .cleared 0).leads.queue
    exact first

theorem State.enterJammed_feed : (s.enterJammed cause).feed = (s.jam cause).feed :=
  State.failWhere_feed _ _ _ (s.jam_doc_ne cause)

theorem State.jamScan_feed : (s.jamScan cause).feed = (s.jam cause).feed :=
  (State.failWhere_feed _ _ _ (by rw [State.enterJammed_feed]; exact s.jam_doc_ne cause)).trans (s.enterJammed_feed cause)

/-- A move that scans fails with its document, once (R133). -/
theorem State.jamScan_fails {m : Move} (mem : m ∈ s.moves) (scans : m.isScan = true) (flows : m.flowing = true)
    (distinct : (s.moves.map Move.id).Nodup) :
    (s.jamScan cause).move? m.id = some (m.ended .failed (some .docJam)) := by
  have moves : (s.jam cause).moves = s.moves := congrArg Path.moves (s.jam_path cause)
  have found : (s.jam cause).move? m.id = some m :=
    State.move?_of_mem (by rw [moves]; exact distinct) (by rw [moves]; exact mem)
  have kept : (s.enterJammed cause).move? m.id = some m := by
    refine State.failWhere_keeps found (.inr fun a there same => ?_)
    rw [State.eq_of_id distinct mem (moves ▸ there) same]
    rcases (Move.flowing_iff m).mp flows with runs | drains
    · simp [Move.scanStarting, runs]
    · simp [Move.scanStarting, drains]
  have live : m.live = true := by
    rcases (Move.flowing_iff m).mp flows with runs | drains
    · simp [Move.live, runs]
    · simp [Move.live, drains]
  exact State.failWhere_fails kept (by rw [scans, flows]; rfl) live

/-- The document gone, before the SCAN moves in STARTING fail. -/
def State.docGone (cause : DocCause) (s : State) : State :=
  let t := (s.onFeed fun f => { f with settle := .stopped, seq := .none }).setDoc .none cause 0
  if t.entryPresent then t.arrive else t

theorem State.docGone_feed : (s.docGone cause).feed.doc = (if s.feed.docEntry.debounced = true then .settling else .none)
    ∧ (s.docGone cause).feed.seq = .none := by
  have feed : ((s.onFeed fun f => { f with settle := .stopped, seq := .none }).setDoc .none cause 0).feed
      = { s.feed with settle := .stopped, seq := .none, doc := .none } := State.report_feed ..
  unfold State.docGone
  dsimp only
  unfold State.entryPresent
  rw [feed]
  dsimp only
  split
  · refine ⟨?_, ?_⟩
    · simp [State.arrive, State.startSettle, State.setDoc, State.reportDoc]
    · simp [State.arrive, State.startSettle, State.setDoc, State.reportDoc]
  · rw [feed]
    exact ⟨rfl, rfl⟩

theorem State.enterNone_feed : (s.enterNone cause).feed = (s.docGone cause).feed :=
  State.failWhere_feed _ _ _ (by
    show (s.docGone cause).feed.doc ≠ .scanning
    rw [(s.docGone_feed cause).1]
    split
    · exact nofun
    · exact nofun)

theorem State.enterNone_shows (room : s.link.outbound.length + s.link.reserved < 16) (few : s.link.reports < 15) :
    s.link.outbound ++ [⟨.report, 0xE3, 0, [DocState.none.code, cause.code, 0, 0]⟩]
      <+: (s.enterNone cause).link.outbound := by
  have first : s.link.outbound ++ [⟨.report, 0xE3, 0, [DocState.none.code, cause.code, 0, 0]⟩]
      <+: (s.link.report 0xE3 ([DocState.none.code, cause.code] ++ bytes2 0)).outbound := by
    rw [Link.report_outbound_of_room room few]
    exact List.prefix_rfl
  have gone : s.link.outbound ++ [⟨.report, 0xE3, 0, [DocState.none.code, cause.code, 0, 0]⟩]
      <+: (s.docGone cause).link.outbound := by
    unfold State.docGone
    dsimp only
    split
    · refine List.IsPrefix.trans ?_ (Follows.refl (w := False) _).arrive.leads.queue
      exact first
    · exact first
  exact gone.trans (State.failWhere_leads ..).queue

end shown

/-- The first DOC_ENTRY and the other commands of a sheet that waits (R47, R57). -/
theorem State.docEntry_cases {s : State} (held : s.held = false) (awake : s.power.state ≠ .sleep)
    (timer : s.feed.docEntry.timer ≠ none) (free : s.feedHeld = false) (scan : s.feed.docScan.known = true) :
    let t (present : Bool) : State := { s with feed := { s.feed with docEntry := ⟨present, present, none, true⟩ } }
    let comesTo (u : State) : Prop := exec (.debounceExpiry .docEntry) s = .next u.finish
    (s.feed.docEntry.reading = true → (s.feed.doc = .none → comesTo (t true).arrive)
      ∧ (s.feed.doc ≠ .none → comesTo (t true)))
    ∧ (s.feed.docEntry.reading = false →
      (s.feed.doc = .settling → comesTo (((t false).onChannel .df
        (Channel.giveUp .feed (10 * s.cfg.df.holdCode))).enterNone .removed))
      ∧ (s.feed.doc = .jammed → s.feed.docScan.debounced = false → comesTo ((t false).enterNone .cleared))
      ∧ (s.feed.doc = .jammed → s.feed.docScan.debounced = true → comesTo (t false))
      ∧ (s.feed.doc ≠ .settling → s.feed.doc ≠ .jammed → comesTo (t false))) := by
  intro t comesTo
  have taken := State.exec_docEntry (State.clocked_of held awake) timer free scan
  refine ⟨fun reading => ⟨fun doc => ?_, fun doc => ?_⟩, fun reading => ⟨fun doc => ?_, fun doc gone => ?_,
    fun doc there => ?_, fun settled clear => ?_⟩⟩
  · exact (taken true reading).trans (congrArg (Host.Outcome.next ∘ State.finish) (if_pos doc))
  · exact (taken true reading).trans (congrArg (Host.Outcome.next ∘ State.finish) (if_neg doc))
  · exact (taken false reading).trans (congrArg (Host.Outcome.next ∘ State.finish)
      (State.entryTakenAbsent_of_settling (s := t false) doc))
  · exact (taken false reading).trans (congrArg (Host.Outcome.next ∘ State.finish)
      ((State.entryTakenAbsent_of_jammed (s := t false) doc).trans
        (if_neg (by rw [show (t false).scanPresent = false from gone]; exact Bool.false_ne_true))))
  · exact (taken false reading).trans (congrArg (Host.Outcome.next ∘ State.finish)
      ((State.entryTakenAbsent_of_jammed (s := t false) doc).trans (if_pos there)))
  · exact (taken false reading).trans (congrArg (Host.Outcome.next ∘ State.finish)
      (State.entryTakenAbsent_of_other (s := t false) settled clear))

/-- FDC, become user of DF, begins its sequence (R47, R56). -/
theorem ruleFeedGranted_cases {s : State} (due : (s.df.usedBy .feed && s.df.ready && !s.feedHeld) = true) :
    (s.feed.doc = .settling → ruleFeedGranted s = some s.beginLoad)
      ∧ (s.feed.doc = .ejecting → s.feed.seq = .none → ruleFeedGranted s = some s.beginEject) := by
  refine ⟨fun doc => (if_pos ?_).trans (congrArg some (if_pos doc)), fun doc seq => (if_pos ?_).trans
    (congrArg some (if_neg ?_))⟩
  · rw [due, doc]
    rfl
  · rw [due, doc, seq]
    rfl
  · rw [doc]
    exact nofun

/-- A document that waits for its eject requests DF, once (R56). -/
theorem State.feedWants_of_ejecting {s : State} (doc : s.feed.doc = .ejecting) : s.feedWants = true ↔
    s.feedHeld = false ∧ ¬(s.df.user = some .feed ∧ s.df.releasing = false) ∧ .feed ∉ s.df.queue ∧ s.feed.seq = .none := by
  have asks : s.df.asks .feed = true ↔ (s.df.user = some .feed ∧ s.df.releasing = false) ∨ .feed ∈ s.df.queue := by
    unfold Channel.asks Channel.usedBy
    simp
  have unasked : (!s.df.asks .feed) = true ↔ ¬(s.df.user = some .feed ∧ s.df.releasing = false) ∧ .feed ∉ s.df.queue := by
    rw [Bool.not_eq_true', ← Bool.not_eq_true, asks, not_or]
  unfold State.feedWants
  rw [doc, Bool.and_eq_true, Bool.and_eq_true, unasked]
  simp [and_assoc]

/-- Settles O30. -/
theorem sensorsAndSheets : Obligations.SensorsAndSheets := by
  unfold Obligations.SensorsAndSheets
  refine ⟨fun s id level held awake => ⟨fun none_ changes => ?_, fun timer =>
      State.debounceExpiry_senses (State.clocked_of held awake) id timer⟩,
    fun s held awake => ⟨fun timer reading doc free _ scan => ?_, fun timer free _ scan => ?_, fun ms settle => ?_,
      fun id unknown closed => State.firstReadings_cases (State.clocked_of held awake) id unknown closed⟩,
    fun s user stays stopped none_ free => ⟨fun doc => ⟨fun there => ?_, fun gone => ?_⟩, fun doc seq => ?_⟩,
    fun s doc => ⟨fun seq free unasked absent => ?_, fun other => ?_⟩,
    fun s => ⟨fun offset n x seq run gated none_ => ?_, fun other => ?_⟩,
    fun s offset d => ⟨State.beginAlign_of_short, State.beginAlign_of_long⟩,
    fun s x held awake closed run state last user stays =>
      State.rampEnded_cases held awake closed run state last user stays,
    fun s held awake timer entry _ free off => State.docScan_cases held awake timer entry free off,
    fun s x held awake closed run state period stays => State.gap_cases held awake closed run state period stays,
    fun s cause => ?_⟩
  · rw [State.exec_sensorInputChange held awake none_ changes, State.formReading_setInput]
    rfl
  · exact ((State.docEntry_cases held awake timer free scan).1 reading).1 doc
  · obtain ⟨present, absent⟩ := State.docEntry_cases held awake timer free scan
    exact ⟨fun reading doc => (present reading).2 doc, absent⟩
  · refine congrArg Host.Outcome.next (if_pos ?_)
    rw [State.clocked_of held awake, settle]
    rfl
  · refine ((ruleFeedGranted_cases (State.feedGranted_due user stays stopped none_ free)).1 doc).trans (congrArg some ?_)
    exact if_pos there
  · refine ((ruleFeedGranted_cases (State.feedGranted_due user stays stopped none_ free)).1 doc).trans (congrArg some ?_)
    refine (if_neg ?_).trans rfl
    show ¬s.feed.docScan.debounced = true
    rw [gone]
    exact Bool.false_ne_true
  · exact (ruleFeedGranted_cases (State.feedGranted_due user stays stopped none_ free)).2 doc seq
  · exact if_pos ((State.feedWants_of_ejecting doc).mpr ⟨free, unasked, absent, seq⟩)
  · refine if_neg fun wants => ?_
    obtain ⟨free, unasked, absent, seq⟩ := (State.feedWants_of_ejecting doc).mp wants
    rcases other with begun | held | asked | queued
    · exact begun seq
    · rw [free] at held
      cases held
    · exact unasked asked
    · exact absent queued
  · rw [ruleGapOver_eq, if_pos ((State.gapOver_iff s).mpr ⟨⟨offset, n, seq⟩, ⟨x, run, gated⟩, none_⟩)]
  · rw [ruleGapOver_eq]
    refine if_neg fun over_ => ?_
    obtain ⟨⟨offset, n, seq⟩, ⟨x, run, gated⟩, none_⟩ := (State.gapOver_iff s).mp over_
    rcases other with no | free | waits
    · exact no offset n seq
    · rw [free x run] at gated
      cases gated
    · exact waits none_
  · intro sheet shown
    have doc : (s.jam cause).feed.doc = (if sheet then .jammed else .none) := by
      rw [State.jam_feed]
      refine if_congr ?_ rfl rfl
      exact Bool.or_eq_true_iff
    have seq : (s.jam cause).feed.seq = .none := by rw [State.jam_feed]
    have tail : (s.jam cause).feed.tail = none := by rw [State.jam_feed]
    obtain ⟨gone, rests⟩ := s.docGone_feed cause
    refine ⟨⟨?_, ?_, ?_, fun room few => ?_⟩, ⟨?_, ?_, ?_, fun room few => ?_, fun m mem scans flows distinct => ?_⟩, ?_, ?_,
      fun room few => State.enterNone_shows cause room few⟩
    · rw [State.enterJammed_feed, doc]
    · rw [State.enterJammed_feed, seq]
    · rw [State.enterJammed_feed, tail]
    · exact (State.jam_shows cause room few).trans (State.failWhere_leads ..).queue
    · rw [State.jamScan_feed, doc]
    · rw [State.jamScan_feed, seq]
    · rw [State.jamScan_feed, tail]
    · exact ((State.jam_shows cause room few).trans (State.failWhere_leads ..).queue).trans
        (State.failWhere_leads ..).queue
    · exact ⟨_, State.jamScan_fails cause mem scans flows distinct, rfl, rfl⟩
    · rw [State.enterNone_feed, gone]
    · rw [State.enterNone_feed, rests]

end Sys2Proof.Machine
end

section
/-! PROOFS. Segments are read and checked (R155, R156): the event, the lines of a segment, the lines handed, the end of
a read, and the move whose transfer comes next. -/

namespace Sys2Proof.Machine

/-! ## The lines of a segment -/

/-- A whole line at the head of a string of codes is its first line. -/
theorem splitLines_line {l : List Byte} (ended : l.getLast? = some 255) (inner : 255 ∉ l.dropLast) (begun rest : List Byte) :
    splitLines begun (l ++ rest) = ((begun ++ l) :: (splitLines [] rest).1, (splitLines [] rest).2) := by
  induction l generalizing begun with
  | nil => cases ended
  | cons b l ih =>
    cases l with
    | nil =>
      obtain rfl : b = 255 := by simpa using ended
      exact splitLines_of_end begun rest rfl
    | cons c l =>
      rw [List.dropLast_cons_cons, List.mem_cons, not_or] at inner
      have go : b.toNat ≠ 255 := fun same => inner.1 (by bv_omega)
      rw [List.cons_append, splitLines_of_inner _ _ go, ih (by simpa using ended) inner.2, List.append_assoc]
      rfl

/-- A string without an end-of-line byte is begun, and no line of it is complete. -/
theorem splitLines_tail {tail : List Byte} (none_ : 255 ∉ tail) (begun : List Byte) :
    splitLines begun tail = ([], begun ++ tail) := by
  induction tail generalizing begun with
  | nil => rw [List.append_nil]; rfl
  | cons b tail ih =>
    rw [List.mem_cons, not_or] at none_
    have go : b.toNat ≠ 255 := fun same => none_.1 (by bv_omega)
    rw [splitLines_of_inner _ _ go, ih none_.2, List.append_assoc]
    rfl

theorem splitLines_flatten_append {lines : List (List Byte)} {tail : List Byte}
    (whole : ∀ l ∈ lines, l.getLast? = some 255 ∧ 255 ∉ l.dropLast) (none_ : 255 ∉ tail) :
    splitLines [] (lines.flatten ++ tail) = (lines, tail) := by
  induction lines with
  | nil => exact splitLines_tail none_ []
  | cons l lines ih =>
    obtain ⟨⟨ended, inner⟩, others⟩ := List.forall_mem_cons.mp whole
    rw [List.flatten_cons, List.append_assoc, splitLines_line ended inner, ih others]
    rfl

theorem Reader.good_of_none {r : Reader} {continued : Bool} {data tail : List Byte} (parts : splitLines [] data = ([], tail)) :
    r.good continued data = { r with part := (if continued then r.part else some []).map fun p => p ++ tail } := by
  unfold Reader.good
  rw [parts]

theorem Reader.good_of_cons {r : Reader} {continued : Bool} {data tail l : List Byte} {more : List (List Byte)}
    (parts : splitLines [] data = (l :: more, tail)) : r.good continued data = { r with
      part := some tail
      lines := r.lines ++ ((if continued then r.part else some []).map fun p => p ++ l) :: more.map some } := by
  unfold Reader.good
  rw [parts]

theorem Reader.good_chain (r : Reader) (continued : Bool) (data : List Byte) : (r.good continued data).chain = r.chain := by
  cases parts : splitLines [] data with
  | mk lines tail =>
    cases lines with
    | nil => rw [Reader.good_of_none parts]
    | cons l more => rw [Reader.good_of_cons parts]

theorem Reader.fill_of_chain {r : Reader} (left : r.chain ≠ []) (lines : Nat) : r.fill lines = r :=
  if_neg (by rwa [List.isEmpty_iff])

theorem Reader.fill_of_end {r : Reader} (done_ : r.chain = []) (lines : Nat) : r.fill lines = { r with
    lines := r.lines ++ List.replicate (lines - (r.handed + r.lines.length)) none } := if_pos (List.isEmpty_iff.mpr done_)

theorem Reader.fill_chain (r : Reader) (lines : Nat) : (r.fill lines).chain = r.chain := by
  unfold Reader.fill
  split
  · rfl
  · rfl

theorem Reader.fill_page (r : Reader) (lines : Nat) : (r.fill lines).page = r.page := by
  unfold Reader.fill
  split
  · rfl
  · rfl

/-- A page without a segment is read at once, as white lines. -/
theorem Reader.fill_start (page : Nat) (chain : List Nat) (lines : Nat) : (Reader.start page chain).fill lines =
    { page := page
      chain := chain
      part := some []
      lines := if chain = [] then List.replicate lines none else []
      handed := 0
      white := 0 } := by
  cases chain with
  | nil => rfl
  | cons n chain => rfl

/-! ## The event -/

section event

variable {st : Store} {n : Nat} {h : UsedHeader}

theorem Store.readSegment_of_good (used : (st.memory.read n).header = .used h)
    (good : crc16 ((st.memory.read n).data.take h.bytes) = h.check ∧ ((st.memory.read n).data.take h.bytes).length = h.bytes)
    (r : Reader) : st.readSegment n r
      = (({ r with chain := r.chain.tail } : Reader).good h.continued ((st.memory.read n).data.take h.bytes), true) := by
  unfold Store.readSegment
  simp only [used]
  rw [if_pos good]

theorem Store.readSegment_of_bad (used : (st.memory.read n).header = .used h)
    (bad : ¬(crc16 ((st.memory.read n).data.take h.bytes) = h.check
      ∧ ((st.memory.read n).data.take h.bytes).length = h.bytes))
    (r : Reader) : st.readSegment n r = (({ r with chain := r.chain.tail } : Reader).bad h.lineEnds, false) := by
  unfold Store.readSegment
  simp only [used]
  rw [if_neg bad]

/-- The memory as the read of a segment finds it. -/
def Store.atRead (n : Nat) (upsets : List (Nat × Byte)) (st : Store) : Store := st.makeWrites.upset n upsets

/-- The lines of the page that a move reads. -/
def State.sourceLines (m : Move) (s : State) : Nat := ((s.sourcePage? m).map Page.lines).getD 0

/-- A segment of a move's page has been read, and the turn passes or not. -/
def State.segmentRead (m : Move) (chain : List Nat) (st : Store) (read : Reader) (s : State) : State :=
  ({ s with store := if read.lines = [] ∧ chain ≠ [] then st else { st with
      transfer := none
      turn := some m.id } } : State).onMove m.id fun m => { m with reader := some read }

variable {s : State} {m : Move} {r read : Reader} {chain : List Nat} {upsets : List (Nat × Byte)}

/-- The turn passes when the read has completed a line, or at the end of the chain. -/
theorem State.segmentRead_eq (left : read.chain = chain) (st : Store) :
    (let t := (s.onStore fun _ => st).onMove m.id fun m => { m with reader := some read }
     if read.lines.isEmpty && !read.chain.isEmpty then t else t.onStore (Store.endTransfer m.id))
      = s.segmentRead m chain st read := by
  have same : (read.lines.isEmpty && !read.chain.isEmpty) = true ↔ read.lines = [] ∧ chain ≠ [] := by
    rw [left, Bool.and_eq_true, Bool.not_eq_true', List.isEmpty_iff, ← Bool.not_eq_true, List.isEmpty_iff]
  unfold State.segmentRead
  by_cases waits : read.lines = [] ∧ chain ≠ []
  · rw [if_pos waits]
    exact if_pos (same.mpr waits)
  · rw [if_neg waits]
    exact if_neg (same.not.mpr waits)

theorem State.readSegment_of_good {got : Reader} (chain_ : r.chain = n :: chain)
    (good : (s.store.atRead n upsets).readSegment n r = (got, true)) (left : got.chain = chain) :
    s.readSegment m r upsets = s.segmentRead m chain (s.store.atRead n upsets) (got.fill (s.sourceLines m)) := by
  unfold State.readSegment
  rw [chain_]
  refine Eq.trans ?_ (State.segmentRead_eq ((Reader.fill_chain ..).trans left) _)
  have good' : ((s.onStore Store.makeWrites).onStore (Store.upset n upsets)).store.readSegment n r = (got, true) := good
  dsimp only
  rw [good']
  rfl

theorem State.readSegment_of_bad {got : Reader} (chain_ : r.chain = n :: chain)
    (bad : (s.store.atRead n upsets).readSegment n r = (got, false)) (left : got.chain = chain) :
    s.readSegment m r upsets = ((s.segmentRead m chain (s.store.atRead n upsets) (got.fill (s.sourceLines m))).onLink
      fun l => { l with sticky := { l.sticky with checkError := true } }).reportStore .checkError m.sourceDoc got.page := by
  unfold State.readSegment
  rw [chain_, ← State.segmentRead_eq ((Reader.fill_chain ..).trans left)]
  have bad' : ((s.onStore Store.makeWrites).onStore (Store.upset n upsets)).store.readSegment n r = (got, false) := bad
  dsimp only
  rw [bad', ← Reader.fill_page got (s.sourceLines m)]
  rfl

theorem State.exec_storeSegmentRead {id : Nat} (clocked : s.clocked = true) (turn : s.store.transfer = some id)
    (found : s.move? id = some m) (due : m.readDue = true) (reading : m.reader = some r) :
    exec (.storeSegmentRead upsets) s = .next (s.readSegment m r upsets).settle := by
  have serves : s.transferring? = some m := by
    unfold State.transferring?
    rw [turn]
    exact found
  show execStoreSegmentRead upsets s = _
  unfold execStoreSegmentRead
  simp only [serves, reading, clocked, due, Bool.and_self, if_true]

end event

/-! ## The end of a read -/

/-- The rewrite of a closed page's last segment is due with the attributes in force. -/
theorem Store.rewritePage_of_last {st : Store} {number index n : Nat} {d : Document} {p : Page} {h : UsedHeader}
    (found : st.doc? number = some d) (page : d.page? index = some p) (last : (st.chainOf p).getLast? = some n)
    (used : st.headerAt n = .used h) (closed : p.condition ≠ .opened) : st.rewritePage number index
      = { st with rewrites := st.rewrites ++ [(n, .used { h with last := some (lastAttrs d p) })] } := by
  unfold Store.rewritePage
  simp only [found, page, last, used, if_neg closed]

section endRead

variable {st : Store} {number index white : Nat} {d : Document} {p : Page}
  (found : st.doc? number = some d) (page : d.page? index = some p)
include found page

theorem Store.endRead_of_le (few : white ≤ p.damaged) : st.endRead number index white = st := by
  unfold Store.endRead
  simp only [found, Option.bind_some, page]
  exact if_neg (Nat.not_lt.mpr few)

/-- The damaged count of a page. -/
def Page.withDamaged (white : Nat) (p : Page) : Page := { p with damaged := white }

theorem Store.endRead_of_lt (more : p.damaged < white) : st.endRead number index white
    = (st.onDoc number (Document.onPage index (Page.withDamaged white))).rewritePage number index := by
  unfold Store.endRead
  simp only [found, Option.bind_some, page]
  exact if_pos more

theorem Store.endRead_raises (more : p.damaged < white) :
    let after := st.endRead number index white
    after.memory = st.memory ∧ st.rewrites <+: after.rewrites
      ∧ (∃ e, after.doc? number = some e ∧ e.page? index = some { p with damaged := white })
      ∧ ∀ n h, (st.chainOf p).getLast? = some n → st.headerAt n = .used h → p.condition ≠ .opened →
        ∃ attrs : LastAttrs, attrs.damaged = white ∧ attrs.lines = p.lines
          ∧ after.rewrites = st.rewrites ++ [(n, .used { h with last := some attrs })] := by
  intro after
  let raised := st.onDoc number (Document.onPage index (Page.withDamaged white))
  have after_eq : after = raised.rewritePage number index := Store.endRead_of_lt found page more
  have doc : raised.doc? number = some (d.onPage index (Page.withDamaged white)) := by
    refine (Store.doc?_onDoc_same (f := Document.onPage index (Page.withDamaged white)) (fun _ => rfl) number st).trans ?_
    rw [found]
    rfl
  have page' : (d.onPage index (Page.withDamaged white)).page? index = some (p.withDamaged white) := by
    refine (Document.page?_onPage_same (f := Page.withDamaged white) (fun _ => rfl) index d).trans ?_
    rw [page]
    rfl
  have rewrites : raised.Rewrites after := after_eq ▸ Store.rewritePage_rewrites number index raised
  refine ⟨rewrites.memory, rewrites.prefix, ⟨_, (rewrites.doc? number).trans doc, page'⟩,
    fun n h last used closed => ⟨lastAttrs (d.onPage index (Page.withDamaged white)) (p.withDamaged white), rfl, rfl, ?_⟩⟩
  have chain : raised.chainOf (p.withDamaged white) = st.chainOf p :=
    Store.chainFrom_congr st raised p.segments p.first fun _ _ => rfl
  rw [after_eq, Store.rewritePage_of_last doc page' (chain ▸ last) (by exact used) closed]
  rfl

end endRead

/-! ## A line read is handed -/

section hand

variable {s : State} {m n : Move} {r : Reader} {p : Page}

theorem State.source_of_sourcePage? (page : s.sourcePage? m = some p) : ∃ doc first count, m.source = .store doc first count := by
  unfold State.sourcePage? at page
  split at page
  next doc first count source => exact ⟨doc, first, count, source⟩
  · cases page

theorem State.sourceWidth_of_page (page : s.sourcePage? m = some p) : s.sourceWidth m = p.width := by
  obtain ⟨doc, first, count, source⟩ := State.source_of_sourcePage? page
  unfold State.sourceWidth
  rw [source, page]
  rfl

theorem State.sourceDensity_of_page (page : s.sourcePage? m = some p) : s.sourceDensity m = p.density := by
  obtain ⟨doc, first, count, source⟩ := State.source_of_sourcePage? page
  unfold State.sourceDensity
  rw [source, page]
  rfl

/-- A reader whose first line has been handed. -/
def Reader.handedOne (missing : Nat) (r : Reader) : Reader := { r with
  lines := r.lines.tail
  handed := r.handed + 1
  white := r.white + missing }

/-- The record of a move that is handed a line read. -/
def Move.handedRead (head slot : Nat) (density : Density) (read : RawLine × Bool) (last : Bool) (r : Reader) (missing : Nat)
    (m : Move) : Move :=
  let n := (m.countRepair read.2).enter head slot density read.1 last
  { n with
    reader := some (r.handedOne missing)
    counters := { n.counters with damaged := n.counters.damaged + missing } }

/-- The line is decoded at its page's width, or white. -/
def readDots (width : Nat) : ReadLine → RawLine × Bool
  | none => (List.replicate width false, false)
  | some coded => decodeLine width coded

theorem Move.countRepair_keeps (repaired : Bool) (m : Move) : let n := m.countRepair repaired
    n.state = m.state ∧ n.srcPage = m.srcPage ∧ n.source = m.source ∧ n.id = m.id := by
  rw [Move.countRepair_eq]
  exact ⟨rfl, rfl, rfl, rfl⟩

theorem Move.handedRead_keeps (head slot : Nat) (density : Density) (read : RawLine × Bool) (last : Bool) (r : Reader)
    (missing : Nat) (m : Move) : let n := m.handedRead head slot density read last r missing
    n.state = m.state ∧ n.srcPage = m.srcPage ∧ n.source = m.source ∧ n.id = m.id := by
  obtain ⟨state, page, source, id⟩ := m.countRepair_keeps read.2
  obtain ⟨-, -, -, state', source', -, page', id'⟩ :=
    Move.enter_keeps (m := m.countRepair read.2) (head := head) (slot := slot) (density := density) (dots := read.1)
      (pageEnd := last)
  exact ⟨state'.trans state, page'.trans page, source'.trans source, id'.trans id⟩

theorem State.handLine_eq (page : s.sourcePage? m = some p) (line : ReadLine) :
    let last := decide (p.lines ≤ r.handed + 1)
    let missing := if line = none then 1 else 0
    s.handLine m r line =
      let t := s.onMove m.id (Move.handedRead s.headWidth s.freeSlot p.density (readDots p.width line) last r missing)
      if last then t.pageRead m (r.handedOne missing) else t := by
  unfold State.handLine
  rw [State.sourceWidth_of_page page, State.sourceDensity_of_page page, page]
  cases line with
  | none => rfl
  | some coded => rfl

/-- A move with the reading of a page. -/
def Move.withReader (reader : Option Reader) (m : Move) : Move := { m with reader := reader }

theorem State.startReading_of_none {id : Nat} (found : s.move? id = some m) (page : s.sourcePage? m = none) :
    s.startReading id = s := by
  unfold State.startReading
  simp only [found, page]

theorem State.startReading_of_page {id : Nat} (found : s.move? id = some m) (page : s.sourcePage? m = some p) :
    s.startReading id
      = s.onMove id (Move.withReader (some ((Reader.start p.index (s.store.chainOf p)).fill p.lines))) := by
  unfold State.startReading
  simp only [found, page]
  rfl

/-- The reading of the page that a move has come to. -/
theorem State.startReading_spec {id : Nat} (found : s.move? id = some m) : (s.startReading id).store = s.store
    ∧ ∃ reader, (s.startReading id).move? id = some (m.withReader reader)
      ∧ ∀ q, s.sourcePage? m = some q → reader = some ((Reader.start q.index (s.store.chainOf q)).fill q.lines) := by
  cases page : s.sourcePage? m with
  | none =>
    rw [State.startReading_of_none found page]
    exact ⟨rfl, m.reader, found, nofun⟩
  | some q =>
    rw [State.startReading_of_page found page]
    refine ⟨rfl, some ((Reader.start q.index (s.store.chainOf q)).fill q.lines), ?_, fun q' same => ?_⟩
    · exact (State.move?_onMove (f := Move.withReader _) fun _ => rfl).trans (congrArg _ found)
    · cases same
      rfl

theorem State.sourcePage?_of_store {t : State} (same : t.store = s.store) (m : Move) :
    t.sourcePage? m = s.sourcePage? m := by
  unfold State.sourcePage?
  rw [same]

/-- The read of a page ends with the move at the next page named, or at the end of its source. -/
theorem State.pageRead_spec (found : s.move? m.id = some n) (r : Reader) :
    let t := s.pageRead m r
    t.store = s.store.endRead m.sourceDoc r.page r.white
      ∧ (m.srcPage < m.sourcePages → ∃ reader,
        t.move? m.id = some ((n.nextSourcePage s.headerLines).withReader reader)
          ∧ ∀ q, t.sourcePage? (n.nextSourcePage s.headerLines) = some q →
            reader = some ((Reader.start q.index (t.store.chainOf q)).fill q.lines))
      ∧ (m.sourcePages ≤ m.srcPage → t.move? m.id = some { n with state := .draining, reader := none }) := by
  intro t
  let u := s.onStore (Store.endRead m.sourceDoc r.page r.white)
  by_cases more : m.srcPage < m.sourcePages
  · let v := u.onMove m.id (Move.nextSourcePage s.headerLines)
    have goes : t = v.startReading m.id := if_pos more
    have found' : v.move? m.id = some (n.nextSourcePage s.headerLines) :=
      (State.move?_onMove (s := u) (f := Move.nextSourcePage s.headerLines) fun _ => rfl).trans (congrArg _ found)
    obtain ⟨store, reader, stands, reads⟩ := State.startReading_spec found'
    refine ⟨goes ▸ store, fun _ => ⟨reader, goes ▸ stands, ?_⟩, fun done_ => absurd more (Nat.not_lt.mpr done_)⟩
    rw [goes, State.sourcePage?_of_store store, store]
    exact reads
  · have goes : t = u.onMove m.id fun m => { m with state := .draining, reader := none } := if_neg more
    rw [goes]
    refine ⟨rfl, fun more' => absurd more' more, fun _ => ?_⟩
    exact (State.move?_onMove (s := u) (f := fun m => { m with state := .draining, reader := none }) fun _ => rfl).trans
      (congrArg _ found)

/-- The move that is handed a line read, and what the last line of its page brings about. -/
theorem State.handLine_spec (found : s.move? m.id = some m) (page : s.sourcePage? m = some p) (line : ReadLine) :
    let last := decide (p.lines ≤ r.handed + 1)
    let missing := if line = none then 1 else 0
    let left := r.handedOne missing
    let t := s.handLine m r line
    ∃ k, k = m.handedRead s.headWidth s.freeSlot p.density (readDots p.width line) last r missing
      ∧ (last = false → t.move? m.id = some k ∧ t.store = s.store)
      ∧ (last = true → t.store = s.store.endRead m.sourceDoc r.page left.white
        ∧ (m.srcPage < m.sourcePages → ∃ reader,
          t.move? m.id = some ((k.nextSourcePage s.headerLines).withReader reader)
            ∧ ∀ q, t.sourcePage? (k.nextSourcePage s.headerLines) = some q →
              reader = some ((Reader.start q.index (t.store.chainOf q)).fill q.lines))
        ∧ (m.sourcePages ≤ m.srcPage → t.move? m.id = some { k with state := .draining, reader := none })) := by
  intro last missing left t
  let f := Move.handedRead s.headWidth s.freeSlot p.density (readDots p.width line) last r missing
  have found' : (s.onMove m.id f).move? m.id = some (f m) :=
    (State.move?_onMove (f := f) fun a => (a.handedRead_keeps ..).2.2.2).trans (congrArg _ found)
  have goes : t = if last = true then (s.onMove m.id f).pageRead m left else s.onMove m.id f := State.handLine_eq page line
  refine ⟨f m, rfl, fun inside => ?_, fun ends => ?_⟩
  · rw [goes, inside, if_neg Bool.false_ne_true]
    exact ⟨found', rfl⟩
  · rw [goes, if_pos ends]
    exact State.pageRead_spec found' left

/-- A line read waits in a move. -/
abbrev Move.HasLine (m : Move) : Prop := m.state = .running ∧ m.headerLeft = 0 ∧ 0 < m.room
  ∧ ∃ r, m.reader = some r ∧ r.lines ≠ []

theorem Move.lineWaiting_iff (m : Move) : m.lineWaiting = true ↔ m.HasLine := by
  unfold Move.lineWaiting Move.HasLine
  cases m.reader with
  | none => simp
  | some r => simp [and_assoc]

theorem ruleHandLine_of_oldest {line : ReadLine} {more : List ReadLine} (found : s.move? m.id = some m)
    (waits : m.HasLine) (oldest : ∀ n ∈ s.moves, n.HasLine → m.id ≤ n.id) (reading : m.reader = some r)
    (lines : r.lines = line :: more) : ruleHandLine s = some (s.handLine m r line) := by
  unfold ruleHandLine State.forMove
  rw [State.oldestMove?_eq_some found (m.lineWaiting_iff.mpr waits) fun n mem h => oldest n mem (n.lineWaiting_iff.mp h)]
  simp only [Option.map_some, reading, lines, List.head?_cons, Option.getD_some]

theorem ruleHandLine_of_none (none_ : ∀ n ∈ s.moves, ¬n.HasLine) : ruleHandLine s = none := by
  unfold ruleHandLine State.forMove
  rw [State.oldestMove?_eq_none fun n mem => Bool.eq_false_iff.mpr fun h => none_ n mem (n.lineWaiting_iff.mp h)]
  rfl

end hand

/-! ## The transfer that comes next (R155) -/

theorem sortNat_eq_insertionSort (l : List Nat) : sortNat l = l.insertionSort (· ≤ ·) := by
  have insert (n : Nat) (l : List Nat) : insertNat n l = l.orderedInsert (· ≤ ·) n := by
    induction l with
    | nil => rfl
    | cons a l ih =>
      unfold insertNat
      rw [List.orderedInsert_cons, ih]
  induction l with
  | nil => rfl
  | cons a l ih =>
    rw [List.insertionSort_cons, ← ih, ← insert]
    rfl

theorem pairwise_sortNat (l : List Nat) : (sortNat l).Pairwise (· ≤ ·) := by
  rw [sortNat_eq_insertionSort]
  exact List.pairwise_insertionSort _ l

/-- The first of a rising list's numbers with a property is the least with it. -/
theorem find?_le_of_rising {l : List Nat} (rising : l.Pairwise (· ≤ ·)) {p : Nat → Bool} {a b : Nat}
    (first : l.find? p = some a) (mem : b ∈ l) (has : p b = true) : a ≤ b := by
  obtain ⟨-, before, after, eq, skips⟩ := List.find?_eq_some_iff_append.mp first
  rw [eq, List.pairwise_append] at rising
  rw [eq, List.mem_append, List.mem_cons] at mem
  obtain mem | rfl | mem := mem
  · have skip := skips b mem
    rw [has] at skip
    cases skip
  · exact le_rfl
  · exact (List.pairwise_cons.mp rising.2.1).1 b mem

theorem head?_le_of_rising {l : List Nat} (rising : l.Pairwise (· ≤ ·)) {a b : Nat} (first : l.head? = some a)
    (mem : b ∈ l) : a ≤ b := by
  cases l with
  | nil => cases mem
  | cons c l =>
    cases first
    obtain rfl | mem := List.mem_cons.mp mem
    · exact le_rfl
    · exact (List.pairwise_cons.mp rising).1 b mem

/-- The next of a rising list after a place, or the first again. -/
theorem turn_of_rising {l : List Nat} (rising : l.Pairwise (· ≤ ·)) {turn id : Nat}
    (next : ((l.find? fun i => decide (turn < i)).orElse fun _ => l.head?) = some id) :
    id ∈ l ∧ ∀ n ∈ l, (turn < id → turn < n → id ≤ n) ∧ (id ≤ turn → n ≤ turn ∧ id ≤ n) := by
  cases later : l.find? fun i => decide (turn < i) with
  | some i =>
    rw [later] at next
    cases next
    have past : turn < id := by simpa using List.find?_some later
    exact ⟨List.mem_of_find?_eq_some later, fun n mem =>
      ⟨fun _ late => find?_le_of_rising rising later mem (decide_eq_true late), fun early => by omega⟩⟩
  | none =>
    rw [later] at next
    have first : l.head? = some id := next
    have early (n : Nat) (mem : n ∈ l) : n ≤ turn := by simpa using List.find?_eq_none.mp later n mem
    have mem := List.mem_of_head? first
    exact ⟨mem, fun n mem' => ⟨fun late => absurd (early id mem) (Nat.not_le.mpr late),
      fun _ => ⟨early n mem', head?_le_of_rising rising first mem'⟩⟩⟩

section transfer

variable {s : State}

/-- The moves whose transfer is due, oldest first. -/
def State.dueIds (s : State) : List Nat := s.moveIds fun m => m.writeDue || m.readDue

theorem State.mem_dueIds (s : State) (n : Nat) :
    n ∈ s.dueIds ↔ ∃ m ∈ s.moves, (m.writeDue = true ∨ m.readDue = true) ∧ m.id = n := by
  unfold State.dueIds
  rw [State.mem_moveIds]
  simp only [Bool.or_eq_true]

theorem State.nextTransfer?_of_none (turn : s.store.turn = none) : s.nextTransfer? = s.dueIds.head? := by
  unfold State.nextTransfer?
  rw [turn]
  rfl

theorem State.nextTransfer?_of_turn {t : Nat} (turn : s.store.turn = some t) :
    s.nextTransfer? = (s.dueIds.find? fun id => decide (t < id)).orElse fun _ => s.dueIds.head? := by
  unfold State.nextTransfer?
  rw [turn]
  rfl

theorem State.nextTransfer?_mem {id : Nat} (next : s.nextTransfer? = some id) : id ∈ s.dueIds
    ∧ ∀ n ∈ s.dueIds, (s.store.turn = none → id ≤ n) ∧ ∀ turn, s.store.turn = some turn →
      (turn < id → turn < n → id ≤ n) ∧ (id ≤ turn → n ≤ turn ∧ id ≤ n) := by
  have rising : s.dueIds.Pairwise (· ≤ ·) := pairwise_sortNat _
  cases served : s.store.turn with
  | none =>
    rw [State.nextTransfer?_of_none served] at next
    exact ⟨List.mem_of_head? next, fun n mem => ⟨fun _ => head?_le_of_rising rising next mem, nofun⟩⟩
  | some t =>
    rw [State.nextTransfer?_of_turn served] at next
    obtain ⟨mem, least⟩ := turn_of_rising rising next
    refine ⟨mem, fun n mem' => ⟨nofun, fun turn same => ?_⟩⟩
    cases same
    exact least n mem'

theorem State.nextTransfer?_eq_none_iff : s.nextTransfer? = none ↔ s.dueIds = [] := by
  cases served : s.store.turn with
  | none => rw [State.nextTransfer?_of_none served, List.head?_eq_none_iff]
  | some t =>
    rw [State.nextTransfer?_of_turn served]
    cases due : s.dueIds with
    | nil => simp
    | cons a l => cases later : (a :: l).find? fun id => decide (t < id) with
      | none => simp
      | some i => simp

theorem State.beginTransfer_of_line {m : Move} {l : SlotLine} {rest : List SlotLine} {doc : Nat}
    (found : s.move? m.id = some m) (due : m.writeDue = true) (queue : m.queue = l :: rest)
    (sink : m.sinkDoc? = some doc) : s.beginTransfer m.id = (s.onStore Store.takeWrites).takeLine m l doc := by
  unfold State.beginTransfer
  have found' : (s.onStore Store.takeWrites).move? m.id = some m := found
  simp only [found', due, if_true, queue, List.head?_cons, sink]

theorem State.beginTransfer_of_read {m : Move} (found : s.move? m.id = some m) (due : m.writeDue = false) :
    s.beginTransfer m.id = (s.onStore Store.takeWrites).onStore fun st => { st with transfer := some m.id } := by
  unfold State.beginTransfer
  have found' : (s.onStore Store.takeWrites).move? m.id = some m := found
  simp only [found', due, Bool.false_eq_true, if_false]

end transfer

/-- Settles O53. -/
theorem segmentsAreReadAndChecked : Obligations.SegmentsAreReadAndChecked := by
  unfold Obligations.SegmentsAreReadAndChecked
  refine ⟨fun s id m r upsets n chain h held awake turn found due reading chain_ => ?_,
    fun r continued lines tail whole none_ => ?_, fun r lines => ⟨fun left => Reader.fill_of_chain left lines,
      fun done_ => Reader.fill_of_end done_ lines⟩, fun s m r line more p found lines page => ?_,
    fun s m => ⟨fun r line more found waits oldest reading lines =>
      ruleHandLine_of_oldest found waits oldest reading lines, ruleHandLine_of_none⟩,
    fun st number index white d p found page => ⟨Store.endRead_of_le found page, Store.endRead_raises found page⟩,
    fun s id => ⟨fun next => ?_, ?_⟩, fun s => ⟨fun free unchecked allowed => ?_, fun busy => ?_⟩,
    fun s m found => ⟨fun l rest doc due queue sink => State.beginTransfer_of_line found due queue sink,
      State.beginTransfer_of_read found⟩⟩
  · intro made st used data lines t
    have goes := State.exec_storeSegmentRead (upsets := upsets) (State.clocked_of held awake) turn found due reading
    have used' : ((s.store.atRead n upsets).memory.read n).header = .used h := used
    refine ⟨fun same whole => ?_, fun bad => ?_⟩
    · have read := Store.readSegment_of_good used' ⟨same, whole⟩ r
      rw [goes, State.readSegment_of_good chain_ read ((Reader.good_chain ..).trans (congrArg List.tail chain_)),
        chain_]
      rfl
    · have read := Store.readSegment_of_bad used' (fun good => bad.elim (· good.1) (· good.2)) r
      rw [goes, State.readSegment_of_bad chain_ read (congrArg List.tail chain_), chain_]
      rfl
  · intro part
    have parts := splitLines_flatten_append whole none_
    refine ⟨fun empty => ?_, fun l others eq => ?_⟩
    · rw [empty] at parts
      exact Reader.good_of_none parts
    · rw [eq] at parts
      rw [eq]
      exact Reader.good_of_cons parts
  · intro last read entered missing left after
    have left_eq : r.handedOne missing = left := by
      show ({ r with lines := r.lines.tail, handed := _, white := _ } : Reader) = _
      rw [lines]
      rfl
    have read_eq : readDots p.width line = read := by
      cases line with
      | none => rfl
      | some coded => rfl
    obtain ⟨k, handed, inside, ends⟩ := State.handLine_spec (r := r) found page line
    have k_eq : k = { entered with
        reader := some left
        counters := { entered.counters with damaged := entered.counters.damaged + missing } } := by
      rw [handed, read_eq, ← left_eq]
      rfl
    obtain ⟨state, srcPage, -, -⟩ : k.state = m.state ∧ k.srcPage = m.srcPage ∧ k.source = m.source ∧ k.id = m.id := by
      rw [handed]
      exact m.handedRead_keeps ..
    have queue : k.queue = entered.queue := by rw [k_eq]
    have merge : k.merge = entered.merge := by rw [k_eq]
    have counters : k.counters = { entered.counters with damaged := entered.counters.damaged + missing } := by rw [k_eq]
    have reader : k.reader = some left := by rw [k_eq]
    by_cases final : last = true
    · obtain ⟨store, further, done_⟩ := ends final
      have stays : last ≠ false := by simp [final]
      have store' : after.store = s.store.endRead m.sourceDoc r.page left.white := by
        rw [← left_eq]
        exact store
      by_cases another : m.srcPage < m.sourcePages
      · obtain ⟨reading, stands, reads⟩ := further another
        refine ⟨_, stands, queue, merge, counters, fun inner => absurd inner stays, fun _ => ⟨store',
          fun _ => ⟨state, congrArg (· + 1) srcPage, fun q next => ?_⟩,
          fun over_ => absurd another (Nat.not_lt.mpr over_)⟩⟩
        exact (reads q next).trans (congrArg some (Reader.fill_start ..))
      · exact ⟨_, done_ (Nat.not_lt.mp another), queue, merge, counters, fun inner => absurd inner stays,
          fun _ => ⟨store', fun another' => absurd another' another, fun _ => ⟨rfl, rfl⟩⟩⟩
    · obtain ⟨stands, store⟩ := inside (Bool.eq_false_iff.mpr final)
      exact ⟨k, stands, queue, merge, counters, fun _ => ⟨reader, state, srcPage, store⟩,
        fun final' => absurd final' final⟩
  · obtain ⟨mem, least⟩ := State.nextTransfer?_mem next
    obtain ⟨m, mem', due, rfl⟩ := (State.mem_dueIds ..).mp mem
    exact ⟨m, mem', rfl, due, fun n mem_n due_n => least n.id ((State.mem_dueIds ..).mpr ⟨n, mem_n, due_n, rfl⟩)⟩
  · rw [State.nextTransfer?_eq_none_iff, List.eq_nil_iff_forall_not_mem]
    refine ⟨fun none_ m mem due => none_ m.id ((State.mem_dueIds ..).mpr ⟨m, mem, due, rfl⟩), fun none_ n mem => ?_⟩
    obtain ⟨m, mem', due, -⟩ := (State.mem_dueIds ..).mp mem
    exact none_ m mem' due
  · unfold ruleTransfer
    rw [free, unchecked, allowed]
    rfl
  · refine if_neg fun may => ?_
    simp only [Bool.and_eq_true, Option.isNone_iff_eq_none, Bool.not_eq_true'] at may
    obtain ⟨⟨free, unchecked⟩, allowed⟩ := may
    obtain busy | busy | busy := busy
    · exact busy free
    · exact busy unchecked
    · rw [allowed] at busy
      cases busy


end Sys2Proof.Machine
end

section
/-! PROOFS. RESET (R43, R63, R144, R194 to R196): every move aborted, both channels stopped, and the document state set
when both have come to rest. -/

namespace Sys2Proof.Machine

theorem State.Leads.hand {s t : State} (leads : s.Leads t) : t.link.hand = s.link.hand := congrArg Kept.hand leads.kept

/-! ## Every move is aborted (R144) -/

section abort

variable {s : State} {m : Move}

theorem State.endMove_aborted_feed (s : State) (id : Nat) : (s.endMove id .aborted none true).feed = s.feed :=
  State.endMove_cases (P := fun t => t.feed = s.feed) _ _ true rfl fun m st _ _ => by
    simp [State.reportMoveDone, State.retire]

theorem State.endMove_aborted_channel (s : State) (id : Nat) (ch : ChannelId) :
    (s.endMove id .aborted none true).channel ch = s.channel ch :=
  State.endMove_cases (P := fun t => t.channel ch = s.channel ch) _ _ true rfl fun m st _ _ => by
    rw [if_pos rfl, State.reportMoveDone_channel, State.retire_channel]

/-- What the abort of a move keeps, the abort of them all keeps. -/
theorem State.abortAll_induct {P : State → Prop} (start : P s) (step : ∀ t id, P t → P (t.endMove id .aborted none true)) :
    P s.abortAll := by
  unfold State.abortAll
  induction s.moveIds Move.live generalizing s with
  | nil => exact start
  | cons id ids ih => exact ih (step s id start)

theorem State.abortAll_feed (s : State) : s.abortAll.feed = s.feed :=
  State.abortAll_induct (P := fun t => t.feed = s.feed) rfl fun t id same => (t.endMove_aborted_feed id).trans same

theorem State.abortAll_channel (s : State) (ch : ChannelId) : s.abortAll.channel ch = s.channel ch :=
  State.abortAll_induct (P := fun t => t.channel ch = s.channel ch) rfl fun t id same =>
    (t.endMove_aborted_channel id ch).trans same

theorem State.abortAll_scan (s : State) : s.abortAll.scan = s.scan :=
  State.abortAll_induct (P := fun t => t.scan = s.scan) rfl fun t id same => (t.endMove_scan id _ _ _).trans same

theorem State.abortAll_power (s : State) : s.abortAll.power = s.power :=
  State.abortAll_induct (P := fun t => t.power = s.power) rfl fun t id same => (t.endMove_power id _ _ _).trans same

/-- The record of a move that RESET has aborted. -/
def Move.abortedIfLive (m : Move) : Move := if m.live then m.ended .aborted none else m

theorem Move.abortedIfLive_not_live (m : Move) : m.abortedIfLive.live = false := by
  unfold Move.abortedIfLive
  cases live : m.live with
  | false => exact live
  | true => rfl

theorem Move.abortedIfLive_of_not_live (ended : m.live = false) : m.abortedIfLive = m := by
  unfold Move.abortedIfLive
  rw [ended]
  rfl

theorem State.abortMoves_move? (s : State) (ids : List Nat) (n : Nat) :
    (ids.foldl (fun s id => s.endMove id .aborted none true) s).move? n
      = if n ∈ ids then (s.move? n).map Move.abortedIfLive else s.move? n := by
  induction ids generalizing s with
  | nil => rfl
  | cons id ids ih =>
    have once : (s.endMove id .aborted none true).move? n
        = if n = id then (s.move? n).map Move.abortedIfLive else s.move? n := State.endMove_move? ..
    rw [List.foldl_cons, ih, once]
    by_cases own : n = id
    · have again : Move.abortedIfLive ∘ Move.abortedIfLive = Move.abortedIfLive :=
        funext fun m => Move.abortedIfLive_of_not_live m.abortedIfLive_not_live
      rw [if_pos own, if_pos (List.mem_cons.mpr (.inl own)), Option.map_map, again, ite_self]
    · rw [if_neg own]
      simp only [List.mem_cons, own, false_or]

theorem State.abortAll_move? (s : State) (n : Nat) : s.abortAll.move? n = (s.move? n).map Move.abortedIfLive := by
  refine (s.abortMoves_move? (s.moveIds Move.live) n).trans ?_
  split
  · rfl
  next other =>
    cases found : s.move? n with
    | none => rfl
    | some m =>
      obtain ⟨mem, own⟩ := State.move?_mem found
      have ended : m.live = false := by
        by_contra live
        exact other ((State.mem_moveIds ..).mpr ⟨m, mem, by simpa using live, own⟩)
      rw [Option.map_some, Move.abortedIfLive_of_not_live ended]

/-- The MOVE_DONE of a move that RESET aborts. -/
def Move.abortReport (m : Move) : OutRecord := ⟨.report, 0xE1, 0, moveRecord (m.ended .aborted none)⟩

/-- The moves of a list are aborted one after another, each with its MOVE_DONE. -/
theorem State.abortMoves_link {live : List Move} (distinct : (live.map Move.id).Nodup)
    (found : ∀ m ∈ live, s.move? m.id = some m ∧ m.live = true)
    (room : s.link.outbound.length + s.link.reserved + live.length ≤ 16) (few : s.link.reports + live.length ≤ 15) :
    ((live.map Move.id).foldl (fun s id => s.endMove id .aborted none true) s).link
      = s.link.told (live.map Move.abortReport) := by
  induction live generalizing s with
  | nil => simp [Link.told]
  | cons m live ih =>
    rw [List.length_cons] at room few
    obtain ⟨own, others⟩ := List.nodup_cons.mp distinct
    obtain ⟨⟨found_m, live_m⟩, found_others⟩ := List.forall_mem_cons.mp found
    obtain ⟨st, ends, -⟩ := State.endMove_of_live .aborted none found_m live_m
    have link : (s.endMove m.id .aborted none true).link = s.link.told [m.abortReport] := by
      rw [ends]
      exact Link.report_of_room (l := s.link) (by omega) (by omega) 0xE1 _
    have reports : (s.link.told [m.abortReport]).reports = s.link.reports + 1 :=
      Link.reports_told fun r mem => by rw [List.mem_singleton.mp mem]; rfl
    have length : (s.link.told [m.abortReport]).outbound.length = s.link.outbound.length + 1 := List.length_append
    have reserved : (s.link.told [m.abortReport]).reserved = s.link.reserved := rfl
    rw [List.map_cons, List.foldl_cons, ih others (fun n mem => ?_) (by rw [link]; omega) (by rw [link]; omega), link]
    · simp [Link.told]
    · obtain ⟨found_n, live_n⟩ := found_others n mem
      have other : n.id ≠ m.id := fun same => own (same ▸ List.mem_map_of_mem mem)
      exact ⟨(State.endMove_move? ..).trans ((if_neg other).trans found_n), live_n⟩

theorem nodup_sortNat {l : List Nat} (distinct : l.Nodup) : (sortNat l).Nodup := by
  rw [sortNat_eq_insertionSort]
  exact (List.perm_insertionSort _ l).nodup_iff.mpr distinct

/-- The moves that have not ended, in acceptance order. -/
theorem State.moveIds_live (distinct : (s.moves.map Move.id).Nodup) {live : List Move}
    (rising : live.Pairwise fun a b => a.id < b.id) (mem : ∀ m, m ∈ live ↔ m ∈ s.moves ∧ m.live = true) :
    s.moveIds Move.live = live.map Move.id := by
  have rising' : (live.map Move.id).Pairwise (· < ·) := List.pairwise_map.mpr rising
  have once : (s.moveIds Move.live).Nodup :=
    nodup_sortNat (distinct.sublist (List.filter_sublist.map Move.id))
  have same (n : Nat) : n ∈ s.moveIds Move.live ↔ n ∈ live.map Move.id := by
    rw [State.mem_moveIds, List.mem_map]
    simp only [mem, and_assoc]
  exact ((List.perm_ext_iff_of_nodup once (rising'.imp ne_of_lt)).mpr same).eq_of_pairwise
    (fun a b _ _ => Nat.le_antisymm) (pairwise_sortNat _) (rising'.imp le_of_lt)

end abort

/-! ## The channels stop (R32, R33, R43) -/

section stop

variable {c : Channel} {hold : Nat}

theorem Channel.startHold_keeps (c : Channel) : c.startHold.position = c.position ∧ c.startHold.user = c.user
    ∧ c.startHold.queue = c.queue ∧ c.startHold.startWaiting = c.startWaiting
    ∧ (c.startHold.state = c.state ∨ c.state = .holding ∧ c.startHold.state = .idle) := by
  unfold Channel.startHold
  split_ifs with holding latched
  · exact ⟨rfl, rfl, rfl, rfl, .inr ⟨holding, rfl⟩⟩
  · exact ⟨rfl, rfl, rfl, rfl, .inl rfl⟩
  · exact ⟨rfl, rfl, rfl, rfl, .inl rfl⟩

/-- A channel that no one requests becomes free when its user leaves it. -/
theorem Channel.passOn_of_none (unasked : c.queue = []) : c.passOn = { c with user := none, releasing := false }.startHold := by
  unfold Channel.passOn
  rw [unasked]

/-- The channel with its start waiting and its queue gone. -/
def Channel.dropped (c : Channel) : Channel := { c with queue := [], startWaiting := none }

theorem Channel.resetStop_of_rest (rest : c.state = .idle ∨ c.state = .holding) : c.resetStop hold
    = if c.user.isSome then { c.dropped with user := none, releasing := false }.startHold else c.dropped := by
  have free : c.dropped.passOn = { c.dropped with user := none, releasing := false }.startHold := Channel.passOn_of_none rfl
  rw [← free]
  cases c
  dsimp only at rest
  obtain rfl | rfl := rest
  · rfl
  · rfl

theorem Channel.resetStop_of_line (line : c.state = .lineRun ∨ c.state = .lineHold) : c.resetStop hold
    = { ({ c.dropped with releasing := true }.enterHolding hold) with user := none, releasing := false }.startHold := by
  have free : ({ c.dropped with releasing := true }.enterHolding hold).settleHolding
      = { ({ c.dropped with releasing := true }.enterHolding hold) with user := none, releasing := false }.startHold :=
    (if_pos ⟨rfl, rfl⟩).trans (Channel.passOn_of_none rfl)
  rw [← free]
  cases c
  dsimp only at line
  obtain rfl | rfl := line
  · rfl
  · rfl

theorem Channel.resetStop_of_moving (state : c.state = .ramping ∨ c.state = .stopping) :
    c.resetStop hold = { c.dropped with releasing := true }.stopRamp := by
  cases c
  dsimp only at state
  obtain rfl | rfl := state
  · rfl
  · rfl

theorem Channel.resetStop_of_ramp {x : RampRun} (state : c.state = .ramping ∨ c.state = .stopping)
    (run : c.run = .ramp x) : c.resetStop hold = { c.dropped with
      releasing := true
      run := .ramp { x with stopOrdered := x.stopOrdered || decide (c.state = .ramping) } } := by
  rw [Channel.resetStop_of_moving state]
  obtain ramping | stopping := state
  · simp [ramping, run, Channel.stopRamp, Channel.dropped]
  · simp [stopping, run, Channel.stopRamp, Channel.dropped]

theorem Channel.stopRamp_place (c : Channel) : c.stopRamp.position = c.position ∧ c.stopRamp.queue = c.queue
    ∧ c.stopRamp.startWaiting = c.startWaiting := by
  unfold Channel.stopRamp
  split
  · split
    · exact ⟨rfl, rfl, rfl⟩
    · exact ⟨rfl, rfl, rfl⟩
  · exact ⟨rfl, rfl, rfl⟩

theorem Channel.resetStop_fault (fault : c.state = .fault) : c.resetStop hold = c.dropped := by
  cases c
  dsimp only at fault
  subst fault
  rfl

/-- No step is lost, and nobody waits for the channel. -/
theorem Channel.resetStop_keeps (c : Channel) (hold : Nat) : (c.resetStop hold).position = c.position
    ∧ (c.resetStop hold).queue = [] ∧ (c.resetStop hold).startWaiting = none := by
  have rest (state : c.state = .idle ∨ c.state = .holding) : (c.resetStop hold).position = c.position
      ∧ (c.resetStop hold).queue = [] ∧ (c.resetStop hold).startWaiting = none := by
    rw [Channel.resetStop_of_rest state]
    split
    · obtain ⟨position, -, queue, waiting, -⟩ := Channel.startHold_keeps { c.dropped with user := none, releasing := false }
      exact ⟨position, queue, waiting⟩
    · exact ⟨rfl, rfl, rfl⟩
  have line (state : c.state = .lineRun ∨ c.state = .lineHold) : (c.resetStop hold).position = c.position
      ∧ (c.resetStop hold).queue = [] ∧ (c.resetStop hold).startWaiting = none := by
    rw [Channel.resetStop_of_line state]
    obtain ⟨position, -, queue, waiting, -⟩ := Channel.startHold_keeps
      { ({ c.dropped with releasing := true }.enterHolding hold) with user := none, releasing := false }
    exact ⟨position, queue, waiting⟩
  have ramp (state : c.state = .ramping ∨ c.state = .stopping) : (c.resetStop hold).position = c.position
      ∧ (c.resetStop hold).queue = [] ∧ (c.resetStop hold).startWaiting = none := by
    rw [Channel.resetStop_of_moving state]
    exact Channel.stopRamp_place { c.dropped with releasing := true }
  cases state : c.state with
  | idle => exact rest (.inl state)
  | holding => exact rest (.inr state)
  | lineRun => exact line (.inl state)
  | lineHold => exact line (.inr state)
  | ramping => exact ramp (.inl state)
  | stopping => exact ramp (.inr state)
  | fault =>
    rw [Channel.resetStop_fault state]
    exact ⟨rfl, rfl, rfl⟩

/-- What a RESET makes of a channel, by the state it finds it in. -/
theorem Channel.resetStop_spec (c : Channel) (hold : Nat) :
    let d := c.resetStop hold
    d.queue = [] ∧ d.startWaiting = none
      ∧ (c.state = .fault → d.state = .fault)
      ∧ (c.state = .idle → d.state = .idle ∧ d.user = none)
      ∧ (c.state = .holding ∨ c.state = .lineRun ∨ c.state = .lineHold →
        (d.state = .holding ∨ d.state = .idle) ∧ d.user = none)
      ∧ (∀ x, c.state = .ramping ∨ c.state = .stopping → c.run = .ramp x →
        d.state = c.state ∧ d.releasing = true
        ∧ d.run = .ramp { x with stopOrdered := x.stopOrdered || decide (c.state = .ramping) }) := by
  intro d
  obtain ⟨-, queue, waiting⟩ := c.resetStop_keeps hold
  have rest (at_ : c.state = .idle ∨ c.state = .holding) :
      d.user = none ∧ (d.state = c.state ∨ c.state = .holding ∧ d.state = .idle) := by
    have eq : d = _ := Channel.resetStop_of_rest at_
    split at eq
    · rw [eq]
      obtain ⟨-, user, -, -, state⟩ := Channel.startHold_keeps { c.dropped with user := none, releasing := false }
      exact ⟨user, state⟩
    next unused =>
      rw [eq]
      exact ⟨Option.not_isSome_iff_eq_none.mp unused, .inl rfl⟩
  refine ⟨queue, waiting, fun fault => ?_, fun idle => ?_, fun at_ => ?_, fun x at_ run => ?_⟩
  · exact (congrArg Channel.state (Channel.resetStop_fault fault)).trans fault
  · obtain ⟨user, same | ⟨holding, -⟩⟩ := rest (.inl idle)
    · exact ⟨same.trans idle, user⟩
    · rw [idle] at holding
      cases holding
  · obtain holding | line := at_
    · obtain ⟨user, same | ⟨-, idle⟩⟩ := rest (.inr holding)
      · exact ⟨.inl (same.trans holding), user⟩
      · exact ⟨.inr idle, user⟩
    · have eq : d = _ := Channel.resetStop_of_line line
      rw [eq]
      obtain ⟨-, user, -, -, same | ⟨-, idle⟩⟩ := Channel.startHold_keeps
        { ({ c.dropped with releasing := true }.enterHolding hold) with user := none, releasing := false }
      · exact ⟨.inl same, user⟩
      · exact ⟨.inr idle, user⟩
  · have eq : d = _ := Channel.resetStop_of_ramp at_ run
    rw [eq]
    exact ⟨rfl, rfl, rfl⟩

end stop

/-! ## The document once the channels have stopped (R63) -/

/-- Two reports, each with its condition, where the queue has room for both. -/
theorem Link.report_outbound_twice {l : Link} (room : l.outbound.length + l.reserved < 15) (few : l.reports < 14)
    (a b : Prop) [Decidable a] [Decidable b] (type type' : Byte) (payload payload' : List Byte) :
    let told := if a then l.report type payload else l
    (if b then told else told.report type' payload').outbound = l.outbound
      ++ (if a then [⟨.report, type, 0, payload⟩] else []) ++ (if b then [] else [⟨.report, type', 0, payload'⟩]) := by
  intro told
  obtain ⟨rs, all, short, eq, first⟩ : ∃ rs : List OutRecord, (∀ r ∈ rs, r.kind = .report) ∧ rs.length ≤ 1
      ∧ (if a then [⟨.report, type, 0, payload⟩] else []) = rs ∧ told = l.told rs := by
    by_cases raised : a
    · refine ⟨[⟨.report, type, 0, payload⟩], fun r mem => ?_, Nat.le_refl 1, if_pos raised, (if_pos raised).trans ?_⟩
      · rw [List.mem_singleton.mp mem]
      · exact Link.report_of_room (by omega) (by omega) type payload
    · exact ⟨[], nofun, Nat.zero_le 1, if_neg raised, (if_neg raised).trans (by rw [Link.told, List.append_nil])⟩
  have length : (l.told rs).outbound.length = l.outbound.length + rs.length := List.length_append
  have reserved : (l.told rs).reserved = l.reserved := rfl
  have reports := Link.reports_told (l := l) all
  rw [eq, first, Link.report_of_room (by omega) (by omega)]
  split
  · exact (List.append_nil _).symm
  · rfl

section after

variable (s : State)

/-- The mechanism stops, and the stopping phase begins. -/
def State.resetWork (full : Bool) (s : State) : State := { s.cancelWork.resetChannels with resetPhase := .stopping full }

theorem State.resetWork_channel (full : Bool) (s : State) (ch : ChannelId) :
    (s.resetWork full).channel ch = (s.channel ch).resetStop (s.channelCfg ch).holdTime := by
  cases ch with
  | df => rfl
  | rf => rfl

theorem State.setDocAfterReset_eq : s.setDocAfterReset = { s with
    feed := { s.feed with
      doc := s.docAfterReset
      settle := if s.docAfterReset = .settling then (if s.cfg.feed.settleCode = 0 then .expired
        else .running (10 * s.cfg.feed.settleCode)) else s.feed.settle }
    link := if s.docAfterReset = s.feed.doc then s.link
      else s.link.report 0xE3 [s.docAfterReset.code, 18, 0, 0] } := by
  unfold State.setDocAfterReset
  dsimp only
  by_cases same : s.docAfterReset = s.feed.doc
  · rw [if_pos same, if_pos same, same]
    split
    · rfl
    · rfl
  · rw [if_neg same, if_neg same]
    split
    · rfl
    · rfl

theorem State.paperChanged_eq (f : Feed) : s.paperChanged f = { s with
    link := if s.feed.paper.debounced ≠ f.paper.debounced ∨ s.feed.cover.debounced ≠ f.cover.debounced then
      s.link.report 0xE4 [markByte s.feed.paper.debounced, markByte s.feed.cover.debounced] else s.link } := by
  unfold State.paperChanged
  by_cases same : s.feed.paper.debounced = f.paper.debounced ∧ s.feed.cover.debounced = f.cover.debounced
  · rw [if_pos same, if_neg fun changed => changed.elim (· same.1) (· same.2)]
  · rw [if_neg same, if_pos (Decidable.not_and_iff_not_or_not.mp same)]
    rfl

variable {s}

/-- The end of the stopping phase under FULL: what it returns, what it takes from the sensors, and what it tells. -/
theorem State.resetStopped_full (s : State) :
    let doc : DocState :=
      if s.inputs.sns = true then (if s.feed.doc = .loaded then .loaded else .jammed)
      else if s.inputs.sne = true then .settling else .none
    let told := if s.inputs.snp ≠ s.feed.paper.debounced ∨ s.inputs.snc ≠ s.feed.cover.debounced then
      s.link.report 0xE4 [markByte s.inputs.snp, markByte s.inputs.snc] else s.link
    s.resetStopped true = { s with
      resetPhase := .rebuilding
      cfg := Settings.powerOn s.straps
      path := { s.path with header := none }
      scan := { s.scan with table := List.replicate s.headWidth 63 }
      feed := { s.feed with
        docEntry := ⟨s.inputs.sne, s.inputs.sne, none, true⟩
        docScan := ⟨s.inputs.sns, s.inputs.sns, none, true⟩
        paper := ⟨s.inputs.snp, s.inputs.snp, none, true⟩
        cover := ⟨s.inputs.snc, s.inputs.snc, none, true⟩
        doc := doc
        settle := if doc = .settling then .running 300 else s.feed.settle }
      link := if doc = s.feed.doc then told else told.report 0xE3 [doc.code, 18, 0, 0] } := by
  intro doc told
  show ((s.fullFeedReset.paperChanged s.feed).setDocAfterReset).fullReset = _
  rw [State.paperChanged_eq, State.setDocAfterReset_eq]
  rfl

theorem State.exec_resetStopped {full : Bool} (clocked : s.clocked = true) (df : s.df.stopped = true)
    (rf : s.rf.stopped = true) (phase : s.resetPhase = .stopping full) :
    exec .resetStopped s = .next (s.resetStopped full).finish := by
  show execResetStopped s = _
  unfold execResetStopped
  simp only [phase, clocked, df, rf, Bool.and_self, if_true]

theorem State.resetWork_keeps (full : Bool) (s : State) :
    let t := s.resetWork full
    t.resetPhase = .stopping full ∧ t.link = s.link ∧ t.path = s.path
      ∧ t.scan = { s.scan with capture := .idle, lineCounter := 0 }
      ∧ t.print = ⟨.empty, .idle, .none⟩
      ∧ t.feed = { s.feed with settle := .stopped, seq := .none, tail := none, tailSkip := false }
      ∧ t.cfg = s.cfg ∧ t.power = s.power := by
  simp [State.resetWork, State.resetChannels, State.cancelWork, Print.drop]

/-- What the effect of a RESET is on every part, before anything follows. -/
theorem State.resetWork_abortAll (full : Bool) (s : State) :
    let t := s.abortAll.resetWork full
    t.resetPhase = .stopping full ∧ t.link = s.abortAll.link ∧ t.path = s.abortAll.path
      ∧ t.scan = { s.scan with capture := .idle, lineCounter := 0 }
      ∧ t.print = ⟨.empty, .idle, .none⟩
      ∧ t.feed = { s.feed with settle := .stopped, seq := .none, tail := none, tailSkip := false }
      ∧ t.cfg = s.cfg ∧ t.power = s.power
      ∧ ∀ ch, ∃ hold, t.channel ch = (s.channel ch).resetStop hold := by
  intro t
  obtain ⟨phase, link, path, scan, print, feed, cfg, power⟩ := s.abortAll.resetWork_keeps full
  rw [s.abortAll_scan] at scan
  rw [s.abortAll_feed] at feed
  rw [(State.abortAll_follows (w := False) s).leads.cfg] at cfg
  rw [s.abortAll_power] at power
  refine ⟨phase, link, path, scan, print, feed, cfg, power, fun ch => ⟨(s.abortAll.channelCfg ch).holdTime, ?_⟩⟩
  rw [← s.abortAll_channel ch]
  exact State.resetWork_channel full s.abortAll ch

theorem answerReset_of_bad {kind rsv : Byte} (bad : 1 < kind.toNat ∨ rsv ≠ 0) :
    answerReset kind rsv = .refuse .badValue := by
  unfold answerReset
  cases mark : markOf kind with
  | none => rfl
  | some full =>
    have small : ¬1 < kind.toNat := fun large => by
      rw [markOf_eq_none large] at mark
      cases mark
    exact if_pos (bad.resolve_left small)

theorem answerReset_of_good {kind rsv : Byte} (small : kind.toNat ≤ 1) (clear : rsv = 0) :
    answerReset kind rsv = .late (State.beginReset (kind == 1)) := by
  unfold answerReset
  rw [markOf_eq_some small]
  exact if_neg (not_not.mpr clear)

/-- Settles O59. -/
theorem resetStopsAndReturns : Obligations.ResetStopsAndReturns := by
  unfold Obligations.ResetStopsAndReturns
  refine ⟨fun s tag kind rsv hs => ?_, fun s running awake df rf => ⟨fun tag rsv phase hand => ?_, fun phase => ?_⟩,
    fun s => ?_⟩
  · let i : Instr := .reset tag kind rsv
    refine ⟨fun bad => hs.refuses i rfl trivial (answerReset_of_bad bad), fun small clear => ?_⟩
    have late := hs.answeredLate i _ rfl trivial (frameStatement i) (answerReset_of_good small clear)
    let u := s.inHand ⟨0x23, tag, [kind, rsv]⟩
    obtain ⟨phase, link, path, scan, print, feed, cfg, power, channel⟩ := u.resetWork_abortAll (kind == 1)
    have leads : u.Leads u.abortAll := (State.abortAll_follows (w := False) u).leads
    have record (n : Nat) : (u.abortAll.resetWork (kind == 1)).move? n = (s.move? n).map Move.abortedIfLive := by
      unfold State.move? State.moves
      rw [path]
      exact u.abortAll_move? n
    refine ⟨u.abortAll.resetWork (kind == 1), late, phase, ?_, fun id m found => ?_, fun distinct => ⟨fun m mem => ?_,
      fun live rising all room => ?_⟩, ?_, ?_, print, ?_, ?_, ?_, cfg, power, ?_, fun ch => ?_, fun ch => ?_⟩
    · rw [link]
      exact leads.hand
    · rw [record] at found
      obtain ⟨n, -, rfl⟩ := Option.map_eq_some_iff.mp found
      exact n.abortedIfLive_not_live
    · rw [record, State.move?_of_mem distinct mem]
      rfl
    · have ids := State.moveIds_live (s := u) distinct rising all
      have reports : s.link.reports ≤ s.link.outbound.length := List.length_filter_le ..
      have told := State.abortMoves_link (s := u) (live := live)
        ((List.pairwise_map.mpr rising).imp ne_of_lt)
        (fun m mem => ⟨State.move?_of_mem distinct ((all m).mp mem).1, ((all m).mp mem).2⟩)
        (show s.link.outbound.length + 1 + live.length ≤ 16 by omega)
        (show s.link.reports + live.length ≤ 15 by omega)
      rw [link, State.abortAll, ids, told]
      rfl
    · rw [scan]
    · rw [scan]
    · rw [feed]
    · rw [feed]
    · rw [feed]
      rfl
    · rw [scan]
      rfl
    · obtain ⟨hold, eq⟩ := channel ch
      rw [eq]
      exact ((u.channel ch).resetStop_keeps hold).1
    · obtain ⟨hold, eq⟩ := channel ch
      rw [eq]
      exact (u.channel ch).resetStop_spec hold
  · intro t
    refine (State.exec_resetStopped (State.clocked_of running awake) df rf phase).trans ?_
    have leads : s.Leads s.setDocAfterReset := (State.setDocAfterReset_follows (w := False) (s := s)).leads
    have hand' : t.link.hand = some ⟨⟨0x23, tag, [0, rsv]⟩, .handed⟩ := leads.hand.trans hand
    exact congrArg (fun l => Host.Outcome.next (State.finish { t with link := l })) (Link.answerLate_of_handed hand' _)
  · have goes := State.exec_resetStopped (State.clocked_of running awake) df rf phase
    rw [State.resetStopped_full] at goes
    refine ⟨_, goes, rfl, rfl, rfl, rfl, rfl, rfl, rfl, rfl, ?_⟩
    intro doc changed
    refine ⟨rfl, rfl, fun room few => ?_⟩
    exact Link.report_outbound_twice room few _ _ 0xE4 0xE3 _ _
  · intro doc t
    rw [State.setDocAfterReset_eq, show s.docAfterReset = doc from rfl]
    by_cases same : doc = s.feed.doc
    · rw [show t = s from if_pos same, if_pos same, same]
      split
      · rfl
      · rfl
    · rw [show t = _ from if_neg same, if_neg same]
      split
      · rfl
      · rfl

end after

end Sys2Proof.Machine
end

section
/-! PROOFS. The open page of a document, the bytes of a line in its segments, and the allocation of segments (R145 to
R147, R151, R153, R154): what each operation of the store does and what it leaves. -/

namespace Sys2Proof.Machine

/-! ## Open pages and page records -/

section pages

variable {st : Store}

theorem Store.openPage?_setOpenPage (o : OpenPage) (n : Nat) (st : Store) : (st.setOpenPage o).openPage? n
    = if n = o.doc then (st.openPage? n).map fun _ => o else st.openPage? n := by
  have same (x : OpenPage) : ((if x.doc = o.doc then o else x).doc == n) = (x.doc == n) := by
    split
    next own => rw [own]
    · rfl
  refine (find?_map_of_keeps same st.openPages).trans ?_
  show (st.openPage? n).map _ = _
  cases found : st.openPage? n with
  | none => simp
  | some x =>
    have own : x.doc = n := by simpa using List.find?_some found
    simp only [Option.map_some, own]
    split
    · rfl
    · rfl

theorem Store.openPage?_setOpenPage_same {o x : OpenPage} (found : st.openPage? o.doc = some x) :
    (st.setOpenPage o).openPage? o.doc = some o := by
  rw [Store.openPage?_setOpenPage, if_pos rfl, found]
  rfl

theorem Store.openPage?_doc {doc : Nat} {o : OpenPage} (found : st.openPage? doc = some o) : o.doc = doc := by
  simpa using List.find?_some found

theorem Store.openPage?_of_openPages {u : Store} (same : u.openPages = st.openPages) (n : Nat) :
    u.openPage? n = st.openPage? n := by
  unfold Store.openPage?
  rw [same]

/-- The record of one page changes. -/
def Store.onPage (doc index : Nat) (f : Page → Page) (st : Store) : Store := st.onDoc doc (Document.onPage index f)

theorem Store.onPage_doc? {f : Page → Page} {doc index : Nat} {d : Document} (found : st.doc? doc = some d) :
    (st.onPage doc index f).doc? doc = some (d.onPage index f) := by
  refine (Store.doc?_onDoc_same (f := Document.onPage index f) (fun _ => rfl) doc st).trans ?_
  rw [found]
  rfl

theorem Document.onPage_page? {f : Page → Page} (keeps : ∀ p, (f p).index = p.index) {index : Nat} {d : Document}
    {p : Page} (page : d.page? index = some p) : (d.onPage index f).page? index = some (f p) := by
  rw [Document.page?_onPage_same keeps, page]
  rfl

theorem Store.onPage_found {f : Page → Page} (keeps : ∀ p, (f p).index = p.index) {doc index : Nat} {d : Document}
    {p : Page} (found : st.doc? doc = some d) (page : d.page? index = some p) :
    ∃ e, (st.onPage doc index f).doc? doc = some e ∧ e.page? index = some (f p) :=
  ⟨d.onPage index f, Store.onPage_doc? found, Document.onPage_page? keeps page⟩

end pages

/-! ## Header and data of a segment -/

section memory

variable {m : PageMemory}

/-- A header of a USED segment is written over what stands there, and the data bytes stay. -/
theorem PageMemory.writeHeader_used (n : Nat) (h : UsedHeader) (m : PageMemory) :
    m.writeHeader n (.used h) = m.write n ⟨.used h, (m.read n).data⟩ := by
  unfold PageMemory.writeHeader Segment.withHeader
  rw [if_neg (by simp)]

theorem PageMemory.read_write_same (wf : m.wf = true) (n : Nat) (seg : Segment) : PageMemory.read n (m.write n seg) = seg := by
  rw [PageMemory.read_write _ _ _ _ wf, if_pos rfl]

theorem Store.appendData_of_seg {o : OpenPage} {n : Nat} (seg : o.seg = some n) (bytes : List Byte) (st : Store) :
    st.appendData o bytes = { st with
      memory := st.memory.write n ⟨(st.memory.read n).header, (st.memory.read n).data ++ bytes⟩ } := by
  unfold Store.appendData
  rw [seg]

theorem Store.appendData_of_none {o : OpenPage} (seg : o.seg = none) (bytes : List Byte) (st : Store) :
    st.appendData o bytes = st := by
  unfold Store.appendData
  rw [seg]

theorem Store.openRoom_of_seg {o : OpenPage} {n : Nat} (seg : o.seg = some n) (st : Store) :
    st.openRoom o = 2032 - (st.memory.read n).data.length := by
  unfold Store.openRoom Store.openBytes
  rw [seg]
  rfl

theorem Store.openRoom_of_none {o : OpenPage} (seg : o.seg = none) (st : Store) : st.openRoom o = 0 := by
  unfold Store.openRoom
  rw [seg]

theorem Store.closeSegment_of_seg {o : OpenPage} {n : Nat} (seg : o.seg = some n) (next : Nat) (st : Store) :
    st.closeSegment o next = { st with
      memory := st.memory.writeHeader n (Store.headerOf o (st.memory.read n).data (some next) none)
      map := mapSet n (.used o.doc o.index o.seq (some next)) st.map } := by
  unfold Store.closeSegment
  rw [seg]

theorem Store.closeSegment_of_none {o : OpenPage} (seg : o.seg = none) (next : Nat) (st : Store) :
    st.closeSegment o next = st := by
  unfold Store.closeSegment
  rw [seg]

end memory

/-! ## The bytes of a line (R147, R153) -/

theorem Store.appendData_keeps (o : OpenPage) (bytes : List Byte) (st : Store) :
    (st.appendData o bytes).directory = st.directory ∧ (st.appendData o bytes).openPages = st.openPages := by
  unfold Store.appendData
  split
  · exact ⟨rfl, rfl⟩
  · exact ⟨rfl, rfl⟩

theorem Store.takeSegment_keeps (n : Nat) (o : OpenPage) (split : Bool) (st : Store) :
    (st.takeSegment n o split).2.directory = st.directory ∧ (st.takeSegment n o split).2.openPages = st.openPages
      ∧ (st.takeSegment n o split).1.doc = o.doc ∧ (st.takeSegment n o split).1.index = o.index := by
  refine ⟨?_, ?_, rfl, rfl⟩
  · show ((st.openSegment n (o.into n split)).closeSegment o n).directory = _
    unfold Store.closeSegment
    split
    · rfl
    · rfl
  · show ((st.openSegment n (o.into n split)).closeSegment o n).openPages = _
    unfold Store.closeSegment
    split
    · rfl
    · rfl

/-- The bytes of a line change neither the directory nor the open pages. -/
theorem Store.writeBytes_keeps (ns : List Nat) (bytes : List Byte) (inLine : Bool) (o : OpenPage) (st : Store) :
    let after := Store.writeBytes bytes inLine ns o st
    after.2.directory = st.directory ∧ after.2.openPages = st.openPages ∧ after.1.doc = o.doc ∧ after.1.index = o.index := by
  induction ns generalizing bytes inLine o st with
  | nil =>
    obtain ⟨directory, opened⟩ := st.appendData_keeps o bytes
    exact ⟨directory, opened, rfl, rfl⟩
  | cons n ns ih =>
    let grown := st.appendData o (bytes.take (st.openRoom o))
    let split := inLine || decide (0 < st.openRoom o)
    obtain ⟨directory, opened⟩ := st.appendData_keeps o (bytes.take (st.openRoom o))
    obtain ⟨directory', opened', doc', index'⟩ := grown.takeSegment_keeps n o split
    obtain ⟨directory'', opened'', doc'', index''⟩ :=
      ih (bytes.drop (st.openRoom o)) split (grown.takeSegment n o split).1 (grown.takeSegment n o split).2
    exact ⟨directory''.trans (directory'.trans directory), opened''.trans (opened'.trans opened), doc''.trans doc',
      index''.trans index'⟩

/-- What a line leaves, by the bytes it has written: the open page with the line's end, and the page's counts. -/
theorem Store.writeLine_eq (o : OpenPage) (coded : List Byte) (st : Store) :
    let after := Store.writeBytes coded false o.allocated { o with allocated := [] } st
    st.writeLine o coded = (after.2.setOpenPage { after.1 with lineEnds := after.1.lineEnds + 1 }).onPage o.doc o.index
      fun p => { p with lines := p.lines + 1, bytes := p.bytes + coded.length } := by
  obtain ⟨-, -, doc, index⟩ := Store.writeBytes_keeps o.allocated coded false { o with allocated := [] } st
  show _ = _
  unfold Store.writeLine
  dsimp only
  rw [doc, index]
  rfl

section writeLine

variable (o : OpenPage) (coded : List Byte) (st : Store)

theorem Store.writeLine_memory : (st.writeLine o coded).memory
    = (Store.writeBytes coded false o.allocated { o with allocated := [] } st).2.memory := by
  rw [Store.writeLine_eq]
  rfl

theorem Store.writeLine_map : (st.writeLine o coded).map
    = (Store.writeBytes coded false o.allocated { o with allocated := [] } st).2.map := by
  rw [Store.writeLine_eq]
  rfl

theorem Store.writeLine_openPage? {x : OpenPage} (found : st.openPage? o.doc = some x) :
    let after := (Store.writeBytes coded false o.allocated { o with allocated := [] } st).1
    (st.writeLine o coded).openPage? o.doc = some { after with lineEnds := after.lineEnds + 1 } := by
  obtain ⟨-, opened, doc, -⟩ := Store.writeBytes_keeps o.allocated coded false { o with allocated := [] } st
  let after := Store.writeBytes coded false o.allocated { o with allocated := [] } st
  have found' : after.2.openPage? { after.1 with lineEnds := after.1.lineEnds + 1 }.doc = some x := by
    show after.2.openPage? after.1.doc = _
    rw [doc, Store.openPage?_of_openPages opened]
    exact found
  have set := Store.openPage?_setOpenPage_same found'
  rw [Store.writeLine_eq]
  rw [show ({ after.1 with lineEnds := after.1.lineEnds + 1 } : OpenPage).doc = o.doc from doc] at set
  exact set

theorem Store.writeLine_doc? : (st.writeLine o coded).doc? o.doc = (st.doc? o.doc).map
    (Document.onPage o.index fun p => { p with lines := p.lines + 1, bytes := p.bytes + coded.length }) := by
  obtain ⟨directory, -, -, -⟩ := Store.writeBytes_keeps o.allocated coded false { o with allocated := [] } st
  rw [Store.writeLine_eq]
  refine (Store.doc?_onDoc_same (f := Document.onPage o.index _) (fun _ => rfl) o.doc _).trans ?_
  exact congrArg _ (Store.doc?_of_directory directory o.doc)

end writeLine

end Sys2Proof.Machine
end

section
/-! PROOFS. A line in the segments of its page (R147, R153): behind the bytes of the open segment, and on into one or two
segments more. -/

namespace Sys2Proof.Machine

section goesOn

variable {st : Store} {o : OpenPage} {n k : Nat}

/-- The store when the bytes of a line have filled the open segment and the stream has gone on into the next. -/
def Store.goesOn (k : Nat) (split : Bool) (o : OpenPage) (bytes : List Byte) (st : Store) : Store :=
  ((st.appendData o bytes).takeSegment k o split).2

theorem Store.appendData_spec (wf : st.memory.wf = true) (seg : o.seg = some n) (bytes : List Byte) :
    let after := st.appendData o bytes
    after.memory.wf = true
      ∧ after.memory.read n = ⟨(st.memory.read n).header, (st.memory.read n).data ++ bytes⟩
      ∧ (∀ j, j ≠ n → after.memory.read j = st.memory.read j)
      ∧ after.map = st.map := by
  rw [Store.appendData_of_seg seg]
  exact ⟨PageMemory.wf_write _ _ _ wf, PageMemory.read_write_same wf _ _, fun _ other =>
    PageMemory.read_write_other other _ _, rfl⟩

theorem Store.openSegment_spec (wf : st.memory.wf = true) (k : Nat) (o : OpenPage) :
    let after := st.openSegment k o
    after.memory.wf = true ∧ after.memory.read k = ⟨Store.headerOf o [] none none, []⟩
      ∧ ∀ j, j ≠ k → after.memory.read j = st.memory.read j :=
  ⟨PageMemory.wf_write _ _ _ wf, PageMemory.read_write_same wf _ _, fun _ other => PageMemory.read_write_other other _ _⟩

theorem Store.closeSegment_spec (wf : st.memory.wf = true) (seg : o.seg = some n) (next : Nat) :
    let after := st.closeSegment o next
    after.memory.wf = true
      ∧ after.memory.read n = ⟨Store.headerOf o (st.memory.read n).data (some next) none, (st.memory.read n).data⟩
      ∧ ∀ j, j ≠ n → after.memory.read j = st.memory.read j := by
  rw [Store.closeSegment_of_seg seg]
  unfold Store.headerOf
  rw [PageMemory.writeHeader_used]
  exact ⟨PageMemory.wf_write _ _ _ wf, PageMemory.read_write_same wf _ _, fun j other =>
    PageMemory.read_write_other other _ _⟩

/-- The next segment's header is written before the one before it closes. -/
theorem Store.goesOn_first (wf : st.memory.wf = true) (seg : o.seg = some n) (other : k ≠ n) (split : Bool)
    (bytes : List Byte) :
    let first := (st.appendData o bytes).openSegment k (o.into k split)
    first.memory.wf = true
      ∧ first.memory.read n = ⟨(st.memory.read n).header, (st.memory.read n).data ++ bytes⟩
      ∧ first.memory.read k = ⟨Store.headerOf (o.into k split) [] none none, []⟩
      ∧ ∀ j, j ≠ n → j ≠ k → first.memory.read j = st.memory.read j := by
  obtain ⟨wf', grown, others, -⟩ := Store.appendData_spec wf seg bytes
  obtain ⟨wf'', opened, others'⟩ := Store.openSegment_spec wf' k (o.into k split)
  exact ⟨wf'', (others' n other.symm).trans grown, opened, fun j a b => (others' j b).trans (others j a)⟩

theorem Store.goesOn_spec (wf : st.memory.wf = true) (seg : o.seg = some n) (other : k ≠ n) (split : Bool)
    (bytes : List Byte) :
    let after := st.goesOn k split o bytes
    let data := (st.memory.read n).data ++ bytes
    after.memory.wf = true
      ∧ after.memory.read n = ⟨Store.headerOf o data (some k) none, data⟩
      ∧ after.memory.read k = ⟨Store.headerOf (o.into k split) [] none none, []⟩
      ∧ ∀ j, j ≠ n → j ≠ k → after.memory.read j = st.memory.read j := by
  obtain ⟨wf', grown, opened, others⟩ := Store.goesOn_first wf seg other split bytes
  obtain ⟨wf'', closed, others'⟩ := Store.closeSegment_spec wf' seg k
  rw [grown] at closed
  exact ⟨wf'', closed, (others' k other).trans opened, fun j a b => (others' j a).trans (others j a b)⟩

theorem Store.goesOn_openRoom (wf : st.memory.wf = true) (seg : o.seg = some n) (other : k ≠ n) (split : Bool)
    (bytes : List Byte) : (st.goesOn k split o bytes).openRoom (o.into k split) = 2032 := by
  obtain ⟨-, -, opened, -⟩ := Store.goesOn_spec wf seg other split bytes
  rw [Store.openRoom_of_seg (n := k) rfl, opened]
  rfl

theorem Store.writeBytes_cons (bytes : List Byte) (inLine : Bool) (k : Nat) (ks : List Nat) (o : OpenPage) (st : Store) :
    let room := st.openRoom o
    let split := inLine || decide (0 < room)
    Store.writeBytes bytes inLine (k :: ks) o st
      = Store.writeBytes (bytes.drop room) split ks (o.into k split) (st.goesOn k split o (bytes.take room)) := rfl

theorem Store.writeBytes_nil (bytes : List Byte) (inLine : Bool) (o : OpenPage) (st : Store) :
    Store.writeBytes bytes inLine [] o st = (o, st.appendData o bytes) := rfl

theorem Store.byteStages_one (seg : o.seg = some n) (bytes : List Byte) :
    let room := st.openRoom o
    st.byteStages bytes false [k] o
      = [(st.appendData o (bytes.take room)).openSegment k (o.into k (decide (0 < room))),
        st.goesOn k (decide (0 < room)) o (bytes.take room)] := by
  intro room
  unfold Store.byteStages
  rw [seg]
  rfl

end goesOn

section line

variable {st : Store} {o : OpenPage} {n : Nat} (wf : st.memory.wf = true) (coded : List Byte)
include wf

/-- A line that fits in the open segment goes behind the bytes of that segment (R153). -/
theorem Store.writeLine_fits (seg : o.seg = some n) (alone : o.allocated = []) :
    let after := st.writeLine o coded
    after.memory.read n = ⟨(st.memory.read n).header, (st.memory.read n).data ++ coded⟩
      ∧ (∀ k, k ≠ n → after.memory.read k = st.memory.read k)
      ∧ after.map = st.map
      ∧ st.byteStages coded false o.allocated o = [] := by
  obtain ⟨-, grown, others, map⟩ := Store.appendData_spec (o := { o with allocated := [] }) wf seg coded
  dsimp only
  rw [Store.writeLine_memory, Store.writeLine_map, alone]
  exact ⟨grown, others, map, rfl⟩

/-- A line that goes on into the next segment (R147). -/
theorem Store.writeLine_goesOn {k : Nat} (seg : o.seg = some n) (one : o.allocated = [k]) (other : k ≠ n) :
    let after := st.writeLine o coded
    let data := (st.memory.read n).data
    let room := 2032 - data.length
    let header (seq : Nat) (next : Option Nat) (written : List Byte) (ends : Nat) (continued : Bool) : SegHeader :=
      .used ⟨o.doc, o.index, seq, next, written.length, ends, continued, crc16 written, none⟩
    let opened := header (o.seq + 1) none [] 0 (decide (0 < room))
    let closed := header o.seq (some k) (data ++ coded.take room) o.lineEnds o.continued
    after.memory.read n = ⟨closed, data ++ coded.take room⟩
      ∧ after.memory.read k = ⟨opened, coded.drop room⟩
      ∧ (∀ j, j ≠ n → j ≠ k → after.memory.read j = st.memory.read j)
      ∧ (∀ x, st.openPage? o.doc = some x → after.openPage? o.doc = some
        ⟨o.doc, o.index, some k, o.seq + 1, 1, decide (0 < room), []⟩)
      ∧ ∃ first second, st.byteStages coded false [k] { o with allocated := [] } = [first, second]
        ∧ (first.memory.read k).header = opened
        ∧ (first.memory.read n).header = (st.memory.read n).header
        ∧ (second.memory.read k).header = opened ∧ (second.memory.read n).header = closed := by
  intro after data room header opened closed
  let o' : OpenPage := { o with allocated := [] }
  have seg' : o'.seg = some n := seg
  have room_eq : st.openRoom o' = room := Store.openRoom_of_seg seg' st
  let split := decide (0 < room)
  let u := st.goesOn k split o' (coded.take room)
  have bytes : Store.writeBytes coded false o.allocated o' st = (o'.into k split, u.appendData (o'.into k split) (coded.drop room)) := by
    rw [one, Store.writeBytes_cons, Store.writeBytes_nil, room_eq]
    rfl
  have next : o'.nextSeq = o.seq + 1 := by
    unfold OpenPage.nextSeq
    rw [seg']
    rfl
  have opened_eq : Store.headerOf (o'.into k split) [] none none = opened := by
    unfold Store.headerOf OpenPage.into
    rw [next]
  obtain ⟨wf', closes, opens, others⟩ := Store.goesOn_spec wf seg' other split (coded.take room)
  obtain ⟨-, first_n, first_k, -⟩ := Store.goesOn_first wf seg' other split (coded.take room)
  obtain ⟨-, grown, others', -⟩ := Store.appendData_spec (n := k) wf' (show (o'.into k split).seg = some k from rfl) (coded.drop room)
  rw [opens] at grown
  have memory : after.memory = (u.appendData (o'.into k split) (coded.drop room)).memory := by
    rw [show after.memory = _ from Store.writeLine_memory .., bytes]
  rw [memory]
  refine ⟨(others' n other.symm).trans closes, grown.trans (by rw [opened_eq]; rfl),
    fun j a b => (others' j b).trans (others j a b), fun x found => ?_, ?_⟩
  · have page := Store.writeLine_openPage? o coded st found
    rw [bytes] at page
    refine page.trans ?_
    show some (⟨o.doc, o.index, some k, o'.nextSeq, 0 + 1, split, []⟩ : OpenPage) = _
    rw [next]
  · have stages := Store.byteStages_one (st := st) (k := k) seg' coded
    rw [room_eq] at stages
    refine ⟨_, _, stages, ?_, ?_, ?_, ?_⟩
    · rw [first_k, opened_eq]
    · rw [first_n]
    · show (u.memory.read k).header = _
      rw [opens, opened_eq]
    · show (u.memory.read n).header = _
      rw [closes]
      rfl

/-- A line that goes on through one segment into the one after it (R147). -/
theorem Store.writeLine_goesThrough {k j : Nat} (seg : o.seg = some n) (two : o.allocated = [k, j]) (kn : k ≠ n)
    (jn : j ≠ n) (jk : j ≠ k) :
    let after := st.writeLine o coded
    let data := (st.memory.read n).data
    let room := 2032 - data.length
    let middle := (coded.drop room).take 2032
    let header (seq : Nat) (next : Option Nat) (written : List Byte) (ends : Nat) (continued : Bool) : SegHeader :=
      .used ⟨o.doc, o.index, seq, next, written.length, ends, continued, crc16 written, none⟩
    after.memory.read n
        = ⟨header o.seq (some k) (data ++ coded.take room) o.lineEnds o.continued, data ++ coded.take room⟩
      ∧ after.memory.read k = ⟨header (o.seq + 1) (some j) middle 0 (decide (0 < room)), middle⟩
      ∧ after.memory.read j = ⟨header (o.seq + 2) none [] 0 true, coded.drop (room + 2032)⟩
      ∧ ∀ i, i ≠ n → i ≠ k → i ≠ j → after.memory.read i = st.memory.read i := by
  intro after data room middle header
  let o' : OpenPage := { o with allocated := [] }
  have seg' : o'.seg = some n := seg
  have room_eq : st.openRoom o' = room := Store.openRoom_of_seg seg' st
  let split := decide (0 < room)
  let o₁ := o'.into k split
  have seg₁ : o₁.seg = some k := rfl
  let u₁ := st.goesOn k split o' (coded.take room)
  have room₁ : u₁.openRoom o₁ = 2032 := Store.goesOn_openRoom wf seg' kn split _
  let o₂ := o₁.into j true
  let u₂ := u₁.goesOn j true o₁ middle
  have bytes : Store.writeBytes coded false o.allocated o' st = (o₂, u₂.appendData o₂ (coded.drop (room + 2032))) := by
    rw [two, Store.writeBytes_cons, room_eq]
    show Store.writeBytes (coded.drop room) split [j] o₁ u₁ = _
    have through : (split || decide (0 < 2032)) = true := Bool.or_true split
    rw [Store.writeBytes_cons, room₁, Store.writeBytes_nil, List.drop_drop, through]
  have next : o'.nextSeq = o.seq + 1 := by
    unfold OpenPage.nextSeq
    rw [seg']
    rfl
  obtain ⟨wf₁, closes, opens, others⟩ := Store.goesOn_spec wf seg' kn split (coded.take room)
  obtain ⟨wf₂, closes₁, opens₁, others₁⟩ := Store.goesOn_spec wf₁ seg₁ jk true middle
  obtain ⟨-, grown, others₂, -⟩ := Store.appendData_spec (n := j) wf₂ (show o₂.seg = some j from rfl) (coded.drop (room + 2032))
  rw [opens₁] at grown
  rw [opens] at closes₁
  have memory : after.memory = (u₂.appendData o₂ (coded.drop (room + 2032))).memory := by
    rw [show after.memory = _ from Store.writeLine_memory .., bytes]
  rw [memory]
  refine ⟨?_, ?_, ?_, fun i a b c => (others₂ i c).trans ((others₁ i b c).trans (others i a b))⟩
  · exact (others₂ n jn.symm).trans ((others₁ n kn.symm jn.symm).trans closes)
  · refine (others₂ k jk.symm).trans (closes₁.trans ?_)
    show (⟨.used ⟨o.doc, o.index, o'.nextSeq, some j, middle.length, 0, split, crc16 middle, none⟩, middle⟩ : Segment) = _
    rw [next]
  · refine grown.trans ?_
    show (⟨.used ⟨o.doc, o.index, o'.nextSeq + 1, none, 0, 0, true, crc16 [], none⟩, _⟩ : Segment) = _
    rw [next]
    rfl

/-- The first line of a page (R153). -/
theorem Store.writeLine_first {k : Nat} (fresh : o.seg = none) (one : o.allocated = [k]) :
    let after := st.writeLine o coded
    after.memory.read k = ⟨.used ⟨o.doc, o.index, 0, none, 0, 0, false, crc16 [], none⟩, coded⟩
      ∧ (∀ j, j ≠ k → after.memory.read j = st.memory.read j)
      ∧ mapRead k after.map = some (.used o.doc o.index 0 none)
      ∧ (∀ x, st.openPage? o.doc = some x → after.openPage? o.doc = some
        ⟨o.doc, o.index, some k, 0, 1, false, []⟩)
      ∧ (st.byteStages coded false [k] { o with allocated := [] }).length = 1 := by
  intro after
  let o' : OpenPage := { o with allocated := [] }
  have fresh' : o'.seg = none := fresh
  have room_eq : st.openRoom o' = 0 := Store.openRoom_of_none fresh' st
  let o₁ := o'.into k false
  let u := st.openSegment k o₁
  have goes : st.goesOn k false o' [] = u := by
    unfold Store.goesOn
    rw [Store.appendData_of_none fresh']
    exact Store.closeSegment_of_none fresh' k _
  have bytes : Store.writeBytes coded false o.allocated o' st = (o₁, u.appendData o₁ coded) := by
    rw [one, Store.writeBytes_cons, Store.writeBytes_nil, room_eq, ← goes]
    rfl
  have next : o'.nextSeq = 0 := by
    unfold OpenPage.nextSeq
    rw [fresh']
    rfl
  obtain ⟨wf', opens, others⟩ := Store.openSegment_spec wf k o₁
  obtain ⟨-, grown, others', map⟩ := Store.appendData_spec (n := k) wf' (show o₁.seg = some k from rfl) coded
  rw [opens] at grown
  have memory : after.memory = (u.appendData o₁ coded).memory := by
    rw [show after.memory = _ from Store.writeLine_memory .., bytes]
  have map' : after.map = mapSet k (.used o.doc o.index o'.nextSeq none) st.map := by
    rw [show after.map = _ from Store.writeLine_map .., bytes]
    exact map
  rw [memory, map']
  refine ⟨grown.trans ?_, fun j other => (others' j other).trans (others j other), ?_, fun x found => ?_, ?_⟩
  · show (⟨.used ⟨o.doc, o.index, o'.nextSeq, none, 0, 0, false, crc16 [], none⟩, coded⟩ : Segment) = _
    rw [next]
  · rw [mapRead_mapSet_same, next]
  · have page := Store.writeLine_openPage? o coded st found
    rw [bytes] at page
    refine page.trans ?_
    show some (⟨o.doc, o.index, some k, o'.nextSeq, 0 + 1, false, []⟩ : OpenPage) = _
    rw [next]
  · unfold Store.byteStages
    rw [fresh']
    rfl

end line

end Sys2Proof.Machine
end

section
/-! PROOFS. A line taken for writing, written or abandoned, and the page that closes (R146, R147, R151, R153, R154). -/

namespace Sys2Proof.Machine

/-! ## The whole lines of a segment (R147, R154) -/

/-- The bytes up to the end of so many lines, when the string has as many. -/
theorem wholeLines_spec (n : Nat) (l : List Byte) (enough : n ≤ (l.filter fun b => b == 255).length) :
    wholeLines n l <+: l ∧ ((wholeLines n l).filter fun b => b == 255).length = n
      ∧ (wholeLines n l = [] ∨ (wholeLines n l).getLast? = some 255) := by
  induction l generalizing n with
  | nil =>
    obtain rfl : n = 0 := Nat.le_zero.mp enough
    exact ⟨List.prefix_refl _, rfl, .inl rfl⟩
  | cons b l ih =>
    cases n with
    | zero => exact ⟨List.nil_prefix, rfl, .inl rfl⟩
    | succ n =>
      by_cases ends : b = 255
      · subst ends
        rw [List.filter_cons_of_pos (by rfl), List.length_cons] at enough
        obtain ⟨grows, count, last⟩ := ih n (by omega)
        rw [show wholeLines (n + 1) (255 :: l) = 255 :: wholeLines n l from if_pos rfl]
        refine ⟨(List.prefix_cons_inj _).mpr grows, ?_, .inr ?_⟩
        · rw [List.filter_cons_of_pos (by rfl), List.length_cons, count]
        · obtain empty | last := last
          · rw [empty]
            rfl
          · rw [List.getLast?_cons, last]
            rfl
      · have inner : b.toNat ≠ 255 := fun same => ends (by bv_omega)
        have plain : ¬(b == 255) = true := by simpa using ends
        rw [List.filter_cons_of_neg (p := fun b => b == 255) plain] at enough
        obtain ⟨grows, count, last⟩ := ih (n + 1) enough
        rw [show wholeLines (n + 1) (b :: l) = b :: wholeLines (n + 1) l from if_neg inner]
        refine ⟨(List.prefix_cons_inj _).mpr grows, ?_, .inr ?_⟩
        · rw [List.filter_cons_of_neg (p := fun b => b == 255) plain, count]
        · obtain empty | last := last
          · rw [empty] at count
            cases count
          · rw [List.getLast?_cons, last]
            rfl

/-! ## A page closes (R154) -/

/-- The condition of a page. -/
def Page.withCondition (c : PageCondition) (p : Page) : Page := { p with condition := c }

theorem Document.pagesPrinted_onPage {f : Page → Page} (keeps : ∀ p, (f p).printed = p.printed) (index : Nat)
    (d : Document) : (d.onPage index f).pagesPrinted = d.pagesPrinted := by
  unfold Document.pagesPrinted Document.onPage
  rw [List.filter_map, List.length_map]
  congr 2
  funext p
  simp only [Function.comp]
  split
  · exact keeps p
  · rfl

section close

variable {st : Store} {doc : Nat} {o : OpenPage} {d : Document} {p : Page}

/-- A page that closes: its record, then its last segment. -/
theorem Store.closePage_eq (opened : st.openPage? doc = some o) (found : st.doc? doc = some d)
    (page : d.page? o.index = some p) (c : PageCondition) : st.closePage doc c
      = ({ st.onPage doc o.index (Page.withCondition c) with
          openPages := st.openPages.filter fun x => x.doc != doc } : Store).closeLast o
        (lastAttrs (d.onPage o.index (Page.withCondition c)) (p.withCondition c)) c := by
  have found' : ({ st.onPage doc o.index (Page.withCondition c) with
      openPages := st.openPages.filter fun x => x.doc != doc } : Store).doc? doc
      = some (d.onPage o.index (Page.withCondition c)) := Store.onPage_doc? found
  have page' : (d.onPage o.index (Page.withCondition c)).page? o.index = some (p.withCondition c) :=
    Document.onPage_page? (f := Page.withCondition c) (fun _ => rfl) page
  unfold Store.closePage
  simp only [opened]
  split
  next absent => exact nomatch absent.symm.trans found'
  next e named =>
    obtain rfl : e = _ := Option.some.inj (named.symm.trans found')
    split
    next absent => exact nomatch absent.symm.trans page'
    next q named =>
      obtain rfl : q = _ := Option.some.inj (named.symm.trans page')
      rfl

theorem Store.closeLast_of_none (unwritten : o.seg = none) (a : LastAttrs) (c : PageCondition) (st : Store) :
    st.closeLast o a c = st := by
  unfold Store.closeLast
  rw [unwritten]

theorem Store.closeLast_of_complete {n : Nat} (seg : o.seg = some n) (a : LastAttrs) (st : Store) :
    st.closeLast o a .complete = { st with memory := st.memory.writeHeader n (st.lastHeader n o a) } := by
  unfold Store.closeLast
  rw [seg]
  rfl

theorem Store.closeLast_of_short {n : Nat} (seg : o.seg = some n) {c : PageCondition} (short : c ≠ .complete)
    (a : LastAttrs) (st : Store) :
    st.closeLast o a c = { st with rewrites := st.rewrites ++ [(n, st.lastHeader n o a)] } := by
  unfold Store.closeLast
  rw [seg]
  exact if_neg short

theorem Store.closeLast_map (a : LastAttrs) (c : PageCondition) (st : Store) : (st.closeLast o a c).map = st.map := by
  unfold Store.closeLast
  split
  · rfl
  · split
    · rfl
    · rfl

/-- The page that closes takes its condition, and its last segment the LAST mark. -/
theorem Store.closePage_spec (wf : st.memory.wf = true) (opened : st.openPage? doc = some o)
    (found : st.doc? doc = some d) (page : d.page? o.index = some p) (condition : PageCondition) :
    let after := st.closePage doc condition
    after.openPage? doc = none ∧ after.map = st.map
    ∧ (∃ e, after.doc? doc = some e ∧ e.page? o.index = some { p with condition := condition }
      ∧ e.closed = d.closed ∧ e.hold = d.hold)
    ∧ (o.seg = none → after.memory = st.memory ∧ after.rewrites = st.rewrites)
    ∧ ∀ n, o.seg = some n →
      let seg := st.memory.read n
      o.lineEnds ≤ (seg.data.filter fun b => b == 255).length →
      ∃ whole, whole <+: seg.data ∧ (whole.filter fun b => b == 255).length = o.lineEnds
        ∧ (whole = [] ∨ whole.getLast? = some 255)
        ∧ (let header : SegHeader := .used ⟨o.doc, o.index, o.seq, none, whole.length, o.lineEnds, o.continued,
            crc16 whole, some ⟨p.width, p.density, p.lines, condition, p.startOffset, p.damaged, p.printed, d.cls,
              d.hold, d.autoDelete, (d.pages.filter Page.printed).length⟩⟩
          (condition = .complete → after.rewrites = st.rewrites
            ∧ after.memory.read n = ⟨header, seg.data⟩
            ∧ ∀ k, k ≠ n → after.memory.read k = st.memory.read k)
          ∧ (condition ≠ .complete → after.memory = st.memory ∧ after.rewrites = st.rewrites ++ [(n, header)])) := by
  intro after
  have eq : after = _ := Store.closePage_eq opened found page condition
  let u : Store := { st.onPage doc o.index (Page.withCondition condition) with
    openPages := st.openPages.filter fun x => x.doc != doc }
  have found' : u.doc? doc = some (d.onPage o.index (Page.withCondition condition)) := Store.onPage_doc? found
  refine ⟨Store.closePage_openPage? .., ?_, ⟨d.onPage o.index (Page.withCondition condition), ?_,
    Document.onPage_page? (f := Page.withCondition condition) (fun _ => rfl) page, rfl, rfl⟩, fun unwritten => ?_, fun n seg => ?_⟩
  · rw [eq, Store.closeLast_map]
    rfl
  · rw [eq]
    exact (Store.doc?_of_directory (Store.closeLast_keeps ..).1 doc).trans found'
  · rw [eq, Store.closeLast_of_none unwritten]
    exact ⟨rfl, rfl⟩
  · intro data enough
    obtain ⟨grows, count, last⟩ := wholeLines_spec _ _ enough
    refine ⟨wholeLines o.lineEnds (st.memory.read n).data, grows, count, last, ?_⟩
    intro header
    have printed : (d.onPage o.index (Page.withCondition condition)).pagesPrinted = (d.pages.filter Page.printed).length :=
      Document.pagesPrinted_onPage (f := Page.withCondition condition) (fun _ => rfl) _ d
    have header_eq : u.lastHeader n o (lastAttrs (d.onPage o.index (Page.withCondition condition))
        (p.withCondition condition)) = header := by
      unfold Store.lastHeader lastAttrs
      rw [printed]
      rfl
    refine ⟨fun complete => ?_, fun short => ?_⟩
    · subst complete
      rw [eq, Store.closeLast_of_complete seg]
      have write : u.memory.writeHeader n (u.lastHeader n o (lastAttrs (d.onPage o.index (Page.withCondition .complete))
          (p.withCondition .complete))) = st.memory.write n ⟨header, (st.memory.read n).data⟩ := by
        rw [header_eq]
        exact PageMemory.writeHeader_used ..
      refine ⟨rfl, ?_, fun k other => ?_⟩
      · show PageMemory.read n (u.memory.writeHeader n _) = _
        rw [write]
        exact PageMemory.read_write_same wf _ _
      · show PageMemory.read k (u.memory.writeHeader n _) = _
        rw [write]
        exact PageMemory.read_write_other other _ _
    · rw [eq, Store.closeLast_of_short seg short]
      exact ⟨rfl, congrArg (fun h => st.rewrites ++ [(n, h)]) header_eq⟩

end close

/-! ## Headers as they are written (R146) -/

section written

variable (st : Store) (n : Nat)

theorem Store.asWritten_of_plain {h : UsedHeader} (plain : h.last = none) : st.asWritten (n, .used h) = (n, .used h) := by
  unfold Store.asWritten
  simp only [plain, Option.map_none]
  rw [← plain]

theorem Store.asWritten_of_gone {h : UsedHeader} (gone : st.doc? h.doc = none) :
    st.asWritten (n, .used h) = (n, .used h) := by
  have none_ : st.attrsInForce? n h = none := by
    unfold Store.attrsInForce?
    rw [gone]
    rfl
  unfold Store.asWritten
  simp only [none_, Option.getD_none, Option.map_id']

theorem Store.asWritten_of_last {h : UsedHeader} {d : Document} {p : Page} (last : h.last ≠ none)
    (found : st.doc? h.doc = some d) (page : d.page? h.page = some p) (closed : p.condition ≠ .opened)
    (chain : (st.chainOf p).getLast? = some n) :
    st.asWritten (n, .used h) = (n, .used { h with last := some (lastAttrs d p) }) := by
  have some_ : st.attrsInForce? n h = some (lastAttrs d p) := by
    unfold Store.attrsInForce?
    rw [found, Option.bind_some, page, Option.bind_some]
    exact if_pos ⟨closed, chain⟩
  obtain ⟨a, has⟩ := Option.ne_none_iff_exists'.mp last
  unfold Store.asWritten
  simp only [some_, has, Option.map_some, Option.getD_some]

end written

end Sys2Proof.Machine
end

section
/-! PROOFS. The segments of a line (R145, R151, R153, R154), and the line that is taken, written and abandoned. -/

namespace Sys2Proof.Machine

/-! ## Segments allocated (R151) -/

theorem mapRead_mapAllocate_other (o : OpenPage) {n : Nat} (ns : List Nat) (other : n ∉ ns) (seq : Nat)
    (m : List (Nat × SegUse)) : mapRead n (mapAllocate o seq ns m) = mapRead n m := by
  induction ns generalizing seq m with
  | nil => rfl
  | cons k ns ih =>
    obtain ⟨apart, rest⟩ := not_or.mp (List.mem_cons.not.mp other)
    exact (ih rest (seq + 1) _).trans (mapRead_mapSet_other apart _ _)

/-- The segments of a line have the sequences of its page, rising. -/
theorem mapRead_mapAllocate (o : OpenPage) {ns : List Nat} (distinct : ns.Nodup) (seq : Nat) (m : List (Nat × SegUse))
    {i n : Nat} (at_ : ns[i]? = some n) : mapRead n (mapAllocate o seq ns m) = some (.used o.doc o.index (seq + i) none) := by
  induction ns generalizing seq m i with
  | nil => cases at_
  | cons k ns ih =>
    obtain ⟨fresh, rest⟩ := List.nodup_cons.mp distinct
    cases i with
    | zero =>
      obtain rfl : k = n := by simpa using at_
      exact (mapRead_mapAllocate_other o ns fresh (seq + 1) _).trans (mapRead_mapSet_same ..)
    | succ i =>
      rw [List.getElem?_cons_succ] at at_
      rw [show seq + (i + 1) = seq + 1 + i by omega]
      exact ih rest (seq + 1) _ at_

section allocate

variable (st : Store) (total : Nat)

theorem Store.pairwise_freeSegments : (st.freeSegments total).Pairwise (· < ·) :=
  List.Pairwise.filter _ List.pairwise_lt_range

theorem Store.mem_freeSegments (n : Nat) : n ∈ st.freeSegments total ↔ n < total ∧ mapRead n st.map = none := by
  unfold Store.freeSegments
  rw [List.mem_filter, List.mem_range, Option.isNone_iff_eq_none]

/-- What stands in a rising list before a number of a first part of it stands in that part. -/
theorem mem_take_of_lt {l : List Nat} (rising : l.Pairwise (· < ·)) {count n k : Nat} (mem : n ∈ l.take count)
    (mem' : k ∈ l) (lt : k < n) : k ∈ l.take count := by
  rw [← List.take_append_drop count l, List.pairwise_append] at rising
  rw [← List.take_append_drop count l, List.mem_append] at mem'
  exact mem'.resolve_right fun late => absurd (rising.2.2 n mem k late) (by omega)

/-- The segments a line takes are the lowest FREE ones. -/
theorem Store.taken_spec (count : Nat) {n : Nat} (mem : n ∈ (st.freeSegments total).take count) :
    n < total ∧ mapRead n st.map = none
      ∧ ∀ k < n, mapRead k st.map = none → k ∈ (st.freeSegments total).take count := by
  obtain ⟨inside, free⟩ := (st.mem_freeSegments total n).mp (List.mem_of_mem_take mem)
  exact ⟨inside, free, fun k lt free' => mem_take_of_lt (st.pairwise_freeSegments total) mem
    ((st.mem_freeSegments total k).mpr ⟨lt.trans inside, free'⟩) lt⟩

/-- The record of a page that gets segments. -/
def Page.withSegments (ns : List Nat) (p : Page) : Page :=
  { p with first := p.first.orElse fun _ => ns.head?, segments := p.segments + ns.length }

theorem OpenPage.nextSeq_eq (o : OpenPage) : o.nextSeq = if o.seg = none then 0 else o.seq + 1 := by
  unfold OpenPage.nextSeq
  simp only [Option.isNone_iff_eq_none]

theorem Store.allocate_spec (count : Nat) (o : OpenPage) :
    let taken := (st.freeSegments total).take count
    let after := st.allocate total count o
    (∀ (i : Nat) (n : Nat), taken[i]? = some n → mapRead n after.map
      = some (.used o.doc o.index (if o.seg = none then i else o.seq + 1 + i) none))
    ∧ (∀ n, n ∉ taken → mapRead n after.map = mapRead n st.map)
    ∧ after.memory = st.memory
    ∧ (∀ x, st.openPage? o.doc = some x → after.openPage? o.doc = some { o with allocated := taken })
    ∧ (∀ d p, st.doc? o.doc = some d → d.page? o.index = some p →
      ∃ e, after.doc? o.doc = some e ∧ e.page? o.index = some { p with
        first := if p.first = none then taken.head? else p.first
        segments := p.segments + taken.length }) := by
  intro taken after
  have distinct : taken.Nodup := (((st.pairwise_freeSegments total).sublist (List.take_sublist count _)).imp ne_of_lt)
  refine ⟨fun i n at_ => ?_, fun n other => mapRead_mapAllocate_other o taken other _ _, rfl, fun x found => ?_,
    fun d p found page => ?_⟩
  · refine (mapRead_mapAllocate o distinct o.nextSeq st.map at_).trans ?_
    rw [OpenPage.nextSeq_eq]
    split
    · rw [Nat.zero_add]
    · rfl
  · exact Store.openPage?_setOpenPage_same (o := { o with allocated := taken }) found
  · obtain ⟨e, named, has⟩ := Store.onPage_found (f := Page.withSegments taken) (fun _ => rfl)
      (st := { st with map := mapAllocate o o.nextSeq taken st.map }.setOpenPage { o with allocated := taken }) found page
    refine ⟨e, named, has.trans ?_⟩
    unfold Page.withSegments
    cases first : p.first with
    | none => rfl
    | some n => rfl

end allocate

/-! ## A line abandoned (R154) -/

theorem Store.foldl_freeSegment (ns : List Nat) (st : Store) : ns.foldl (fun st n => st.freeSegment n) st = { st with
    rewrites := st.rewrites ++ ns.map fun n => (n, .raw freeMark)
    map := ns.foldl (fun m n => mapFree n m) st.map } := by
  induction ns generalizing st with
  | nil => rw [List.map_nil, List.append_nil]; rfl
  | cons n ns ih =>
    rw [List.foldl_cons, ih]
    unfold Store.freeSegment
    rw [List.map_cons, List.append_assoc]
    rfl

/-- The record of a page whose line has been abandoned. -/
def Page.withoutSegments (ns : List Nat) (p : Page) : Page :=
  { p with
    first := if p.segments ≤ ns.length then none else p.first
    segments := p.segments - ns.length }

theorem Store.abandonLine_spec {st : Store} {o x : OpenPage} (opened : st.openPage? o.doc = some x) :
    let after := st.abandonLine o
    after.memory = st.memory
    ∧ after.rewrites = st.rewrites ++ o.allocated.map (fun n => (n, .raw (List.replicate 16 0xFF)))
    ∧ (∀ n, mapRead n after.map = if n ∈ o.allocated then none else mapRead n st.map)
    ∧ after.openPage? o.doc = some { o with allocated := [] }
    ∧ ∀ d p, st.doc? o.doc = some d → d.page? o.index = some p →
      ∃ e, after.doc? o.doc = some e ∧ e.page? o.index = some { p with
        first := if p.segments ≤ o.allocated.length then none else p.first
        segments := p.segments - o.allocated.length } := by
  let freed := o.allocated.foldl (fun st n => st.freeSegment n) st
  have freed_eq : freed = _ := Store.foldl_freeSegment o.allocated st
  have after_eq : st.abandonLine o = (freed.setOpenPage { o with allocated := [] }).onPage o.doc o.index
    (Page.withoutSegments o.allocated) := rfl
  dsimp only
  rw [after_eq, freed_eq]
  refine ⟨rfl, rfl, fun n => mapRead_foldl_mapFree n o.allocated st.map, ?_, fun d p found page => ?_⟩
  · exact Store.openPage?_setOpenPage_same (o := { o with allocated := [] }) opened
  · exact Store.onPage_found (f := Page.withoutSegments o.allocated) (fun _ => rfl) found page

end Sys2Proof.Machine
end

section
/-! PROOFS. The transfer of a line (R130, R151, R153, R154): taken, refused, and written. -/

namespace Sys2Proof.Machine

/-! ## No page is opened by an end (R132, R154) -/

/-- Documents without an open page have none. -/
def Store.OpensNoMore (st u : Store) : Prop := ∀ n, st.openPage? n = none → u.openPage? n = none

section opens

variable {st u v : Store}

theorem Store.OpensNoMore.trans (first : st.OpensNoMore u) (second : u.OpensNoMore v) : st.OpensNoMore v :=
  fun n absent => second n (first n absent)

theorem Store.OpensNoMore.of_openPages (same : u.openPages = st.openPages) : st.OpensNoMore u :=
  fun n absent => (Store.openPage?_of_openPages same n).trans absent

theorem Store.opensNoMore_closePage (doc : Nat) (c : PageCondition) (st : Store) : st.OpensNoMore (st.closePage doc c) := by
  intro n absent
  cases opened : st.openPage? doc with
  | none => rwa [Store.closePage_of_none opened]
  | some o =>
    unfold Store.openPage?
    rw [(Store.closePage_of_open opened c).2, List.find?_filter]
    exact List.find?_eq_none.mpr fun x mem => by
      have other := List.find?_eq_none.mp absent x mem
      simp [Bool.eq_false_iff.mpr other]

theorem Store.testHold_openPages (number : Nat) (st : Store) : (st.testHold number).openPages = st.openPages := by
  unfold Store.testHold
  split
  · rfl
  · split
    · obtain ⟨ws, eq⟩ := Store.rewriteLowest_rewrites number (st.onDoc number fun d => { d with hold := false })
      unfold Store.clearHold
      rw [eq]
      rfl
    · rfl

theorem Store.opensNoMore_close (doc : Nat) (st : Store) : st.OpensNoMore (st.close doc) :=
  (Store.opensNoMore_closePage doc .truncated st).trans (.of_openPages (Store.testHold_openPages doc _))

theorem Store.opensNoMore_abandonLine (o : OpenPage) (st : Store) : st.OpensNoMore (st.abandonLine o) := by
  intro n absent
  let freed := o.allocated.foldl (fun st n => st.freeSegment n) st
  have absent' : freed.openPage? n = none := by
    rw [show freed = _ from Store.foldl_freeSegment o.allocated st]
    exact absent
  refine (Store.openPage?_setOpenPage { o with allocated := [] } n freed).trans ?_
  rw [absent']
  exact ite_self _

theorem Store.opensNoMore_dropTransfer (m : Move) (st : Store) : st.OpensNoMore (st.dropTransfer m) := by
  have still : st.OpensNoMore (if st.transfer = some m.id then { st with transfer := none } else st) := by
    split
    · exact .of_openPages rfl
    · exact .of_openPages rfl
  unfold Store.dropTransfer
  dsimp only
  split
  · exact still
  · split
    · exact still
    · exact still.trans (Store.opensNoMore_abandonLine _ _)

theorem Store.opensNoMore_endWriter (m : Move) (st : Store) : st.OpensNoMore (st.endWriter m) := by
  unfold Store.endWriter
  split
  · split
    · exact Store.opensNoMore_close _ _
    · exact Store.opensNoMore_closePage _ _ _
  · exact .of_openPages rfl

theorem Store.opensNoMore_testAutoDelete (number : Nat) (referenced : Bool) (st : Store) :
    st.OpensNoMore (st.testAutoDelete number referenced) := by
  cases found : st.doc? number with
  | none => exact .of_openPages (by unfold Store.testAutoDelete; rw [found])
  | some d =>
    unfold Store.testAutoDelete
    simp only [found]
    split
    · obtain ⟨memory, map, eq⟩ := Store.delete_keeps found
      exact .of_openPages (by rw [eq]; rfl)
    · exact .of_openPages rfl

theorem State.opensNoMore_testAutoDeletes (docs : List Nat) (s : State) :
    s.store.OpensNoMore (docs.foldl (fun s d => s.testAutoDelete d) s).store := by
  induction docs generalizing s with
  | nil => exact .of_openPages rfl
  | cons d docs ih => exact (Store.opensNoMore_testAutoDelete d (s.referenced d) s.store).trans (ih (s.testAutoDelete d))

theorem State.opensNoMore_stopWork (m : Move) (s : State) : s.store.OpensNoMore (s.stopWork m).store := by
  unfold State.stopWork
  split
  · refine ((Store.opensNoMore_dropTransfer m s.store).trans (Store.opensNoMore_endWriter m _)).trans (.of_openPages ?_)
    split
    · rfl
    · rfl
  · exact .of_openPages rfl

theorem State.opensNoMore_endMove (id : Nat) (o : MoveState) (c : Option MoveCause) (r : Bool) (s : State) :
    s.store.OpensNoMore (s.endMove id o c r).store := by
  cases found : s.move? id with
  | none => exact .of_openPages (by rw [State.endMove_of_none o c found])
  | some m =>
    cases live : m.live with
    | false => exact .of_openPages (by rw [State.endMove_of_not_live o c found live])
    | true =>
      rw [State.endMove_store o c found live]
      exact (State.opensNoMore_stopWork m s).trans (State.opensNoMore_testAutoDeletes m.documents
        (((s.stopWork m).onMove id (Move.ended o c)).onPath fun p => { p with endings := p.endings ++ [id] }))

end opens

/-! ## A line is taken (R151, R153, R154) -/

section take

variable {s : State} {m : Move} {doc : Nat}

/-- STORE_FULL with a page, and the failure of the move. -/
theorem State.storeFull_openPage? (id page : Nat) (absent : s.store.openPage? doc = none) :
    (s.storeFull id doc page).store.openPage? doc = none :=
  State.opensNoMore_endMove _ _ _ _ (s.reportStore .storeFull doc page) doc absent

theorem State.takeLine_of_none (l : SlotLine) (absent : s.store.openPage? doc = none)
    (still : (s.openPageFor m doc none).store.openPage? doc = none) : s.takeLine m l doc = s.openPageFor m doc none := by
  unfold State.takeLine
  simp only [absent, Option.isNone_none, if_true, still]

theorem State.takeLine_of_opened {o : OpenPage} (l : SlotLine) (absent : s.store.openPage? doc = none)
    (opened : (s.openPageFor m doc none).store.openPage? doc = some o) :
    s.takeLine m l doc = (s.openPageFor m doc none).allocateLine m l doc o := by
  unfold State.takeLine
  simp only [absent, Option.isNone_none, if_true, opened]

theorem State.takeLine_of_open {o : OpenPage} (l : SlotLine) (opened : s.store.openPage? doc = some o) :
    s.takeLine m l doc = s.allocateLine m l doc o := by
  unfold State.takeLine
  simp only [opened, Option.isNone_some, Bool.false_eq_true, if_false]

theorem State.openPageFor_of_none (absent : s.store.doc? doc = none) :
    s.openPageFor m doc none = s.storeFull m.id doc 0 := by
  unfold State.openPageFor
  rw [absent]

theorem State.openPageFor_of_some {d : Document} (found : s.store.doc? doc = some d) :
    s.openPageFor m doc none = if s.store.canOpen m.counters.curPage d
      then s.onStore (Store.addPage d m.counters.curPage (s.storedWidth m) m.target none)
      else s.storeFull m.id doc 0 := by
  unfold State.openPageFor
  rw [found]

theorem Document.newIndex_eq (d : Document) (curPage : Nat) :
    d.newIndex curPage = (d.pages.getLast?.map fun p => p.index + 1).getD curPage := by
  unfold Document.newIndex
  cases d.pages.getLast? with
  | none => rfl
  | some p => rfl

theorem Store.canOpen_iff (st : Store) (d : Document) (curPage : Nat) :
    st.canOpen curPage d = true ↔ (d.pages.getLast?.map fun p => p.index + 1).getD curPage ≤ 255
      ∧ d.pages.length < 255 ∧ (st.directory.map fun d => d.pages.length).sum < 256 := by
  unfold Store.canOpen
  rw [Bool.and_eq_true, Bool.and_eq_true, decide_eq_true_eq, decide_eq_true_eq, decide_eq_true_eq, d.newIndex_eq, and_assoc]
  rfl

theorem State.storedWidth_eq (s : State) (m : Move) :
    s.storedWidth m = if m.diverted ≠ none then s.headWidth else s.lineWidth m := by
  unfold State.storedWidth
  simp only [Option.isSome_iff_ne_none]

/-- A line for which no page is open. -/
theorem State.takeLine_unopened (l : SlotLine) (absent : s.store.openPage? doc = none) :
    let failed := (s.report 0xE8 ([0] ++ bytes2 doc ++ [0])).failMove .storeFull m.id
    (s.store.doc? doc = none → s.takeLine m l doc = failed)
    ∧ ∀ d, s.store.doc? doc = some d →
      let index := (d.pages.getLast?.map fun p => p.index + 1).getD m.counters.curPage
      let fits := index ≤ 255 ∧ d.pages.length < 255
        ∧ (s.store.directory.map fun d => d.pages.length).sum < 256
      let width := if m.diverted ≠ none then s.headWidth else s.lineWidth m
      let page : Page := ⟨index, width, m.target, 0, 0, none, 0, .opened, none, 0, false⟩
      (¬fits → s.takeLine m l doc = failed)
      ∧ (fits → s.takeLine m l doc = State.takeLine m l doc
        { s with store := { s.store with
          directory := s.store.directory.map fun e =>
            if e.number = doc then { e with pages := e.pages ++ [page] } else e
          openPages := s.store.openPages ++ [⟨doc, index, none, 0, 0, false, []⟩] } }) := by
  intro failed
  have fails (full : s.openPageFor m doc none = s.storeFull m.id doc 0) : s.takeLine m l doc = failed :=
    (State.takeLine_of_none l absent (full ▸ State.storeFull_openPage? m.id 0 absent)).trans full
  refine ⟨fun gone => fails (State.openPageFor_of_none gone), fun d found => ?_⟩
  intro index fits width page
  have opens := State.openPageFor_of_some (m := m) found
  refine ⟨fun full => fails (opens.trans (if_neg ((Store.canOpen_iff ..).not.mpr full))), fun room => ?_⟩
  rw [if_pos ((Store.canOpen_iff ..).mpr room)] at opens
  have number : d.number = doc := (Store.mem_of_doc? found).2
  have added : s.onStore (Store.addPage d m.counters.curPage (s.storedWidth m) m.target none) =
      { s with store := { s.store with
        directory := s.store.directory.map fun e =>
          if e.number = doc then { e with pages := e.pages ++ [page] } else e
        openPages := s.store.openPages ++ [⟨doc, index, none, 0, 0, false, []⟩] } } := by
    unfold Store.addPage
    rw [State.storedWidth_eq, d.newIndex_eq, number]
    rfl
  rw [added] at opens
  rw [← opens]
  have opened : (s.openPageFor m doc none).store.openPage? doc = some ⟨doc, index, none, 0, 0, false, []⟩ := by
    rw [opens]
    show (s.store.openPages ++ [_]).find? _ = _
    rw [List.find?_append, show s.store.openPages.find? _ = none from absent]
    simp
  rw [State.takeLine_of_opened l absent opened, State.takeLine_of_open l opened]

theorem Store.mayAllocate_iff (st : Store) (total reserve : Nat) (cls : DocClass) (count : Nat) :
    st.mayAllocate total reserve cls count = true ↔ if cls = .received then count ≤ total - st.map.length
      else count = 0 ∨ reserve + count ≤ total - st.map.length := by
  unfold Store.mayAllocate Store.freeCount
  cases cls with
  | received => simp
  | outgoing => simp
  | copySpool => simp

theorem Store.classOf_received_iff (st : Store) (doc : Nat) :
    st.classOf doc = .received ↔ (st.doc? doc).map Document.cls = some .received := by
  unfold Store.classOf
  cases st.doc? doc with
  | none => simp
  | some d => simp

/-- A line for which a page is open: refused, or with its segments allocated. -/
theorem State.takeLine_opened (l : SlotLine) {o : OpenPage} (opened : s.store.openPage? doc = some o) :
    let d := s.store.doc? doc
    let room := match o.seg with
      | none => 0
      | some n => 2032 - (s.store.memory.read n).data.length
    let need := ((encodeLine l.dots).length - room + 2031) / 2032
    let free := s.total - s.store.map.length
    let lines := ((d.bind fun d => d.pages.find? fun p => p.index == o.index).map Page.lines).getD 0
    let refused := 8191 ≤ lines ∨ (if d.map Document.cls = some .received then free < need
      else need ≠ 0 ∧ free < s.reserve + need)
    (refused → s.takeLine m l doc
      = (({ s with store := s.store.closePage doc .truncated } : State).report 0xE8
        ([0] ++ bytes2 doc ++ [byte1 o.index])).failMove .storeFull m.id)
    ∧ (¬refused → s.takeLine m l doc = { s with store := { s.store.allocate s.total need o with
      transfer := some m.id } }) := by
  intro d room need free lines refused
  have room_eq : s.store.openRoom o = room := by
    obtain ⟨_, _, seg, _, _, _, _⟩ := o
    cases seg with
    | none => rfl
    | some n => rfl
  have need_eq : s.store.segmentsNeeded o (encodeLine l.dots).length = need := by
    unfold Store.segmentsNeeded
    rw [room_eq]
    rfl
  have lines_eq : s.store.pageLines doc o.index = lines := rfl
  have allows := s.store.mayAllocate_iff s.total s.reserve (s.store.classOf doc) need
  simp only [Store.classOf_received_iff] at allows
  have goes : s.takeLine m l doc = if Config.maxPageLines ≤ lines then s.truncate m doc o.index
      else if s.store.mayAllocate s.total s.reserve (s.store.classOf doc) need then
        s.onStore fun st => { st.allocate s.total need o with transfer := some m.id }
      else s.truncate m doc o.index := by
    rw [State.takeLine_of_open l opened, ← need_eq, ← lines_eq]
    rfl
  have full : s.truncate m doc o.index = (({ s with store := s.store.closePage doc .truncated } : State).report 0xE8
      ([0] ++ bytes2 doc ++ [byte1 o.index])).failMove .storeFull m.id := rfl
  refine ⟨fun bad => ?_, fun good => ?_⟩
  · rw [goes, ← full]
    by_cases long : 8191 ≤ lines
    · exact if_pos long
    · refine (if_neg long).trans (if_neg fun may => ?_)
      have scarce := bad.resolve_left long
      have enough := allows.mp may
      split_ifs at scarce enough
      · omega
      · omega
  · obtain ⟨short, room'⟩ := not_or.mp good
    rw [goes]
    refine (if_neg short).trans (if_pos (allows.mpr ?_))
    split_ifs at room' ⊢
    · omega
    · omega

end take

/-! ## A line is written (R130, R153, R155) -/

section write

variable {s : State} {m : Move} {l : SlotLine} {rest : List SlotLine} {doc : Nat} {o : OpenPage}

theorem State.exec_storeLineWritten {id : Nat} (clocked : s.clocked = true) (turn : s.store.transfer = some id)
    (found : s.move? id = some m) (queue : m.queue = l :: rest) (due : m.writeDue = true) :
    exec .storeLineWritten s = .next (s.writeLine m l).settle := by
  have serves : s.transferring? = some m := by
    unfold State.transferring?
    rw [turn]
    exact found
  show execStoreLineWritten s = _
  unfold execStoreLineWritten
  simp only [serves, queue, clocked, due, Bool.and_self, if_true]

/-- The store as the turn of a line leaves it: the header writes due are made, and the turn has passed. -/
def Store.turnOver (id : Nat) (st : Store) : Store := { st with
  memory := st.memory.writeHeaders (st.making.map st.asWritten)
  making := []
  transfer := none
  turn := some id }

variable (found : s.move? m.id = some m) (sink : m.sinkDoc? = some doc) (opened : s.store.openPage? doc = some o)

include sink opened in
theorem State.writeLine_eq : s.writeLine m l = (s.onStore (Store.turnOver m.id)).lineWritten m l doc o := by
  have page : ((s.onStore Store.makeWrites).onStore (Store.endTransfer m.id)).sinkPage? m = some o := by
    unfold State.sinkPage?
    rw [sink]
    exact opened
  unfold State.writeLine
  simp only [page, Store.openPage?_doc opened]
  rfl

include found sink opened in
/-- A line without the page-end mark. -/
theorem State.writeLine_of_line (queue : m.queue = l :: rest) (inside : l.pageEnd = false) :
    let t := s.writeLine m l
    t.store = (s.store.turnOver m.id).writeLine o (encodeLine l.dots) ∧ t.link = s.link
      ∧ ∃ n, t.move? m.id = some n ∧ n.queue = rest
        ∧ n.counters = { m.counters with
          delivered := m.counters.delivered + 1
          curLines := m.counters.curLines + 1 } := by
  have goes : s.writeLine m l = (s.onStore fun _ => (s.store.turnOver m.id).writeLine o (encodeLine l.dots)).onMove m.id
      (Move.deliver false) := by
    rw [State.writeLine_eq sink opened]
    unfold State.lineWritten
    simp only [inside, Bool.false_eq_true, if_false]
    rfl
  dsimp only
  rw [goes]
  exact ⟨rfl, rfl, m.deliver false, State.move?_deliver found, congrArg List.tail queue, rfl⟩

include found sink opened in
/-- A line with the mark closes its page, and the sink page is complete. -/
theorem State.writeLine_of_pageEnd (queue : m.queue = l :: rest) (ends : l.pageEnd = true) (running : m.state = .running) :
    let t := s.writeLine m l
    t.store = ((s.store.turnOver m.id).writeLine o (encodeLine l.dots)).closePage doc .complete
      ∧ t.link = s.link.report 0xE5
        ([byte1 m.number, 1] ++ bytes2 m.counters.curPage ++ bytes2 (m.counters.curLines + 1))
      ∧ ∃ n, t.move? m.id = some n ∧ n.queue = rest
        ∧ n.counters = { m.counters with
          delivered := m.counters.delivered + 1
          pagesCompleted := m.counters.pagesCompleted + 1
          curPage := m.counters.curPage + 1
          curLines := 0 } := by
  let st := ((s.store.turnOver m.id).writeLine o (encodeLine l.dots)).closePage doc .complete
  let u := (s.onMove m.id (Move.deliver false)).onStore fun _ => st
  have delivered : u.move? m.id = some (m.deliver false) := State.move?_deliver found
  let v := (u.reportPage m.number .stored m.counters.curPage (m.counters.curLines + 1)).onMove m.id Move.completePage
  have completes : u.completeSinkPage m.id .stored = v := State.completeSinkPage_of_some delivered .stored
  have completed : v.move? m.id = some (m.deliver false).completePage :=
    (State.move?_onMove (s := u.reportPage m.number .stored m.counters.curPage (m.counters.curLines + 1))
      (f := Move.completePage) fun _ => rfl).trans (congrArg (Option.map Move.completePage) delivered)
  have stays : v.endIfDrained m.id = v := by
    unfold State.endIfDrained
    rw [completed]
    exact if_neg (by simp [Move.completePage, Move.deliver, running])
  have goes : s.writeLine m l = v := by
    rw [State.writeLine_eq sink opened]
    unfold State.lineWritten
    simp only [ends, if_true]
    refine Eq.trans ?_ stays
    rw [← completes]
    rfl
  dsimp only
  rw [goes]
  exact ⟨rfl, rfl, (m.deliver false).completePage, completed, congrArg List.tail queue, rfl⟩

end write

/-- Settles O52. -/
theorem linesAreWritten : Obligations.LinesAreWritten := by
  unfold Obligations.LinesAreWritten
  refine ⟨fun s id m l rest doc held awake turn found queue sink flowing ready => ?_,
    fun s m l rest doc o found queue sink opened => ⟨fun inside => ?_, fun ends running => ?_⟩,
    fun st o coded => ⟨?_, fun d p found page => ?_, fun n wf seg alone _ => Store.writeLine_fits wf coded seg alone,
      fun n k wf seg one other => ?_, fun n k j wf seg two kn jn jk => ?_,
      fun k wf fresh one => Store.writeLine_first wf coded fresh one⟩,
    fun s m l doc absent => State.takeLine_unopened l absent,
    fun st doc o d p condition wf opened found page => Store.closePage_spec wf opened found page condition,
    fun st n => ⟨fun bytes => rfl, fun h => ⟨st.asWritten_of_plain n, st.asWritten_of_gone n,
      fun d p last found page closed chain => st.asWritten_of_last n last found page closed chain⟩⟩,
    fun st o x opened => Store.abandonLine_spec opened,
    fun s m l doc o opened => State.takeLine_opened l opened,
    fun st total count o => ⟨fun n mem => st.taken_spec total count mem, st.allocate_spec total count o⟩⟩
  · have due : m.writeDue = true := by
      unfold Move.writeDue
      rw [sink, flowing, queue]
      simp [ready]
    exact State.exec_storeLineWritten (State.clocked_of held awake) turn found queue due
  · exact State.writeLine_of_line found sink opened queue inside
  · exact State.writeLine_of_pageEnd found sink opened queue ends running
  · rw [Store.writeLine_doc?, Option.map_eq_none_iff]
  · refine ⟨_, (Store.writeLine_doc? o coded st).trans (congrArg _ found), ?_⟩
    exact Document.onPage_page? (f := fun p => { p with lines := p.lines + 1, bytes := p.bytes + coded.length })
      (fun _ => rfl) page
  · intro data room header opened closed _ _
    exact Store.writeLine_goesOn wf coded seg one other
  · intro data room middle header _ _
    exact Store.writeLine_goesThrough wf coded seg two kn jn jk

end Sys2Proof.Machine
end

section
/-! PROOFS. Format and recovery (R146, R187 to R191): the classes of headers, the chains walked, and those that become
pages. -/

namespace Sys2Proof.Machine

/-! ## The class of a header (R146, R188) -/

theorem retiredMatches_eq (bytes : List Byte) :
    retiredMatches bytes = ((List.zip bytes retiredMark).filter fun x => x.1 == x.2).length := by
  unfold retiredMatches
  rw [← List.map_uncurry_zip_eq_zipWith, List.filter_map, List.length_map]
  rfl

theorem UsedHeader.inRange_iff (total : Nat) (h : UsedHeader) : h.inRange total = true ↔ 1 ≤ h.doc ∧ h.doc ≤ 65535
    ∧ 1 ≤ h.page ∧ h.page ≤ 255 ∧ h.bytes ≤ 2032 ∧ ∀ n ∈ h.next, n < total := by
  unfold UsedHeader.inRange
  simp only [Bool.and_eq_true, decide_eq_true_eq, and_assoc]
  cases h.next with
  | none => simp [Config.maxPageIndex, Config.segmentData]
  | some n => simp [Config.maxPageIndex, Config.segmentData]

theorem SegHeader.classify_used (total : Nat) (h : UsedHeader) :
    (SegHeader.used h).classify total = if h.inRange total then .used h else .unreadable := rfl

theorem SegHeader.classify_raw (total : Nat) (bytes : List Byte) : (SegHeader.raw bytes).classify total
    = if 12 ≤ retiredMatches bytes then .retired else if bytes = freeMark then .free else .unreadable := rfl

/-- A header that is USED is written so, with its fields in range. -/
theorem SegHeader.classify_eq_used {x : SegHeader} {total : Nat} {h : UsedHeader} (used : x.classify total = .used h) :
    x = .used h ∧ h.inRange total = true := by
  cases x with
  | raw bytes =>
    rw [SegHeader.classify_raw] at used
    split_ifs at used
  | used g =>
    rw [SegHeader.classify_used] at used
    split_ifs at used with fits
    cases used
    exact ⟨rfl, fits⟩

theorem SegHeader.classify_eq_free {x : SegHeader} {total : Nat} (free : x.classify total = .free) :
    x = .raw (List.replicate 16 0xFF) := by
  cases x with
  | raw bytes =>
    rw [SegHeader.classify_raw] at free
    split_ifs at free with matches_ mark
    rw [mark]
    rfl
  | used g =>
    rw [SegHeader.classify_used] at free
    split_ifs at free

/-! ## The walk of a chain (R189) -/

/-- A link leads from one segment of a page to the next. -/
def Linked (a b : Nat × UsedHeader) : Prop :=
  a.2.next = some b.1 ∧ b.2.doc = a.2.doc ∧ b.2.page = a.2.page ∧ b.2.seq = a.2.seq + 1

/-- What a walk with so much fuel from a segment gives. -/
structure WalkFrom (m : PageMemory) (total fuel : Nat) (start : Nat × UsedHeader)
    (w : List (Nat × UsedHeader) × Bool) : Prop where
  head : w.1.head? = some start
  links : ∀ l ∈ w.1, m.classOf total l.1 = .used l.2 ∧ l.1 < total
  linked : w.1.IsChain Linked
  ended : w.2 = true → ∃ l, w.1.getLast? = some l ∧ l.2.next = none
  fuelled : w.2 = false → ∀ l, w.1.getLast? = some l → l.2.next = none → fuel < w.1.length

section walk

variable {m : PageMemory} {total fuel n : Nat} {h : UsedHeader}

theorem PageMemory.walk_of_last (last : h.next = none) : m.walk total (fuel + 1) n h = ([(n, h)], true) := by
  unfold PageMemory.walk
  rw [last]

theorem PageMemory.walk_of_link {k : Nat} {g : UsedHeader} (next : h.next = some k) (used : m.classOf total k = .used g)
    (same : g.doc = h.doc ∧ g.page = h.page ∧ g.seq = h.seq + 1) :
    m.walk total (fuel + 1) n h = ((n, h) :: (m.walk total fuel k g).1, (m.walk total fuel k g).2) := by
  rw [PageMemory.walk]
  simp only [next, used]
  rw [if_pos same]

theorem PageMemory.walk_of_break {k : Nat} (next : h.next = some k)
    (broken : ∀ g, m.classOf total k = .used g → ¬(g.doc = h.doc ∧ g.page = h.page ∧ g.seq = h.seq + 1)) :
    m.walk total (fuel + 1) n h = ([(n, h)], false) := by
  rw [PageMemory.walk]
  simp only [next]
  split
  next g used => exact if_neg (broken g used)
  · rfl

theorem PageMemory.walk_spec (fuel : Nat) {n : Nat} {h : UsedHeader} (used : m.classOf total n = .used h) (inside : n < total) :
    WalkFrom m total fuel (n, h) (m.walk total fuel n h) := by
  have one (l : Nat × UsedHeader) (mem : l ∈ [(n, h)]) : m.classOf total l.1 = .used l.2 ∧ l.1 < total := by
    rw [List.mem_singleton.mp mem]
    exact ⟨used, inside⟩
  induction fuel generalizing n h with
  | zero => exact ⟨rfl, one, .singleton _, nofun, fun _ _ _ _ => Nat.one_pos⟩
  | succ fuel ih =>
    cases next : h.next with
    | none =>
      rw [PageMemory.walk_of_last next]
      exact ⟨rfl, one, .singleton _, fun _ => ⟨(n, h), rfl, next⟩, nofun⟩
    | some k =>
      by_cases follows : ∃ g, m.classOf total k = .used g ∧ g.doc = h.doc ∧ g.page = h.page ∧ g.seq = h.seq + 1
      · obtain ⟨g, class_, same⟩ := follows
        obtain ⟨-, -, -, -, -, linksInside⟩ := (h.inRange_iff total).mp (SegHeader.classify_eq_used used).2
        have inside' : k < total := linksInside k next
        obtain ⟨head, links, linked, ended, fuelled⟩ := ih class_ inside' (fun l mem => by
          rw [List.mem_singleton.mp mem]
          exact ⟨class_, inside'⟩)
        rw [PageMemory.walk_of_link next class_ same]
        obtain ⟨rest, walk⟩ := List.head?_eq_some_iff.mp head
        have last : ((n, h) :: (m.walk total fuel k g).1).getLast? = (m.walk total fuel k g).1.getLast? := by
          rw [walk]
          exact List.getLast?_cons_cons ..
        refine ⟨rfl, ?_, ?_, fun whole => ?_, fun broken l at_ free => ?_⟩
        · exact List.forall_mem_cons.mpr ⟨⟨used, inside⟩, links⟩
        · rw [walk] at linked ⊢
          exact List.isChain_cons_cons.mpr ⟨⟨next, same⟩, linked⟩
        · obtain ⟨l, at_, free⟩ := ended whole
          exact ⟨l, last.trans at_, free⟩
        · have := fuelled broken l (last.symm.trans at_) free
          rw [List.length_cons]
          omega
      · rw [PageMemory.walk_of_break next fun g class_ same => follows ⟨g, class_, same⟩]
        refine ⟨rfl, one, .singleton _, nofun, fun _ l at_ free => ?_⟩
        cases at_
        exact absurd (next.symm.trans free) (Option.some_ne_none k)

end walk

/-! ## The chains of a page memory (R189) -/

section chains

variable (m : PageMemory) (total : Nat)

/-- The walk from a segment, when it is the first one of a chain. -/
def PageMemory.chainAt (n : Nat) : Option Chain :=
  match m.classOf total n with
  | .used h => if h.seq = 0 then some ⟨(m.walk total total n h).1, m.isWhole (m.walk total total n h).1
      (m.walk total total n h).2⟩ else none
  | _ => none

theorem PageMemory.chains_eq : m.chains total = (List.range total).filterMap (m.chainAt total) := rfl

/-- A chain of the page memory comes from a walk. -/
theorem PageMemory.chainAt_spec {n : Nat} {c : Chain} (inside : n < total) (some_ : m.chainAt total n = some c) :
    ∃ h ended, h.seq = 0 ∧ WalkFrom m total total (n, h) (c.links, ended) ∧ c.whole = m.isWhole c.links ended := by
  unfold PageMemory.chainAt at some_
  split at some_
  next h class_ =>
    split_ifs at some_ with first
    cases some_
    exact ⟨h, _, first, PageMemory.walk_spec total class_ inside, rfl⟩
  · cases some_

theorem PageMemory.mem_chains {c : Chain} (mem : c ∈ m.chains total) :
    ∃ n h ended, h.seq = 0 ∧ WalkFrom m total total (n, h) (c.links, ended) ∧ c.whole = m.isWhole c.links ended := by
  rw [PageMemory.chains_eq, List.mem_filterMap] at mem
  obtain ⟨n, inside, some_⟩ := mem
  exact ⟨n, m.chainAt_spec total (List.mem_range.mp inside) some_⟩

theorem PageMemory.checkGood_iff (n : Nat) (h : UsedHeader) : m.checkGood n h = true
    ↔ crc16 ((m.read n).data.take h.bytes) = h.check ∧ h.bytes ≤ (m.read n).data.length := by
  unfold PageMemory.checkGood
  simp only [Bool.and_eq_true, beq_iff_eq, List.length_take, min_eq_left_iff]

/-- When a walk that has ended is whole. -/
theorem PageMemory.isWhole_iff (links : List (Nat × UsedHeader)) (ended : Bool) : m.isWhole links ended = true
    ↔ ended = true ∧ (∃ n h attrs, links.getLast? = some (n, h) ∧ h.last = some attrs ∧ attrs.inRange = true
        ∧ (links.map fun l => l.2.lineEnds).sum = attrs.lines)
      ∧ (∀ l ∈ links, crc16 ((m.read l.1).data.take l.2.bytes) = l.2.check ∧ l.2.bytes ≤ (m.read l.1).data.length)
      ∧ ∃ l, links.head? = some l ∧ l.2.continued = false := by
  unfold PageMemory.isWhole
  simp only [Bool.and_eq_true, List.all_eq_true, PageMemory.checkGood_iff, and_assoc]
  refine and_congr_right fun _ => and_congr ?_ (and_congr_right fun _ => ?_)
  · cases last : links.getLast? with
    | none => simp
    | some l =>
      obtain ⟨n, h⟩ := l
      cases attrs : h.last with
      | none => simp [attrs]
      | some a => simp [attrs]
  · cases links.head? with
    | none => simp
    | some l => simp

end chains

end Sys2Proof.Machine
end

section
/-! PROOFS. The chains that become pages, and the directory they give (R189, R190). -/

namespace Sys2Proof.Machine

/-! ## The chains of a page memory, as they are walked -/

section chains

variable (m : PageMemory) (total : Nat)

theorem WalkFrom.first {start : Nat × UsedHeader} {fuel : Nat} {c : Chain} {ended : Bool}
    (walk : WalkFrom m total fuel start (c.links, ended)) : c.first = start.1 := by
  unfold Chain.first
  rw [show c.links.head? = some start from walk.head]
  rfl

/-- The first segment of a chain is USED with sequence 0. -/
def HeaderClass.isFirst : HeaderClass → Bool
  | .used h => h.seq == 0
  | _ => false

/-- A chain is walked from every first segment, in ascending number. -/
theorem PageMemory.chains_first : (m.chains total).map Chain.first
    = (List.range total).filter fun n => ((m.read n).header.classify total).isFirst := by
  rw [PageMemory.chains_eq, List.map_filterMap, ← List.filterMap_eq_filter]
  refine List.filterMap_congr fun n mem => ?_
  have inside := List.mem_range.mp mem
  have spec (c : Chain) (some_ : m.chainAt total n = some c) : c.first = n := by
    obtain ⟨h, ended, -, walk, -⟩ := m.chainAt_spec total inside some_
    exact walk.first
  cases class_ : (m.read n).header.classify total with
  | used h =>
    have at_ : m.chainAt total n = if h.seq = 0 then some ⟨(m.walk total total n h).1,
        m.isWhole (m.walk total total n h).1 (m.walk total total n h).2⟩ else none := by
      unfold PageMemory.chainAt PageMemory.classOf
      rw [class_]
    by_cases first : h.seq = 0
    · rw [if_pos first] at at_
      rw [at_, Option.map_some, spec _ at_]
      simp [Option.guard, class_, HeaderClass.isFirst, first]
    · rw [if_neg first] at at_
      rw [at_]
      simp [Option.guard, class_, HeaderClass.isFirst, first]
  | free | retired | unreadable =>
    have at_ : m.chainAt total n = none := by
      unfold PageMemory.chainAt PageMemory.classOf
      rw [class_]
    rw [at_]
    simp [Option.guard, class_, HeaderClass.isFirst]

/-- A chain that is whole, in the terms of R189. -/
def Chain.Good (m : PageMemory) (c : Chain) (attrs : LastAttrs) : Prop :=
  attrs.inRange = true ∧ (c.links.map fun l => l.2.lineEnds).sum = attrs.lines
    ∧ (∀ l ∈ c.links, crc16 ((m.read l.1).data.take l.2.bytes) = l.2.check ∧ l.2.bytes ≤ (m.read l.1).data.length)
    ∧ ∀ l, c.links.head? = some l → l.2.continued = false

theorem Chain.whole_spec {c : Chain} (mem : c ∈ m.chains total) (whole : c.whole = true) :
    ∃ (n : Nat) (h : UsedHeader) (attrs : LastAttrs), c.links.getLast? = some (n, h)
      ∧ h.next = none ∧ h.last = some attrs ∧ c.Good m attrs := by
  obtain ⟨n₀, h₀, ended, -, walk, eq⟩ := m.mem_chains total mem
  obtain ⟨done_, ⟨n, h, attrs, last, has, fits, lines⟩, checks, l, head, begun⟩ :=
    (m.isWhole_iff c.links ended).mp (eq ▸ whole)
  obtain ⟨l', last', free⟩ := walk.ended done_
  cases last.symm.trans last'
  refine ⟨n, h, attrs, last, free, has, fits, lines, checks, fun l' head' => ?_⟩
  cases head.symm.trans head'
  exact begun

theorem Chain.whole_of_good {c : Chain} (mem : c ∈ m.chains total) (short : c.links.length ≤ total) {n : Nat}
    {h : UsedHeader} {attrs : LastAttrs} (last : c.links.getLast? = some (n, h)) (free : h.next = none)
    (has : h.last = some attrs) (good : c.Good m attrs) : c.whole = true := by
  obtain ⟨n₀, h₀, ended, -, walk, eq⟩ := m.mem_chains total mem
  obtain ⟨fits, lines, checks, begun⟩ := good
  have done_ : ended = true := by
    by_contra broken
    have long : total < c.links.length := walk.fuelled (Bool.eq_false_iff.mpr broken) (n, h) last free
    omega
  rw [eq, PageMemory.isWhole_iff]
  exact ⟨done_, ⟨n, h, attrs, last, has, fits, lines⟩, checks, (n₀, h₀), walk.head, begun _ walk.head⟩

theorem Chain.links_spec {c : Chain} (mem : c ∈ m.chains total) :
    (∀ l ∈ c.links, m.classOf total l.1 = .used l.2 ∧ l.1 < total)
      ∧ ∀ i a b, c.links[i]? = some a → c.links[i + 1]? = some b → Linked a b := by
  obtain ⟨n₀, h₀, ended, -, walk, -⟩ := m.mem_chains total mem
  refine ⟨walk.links, fun i a b at_ next => ?_⟩
  obtain ⟨inside, rfl⟩ := List.getElem?_eq_some_iff.mp next
  obtain ⟨inside', rfl⟩ := List.getElem?_eq_some_iff.mp at_
  exact List.isChain_iff_getElem.mp walk.linked i inside

end chains

/-! ## The chain that becomes a page (R190) -/

theorem Chain.beats_iff (o c : Chain) : o.beats c = true ↔ o.doc = c.doc ∧ o.page = c.page
    ∧ (c.links.length < o.links.length ∨ o.links.length = c.links.length ∧ o.first < c.first) := by
  unfold Chain.beats
  simp only [Bool.and_eq_true, Bool.or_eq_true, beq_iff_eq, decide_eq_true_eq, and_assoc, gt_iff_lt]

theorem mem_winners (cs : List Chain) (c : Chain) :
    c ∈ winners cs ↔ c ∈ cs ∧ c.whole = true ∧ ∀ o ∈ cs, o.whole = true → o.doc = c.doc → o.page = c.page →
      o.links.length < c.links.length ∨ (o.links.length = c.links.length ∧ c.first ≤ o.first) := by
  unfold winners
  simp only [List.mem_filter, Bool.not_eq_true', List.any_eq_false, Chain.beats_iff, and_assoc]
  refine and_congr_right fun _ => and_congr_right fun _ => ⟨fun unbeaten o mem whole doc page => ?_,
    fun best o mem beaten => ?_⟩
  · have := unbeaten o ⟨mem, whole⟩
    simp only [doc, page, true_and] at this
    omega
  · obtain ⟨doc, page, more⟩ := beaten
    have := best o mem.1 mem.2 doc page
    omega

/-- A whole chain has the attributes of its page, and with them its record. -/
theorem Chain.attrs?_of_last {c : Chain} {n : Nat} {h : UsedHeader} {attrs : LastAttrs}
    (last : c.links.getLast? = some (n, h)) (has : h.last = some attrs) : c.attrs? = some attrs := by
  unfold Chain.attrs? Chain.lastHeader?
  rw [last]
  exact has

theorem Chain.pageRecord_of_attrs {c : Chain} {a : LastAttrs} (attrs : c.attrs? = some a) :
    c.pageRecord = some ⟨c.page, a.width, a.density, a.lines, (c.links.map fun l => l.2.bytes).sum, some c.first,
      c.links.length, a.condition, a.startOffset, a.damaged, a.printed⟩ := by
  unfold Chain.pageRecord
  rw [attrs]
  rfl

theorem Chain.pageRecord_index {c : Chain} {p : Page} (record : c.pageRecord = some p) : p.index = c.page := by
  unfold Chain.pageRecord at record
  obtain ⟨a, -, rfl⟩ := Option.map_eq_some_iff.mp record
  rfl

/-! ## The chains of a document, by page index -/

theorem insertChain_perm (c : Chain) (l : List Chain) : (insertChain c l).Perm (c :: l) := by
  induction l with
  | nil => exact List.Perm.refl _
  | cons d l ih =>
    unfold insertChain
    split
    · exact List.Perm.refl _
    · exact (ih.cons d).trans (List.Perm.swap c d l)

theorem pairwise_insertChain (c : Chain) {l : List Chain} (rising : l.Pairwise fun a b => a.page ≤ b.page) :
    (insertChain c l).Pairwise fun a b => a.page ≤ b.page := by
  induction l with
  | nil => exact List.pairwise_singleton _ c
  | cons d l ih =>
    obtain ⟨least, rest⟩ := List.pairwise_cons.mp rising
    unfold insertChain
    split
    next le =>
      refine List.pairwise_cons.mpr ⟨fun e mem => ?_, rising⟩
      obtain rfl | mem := List.mem_cons.mp mem
      · exact le
      · exact le.trans (least e mem)
    next gt =>
      refine List.pairwise_cons.mpr ⟨fun e mem => ?_, ih rest⟩
      obtain rfl | mem := List.mem_cons.mp ((insertChain_perm c l).mem_iff.mp mem)
      · omega
      · exact least e mem

theorem chainsOfDoc_perm (n : Nat) (cs : List Chain) : (chainsOfDoc n cs).Perm (cs.filter fun c => c.doc == n) := by
  unfold chainsOfDoc
  induction cs.filter fun c => c.doc == n with
  | nil => exact List.Perm.refl _
  | cons c l ih => exact (insertChain_perm c _).trans (ih.cons c)

theorem mem_chainsOfDoc {n : Nat} {cs : List Chain} {c : Chain} : c ∈ chainsOfDoc n cs ↔ c ∈ cs ∧ c.doc = n := by
  rw [(chainsOfDoc_perm n cs).mem_iff, List.mem_filter, beq_iff_eq]

theorem pairwise_chainsOfDoc (n : Nat) (cs : List Chain) : (chainsOfDoc n cs).Pairwise fun a b => a.page ≤ b.page := by
  unfold chainsOfDoc
  induction cs.filter fun c => c.doc == n with
  | nil => exact List.Pairwise.nil
  | cons c l ih => exact pairwise_insertChain c ih

/-! ## The document numbers -/

/-- A number once, where it stands several times in a row. -/
def keepOnce (n : Nat) (acc : List Nat) : List Nat := if acc.head? = some n then acc else n :: acc

theorem mem_keepOnce {n k : Nat} {acc : List Nat} : k ∈ keepOnce n acc ↔ k = n ∨ k ∈ acc := by
  unfold keepOnce
  split
  next head =>
    refine ⟨.inr, fun mem => mem.elim (fun same => ?_) fun mem => mem⟩
    rw [same]
    exact List.mem_of_head? head
  · exact List.mem_cons

theorem pairwise_keepOnce {n : Nat} {acc : List Nat} (least : ∀ k ∈ acc, n ≤ k) (strict : acc.Pairwise (· < ·)) :
    (keepOnce n acc).Pairwise (· < ·) := by
  unfold keepOnce
  split
  · exact strict
  next other =>
    refine List.pairwise_cons.mpr ⟨fun k mem => ?_, strict⟩
    cases acc with
    | nil => cases mem
    | cons a more =>
      have head : n ≠ a := fun same => other (congrArg some same.symm)
      have low : n ≤ a := least a List.mem_cons_self
      obtain rfl | later := List.mem_cons.mp mem
      · omega
      · have := (List.pairwise_cons.mp strict).1 k later
        omega

/-- A rising list with each number once. -/
theorem foldr_keepOnce {l : List Nat} (rising : l.Pairwise (· ≤ ·)) :
    (l.foldr keepOnce []).Pairwise (· < ·) ∧ ∀ k, k ∈ l.foldr keepOnce [] ↔ k ∈ l := by
  induction l with
  | nil => exact ⟨List.Pairwise.nil, fun k => Iff.rfl⟩
  | cons n l ih =>
    obtain ⟨least, rest⟩ := List.pairwise_cons.mp rising
    obtain ⟨strict, same⟩ := ih rest
    exact ⟨pairwise_keepOnce (fun k mem => least k ((same k).mp mem)) strict,
      fun k => mem_keepOnce.trans ((or_congr_right (same k)).trans List.mem_cons.symm)⟩

theorem docNumbers_spec (cs : List Chain) :
    (docNumbers cs).Pairwise (· < ·) ∧ ∀ n, n ∈ docNumbers cs ↔ ∃ c ∈ cs, c.doc = n := by
  obtain ⟨strict, same⟩ := foldr_keepOnce (pairwise_sortNat (cs.map Chain.doc))
  refine ⟨strict, fun n => (same n).trans ?_⟩
  rw [mem_sortNat, List.mem_map]

theorem length_docNumbers (cs : List Chain) : (docNumbers cs).length = (cs.map Chain.doc).dedup.length := by
  obtain ⟨strict, same⟩ := docNumbers_spec cs
  refine List.Perm.length_eq ((List.perm_ext_iff_of_nodup (strict.imp ne_of_lt) (List.nodup_dedup _)).mpr fun n => ?_)
  rw [same, List.mem_dedup, List.mem_map]

/-! ## The documents entered (R190) -/

/-- The pages of a directory. -/
def pagesOf (dir : List Document) : Nat := (dir.map fun d => d.pages.length).sum

/-- A document is entered while both limits hold. -/
def Enters (dir : List Document) (d : Document) : Prop := dir.length < 64 ∧ pagesOf dir + d.pages.length ≤ 256

section enter

variable {cs : List Chain} {dir : List Document} {n : Nat} {ns : List Nat} {d : Document}

theorem enterDocs_of_none (unread : docRecord n (chainsOfDoc n cs) = none) :
    enterDocs cs (n :: ns) dir = enterDocs cs ns dir := by
  rw [enterDocs, unread]

theorem enterDocs_of_enters (record : docRecord n (chainsOfDoc n cs) = some d) (enters : Enters dir d) :
    enterDocs cs (n :: ns) dir = enterDocs cs ns (dir ++ [d]) := by
  rw [enterDocs, record]
  exact if_pos enters

theorem enterDocs_of_full (record : docRecord n (chainsOfDoc n cs) = some d) (full : ¬Enters dir d) :
    enterDocs cs (n :: ns) dir = enterDocs cs ns dir := by
  rw [enterDocs, record]
  exact if_neg full

/-- What holds of a directory, and stays with each document entered, holds of the directory in the end. -/
theorem enterDocs_induct {P : List Document → Prop} (start : P dir)
    (step : ∀ dir n d, n ∈ ns → docRecord n (chainsOfDoc n cs) = some d → Enters dir d → P dir → P (dir ++ [d])) :
    P (enterDocs cs ns dir) := by
  induction ns generalizing dir with
  | nil => exact start
  | cons n ns ih =>
    have step' : ∀ dir k d, k ∈ ns → docRecord k (chainsOfDoc k cs) = some d → Enters dir d → P dir → P (dir ++ [d]) :=
      fun dir k d mem => step dir k d (List.mem_cons_of_mem n mem)
    cases record : docRecord n (chainsOfDoc n cs) with
    | none =>
      rw [enterDocs_of_none record]
      exact ih start step'
    | some d =>
      by_cases enters : Enters dir d
      · rw [enterDocs_of_enters record enters]
        exact ih (step dir n d List.mem_cons_self record enters start) step'
      · rw [enterDocs_of_full record enters]
        exact ih start step'

theorem pagesOf_append (dir : List Document) (d : Document) : pagesOf (dir ++ [d]) = pagesOf dir + d.pages.length := by
  simp [pagesOf]

theorem enterDocs_limits (cs : List Chain) (ns : List Nat) :
    (enterDocs cs ns []).length ≤ 64 ∧ pagesOf (enterDocs cs ns []) ≤ 256 := by
  refine enterDocs_induct (P := fun dir => dir.length ≤ 64 ∧ pagesOf dir ≤ 256) ⟨Nat.zero_le _, Nat.zero_le _⟩
    fun dir n d _ _ enters _ => ?_
  obtain ⟨few, fewer⟩ := enters
  rw [List.length_append, pagesOf_append]
  exact ⟨few, fewer⟩

theorem mem_enterDocs (mem : d ∈ enterDocs cs ns []) : ∃ n ∈ ns, docRecord n (chainsOfDoc n cs) = some d := by
  refine enterDocs_induct (P := fun dir => ∀ d ∈ dir, ∃ n ∈ ns, docRecord n (chainsOfDoc n cs) = some d)
    (fun _ mem => absurd mem List.not_mem_nil) (fun dir n e inside record _ all d mem => ?_) d mem
  obtain old | new := List.mem_append.mp mem
  · exact all d old
  · rw [List.mem_singleton.mp new]
    exact ⟨n, inside, record⟩

/-- The record of a document comes from its chains, the lowest page first. -/
theorem docRecord_spec (record : docRecord n (chainsOfDoc n cs) = some d) :
    ∃ c a, (chainsOfDoc n cs).head? = some c ∧ c.attrs? = some a ∧ d =
      { number := n
        cls := a.cls
        closed := true
        hold := a.hold
        autoDelete := a.autoDelete
        pages := (chainsOfDoc n cs).filterMap Chain.pageRecord } := by
  unfold docRecord at record
  split at record
  · cases record
  next c rest eq =>
    obtain ⟨a, attrs, rfl⟩ := Option.map_eq_some_iff.mp record
    exact ⟨c, a, by rw [eq]; rfl, attrs, rfl⟩

theorem docRecord_of_attrs {c : Chain} (first : (chainsOfDoc n cs).head? = some c) {a : LastAttrs}
    (attrs : c.attrs? = some a) : ∃ d, docRecord n (chainsOfDoc n cs) = some d := by
  obtain ⟨rest, eq⟩ := List.head?_eq_some_iff.mp first
  unfold docRecord
  rw [eq]
  dsimp only
  rw [attrs]
  exact ⟨_, rfl⟩

theorem docRecord_pages_length (record : docRecord n (chainsOfDoc n cs) = some d) :
    d.pages.length ≤ (chainsOfDoc n cs).length := by
  obtain ⟨c, a, -, -, rfl⟩ := docRecord_spec record
  exact List.length_filterMap_le ..

theorem docRecord_number (record : docRecord n (chainsOfDoc n cs) = some d) : d.number = n := by
  obtain ⟨c, a, -, -, rfl⟩ := docRecord_spec record
  rfl

/-- The documents entered stand in the order of their numbers. -/
theorem enterDocs_numbers (cs : List Chain) (ns : List Nat) (dir : List Document) :
    ((enterDocs cs ns dir).map Document.number).Sublist (dir.map Document.number ++ ns) := by
  induction ns generalizing dir with
  | nil => rw [List.append_nil]; exact List.Sublist.refl _
  | cons n ns ih =>
    have skip : (dir.map Document.number ++ ns).Sublist (dir.map Document.number ++ n :: ns) :=
      (List.sublist_cons_self n ns).append_left _
    cases record : docRecord n (chainsOfDoc n cs) with
    | none =>
      rw [enterDocs_of_none record]
      exact (ih dir).trans skip
    | some d =>
      by_cases enters : Enters dir d
      · rw [enterDocs_of_enters record enters]
        have more := ih (dir ++ [d])
        rw [List.map_append, List.append_assoc, List.map_singleton, docRecord_number record] at more
        exact more
      · rw [enterDocs_of_full record enters]
        exact (ih dir).trans skip

/-- A document once entered stays. -/
theorem enterDocs_prefix (cs : List Chain) (ns : List Nat) (dir : List Document) : dir <+: enterDocs cs ns dir :=
  enterDocs_induct (P := fun after => dir <+: after) (List.prefix_refl dir)
    fun _ _ _ _ _ _ grows => grows.trans (List.prefix_append _ _)

/-- Within the limits every document is entered. -/
theorem enterDocs_all (few : dir.length + ns.length ≤ 64)
    (fewer : pagesOf dir + (ns.map fun n => (chainsOfDoc n cs).length).sum ≤ 256) (mem : n ∈ ns)
    (record : docRecord n (chainsOfDoc n cs) = some d) : d ∈ enterDocs cs ns dir := by
  induction ns generalizing dir with
  | nil => cases mem
  | cons k ns ih =>
    rw [List.length_cons] at few
    rw [List.map_cons, List.sum_cons] at fewer
    cases record' : docRecord k (chainsOfDoc k cs) with
    | none =>
      rw [enterDocs_of_none record']
      obtain rfl | mem := List.mem_cons.mp mem
      · rw [record] at record'
        cases record'
      · exact ih (by omega) (by omega) mem
    | some e =>
      have short := docRecord_pages_length record'
      rw [enterDocs_of_enters record' ⟨by omega, by omega⟩]
      obtain rfl | mem := List.mem_cons.mp mem
      · cases record.symm.trans record'
        exact (enterDocs_prefix cs ns (dir ++ [d])).subset (List.mem_append_right dir List.mem_cons_self)
      · exact ih (by rw [List.length_append, List.length_singleton]; omega) (by rw [pagesOf_append]; omega) mem

end enter

/-- No chain counts for two documents. -/
theorem sum_chainsOfDoc {ns : List Nat} (distinct : ns.Nodup) (cs : List Chain) :
    (ns.map fun n => (chainsOfDoc n cs).length).sum ≤ cs.length := by
  induction ns generalizing cs with
  | nil => exact Nat.zero_le _
  | cons n ns ih =>
    obtain ⟨fresh, rest⟩ := List.nodup_cons.mp distinct
    have others : (ns.map fun k => (chainsOfDoc k cs).length)
        = ns.map fun k => (chainsOfDoc k (cs.filter fun c => !(c.doc == n))).length := by
      refine List.map_congr_left fun k mem => ?_
      rw [(chainsOfDoc_perm k cs).length_eq, (chainsOfDoc_perm k _).length_eq, List.filter_filter]
      refine congrArg List.length (List.filter_congr fun c _ => ?_)
      by_cases own : c.doc = k
      · have other : c.doc ≠ n := fun same => fresh (same ▸ own ▸ mem)
        simp [own, own ▸ other]
      · simp [own]
    have split := List.length_eq_length_filter_add (l := cs) fun c => c.doc == n
    have := ih rest (cs.filter fun c => !(c.doc == n))
    rw [List.map_cons, List.sum_cons, others, (chainsOfDoc_perm n cs).length_eq]
    omega

end Sys2Proof.Machine
end

section
/-! PROOFS. What a recovery scan makes of the store (R190, R191), and the events that end a format and a scan (R187,
R192, R193, R196). -/

namespace Sys2Proof.Machine

/-! ## Segments set in the map one after another -/

section sets

variable {α : Type} (key : α → Nat) (val : α → SegUse)

/-- The map after segments have been set, when those of one number agree. -/
theorem mapRead_foldl_mapSet (n : Nat) (v : SegUse) (l : List α) (agree : ∀ a ∈ l, key a = n → val a = v)
    (m : List (Nat × SegUse)) : mapRead n (l.foldl (fun m a => mapSet (key a) (val a) m) m)
      = if n ∈ l.map key then some v else mapRead n m := by
  induction l generalizing m with
  | nil => rfl
  | cons a l ih =>
    obtain ⟨first, rest⟩ := List.forall_mem_cons.mp agree
    rw [List.foldl_cons, ih rest]
    by_cases own : n = key a
    · have same : mapRead n (mapSet (key a) (val a) m) = some v := by
        rw [← first own.symm, own]
        exact mapRead_mapSet_same ..
      rw [same, ite_self, if_pos (List.mem_map.mpr ⟨a, List.mem_cons_self, own.symm⟩)]
    · rw [mapRead_mapSet_other own]
      simp only [List.map_cons, List.mem_cons, own, false_or]

end sets

/-! ## The segments of the chains that are kept -/

section recover

variable {m : PageMemory} {total n : Nat}

/-- The use of a segment of a recovered page. -/
def linkUse (l : Nat × UsedHeader) : SegUse := .used l.2.doc l.2.page l.2.seq l.2.next

theorem recoveredMap_eq (total : Nat) (kept : List Chain) (m : PageMemory) : recoveredMap total kept m
    = (kept.flatMap Chain.links).foldl (fun acc l => mapSet l.1 (linkUse l) acc)
      (((List.range total).filter fun n => m.classOf total n == .retired).foldl (fun acc n => mapSet n .retired acc) []) := by
  rw [List.foldl_flatMap]
  rfl

/-- A segment stands in a chain. -/
def Chain.Has (c : Chain) (n : Nat) : Prop := n ∈ c.links.map Prod.fst

theorem mem_links_kept {kept : List Chain} :
    n ∈ (kept.flatMap Chain.links).map Prod.fst ↔ ∃ c ∈ kept, c.Has n := by
  rw [List.map_flatMap, List.mem_flatMap]
  exact Iff.rfl

/-- A segment of a chain is USED, and that is the header its chain has of it. -/
theorem Chain.class_of_has {c : Chain} (mem : c ∈ m.chains total) (has : c.Has n) :
    ∃ h, m.classOf total n = .used h := by
  obtain ⟨⟨k, h⟩, link, same⟩ := List.mem_map.mp has
  obtain rfl : k = n := same
  exact ⟨h, ((Chain.links_spec m total mem).1 _ link).1⟩

section kept

variable {kept : List Chain} (chains : ∀ c ∈ kept, c ∈ m.chains total)
include chains

theorem mapRead_recoveredMap_of_kept {c : Chain} (mem : c ∈ kept) (has : c.Has n) {h : UsedHeader}
    (used : m.classOf total n = .used h) :
    mapRead n (recoveredMap total kept m) = some (.used h.doc h.page h.seq h.next) := by
  rw [recoveredMap_eq, mapRead_foldl_mapSet Prod.fst linkUse n (linkUse (n, h)) _ fun l inside own => ?_,
    if_pos (mem_links_kept.mpr ⟨c, mem, has⟩)]
  · rfl
  · obtain ⟨c', mem', link⟩ := List.mem_flatMap.mp inside
    obtain ⟨k, g⟩ := l
    obtain rfl : k = n := own
    have header := ((Chain.links_spec m total (chains c' mem')).1 _ link).1
    rw [used] at header
    cases header
    rfl

omit chains in
theorem mapRead_recoveredMap_of_not (inside : n < total) (other : ∀ c ∈ kept, ¬c.Has n) :
    mapRead n (recoveredMap total kept m) = if m.classOf total n = .retired then some .retired else none := by
  rw [recoveredMap_eq, mapRead_foldl_mapSet Prod.fst linkUse n .retired _ fun l link own =>
    absurd (mem_links_kept.mp (own ▸ List.mem_map_of_mem link)) fun ⟨c, mem, has⟩ => other c mem has,
    if_neg fun mem => (mem_links_kept.mp mem).elim fun c ⟨mem, has⟩ => other c mem has,
    mapRead_foldl_mapSet (fun k => k) (fun _ => .retired) n .retired _ fun _ _ _ => rfl]
  simp [inside, mapRead]

omit chains in
theorem mem_freedSegments : n ∈ freedSegments total kept m ↔ n < total
    ∧ (m.classOf total n = .unreadable ∨ (∃ h, m.classOf total n = .used h) ∧ ∀ c ∈ kept, ¬c.Has n) := by
  unfold freedSegments
  rw [List.mem_filter, List.mem_range]
  refine and_congr_right fun _ => ?_
  cases m.classOf total n with
  | used h => simp [Chain.Has, Chain.segments]
  | free => simp
  | retired => simp
  | unreadable => simp

end kept

end recover

/-! ## The store after a recovery scan (R190, R191) -/

/-- The chains that the scan of a page memory keeps. -/
def PageMemory.kept (total : Nat) (m : PageMemory) : List Chain :=
  keptChains (m.recoveredDirectory total) (m.recoveredChains total)

section scan

variable (st : Store) (total : Nat)

theorem Store.recover_eq (unmade : st.making = []) (none_ : st.rewrites = []) : st.recover total = { st with
    memory := st.memory.freeAll (st.memory.scanFrees total)
    map := recoveredMap total (st.memory.kept total) st.memory
    directory := st.memory.recoveredDirectory total
    lastDoc := ((st.memory.recoveredDirectory total).map Document.number).foldl max 0
    openPages := []
    making := []
    rewrites := []
    docsRecovered := (st.memory.recoveredDirectory total).length
    pagesRecovered := (st.memory.kept total).length
    pagesDiscarded := (st.memory.chains total).length - (st.memory.kept total).length } := by
  have flush : st.flush = { st with making := [], rewrites := [] } := by
    unfold Store.flush Store.writesLeft
    rw [unmade, none_]
    rfl
  unfold Store.recover
  rw [flush]
  rfl

variable {total} {m : PageMemory}

theorem PageMemory.mem_kept {c : Chain} : c ∈ m.kept total ↔ c ∈ winners (m.chains total)
    ∧ ((m.recoveredDirectory total).any fun d => d.number == c.doc) = true := List.mem_filter

theorem PageMemory.kept_chains (c : Chain) (mem : c ∈ m.kept total) : c ∈ m.chains total :=
  ((mem_winners ..).mp (PageMemory.mem_kept.mp mem).1).1

/-- The attributes of a chain that becomes a page. -/
theorem Chain.attrs?_of_winner {c : Chain} (won : c ∈ winners (m.chains total)) : ∃ a, c.attrs? = some a := by
  obtain ⟨mem, whole, -⟩ := (mem_winners ..).mp won
  obtain ⟨n, h, attrs, last, -, has, -⟩ := Chain.whole_spec m total mem whole
  exact ⟨attrs, Chain.attrs?_of_last last has⟩

/-- A document of the directory, and the chains of its pages. -/
theorem PageMemory.recoveredDirectory_spec {d : Document} (mem : d ∈ m.recoveredDirectory total) :
    d.closed = true
      ∧ (∀ p ∈ d.pages, ∃ c ∈ winners (m.chains total), c.doc = d.number ∧ c.pageRecord = some p)
      ∧ (d.pages.map Page.index).Pairwise (· ≤ ·)
      ∧ ∃ c ∈ winners (m.chains total), ∃ attrs, c.doc = d.number ∧ c.attrs? = some attrs
        ∧ d.pages.head?.map Page.index = some c.page ∧ d.cls = attrs.cls ∧ d.hold = attrs.hold
        ∧ d.autoDelete = attrs.autoDelete := by
  obtain ⟨n, -, record⟩ := mem_enterDocs mem
  obtain ⟨c, a, first, attrs, rfl⟩ := docRecord_spec record
  refine ⟨rfl, fun p page => ?_, ?_, c, ?_, a, ?_, attrs, ?_, rfl, rfl, rfl⟩
  · obtain ⟨c', own, record'⟩ := List.mem_filterMap.mp page
    obtain ⟨won, doc⟩ := mem_chainsOfDoc.mp own
    exact ⟨c', won, doc, record'⟩
  · refine List.pairwise_map.mpr (List.Pairwise.filterMap _ (fun a b le p record p' record' => ?_)
      (pairwise_chainsOfDoc n (winners (m.chains total))))
    rw [Chain.pageRecord_index record, Chain.pageRecord_index record']
    exact le
  · exact (mem_chainsOfDoc.mp (List.mem_of_head? first)).1
  · exact (mem_chainsOfDoc.mp (List.mem_of_head? first)).2
  · obtain ⟨rest, chains⟩ := List.head?_eq_some_iff.mp first
    show ((chainsOfDoc n (m.recoveredChains total)).filterMap Chain.pageRecord).head?.map Page.index = _
    rw [chains, List.filterMap_cons_some (Chain.pageRecord_of_attrs attrs)]
    rfl

theorem PageMemory.recoveredDirectory_numbers (m : PageMemory) (total : Nat) :
    ((m.recoveredDirectory total).map Document.number).Pairwise (· < ·) :=
  (docNumbers_spec (winners (m.chains total))).1.sublist (enterDocs_numbers _ _ [])

/-- Within the limits of the directory every chain that has won gives its page. -/
theorem PageMemory.recoveredDirectory_all (few : ((winners (m.chains total)).map Chain.doc).dedup.length ≤ 64)
    (fewer : (winners (m.chains total)).length ≤ 256) {c : Chain} (won : c ∈ winners (m.chains total)) :
    ∃ d ∈ m.recoveredDirectory total, d.number = c.doc ∧ ∃ p ∈ d.pages, c.pageRecord = some p := by
  obtain ⟨strict, named⟩ := docNumbers_spec (winners (m.chains total))
  have own : c ∈ chainsOfDoc c.doc (winners (m.chains total)) := mem_chainsOfDoc.mpr ⟨won, rfl⟩
  obtain ⟨first, head⟩ : ∃ f, (chainsOfDoc c.doc (winners (m.chains total))).head? = some f :=
    Option.isSome_iff_exists.mp (List.isSome_head?.mpr (List.ne_nil_of_mem own))
  obtain ⟨a, attrs⟩ := Chain.attrs?_of_winner (mem_chainsOfDoc.mp (List.mem_of_head? head)).1
  obtain ⟨d, record⟩ := docRecord_of_attrs head attrs
  refine ⟨d, enterDocs_all ?_ ?_ ((named c.doc).mpr ⟨c, won, rfl⟩) record, docRecord_number record, ?_⟩
  · rw [length_docNumbers]
    exact (Nat.zero_add _).trans_le few
  · exact (Nat.zero_add _).trans_le ((sum_chainsOfDoc (strict.imp ne_of_lt) _).trans fewer)
  · obtain ⟨b, attrs'⟩ := Chain.attrs?_of_winner won
    obtain ⟨-, -, -, -, rfl⟩ := docRecord_spec record
    exact ⟨_, List.mem_filterMap.mpr ⟨c, own, Chain.pageRecord_of_attrs attrs'⟩, Chain.pageRecord_of_attrs attrs'⟩

/-- The greatest of a list's numbers, from one on. -/
theorem foldl_max_spec (l : List Nat) (n : Nat) :
    n ≤ l.foldl max n ∧ (∀ k ∈ l, k ≤ l.foldl max n) ∧ (l.foldl max n = n ∨ l.foldl max n ∈ l) := by
  induction l generalizing n with
  | nil => exact ⟨Nat.le_refl n, nofun, .inl rfl⟩
  | cons a l ih =>
    obtain ⟨low, most, reached⟩ := ih (max n a)
    refine ⟨(Nat.le_max_left n a).trans low, List.forall_mem_cons.mpr ⟨(Nat.le_max_right n a).trans low, most⟩, ?_⟩
    obtain same | mem := reached
    · rw [List.foldl_cons, same]
      obtain le | le := Nat.le_total n a
      · exact .inr (by rw [Nat.max_eq_right le]; exact List.mem_cons_self)
      · exact .inl (Nat.max_eq_left le)
    · exact .inr (List.mem_cons_of_mem a mem)

/-- Each segment after the scan: kept with its page, RETIRED, or FREE. -/
theorem PageMemory.recovered_segment (wf : m.wf = true) {n : Nat} (inside : n < total) :
    let memory := m.freeAll (m.scanFrees total)
    let map := recoveredMap total (m.kept total) m
    ((∃ c ∈ m.kept total, c.Has n) → memory.read n = m.read n
        ∧ ∃ h, (m.read n).header = .used h ∧ mapRead n map = some (.used h.doc h.page h.seq h.next))
      ∧ ((∀ c ∈ m.kept total, ¬c.Has n) → m.classOf total n = .retired →
        memory.read n = m.read n ∧ mapRead n map = some .retired)
      ∧ ((∀ c ∈ m.kept total, ¬c.Has n) → m.classOf total n ≠ .retired →
        (memory.read n).header = .raw (List.replicate 16 0xFF) ∧ mapRead n map = none) := by
  have read : (m.freeAll (m.scanFrees total)).read n = if n ∈ m.scanFrees total then Segment.blank else m.read n :=
    PageMemory.read_freeAll n _ m wf
  have freed : n ∈ m.scanFrees total ↔ n < total ∧ (m.classOf total n = .unreadable
      ∨ (∃ h, m.classOf total n = .used h) ∧ ∀ c ∈ m.kept total, ¬c.Has n) := mem_freedSegments
  dsimp only
  rw [read]
  refine ⟨fun ⟨c, mem, has⟩ => ?_, fun other retired => ?_, fun other live => ?_⟩
  · have chain := PageMemory.kept_chains c mem
    obtain ⟨h, used⟩ := Chain.class_of_has chain has
    refine ⟨if_neg fun mem' => ?_, h, (SegHeader.classify_eq_used used).1, mapRead_recoveredMap_of_kept PageMemory.kept_chains mem has used⟩
    obtain ⟨-, unreadable | ⟨-, other⟩⟩ := freed.mp mem'
    · rw [used] at unreadable
      cases unreadable
    · exact other c mem has
  · refine ⟨if_neg fun mem' => ?_, (mapRead_recoveredMap_of_not inside other).trans (if_pos retired)⟩
    obtain ⟨-, unreadable | ⟨⟨h, used⟩, -⟩⟩ := freed.mp mem'
    · rw [retired] at unreadable
      cases unreadable
    · rw [retired] at used
      cases used
  · refine ⟨?_, (mapRead_recoveredMap_of_not inside other).trans (if_neg live)⟩
    split
    · rfl
    next kept =>
      have free : m.classOf total n = .free := by
        cases class_ : m.classOf total n with
        | free => rfl
        | retired => exact absurd class_ live
        | unreadable => exact absurd (freed.mpr ⟨inside, .inl class_⟩) kept
        | used h => exact absurd (freed.mpr ⟨inside, .inr ⟨⟨h, class_⟩, other⟩⟩) kept
      exact SegHeader.classify_eq_free free

end scan

/-! ## The events (R187, R192, R193, R196) -/

section events

variable {s : State}

theorem State.exec_formatDone (clocked : s.clocked = true) (formatting : s.startup = .format) :
    exec .formatDone s
      = .next ({ s.onStore (fun st => (st.format s.total).startCheck) with startup := .check } : State).settle := by
  show execFormatDone s = _
  unfold execFormatDone
  simp only [clocked, formatting, beq_self_eq_true, Bool.and_self, if_true]

theorem State.exec_recoveryScanDone_startup (clocked : s.clocked = true) (scanning : s.startup = .scan) :
    exec .recoveryScanDone s = .next s.scanEnded.settle := by
  show execRecoveryScanDone s = _
  unfold execRecoveryScanDone
  simp only [clocked, scanning, beq_self_eq_true, Bool.and_self, if_true]

theorem State.exec_recoveryScanDone_reset (clocked : s.clocked = true) (done_ : s.startup = .done)
    (rebuilding : s.resetPhase = .rebuilding) : exec .recoveryScanDone s = .next s.rebuilt.finish := by
  show execRecoveryScanDone s = _
  unfold execRecoveryScanDone
  simp only [clocked, done_, rebuilding]
  rfl

/-- A scan leaves no header write to be made, so that a check begins on the memory it gives. -/
theorem Store.startCheck_recover (total : Nat) (st : Store) :
    (st.recover total).startCheck = { st.recover total with check := some ⟨0, 0, 0⟩ } := rfl

end events

/-- Settles O60. -/
theorem storeIsFormattedOrRecovered : Obligations.StoreIsFormattedOrRecovered := by
  unfold Obligations.StoreIsFormattedOrRecovered
  refine ⟨fun s running awake => ⟨fun formatting => ?_, fun scanning => ?_, fun tag rsv done_ rebuilding hand => ?_⟩,
    fun m total n wf inside => ?_, fun m total => ⟨?_, fun c mem => ⟨?_, ?_, fun whole => ?_,
      fun n h attrs short last free has fits lines checks begun =>
        Chain.whole_of_good m total mem short last free has ⟨fits, lines, checks, begun⟩⟩⟩,
    mem_winners, fun st total unmade none_ => ?_, fun c a attrs => Chain.pageRecord_of_attrs attrs,
    fun total => ⟨fun bytes _ => ?_, fun h => ?_⟩⟩
  · exact State.exec_formatDone (State.clocked_of running awake) formatting
  · intro st
    refine (State.exec_recoveryScanDone_startup (State.clocked_of running awake) scanning).trans ?_
    unfold State.scanEnded
    by_cases check : s.straps.mt = true
    · rw [if_pos check]
      exact congrArg (Host.Outcome.next ∘ State.settle) (if_pos check)
    · rw [if_neg check]
      exact congrArg (Host.Outcome.next ∘ State.settle) (if_neg check)
  · intro st t
    refine (State.exec_recoveryScanDone_reset (State.clocked_of running awake) done_ rebuilding).trans ?_
    have answered : ({ s with resetPhase := .none, store := st } : State).answerLate [Result.ok.code, 1] = t :=
      congrArg (fun l => ({ s with resetPhase := .none, store := st, link := l } : State))
        (Link.answerLate_of_handed hand _)
    exact congrArg (fun u => Host.Outcome.next (State.finish (State.reportBootDone u))) answered
  · rw [PageMemory.read_freeAll n _ m wf, if_pos (List.mem_range.mpr inside)]
  · refine (m.chains_first total).trans (List.filter_congr fun n _ => ?_)
    cases (m.read n).header.classify total with
    | used h => rfl
    | free => rfl
    | retired => rfl
    | unreadable => rfl
  · exact fun l link => ⟨(SegHeader.classify_eq_used ((Chain.links_spec m total mem).1 l link).1).1,
      ((Chain.links_spec m total mem).1 l link).2⟩
  · exact (Chain.links_spec m total mem).2
  · obtain ⟨n, h, attrs, last, free, has, fits, lines, checks, begun⟩ := Chain.whole_spec m total mem whole
    exact ⟨n, h, attrs, last, free, has, fits, lines, checks, begun⟩
  · intro after won
    have eq : after = _ := st.recover_eq total unmade none_
    have directory : after.directory = st.memory.recoveredDirectory total := by rw [eq]
    have lastDoc : after.lastDoc = ((st.memory.recoveredDirectory total).map Document.number).foldl max 0 := by rw [eq]
    have memory : after.memory = st.memory.freeAll (st.memory.scanFrees total) := by rw [eq]
    have map : after.map = recoveredMap total (st.memory.kept total) st.memory := by rw [eq]
    obtain ⟨few, fewer⟩ := enterDocs_limits won (docNumbers won)
    obtain ⟨-, most, reached⟩ := foldl_max_spec ((st.memory.recoveredDirectory total).map Document.number) 0
    rw [directory, lastDoc, memory, map]
    refine ⟨few, fewer, fun d mem => PageMemory.recoveredDirectory_spec mem,
      PageMemory.recoveredDirectory_numbers .., fun short shorter c mem =>
        PageMemory.recoveredDirectory_all short shorter mem,
      fun d mem => most d.number (List.mem_map_of_mem mem), reached.imp_right List.mem_map.mp, ?_, ?_, ?_, ?_, ?_, ?_,
      fun wf n inside => ?_⟩
    · rw [eq]
    · rw [eq]
    · rw [eq]
    · rw [eq]
    · rw [eq]
      rfl
    · rw [eq]
    · intro kept
      obtain ⟨own, retired, freed⟩ := st.memory.recovered_segment wf inside
      have kept_iff : kept = true ↔ ∃ c ∈ st.memory.kept total, c.Has n := by
        simp only [kept, List.any_eq_true, Bool.and_eq_true, List.contains_iff_mem, PageMemory.mem_kept, and_assoc]
        rfl
      have other (no : kept = false) (c : Chain) (mem : c ∈ st.memory.kept total) (has : c.Has n) : False := by
        rw [kept_iff.mpr ⟨c, mem, has⟩] at no
        cases no
      exact ⟨fun is_ => own (kept_iff.mp is_), fun no => retired (other no), fun no => freed (other no)⟩
  · rw [SegHeader.classify_raw, retiredMatches_eq]
    rfl
  · rw [SegHeader.classify_used]
    exact if_congr (h.inRange_iff total) rfl rfl

end Sys2Proof.Machine
end

section
/-! PROOFS. What follows at once (log 7): the consequences one after another, and each rule where it acts and where it
does not (R123, R128, R169, R176, R177). -/

namespace Sys2Proof.Machine

/-! ## The consequences in the order of the list -/

theorem firstActing_eq_none_iff {s : State} {rules : List (State → Option State)} :
    firstActing s rules = none ↔ ∀ rule ∈ rules, rule s = none := by
  induction rules with
  | nil => exact ⟨fun _ => nofun, fun _ => rfl⟩
  | cons rule rules ih =>
    rw [List.forall_mem_cons, firstActing]
    cases acts : rule s with
    | none => simpa using ih
    | some t => simp

/-- The first rule of the list that acts is the one that does. -/
theorem firstActing_of_first {s t : State} {before after : List (State → Option State)} {rule : State → Option State}
    (none_ : ∀ x ∈ before, x s = none) (acts : rule s = some t) :
    firstActing s (before ++ rule :: after) = some t := by
  induction before with
  | nil =>
    rw [List.nil_append, firstActing, acts]
  | cons x before ih =>
    obtain ⟨first, rest⟩ := List.forall_mem_cons.mp none_
    rw [List.cons_append, firstActing, first]
    exact ih rest

theorem State.settled_iff (s : State) : s.settled = true ↔ ∀ rule ∈ consequenceRules, rule s = none := by
  unfold State.settled
  rw [Option.isNone_iff_eq_none, firstActing_eq_none_iff]

theorem settleFor_of_acts {s t : State} (acts : firstActing s consequenceRules = some t) (n : Nat) :
    settleFor (n + 1) s = settleFor n t := by
  rw [settleFor, acts]

theorem State.doWhen_of_true {c : Bool} (holds : c = true) (f : State → State) (s : State) : s.doWhen c f = some (f s) :=
  if_pos holds

theorem State.doWhen_of_false {c : Bool} (fails : c = false) (f : State → State) (s : State) : s.doWhen c f = none :=
  if_neg (Bool.eq_false_iff.mp fails)

theorem State.doWhen_eq_none_iff {c : Bool} {f : State → State} {s : State} : s.doWhen c f = none ↔ c = false := by
  cases c with
  | false => exact iff_of_true rfl rfl
  | true => exact iff_of_false (Option.some_ne_none _) (by decide)

/-- A rule that acts on the oldest move acts when there is one. -/
theorem State.forMove_eq_none_iff {s : State} {p : Move → Bool} {f : Move → State → State} :
    s.forMove p f = none ↔ ∀ m ∈ s.moves, p m = false := by
  refine ⟨fun still m mem => ?_, fun none_ => ?_⟩
  · by_contra has
    have named : m.id ∈ s.moveIds p := (State.mem_moveIds ..).mpr ⟨m, mem, by simpa using has, rfl⟩
    obtain ⟨id, rest, ids⟩ := List.exists_cons_of_ne_nil (List.ne_nil_of_mem named)
    obtain ⟨k, mem', -, own⟩ := (State.mem_moveIds s p id).mp (ids ▸ List.mem_cons_self)
    have found : s.move? id ≠ none := fun absent => by
      have other := List.find?_eq_none.mp absent k mem'
      exact other (beq_iff_eq.mpr own)
    unfold State.forMove State.oldestMove? at still
    rw [ids, Option.map_eq_none_iff] at still
    exact found still
  · unfold State.forMove
    rw [State.oldestMove?_eq_none none_]
    rfl

/-! ## The idle timer (R177) -/

/-- The idle timer may run. -/
abbrev State.MayRest (s : State) : Prop :=
  s.power.state ≠ .sleep ∧ s.power.entry = .none ∧ s.idle = true ∧ s.cfg.power.idleTime ≠ 0

theorem State.idleTimerNow_eq (s : State) : s.idleTimerNow = if s.MayRest then
    (if s.power.idleTimer = .stopped then .running s.cfg.power.idleTime else s.power.idleTimer) else .stopped := by
  have bars : (s.power.state == .sleep || s.power.entry != .none || !s.idle || s.cfg.power.idleTime == 0) = true
      ↔ ¬s.MayRest := by
    simp only [State.MayRest, Bool.or_eq_true, beq_iff_eq, bne_iff_ne, Bool.not_eq_true']
    cases s.idle
    · simp
    · simp
      tauto
  unfold State.idleTimerNow
  by_cases may : s.MayRest
  · rw [if_pos may, if_neg (bars.not.mpr (not_not.mpr may))]
  · rw [if_neg may, if_pos (bars.mpr may)]

theorem ruleIdleTimer_eq (s : State) : ruleIdleTimer s = if s.idleTimerNow = s.power.idleTimer then none
    else some { s with power := { s.power with idleTimer := s.idleTimerNow } } := by
  unfold ruleIdleTimer
  split
  next same => exact State.doWhen_of_false (by rw [same]; exact bne_self_eq_false' ..) _ s
  next other => exact State.doWhen_of_true (bne_iff_ne.mpr other) _ s

theorem State.idleTimerNow_same_iff (s : State) :
    s.idleTimerNow = s.power.idleTimer ↔ (s.MayRest ↔ s.power.idleTimer ≠ .stopped) := by
  rw [State.idleTimerNow_eq]
  by_cases may : s.MayRest
  · rw [if_pos may]
    by_cases stopped : s.power.idleTimer = .stopped
    · simp [stopped, may]
    · exact iff_of_true (if_neg stopped) (iff_of_true may stopped)
  · rw [if_neg may]
    simp [may, eq_comm]

/-! ## The power state (R169, R176) -/

theorem Power.computed_eq_run_iff (p : Power) : p.computed = .run ↔ ∃ d, p.domain d = .starting ∨ p.domain d = .on := by
  have each : (∃ d, p.domain d = .starting ∨ p.domain d = .on) ↔ (p.scan = .starting ∨ p.scan = .on)
      ∨ (p.print = .starting ∨ p.print = .on) ∨ (p.motor = .starting ∨ p.motor = .on) := by
    refine ⟨fun ⟨d, up⟩ => ?_, fun up => ?_⟩
    · cases d with
      | scan => exact .inl up
      | print => exact .inr (.inl up)
      | motor => exact .inr (.inr up)
    · obtain up | up | up := up
      · exact ⟨.scan, up⟩
      · exact ⟨.print, up⟩
      · exact ⟨.motor, up⟩
  rw [each]
  unfold Power.computed
  split
  next up => simpa [or_assoc] using up
  next down => simpa [or_assoc] using down

theorem Power.computed_cases (p : Power) : p.computed = .run ∨ p.computed = .standby := by
  unfold Power.computed
  split
  · exact .inl rfl
  · exact .inr rfl

theorem State.powerChanged_iff (s : State) :
    s.powerChanged = true ↔ s.power.state ≠ .sleep ∧ s.power.state ≠ s.power.computed := by
  unfold State.powerChanged
  rw [Bool.and_eq_true, bne_iff_ne, bne_iff_ne]

theorem rulePowerState_of_changed {s : State} (awake : s.power.state ≠ .sleep)
    (changed : s.power.state ≠ s.power.computed) : rulePowerState s
      = some (({ s with power := { s.power with state := s.power.computed } } : State).report 0xE6
        [0, s.power.computed.code, s.power.scan.code, s.power.print.code, s.power.motor.code, 0, 0xFF]) := by
  have moved := s.powerChanged_iff.mpr ⟨awake, changed⟩
  refine (State.doWhen_of_true moved _ s).trans (congrArg some ?_)
  unfold State.syncPower
  rw [if_pos moved]
  unfold State.onPower
  rw [Power.follow_of_awake awake]
  rfl

theorem rulePowerState_eq_none_iff {s : State} :
    rulePowerState s = none ↔ s.power.state = .sleep ∨ s.power.state = s.power.computed := by
  unfold rulePowerState
  rw [State.doWhen_eq_none_iff, ← Bool.not_eq_true, State.powerChanged_iff]
  tauto

/-! ## The entry to RUNNING (R124 to R128) -/

theorem Channel.usedBy_iff (u : User) (c : Channel) : c.usedBy u = true ↔ c.user = some u ∧ c.releasing = false := by
  unfold Channel.usedBy
  rw [Bool.and_eq_true, beq_iff_eq, Bool.not_eq_true']

theorem Channel.asks_iff (u : User) (c : Channel) :
    c.asks u = true ↔ (c.user = some u ∧ c.releasing = false) ∨ u ∈ c.queue := by
  unfold Channel.asks
  rw [Bool.or_eq_true, Channel.usedBy_iff, List.contains_iff_mem]

/-- The conditions of STARTING hold. -/
abbrev Move.MayRun (s : State) (m : Move) : Prop :=
  m.state = .starting ∧ (∀ d, m.needs d = true → s.power.domain d = .on)
    ∧ (m.isPrint = true → s.rf.user = some (.move m.id) ∧ s.rf.releasing = false)
    ∧ (m.isScan = true → s.df.user = some (.move m.id) ∧ s.df.releasing = false ∧ s.feed.doc = .loaded)

theorem forall_domain_iff (P : DomainId → Prop) : (∀ d, P d) ↔ P .scan ∧ P .print ∧ P .motor := by
  refine ⟨fun all => ⟨all .scan, all .print, all .motor⟩, fun ⟨scan, print, motor⟩ d => ?_⟩
  cases d with
  | scan => exact scan
  | print => exact print
  | motor => exact motor

theorem State.domainsOn_iff (s : State) (m : Move) :
    s.domainsOn m = true ↔ ∀ d, m.needs d = true → s.power.domain d = .on := by
  rw [forall_domain_iff]
  unfold State.domainsOn
  simp [imp_iff_not_or]

theorem State.canRun_iff (s : State) (m : Move) : s.canRun m = true ↔ m.MayRun s := by
  unfold State.canRun
  rw [Bool.and_eq_true, Bool.and_eq_true, Bool.and_eq_true, beq_iff_eq, State.domainsOn_iff, and_assoc, and_assoc]
  refine and_congr_right fun _ => and_congr_right fun _ => and_congr ?_ ?_
  · rw [Bool.or_eq_true, Bool.not_eq_true', Channel.usedBy_iff, ← Bool.not_eq_true, ← imp_iff_not_or]
  · rw [Bool.or_eq_true, Bool.not_eq_true', Bool.and_eq_true, Channel.usedBy_iff, beq_iff_eq, and_assoc,
      ← Bool.not_eq_true, ← imp_iff_not_or]

theorem ruleRun_of_oldest {s : State} {m : Move} (found : s.move? m.id = some m) (runs : m.MayRun s)
    (oldest : ∀ n ∈ s.moves, n.MayRun s → m.id ≤ n.id) : ruleRun s = some (s.enterRunning m) := by
  unfold ruleRun State.forMove
  rw [State.oldestMove?_eq_some found ((s.canRun_iff m).mpr runs) fun n mem may => oldest n mem ((s.canRun_iff n).mp may)]
  rfl

theorem ruleRun_eq_none_iff {s : State} : ruleRun s = none ↔ ∀ n ∈ s.moves, ¬n.MayRun s := by
  unfold ruleRun
  rw [State.forMove_eq_none_iff]
  refine forall_congr' fun n => imp_congr_right fun _ => ?_
  rw [← Bool.not_eq_true, State.canRun_iff]

/-! ## Where the rules stand still -/

section still

variable {s : State}

theorem ruleNeed_eq_none_iff {d : DomainId} :
    ruleNeed d s = none ↔ (s.needed d = true → s.power.domain d ≠ .off) := by
  unfold ruleNeed
  rw [State.doWhen_eq_none_iff, Bool.and_eq_false_iff, imp_iff_not_or, Bool.not_eq_true, beq_eq_false_iff_ne]

theorem ruleScanRequest_eq_none_iff : ruleScanRequest s = none ↔ ∀ m ∈ s.moves, m.state = .starting →
    m.isScan = true → s.feed.doc = .loaded →
    (s.df.user = some (.move m.id) ∧ s.df.releasing = false) ∨ .move m.id ∈ s.df.queue := by
  unfold ruleScanRequest
  rw [State.forMove_eq_none_iff]
  refine forall_congr' fun m => imp_congr_right fun _ => ?_
  rw [← Channel.asks_iff, ← Bool.not_eq_true]
  simp only [Move.scanStarting, Bool.and_eq_true, beq_iff_eq, Bool.not_eq_true']
  cases s.df.asks (.move m.id)
  · simp
    tauto
  · simp

theorem ruleHeader_eq_none (still : ruleHeader s = none) {m : Move} (mem : m ∈ s.moves) (running : m.state = .running)
    (due : 0 < m.headerLeft) : m.room = 0 := by
  have fails := State.forMove_eq_none_iff.mp still m mem
  simp only [running, beq_self_eq_true, Bool.true_or, Bool.true_and, due, decide_true, decide_eq_false_iff_not] at fails
  omega

theorem ruleBlankPage_eq_none (still : ruleBlankPage s = none) {m : Move} (mem : m ∈ s.moves) (flowing : m.flowing = true)
    (due : 0 < m.blankDue) (out : m.headerLeft = 0) : m.room = 0 := by
  have fails := State.forMove_eq_none_iff.mp still m mem
  simp only [flowing, due, out, decide_true, beq_self_eq_true, Bool.true_and, decide_eq_false_iff_not] at fails
  omega

theorem ruleHandLine_eq_none (still : ruleHandLine s = none) {m : Move} (mem : m ∈ s.moves) {r : Reader}
    (running : m.state = .running) (out : m.headerLeft = 0) (reading : m.reader = some r) :
    r.lines = [] ∨ m.room = 0 := by
  have fails : ¬m.HasLine := fun has => by
    have waits := State.forMove_eq_none_iff.mp still m mem
    rw [m.lineWaiting_iff.mpr has] at waits
    cases waits
  by_contra both
  obtain ⟨lines, room⟩ := not_or.mp both
  exact fails ⟨running, out, Nat.pos_of_ne_zero room, r, reading, lines⟩

theorem ruleTransfer_eq_none (still : ruleTransfer s = none) (free : s.store.transfer = none)
    (unchecked : s.store.check = none) (allowed : s.inputs.pfi = false) {m : Move} (mem : m ∈ s.moves) :
    m.writeDue = false ∧ m.readDue = false := by
  unfold ruleTransfer at still
  rw [free, unchecked, allowed] at still
  have none_ : s.nextTransfer? = none := Option.map_eq_none_iff.mp still
  rw [State.nextTransfer?_eq_none_iff] at none_
  have fails : ¬(m.writeDue = true ∨ m.readDue = true) := fun due =>
    List.not_mem_nil (none_ ▸ (State.mem_dueIds s m.id).mpr ⟨m, mem, due, rfl⟩)
  exact ⟨Bool.eq_false_iff.mpr fun due => fails (.inl due), Bool.eq_false_iff.mpr fun due => fails (.inr due)⟩

theorem ruleLoad_eq_none (still : ruleLoad s = none) {m : Move} (serving : s.serving? = some m)
    (empty : s.print.load = .empty) : s.untakenLines m = [] := by
  unfold ruleLoad at still
  rw [serving] at still
  cases lines : s.untakenLines m with
  | nil => rfl
  | cons l rest =>
    simp only [lines] at still
    rw [State.doWhen_eq_none_iff, empty] at still
    cases still

theorem rulePrintGrant_eq_none (still : rulePrintGrant s = none) {m : Move} (serving : s.serving? = some m)
    (awaits : s.rf.awaitsGrant = true) (user : s.rf.user = some (.move m.id)) (stays : s.rf.releasing = false) :
    s.print.load = .empty ∨ s.print.strobe ≠ .idle := by
  rw [rulePrintGrant_of_serving serving] at still
  by_contra both
  obtain ⟨loaded, quiet⟩ := not_or.mp both
  rw [if_pos ⟨awaits, (Channel.usedBy_iff ..).mpr ⟨user, stays⟩, loaded, not_not.mp quiet⟩] at still
  cases still

theorem ruleStart_eq_none {ch : ChannelId} (still : ruleStart ch s = none) {o : Order}
    (waits : (s.channel ch).startWaiting = some o) (motor : s.power.motor = .on)
    (shut : s.feed.cover.debounced = false) (rests : (s.channel ch).state = .idle ∨ (s.channel ch).state = .holding) :
    ch = .rf ∧ s.print.inStrobe = true := by
  unfold ruleStart at still
  rw [waits] at still
  have fails : s.mayStart ch = false := State.doWhen_eq_none_iff.mp still
  have rests' : ((s.channel ch).state == .idle || (s.channel ch).state == .holding) = true := by simpa using rests
  unfold State.mayStart State.coverOpen at fails
  rw [motor, shut, rests'] at fails
  cases ch with
  | df => cases fails
  | rf => exact ⟨rfl, by simpa using fails⟩

theorem ruleFeedRequest_eq_none (still : ruleFeedRequest s = none) (free : s.feedHeld = false)
    (wants : (s.feed.doc = .settling ∧ s.feed.settle = .expired ∧ s.feed.cover.debounced = false)
      ∨ (s.feed.doc = .ejecting ∧ s.feed.seq = .none)) :
    (s.df.user = some .feed ∧ s.df.releasing = false) ∨ .feed ∈ s.df.queue := by
  have fails : s.feedWants = false := State.doWhen_eq_none_iff.mp still
  rw [← Channel.asks_iff]
  by_contra unasked
  have due : ((s.feed.doc == .settling && s.feed.settle == .expired && !s.coverOpen)
      || (s.feed.doc == .ejecting && s.feed.seq == .none)) = true := by
    unfold State.coverOpen
    simpa [and_assoc] using wants
  unfold State.feedWants at fails
  rw [free, Bool.eq_false_iff.mpr unasked, due] at fails
  cases fails

end still

/-- Where nothing follows at once, the rules' "at once" holds. -/
theorem State.settled_spec {s : State} (settled : s.settled = true) :
    s.admitted? = none
    ∧ (∀ d, s.needed d = true → s.power.domain d ≠ .off)
    ∧ (∀ m ∈ s.moves,
      ¬m.MayRun s
      ∧ (m.state = .starting → m.isScan = true → s.feed.doc = .loaded →
        (s.df.user = some (.move m.id) ∧ s.df.releasing = false) ∨ .move m.id ∈ s.df.queue)
      ∧ (m.state = .running → 0 < m.headerLeft → m.room = 0)
      ∧ (m.flowing = true → 0 < m.blankDue → m.headerLeft = 0 → m.room = 0)
      ∧ (∀ r, m.state = .running → m.headerLeft = 0 → m.reader = some r → r.lines = [] ∨ m.room = 0)
      ∧ (s.store.transfer = none → s.store.check = none → s.inputs.pfi = false →
        m.writeDue = false ∧ m.readDue = false))
    ∧ (∀ m, s.serving? = some m →
      (s.print.load = .empty → s.untakenLines m = [])
      ∧ (s.rf.awaitsGrant = true → s.rf.user = some (.move m.id) → s.rf.releasing = false →
        s.print.load = .empty ∨ s.print.strobe ≠ .idle))
    ∧ (∀ ch o, (s.channel ch).startWaiting = some o → s.power.motor = .on → s.feed.cover.debounced = false →
      (s.channel ch).state = .idle ∨ (s.channel ch).state = .holding →
      ch = .rf ∧ s.print.inStrobe = true)
    ∧ (s.feed.doc = .settling → s.feed.settle = .expired → s.feed.cover.debounced = false →
      s.feedHeld = false → (s.df.user = some .feed ∧ s.df.releasing = false) ∨ .feed ∈ s.df.queue)
    ∧ (s.feed.doc = .ejecting → s.feed.seq = .none → s.feedHeld = false →
      (s.df.user = some .feed ∧ s.df.releasing = false) ∨ .feed ∈ s.df.queue)
    ∧ (s.power.state ≠ .sleep →
      (s.power.state = .run ↔ ∃ d, s.power.domain d = .starting ∨ s.power.domain d = .on)) := by
  have still := s.settled_iff.mp settled
  simp only [consequenceRules, List.forall_mem_cons] at still
  obtain ⟨-, needScan, needPrint, needMotor, arbitrate, -, feedRequest, scanRequest, run, -, blankPage, header, handLine,
    startDf, startRf, -, -, load, printGrant, -, -, -, transfer, -, -, powerState, -⟩ := still
  refine ⟨Option.map_eq_none_iff.mp arbitrate, fun d => ?_, fun m mem => ⟨ruleRun_eq_none_iff.mp run m mem,
      ruleScanRequest_eq_none_iff.mp scanRequest m mem, ruleHeader_eq_none header mem, ruleBlankPage_eq_none blankPage mem,
      fun r => ruleHandLine_eq_none handLine mem, fun free unchecked allowed =>
        ruleTransfer_eq_none transfer free unchecked allowed mem⟩,
    fun m serving => ⟨ruleLoad_eq_none load serving, rulePrintGrant_eq_none printGrant serving⟩, fun ch o => ?_,
    fun settling expired shut free => ruleFeedRequest_eq_none feedRequest free (.inl ⟨settling, expired, shut⟩),
    fun ejecting none_ free => ruleFeedRequest_eq_none feedRequest free (.inr ⟨ejecting, none_⟩), fun awake => ?_⟩
  · cases d with
    | scan => exact ruleNeed_eq_none_iff.mp needScan
    | print => exact ruleNeed_eq_none_iff.mp needPrint
    | motor => exact ruleNeed_eq_none_iff.mp needMotor
  · cases ch with
    | df => exact ruleStart_eq_none startDf
    | rf => exact ruleStart_eq_none startRf
  · rw [(rulePowerState_eq_none_iff.mp powerState).resolve_left awake]
    exact s.power.computed_eq_run_iff

end Sys2Proof.Machine
end

section
/-! PROOFS. The arbitration (R123), the requests for a channel and the user that gives one up (R21, R22). -/

namespace Sys2Proof.Machine

/-! ## The arbitration -/

section arbitration

variable (taken : List Endpoint) (ms : List Move) (held : Nat)

/-- The endpoints that stand against the move at a place of the waiting ones: those taken, and those of the moves before
it. -/
def endpointsBefore (i : Nat) : List Endpoint := taken ++ (ms.take i).flatMap Move.endpoints

/-- A waiting move is blocked by an endpoint. -/
def blockedAt (i : Nat) : Bool := (ms[i]?.map fun m => m.endpoints.any (endpointsBefore taken ms i).contains).getD true

/-- The depth of a waiting move. -/
def depthAt (i : Nat) : Nat := (ms[i]?.map Move.depth).getD 0

/-- The depth that the moves before a place have blocked. -/
def heldBefore (i : Nat) : Nat := ((List.range i).map fun j => if blockedAt taken ms j then 0 else depthAt ms j).sum

variable (m : Move)

theorem endpointsBefore_succ (i : Nat) :
    endpointsBefore taken (m :: ms) (i + 1) = endpointsBefore (taken ++ m.endpoints) ms i := by
  unfold endpointsBefore
  rw [List.take_succ_cons, List.flatMap_cons, List.append_assoc]

theorem blockedAt_succ (i : Nat) : blockedAt taken (m :: ms) (i + 1) = blockedAt (taken ++ m.endpoints) ms i := by
  unfold blockedAt
  rw [List.getElem?_cons_succ, endpointsBefore_succ]

theorem blockedAt_zero : blockedAt taken (m :: ms) 0 = m.endpoints.any taken.contains := by
  unfold blockedAt endpointsBefore
  rw [List.take_zero, List.flatMap_nil, List.append_nil]
  rfl

theorem heldBefore_succ (i : Nat) : heldBefore taken (m :: ms) (i + 1)
    = (if blockedAt taken (m :: ms) 0 then 0 else m.depth) + heldBefore (taken ++ m.endpoints) ms i := by
  unfold heldBefore
  rw [List.range_succ_eq_map, List.map_cons, List.sum_cons, List.map_map]
  refine congrArg₂ (· + ·) rfl (congrArg List.sum (List.map_congr_left fun j _ => ?_))
  simp only [Function.comp, blockedAt_succ]
  rfl

/-- One pass admits the first move that is not blocked and fits besides those blocked before it (R123). -/
theorem firstAdmitted_eq (free : Nat) : firstAdmitted free taken held ms
    = ((List.range ms.length).find? fun i => !blockedAt taken ms i && decide (depthAt ms i + (held + heldBefore taken ms i)
      ≤ free)).bind fun i => ms[i]?.map Move.id := by
  induction ms generalizing taken held with
  | nil => rfl
  | cons m ms ih =>
    have first : heldBefore taken (m :: ms) 0 = 0 := rfl
    have depth : depthAt (m :: ms) 0 = m.depth := rfl
    rw [List.length_cons, List.range_succ_eq_map, List.find?_cons, List.find?_map, firstAdmitted]
    have later (blocked : Nat) (eq : blocked = if blockedAt taken (m :: ms) 0 then 0 else m.depth) :
        ((fun i => !blockedAt taken (m :: ms) i && decide (depthAt (m :: ms) i + (held + heldBefore taken (m :: ms) i) ≤ free))
          ∘ Nat.succ) = fun i => !blockedAt (taken ++ m.endpoints) ms i
            && decide (depthAt ms i + (held + blocked + heldBefore (taken ++ m.endpoints) ms i) ≤ free) := by
      funext i
      have total : held + heldBefore taken (m :: ms) (i + 1)
          = held + blocked + heldBefore (taken ++ m.endpoints) ms i := by
        rw [heldBefore_succ, eq]
        omega
      simp only [Function.comp, Nat.succ_eq_add_one, blockedAt_succ, total]
      rfl
    have skip (i : Option Nat) : (i.map Nat.succ).bind (fun i => (m :: ms)[i]?.map Move.id)
        = i.bind fun i => ms[i]?.map Move.id := by
      cases i with
      | none => rfl
      | some i => rfl
    rw [blockedAt_zero] at later
    rw [blockedAt_zero, first, depth]
    by_cases blocked : m.endpoints.any taken.contains = true
    · rw [if_pos blocked, ih, later 0 (by rw [if_pos blocked]), blocked]
      exact (skip _).symm
    · rw [if_neg blocked]
      rw [Bool.not_eq_true] at blocked
      rw [blocked]
      by_cases fits : m.depth + held ≤ free
      · rw [if_pos fits]
        simp [fits]
      · rw [if_neg fits, ih, later m.depth (by rw [blocked]; rfl)]
        simp only [Bool.not_false, Bool.true_and, Nat.add_zero, fits, decide_false]
        exact (skip _).symm

end arbitration

/-! ## Requests (R21) -/

section request

variable {s : State} {ch : ChannelId}

/-- A channel that changes into the same is changed alike. -/
theorem State.onChannel_congr {f g : Channel → Channel} (same : f (s.channel ch) = g (s.channel ch)) :
    s.onChannel ch f = s.onChannel ch g := by
  cases ch with
  | df => exact congrArg (fun c => { s with df := c }) same
  | rf => exact congrArg (fun c => { s with rf := c }) same

theorem State.onChannel_of_same {f : Channel → Channel} (same : f (s.channel ch) = s.channel ch) : s.onChannel ch f = s := by
  rw [State.onChannel_congr (g := fun c => c) same]
  cases ch with
  | df => rfl
  | rf => rfl

variable {c : Channel}

theorem Channel.requestAnswer_of_fault (fault : c.state = .fault) (cover : Bool) : c.requestAnswer cover = .fault :=
  if_pos fault

theorem Channel.requestAnswer_of_cover (sound : c.state ≠ .fault) : c.requestAnswer true = .coverOpen :=
  (if_neg sound).trans (if_pos rfl)

/-- Free for a request: no user, no requester, and stopped. -/
abbrev Channel.Open (c : Channel) : Prop := c.user = none ∧ c.queue = [] ∧ (c.state = .idle ∨ c.state = .holding)

theorem Channel.requestAnswer_of_shut (sound : c.state ≠ .fault) :
    c.requestAnswer false = if c.Open then .granted else .queued := by
  have free : (c.free && c.queue.isEmpty) = true ↔ c.Open := by
    unfold Channel.free
    simp only [Bool.and_eq_true, Bool.or_eq_true, beq_iff_eq, Option.isNone_iff_eq_none, List.isEmpty_iff]
    tauto
  unfold Channel.requestAnswer
  rw [if_neg sound, if_neg Bool.false_ne_true]
  exact if_congr free rfl rfl

/-- A party is user of a channel and stays it, or stands in its queue. -/
abbrev Channel.Asks (c : Channel) (u : User) : Prop := (c.user = some u ∧ c.releasing = false) ∨ u ∈ c.queue

theorem Channel.request_of_asks {u : User} (asks : c.Asks u) (cover : Bool) : c.request u cover = c := if_pos asks

theorem Channel.request_of_open {u : User} (sound : c.state ≠ .fault) (unasked : ¬c.Asks u) (free : c.Open) :
    c.request u false = { c with user := some u, releasing := false, holdTimer := none } := by
  unfold Channel.request
  rw [if_neg unasked, Channel.requestAnswer_of_shut sound, if_pos free]

theorem Channel.request_of_taken {u : User} (sound : c.state ≠ .fault) (unasked : ¬c.Asks u) (taken : ¬c.Open) :
    c.request u false = { c with queue := c.queue ++ [u] } := by
  unfold Channel.request
  rw [if_neg unasked, Channel.requestAnswer_of_shut sound, if_neg taken]

/-- What a request brings about: the failure of the requester, or its place at the channel. -/
def State.Asked (s : State) (ch : ChannelId) (u : User) (faulted shut t : State) : Prop :=
  let c := s.channel ch
  let asks := (c.user = some u ∧ c.releasing = false) ∨ u ∈ c.queue
  let free := c.user = none ∧ c.queue = [] ∧ (c.state = .idle ∨ c.state = .holding)
  (c.state = .fault → t = faulted)
  ∧ (c.state ≠ .fault → s.feed.cover.debounced = true → t = shut)
  ∧ (c.state ≠ .fault → s.feed.cover.debounced = false →
    (asks → t = s)
    ∧ (¬asks → free → t = s.onChannel ch fun c => { c with
      user := some u
      releasing := false
      holdTimer := none })
    ∧ (¬asks → ¬free → t = s.onChannel ch fun c => { c with queue := c.queue ++ [u] }))

/-- A request that is answered by the channel, and acted on so. -/
theorem State.asked_of {u : User} {faulted shut t : State}
    (fault : (s.channel ch).requestAnswer s.coverOpen = .fault → t = faulted)
    (cover : (s.channel ch).requestAnswer s.coverOpen = .coverOpen → t = shut)
    (served : (s.channel ch).requestAnswer s.coverOpen ≠ .fault → (s.channel ch).requestAnswer s.coverOpen ≠ .coverOpen →
      t = s.onChannel ch (Channel.request u s.coverOpen)) : s.Asked ch u faulted shut t := by
  refine ⟨fun state => fault (Channel.requestAnswer_of_fault state _), fun sound opened => cover ?_, fun sound closed => ?_⟩
  · rw [show s.coverOpen = true from opened]
    exact Channel.requestAnswer_of_cover sound
  · have closed' : s.coverOpen = false := closed
    have answer := Channel.requestAnswer_of_shut sound
    rw [closed', answer] at served
    have goes : t = s.onChannel ch (Channel.request u false) := by
      refine served ?_ ?_
      · split
        · decide
        · decide
      · split
        · decide
        · decide
    rw [goes]
    exact ⟨fun asks => State.onChannel_of_same (Channel.request_of_asks asks _),
      fun unasked free => State.onChannel_congr (Channel.request_of_open sound unasked free),
      fun unasked taken => State.onChannel_congr (Channel.request_of_taken sound unasked taken)⟩

theorem State.moveRequest_asked (s : State) (ch : ChannelId) (id : Nat) :
    s.Asked ch (.move id) (s.failMove .motorFault id) (s.failMove .coverOpen id) (s.moveRequest ch id) := by
  unfold State.moveRequest
  refine State.asked_of (fun answer => ?_) (fun answer => ?_) fun sound shut => ?_
  · rw [answer]
  · rw [answer]
  · split
    next answer => exact absurd answer sound
    next answer => exact absurd answer shut
    · rfl

theorem State.feedRequest_asked (s : State) :
    s.Asked .df .feed (s.enterJammed .motorFault) (s.enterJammed .coverOpen) s.feedRequest := by
  unfold State.feedRequest
  refine State.asked_of (fun answer => ?_) (fun answer => ?_) fun sound shut => ?_
  · rw [show s.df.requestAnswer s.coverOpen = .fault from answer]
  · rw [show s.df.requestAnswer s.coverOpen = .coverOpen from answer]
  · split
    next answer => exact absurd answer sound
    next answer => exact absurd answer shut
    · rfl

/-- The SCAN move in STARTING requests DF once the document is LOADED (R125). -/
theorem ruleScanRequest_of_one {m : Move} (distinct : (s.moves.map Move.id).Nodup)
    (one : (s.moves.filter fun n => n.isScan && n.state == .starting) = [m]) (loaded : s.feed.doc = .loaded)
    (unasked : ¬s.df.Asks (.move m.id)) : ruleScanRequest s = some (s.moveRequest .df m.id) := by
  have mem : m ∈ s.moves ∧ (m.isScan && m.state == .starting) = true :=
    List.mem_filter.mp (one ▸ List.mem_cons_self)
  have only (n : Move) (inside : n ∈ s.moves) (waits : n.scanStarting = true) : n = m :=
    List.mem_singleton.mp (one ▸ List.mem_filter.mpr ⟨inside, waits⟩)
  have asks : s.df.asks (.move m.id) = false := Bool.eq_false_iff.mpr fun has => unasked ((Channel.asks_iff ..).mp has)
  unfold ruleScanRequest State.forMove
  rw [State.oldestMove?_eq_some (m := m) (State.move?_of_mem distinct mem.1)]
  · rfl
  · rw [show m.scanStarting = true from mem.2, loaded, asks]
    rfl
  · intro n inside has
    rw [Bool.and_eq_true, Bool.and_eq_true] at has
    obtain ⟨⟨waits, -⟩, -⟩ := has
    exact (congrArg Move.id (only n inside waits)).ge

end request

/-! ## A user gives up a channel (R22) -/

section giveUp

variable {c : Channel} {u : User} {hold : Nat}

/-- A stopped channel without a user, before it passes on. -/
def Channel.vacant (c : Channel) : Channel := { c with user := none, releasing := false, startWaiting := none }

/-- How a stopped channel passes to the head of its queue, or comes to rest (R22, R40). -/
theorem Channel.passOn_spec (stopped : Channel) :
    let after := ({ stopped with startWaiting := none } : Channel).passOn
    (∀ v rest, stopped.queue = v :: rest → after = { stopped.vacant with user := some v, queue := rest })
    ∧ (stopped.queue = [] → stopped.state = .idle → after = stopped.vacant)
    ∧ (stopped.queue = [] → stopped.state = .holding → stopped.holdLatched = 0 →
      after = { stopped.vacant with state := .idle, holdTimer := none })
    ∧ (stopped.queue = [] → stopped.state = .holding → stopped.holdLatched ≠ 0 →
      after = { stopped.vacant with holdTimer := some stopped.holdLatched }) := by
  refine ⟨fun v rest queue => Channel.passOn_of_cons (y := { stopped with startWaiting := none }) queue,
    fun queue idle => ?_, fun queue holding zero =>
      Channel.passOn_of_nil_of_zero (y := { stopped with startWaiting := none }) queue holding zero,
    fun queue holding pos =>
      Channel.passOn_of_nil_of_pos (y := { stopped with startWaiting := none }) queue holding pos⟩
  refine (Channel.passOn_of_none (c := { stopped with startWaiting := none }) queue).trans (if_neg ?_)
  show ¬stopped.state = .holding
  rw [idle]
  decide

theorem Channel.release_of_rest (rest : c.state = .idle ∨ c.state = .holding) :
    c.release hold = ({ c with startWaiting := none } : Channel).passOn := by
  cases c
  dsimp only at rest
  obtain rfl | rfl := rest
  · rfl
  · rfl

theorem Channel.release_of_fault (fault : c.state = .fault) : c.release hold = c := by
  cases c
  dsimp only at fault
  subst fault
  rfl

theorem Channel.giveUp_of_other (other : c.user ≠ some u ∨ c.state = .fault) : c.giveUp u hold = c.withdraw u := by
  unfold Channel.giveUp
  split
  next own =>
    exact Channel.release_of_fault (c := c.withdraw u) (other.resolve_left (not_not.mpr own))
  · rfl

variable (own : c.user = some u)
include own

theorem Channel.giveUp_of_rest (rest : c.state = .idle ∨ c.state = .holding) :
    c.giveUp u hold = ({ c.withdraw u with startWaiting := none } : Channel).passOn :=
  (if_pos own).trans (Channel.release_of_rest (c := c.withdraw u) rest)

theorem Channel.giveUp_of_moving (moving : c.state ≠ .idle ∧ c.state ≠ .holding ∧ c.state ≠ .fault) :
    c.giveUp u hold = ({ c.withdraw u with releasing := true } : Channel).stop hold := by
  obtain ⟨idle, holding, fault⟩ := moving
  unfold Channel.giveUp Channel.release
  rw [if_pos own]
  split
  next state => exact absurd state idle
  next state => exact absurd state holding
  next state => exact absurd state fault
  · rfl

theorem Channel.giveUp_of_ramp {x : RampRun} (state : c.state = .ramping ∨ c.state = .stopping) (run : c.run = .ramp x) :
    c.giveUp u hold = { c.withdraw u with
      releasing := true
      startWaiting := none
      run := .ramp { x with stopOrdered := x.stopOrdered || decide (c.state = .ramping) } } := by
  have run' : (c.withdraw u).run = .ramp x := run
  obtain state | state := state
  · rw [Channel.giveUp_of_moving own (by simp [state])]
    have state' : (c.withdraw u).state = .ramping := state
    simp [Channel.stop, Channel.stopRamp, Channel.stopLine, run', state', state]
  · rw [Channel.giveUp_of_moving own (by simp [state])]
    have state' : (c.withdraw u).state = .stopping := state
    simp [Channel.stop, Channel.stopRamp, Channel.stopLine, run', state', state]

theorem Channel.giveUp_of_step {x : LineRun} {p : Nat} (state : c.state = .lineRun) (run : c.run = .line x)
    (stepping : x.period = some p) : c.giveUp u hold = { c.withdraw u with
      releasing := true
      startWaiting := none
      run := .line { x with stopOrdered := true } } := by
  have run' : (c.withdraw u).run = .line x := run
  have state' : (c.withdraw u).state = .lineRun := state
  rw [Channel.giveUp_of_moving own (by simp [state])]
  simp [Channel.stop, Channel.stopRamp, Channel.stopLine, run', state', stepping]

/-- A line run that stands between two steps stops at once. -/
theorem Channel.giveUp_of_line {x : LineRun} (run : c.run = .line x)
    (stands : c.state = .lineHold ∨ (c.state = .lineRun ∧ x.period = none)) :
    c.giveUp u hold = ({ ({ c.withdraw u with
      state := .holding
      run := .none
      holdLatched := hold
      holdTimer := none } : Channel) with startWaiting := none, releasing := true } : Channel).passOn := by
  have run' : (c.withdraw u).run = .line x := run
  obtain state | ⟨state, none_⟩ := stands
  · have state' : (c.withdraw u).state = .lineHold := state
    rw [Channel.giveUp_of_moving own (by simp [state])]
    simp [Channel.stop, Channel.stopRamp, Channel.stopLine, run', state', Channel.settleHolding, Channel.enterHolding]
  · have state' : (c.withdraw u).state = .lineRun := state
    rw [Channel.giveUp_of_moving own (by simp [state])]
    simp [Channel.stop, Channel.stopRamp, Channel.stopLine, run', state', none_, Channel.settleHolding,
      Channel.enterHolding]

end giveUp

end Sys2Proof.Machine
end

section
/-! PROOFS. The entry to STARTING (R123 to R127). -/

namespace Sys2Proof.Machine

/-! ## The entry to STARTING -/

section starting

variable {s : State} {m : Move}

/-- A move in STARTING. -/
def Move.begun (m : Move) : Move := { m with state := .starting }

theorem State.needFault_iff (s : State) (m : Move) :
    s.needFault m = true ↔ ∃ d, m.needs d = true ∧ s.power.domain d = .fault := by
  unfold State.needFault
  simp only [List.any_cons, List.any_nil, Bool.or_false, Bool.or_eq_true, Bool.and_eq_true, beq_iff_eq]
  refine ⟨fun some_ => ?_, fun ⟨d, has⟩ => ?_⟩
  · obtain has | has | has := some_
    · exact ⟨.scan, has⟩
    · exact ⟨.print, has⟩
    · exact ⟨.motor, has⟩
  · cases d with
    | scan => exact .inl has
    | print => exact .inr (.inl has)
    | motor => exact .inr (.inr has)

/-- Only a STORE sink that names document 0 gets a document (R127). -/
theorem State.makeSinkDoc_of_named (named : ∀ cls auto closes, m.sink ≠ .store 0 cls auto closes) :
    s.makeSinkDoc m = s := by
  unfold State.makeSinkDoc
  split
  next sink => exact absurd sink (named _ _ _)
  · rfl

theorem State.makeSinkDoc_of_full {cls : DocClass} {auto closes : Bool} (sink : m.sink = .store 0 cls auto closes)
    (full : 64 ≤ s.store.directory.length) : s.makeSinkDoc m = s.storeFull m.id 0 0 := by
  unfold State.makeSinkDoc
  rw [sink]
  exact if_pos ((Store.directoryFull_iff s.store).mpr full)

theorem State.makeSinkDoc_of_room {cls : DocClass} {auto closes : Bool} (sink : m.sink = .store 0 cls auto closes)
    (room : s.store.directory.length < 64) : s.makeSinkDoc m = (s.onStore (Store.create cls auto)).onMove m.id
      fun m => { m with sink := m.sink.named s.store.newNumber } := by
  unfold State.makeSinkDoc
  rw [sink]
  exact if_neg fun full => absurd ((Store.directoryFull_iff s.store).mp full) (by omega)

theorem Move.sink_of_isPrint (print : m.isPrint = true) : m.sink = .print := beq_iff_eq.mp print

section found

variable (found : s.move? m.id = some m)
include found

theorem State.move?_begun : (s.onMove m.id Move.begun).move? m.id = some m.begun :=
  (State.move?_onMove (f := Move.begun) fun _ => rfl).trans (congrArg _ found)

/-- What meets a move at its entry to STARTING, in order (R124, R126, R127). -/
theorem State.enterStarting_eq : let t := s.onMove m.id Move.begun
    s.enterStarting m.id = if m.isPrint && !s.feed.paper.debounced then t.failMove .paperOut m.id
      else if m.isPrint && s.feed.cover.debounced then t.failMove .coverOpen m.id
      else if s.needFault m.begun then t.failMove .domainFault m.id
      else if m.isPrint then (t.makeSinkDoc m.begun).moveRequest .rf m.id else t.makeSinkDoc m.begun := by
  have begun : (s.onMove m.id fun m => { m with state := .starting }).move? m.id = some m.begun := State.move?_begun found
  unfold State.enterStarting
  simp only [begun]
  rfl

variable (ready : m.isPrint = true → s.feed.paper.debounced = true ∧ s.feed.cover.debounced = false)
include ready

theorem State.enterStarting_of_ready : let t := s.onMove m.id Move.begun
    s.enterStarting m.id = if s.needFault m.begun then t.failMove .domainFault m.id
      else if m.isPrint then (t.makeSinkDoc m.begun).moveRequest .rf m.id else t.makeSinkDoc m.begun := by
  intro t
  have paper : (m.isPrint && !s.feed.paper.debounced) = false := by
    rw [Bool.and_eq_false_imp]
    exact fun print => by rw [(ready print).1]; rfl
  have cover : (m.isPrint && s.feed.cover.debounced) = false := by
    rw [Bool.and_eq_false_imp]
    exact fun print => (ready print).2
  rw [State.enterStarting_eq found, if_neg (by rw [paper]; exact Bool.false_ne_true),
    if_neg (by rw [cover]; exact Bool.false_ne_true)]

variable (sound : ∀ d, m.begun.needs d = true → s.power.domain d ≠ .fault)
include sound

theorem State.enterStarting_of_sound : let t := s.onMove m.id Move.begun
    s.enterStarting m.id = if m.isPrint then (t.makeSinkDoc m.begun).moveRequest .rf m.id
      else t.makeSinkDoc m.begun := by
  intro t
  rw [State.enterStarting_of_ready found ready, if_neg]
  exact fun fault => by
    obtain ⟨d, needs, has⟩ := (State.needFault_iff s m.begun).mp fault
    exact sound d needs has

/-- A PRINT move requests RF (R124). -/
theorem State.enterStarting_asked (print : m.isPrint = true) : let t := s.onMove m.id Move.begun
    t.Asked .rf (.move m.id) (t.failMove .motorFault m.id) (t.failMove .coverOpen m.id) (s.enterStarting m.id) := by
  intro t
  have named : t.makeSinkDoc m.begun = t := State.makeSinkDoc_of_named fun _ _ _ sink =>
    nomatch (Move.sink_of_isPrint print).symm.trans sink
  rw [State.enterStarting_of_sound found ready sound, if_pos print, named]
  exact t.moveRequest_asked .rf m.id

theorem State.enterStarting_of_named (other : m.isPrint = false)
    (named : ∀ cls auto closes, m.sink ≠ .store 0 cls auto closes) :
    s.enterStarting m.id = s.onMove m.id Move.begun := by
  rw [State.enterStarting_of_sound found ready sound, if_neg (Bool.eq_false_iff.mp other)]
  exact State.makeSinkDoc_of_named named

section sink

variable {cls : DocClass} {auto closes : Bool} (sink : m.sink = .store 0 cls auto closes)
include sink

theorem State.enterStarting_of_full (full : 64 ≤ s.store.directory.length) :
    s.enterStarting m.id = ((s.onMove m.id Move.begun).report 0xE8 [0, 0, 0, 0]).failMove .storeFull m.id := by
  have other : m.isPrint = false := by unfold Move.isPrint; rw [sink]; rfl
  rw [State.enterStarting_of_sound found ready sound, if_neg (Bool.eq_false_iff.mp other)]
  exact State.makeSinkDoc_of_full sink full

theorem State.enterStarting_of_room (room : s.store.directory.length < 64) : (s.enterStarting m.id).move? m.id
    = some { m.begun with sink := .store s.store.newNumber cls auto closes } := by
  have other : m.isPrint = false := by unfold Move.isPrint; rw [sink]; rfl
  let t := s.onMove m.id Move.begun
  have goes : s.enterStarting m.id = (t.onStore (Store.create cls auto)).onMove m.id
      fun m => { m with sink := m.sink.named s.store.newNumber } := by
    rw [State.enterStarting_of_sound found ready sound, if_neg (Bool.eq_false_iff.mp other)]
    exact State.makeSinkDoc_of_room (s := t) sink room
  rw [goes]
  refine (State.move?_onMove (f := fun m => { m with sink := m.sink.named s.store.newNumber }) fun _ => rfl).trans ?_
  have same : (t.onStore (Store.create cls auto)).move? m.id = some m.begun := State.move?_begun found
  rw [same]
  show some { m.begun with sink := m.sink.named s.store.newNumber } = _
  rw [sink]
  rfl

end sink

end found

end starting

end Sys2Proof.Machine
end

section
/-! PROOFS. The entry to RUNNING (R128), and what follows at once (log 7). -/

namespace Sys2Proof.Machine

/-! ## The entry to RUNNING -/

section running

variable {s : State} {m : Move}

/-- A move in RUNNING, with the header lines of its first page due. -/
def Move.entersRunning (headerLeft : Nat) (m : Move) : Move := { m with state := .running, headerLeft := headerLeft }

/-- The move has entered RUNNING, and MOVE_STARTED tells of it. -/
def State.started (m : Move) (s : State) : State :=
  (s.onMove m.id (Move.entersRunning (m.prefixCount s.headerLines))).reportMoveStarted m

/-- The scan under which the SCAN source begins (R47, R51). -/
def State.scanBegun (density : Density) (s : State) : State :=
  (((s.onChannel .df (Channel.order (.line density true))).onScan fun c => { c with lineCounter := 0 }).onFeed
    fun f => { f with tailOffset := s.cfg.feed.offset, tail := none, tailSkip := false, seq := .none }).setDoc .scanning
    .scan 0

theorem State.scanBegun_move? (s : State) (d : Density) (id : Nat) : (s.scanBegun d).move? id = s.move? id := rfl

theorem State.enterRunning_of_scan {d : Density} {limit : Nat} (source : m.source = .scan d limit) :
    s.enterRunning m = (s.started m).scanBegun d := by
  unfold State.enterRunning Move.isScan Move.isStoreSource scanDensity
  rw [source]
  rfl

theorem State.enterRunning_of_linkIn {w : Nat} {d : Density} (source : m.source = .linkIn w d) :
    s.enterRunning m = s.started m := by
  unfold State.enterRunning Move.isScan Move.isStoreSource
  rw [source]
  rfl

theorem State.enterRunning_of_store {doc first count : Nat} (source : m.source = .store doc first count) :
    s.enterRunning m = (s.started m).startReading m.id := by
  unfold State.enterRunning Move.isScan Move.isStoreSource
  rw [source]
  rfl

theorem State.startReading_keeps (s : State) (id : Nat) : let t := s.startReading id
    t.feed = s.feed ∧ t.df = s.df ∧ t.scan = s.scan := by
  dsimp only
  unfold State.startReading
  split
  · exact ⟨rfl, rfl, rfl⟩
  · split
    · exact ⟨rfl, rfl, rfl⟩
    · exact ⟨rfl, rfl, rfl⟩

theorem State.enterRunning_leads (s : State) (m : Move) : (s.started m).Leads (s.enterRunning m) := by
  cases source : m.source with
  | scan d limit =>
    rw [State.enterRunning_of_scan source]
    exact (((((Follows.refl (w := False) _).order .df (.line d true)).onScan _ rfl).onFeed _ rfl rfl rfl rfl).setDoc
      .scanning .scan 0).leads
  | linkIn w d =>
    rw [State.enterRunning_of_linkIn source]
    exact (Follows.refl (w := False) _).leads
  | store doc first count =>
    rw [State.enterRunning_of_store source]
    exact ((Follows.refl (w := False) _).startReading _).leads

/-- MOVE_STARTED stands behind what was queued. -/
theorem State.enterRunning_told (room : s.link.outbound.length + s.link.reserved < 16) (few : s.link.reports < 15) :
    s.link.outbound ++ [⟨.report, 0xE2, 0, [byte1 m.number]⟩] <+: (s.enterRunning m).link.outbound :=
  (s.enterRunning_leads m).report_prefix (s := s.onMove m.id (Move.entersRunning (m.prefixCount s.headerLines)))
    (u := s) rfl rfl room few

theorem State.enterRunning_of_unscanned (other : m.isScan = false) : let t := s.enterRunning m
    t.feed = s.feed ∧ t.df = s.df ∧ t.scan = s.scan := by
  dsimp only
  cases source : m.source with
  | scan d limit =>
    unfold Move.isScan at other
    rw [source] at other
    exact absurd other.symm Bool.false_ne_true
  | linkIn w d =>
    rw [State.enterRunning_of_linkIn source]
    exact ⟨rfl, rfl, rfl⟩
  | store doc first count =>
    rw [State.enterRunning_of_store source]
    exact (s.started m).startReading_keeps m.id

section found

variable (found : s.move? m.id = some m)
include found

theorem State.move?_started : (s.started m).move? m.id = some (m.entersRunning (m.prefixCount s.headerLines)) :=
  (State.move?_onMove (f := Move.entersRunning _) fun _ => rfl).trans (congrArg _ found)

/-- The move in RUNNING, and the reading of the first page of a STORE source (R128, R155). -/
theorem State.enterRunning_spec : ∃ r, (s.enterRunning m).move? m.id
      = some ((m.entersRunning (m.prefixCount s.headerLines)).withReader r)
    ∧ (m.isStoreSource = false → r = m.reader)
    ∧ ∀ p, s.sourcePage? m = some p → r = some ((Reader.start p.index (s.store.chainOf p)).fill p.lines) := by
  have stands := State.move?_started found
  cases source : m.source with
  | scan d limit =>
    rw [State.enterRunning_of_scan source, State.scanBegun_move?, stands]
    refine ⟨m.reader, rfl, fun _ => rfl, fun p page => ?_⟩
    unfold State.sourcePage? at page
    rw [source] at page
    exact nomatch page
  | linkIn w d =>
    rw [State.enterRunning_of_linkIn source, stands]
    refine ⟨m.reader, rfl, fun _ => rfl, fun p page => ?_⟩
    unfold State.sourcePage? at page
    rw [source] at page
    exact nomatch page
  | store doc first count =>
    rw [State.enterRunning_of_store source]
    obtain ⟨-, r, reads, whole⟩ := State.startReading_spec stands
    refine ⟨r, reads, fun other => ?_, fun p page => whole p page⟩
    unfold Move.isStoreSource at other
    rw [source] at other
    exact absurd other.symm Bool.false_ne_true

end found

theorem State.sourcePage?_of_doc {doc first count : Nat} {d : Document} {p : Page} (source : m.source = .store doc first count)
    (held : s.store.doc? doc = some d) (page : d.page? (first + (m.srcPage - 1)) = some p) : s.sourcePage? m = some p := by
  unfold State.sourcePage?
  rw [source]
  exact (congrArg (fun o => o.bind (Document.page? (first + (m.srcPage - 1)))) held).trans page

end running

/-! ## What follows at once -/

/-- The idle timer starts when the part becomes idle, and stops when it no longer is (R177). -/
theorem ruleIdleTimer_spec (s : State) :
    let timer (x : IdleTimer) : Option State := some { s with power := { s.power with idleTimer := x } }
    (s.MayRest → s.power.idleTimer = .stopped → ruleIdleTimer s = timer (.running s.cfg.power.idleTime))
    ∧ (¬s.MayRest → s.power.idleTimer ≠ .stopped → ruleIdleTimer s = timer .stopped)
    ∧ ((s.MayRest ↔ s.power.idleTimer ≠ .stopped) → ruleIdleTimer s = none)
    ∧ (s.settled = true → (s.MayRest ↔ s.power.idleTimer ≠ .stopped)) := by
  have now := s.idleTimerNow_eq
  have rule := ruleIdleTimer_eq s
  refine ⟨fun may stopped => ?_, fun bars runs => ?_, fun right => ?_, fun settled => ?_⟩
  · rw [if_pos may, if_pos stopped] at now
    rw [rule, now, stopped, if_neg (by simp)]
  · rw [if_neg bars] at now
    rw [rule, now, if_neg (Ne.symm runs)]
  · exact rule.trans (if_pos (s.idleTimerNow_same_iff.mpr right))
  · have still := s.settled_iff.mp settled ruleIdleTimer List.mem_cons_self
    rw [rule] at still
    refine s.idleTimerNow_same_iff.mp (not_not.mp fun other => ?_)
    rw [if_neg other] at still
    exact nomatch still

/-- A user gives up a channel (R22). -/
theorem Channel.giveUp_spec (c : Channel) (u : User) (hold : Nat) :
    let left := c.withdraw u
    let stops : Channel := { left with
      state := .holding
      run := .none
      holdLatched := hold
      holdTimer := none }
    let passes (stopped : Channel) : Prop :=
      (∀ v rest, left.queue = v :: rest → c.giveUp u hold = { stopped.vacant with user := some v, queue := rest })
      ∧ (left.queue = [] → stopped.state = .idle → c.giveUp u hold = stopped.vacant)
      ∧ (left.queue = [] → stopped.state = .holding → stopped.holdLatched = 0 →
        c.giveUp u hold = { stopped.vacant with state := .idle, holdTimer := none })
      ∧ (left.queue = [] → stopped.state = .holding → stopped.holdLatched ≠ 0 →
        c.giveUp u hold = { stopped.vacant with holdTimer := some stopped.holdLatched })
    (c.user ≠ some u ∨ c.state = .fault → c.giveUp u hold = left)
    ∧ (c.user = some u →
      (c.state = .idle ∨ c.state = .holding → passes left)
      ∧ (∀ x, c.state = .ramping ∨ c.state = .stopping → c.run = .ramp x → c.giveUp u hold = { left with
        releasing := true
        startWaiting := none
        run := .ramp { x with stopOrdered := x.stopOrdered || decide (c.state = .ramping) } })
      ∧ (∀ x p, c.state = .lineRun → c.run = .line x → x.period = some p → c.giveUp u hold = { left with
        releasing := true
        startWaiting := none
        run := .line { x with stopOrdered := true } })
      ∧ (∀ x, c.run = .line x → c.state = .lineHold ∨ (c.state = .lineRun ∧ x.period = none) → passes stops)) := by
  refine ⟨Channel.giveUp_of_other, fun own => ⟨fun rest => ?_, fun x state run => Channel.giveUp_of_ramp own state run,
    fun x p state run stepping => Channel.giveUp_of_step own state run stepping, fun x run stands => ?_⟩⟩
  · rw [Channel.giveUp_of_rest own rest]
    exact (c.withdraw u).passOn_spec
  · rw [Channel.giveUp_of_line own run stands]
    exact Channel.passOn_spec { c.withdraw u with
      releasing := true
      state := .holding
      run := .none
      holdLatched := hold
      holdTimer := none }

/-- The entry to STARTING (R124 to R127). -/
theorem State.enterStarting_spec {s : State} {m : Move} (found : s.move? m.id = some m) :
    let t := s.onMove m.id Move.begun
    (m.isPrint = true → s.feed.paper.debounced = false → s.enterStarting m.id = t.failMove .paperOut m.id)
    ∧ (m.isPrint = true → s.feed.paper.debounced = true → s.feed.cover.debounced = true →
      s.enterStarting m.id = t.failMove .coverOpen m.id)
    ∧ ((m.isPrint = true → s.feed.paper.debounced = true ∧ s.feed.cover.debounced = false) →
      ((∃ d, m.begun.needs d = true ∧ s.power.domain d = .fault) →
        s.enterStarting m.id = t.failMove .domainFault m.id)
      ∧ ((∀ d, m.begun.needs d = true → s.power.domain d ≠ .fault) →
        (m.isPrint = false → m.isStoreSink = false → s.enterStarting m.id = t)
        ∧ (m.isPrint = true →
          (s.rf.state = .fault → s.enterStarting m.id = t.failMove .motorFault m.id)
          ∧ (s.rf.state = .idle ∨ s.rf.state = .holding → s.rf.user = none → s.rf.queue = [] →
            s.enterStarting m.id = t.onChannel .rf fun c =>
              { c with
                user := some (.move m.id)
                releasing := false
                holdTimer := none })
          ∧ (s.rf.state ≠ .fault → s.rf.user ≠ none → s.rf.user ≠ some (.move m.id) → .move m.id ∉ s.rf.queue →
            s.enterStarting m.id = t.onChannel .rf fun c => { c with queue := c.queue ++ [.move m.id] }))
        ∧ (∀ doc c auto closes, m.sink = .store doc c auto closes →
          (doc ≠ 0 → s.enterStarting m.id = t)
          ∧ (doc = 0 → 64 ≤ s.store.directory.length →
            s.enterStarting m.id = (t.report 0xE8 [0, 0, 0, 0]).failMove .storeFull m.id)
          ∧ (doc = 0 → s.store.directory.length < 64 → (s.enterStarting m.id).move? m.id
            = some { m.begun with sink := .store s.store.newNumber c auto closes })))) := by
  have goes := State.enterStarting_eq found
  refine ⟨fun print out => ?_, fun print paper opened => ?_, fun ready => ⟨fun fault => ?_, fun sound =>
    ⟨fun other unstored => ?_, fun print => ?_, fun doc c auto closes sink => ?_⟩⟩⟩
  · rw [goes, print, out]
    rfl
  · rw [goes, print, paper, opened]
    rfl
  · exact (State.enterStarting_of_ready found ready).trans (if_pos ((s.needFault_iff m.begun).mpr fault))
  · refine State.enterStarting_of_named found ready sound other fun cls auto closes sink => ?_
    unfold Move.isStoreSink at unstored
    rw [sink] at unstored
    exact absurd unstored.symm Bool.false_ne_true
  · obtain ⟨fault, -, served⟩ := State.enterStarting_asked found ready sound print
    refine ⟨fault, fun rest free empty => ?_, fun moves taken other absent => ?_⟩
    · have sound' : s.rf.state ≠ .fault := by
        obtain rest | rest := rest
        · rw [rest]
          decide
        · rw [rest]
          decide
      have unasked : ¬s.rf.Asks (.move m.id) := by
        rw [Channel.Asks, free, empty]
        simp
      exact (served sound' (ready print).2).2.1 unasked ⟨free, empty, rest⟩
    · have unasked : ¬s.rf.Asks (.move m.id) := fun asks => asks.elim (fun user => other user.1) absent
      exact (served moves (ready print).2).2.2 unasked fun free => taken free.1
  · have other : m.isPrint = false := by
      unfold Move.isPrint
      rw [sink]
      rfl
    refine ⟨fun numbered => ?_, ?_, ?_⟩
    · refine State.enterStarting_of_named found ready sound other fun cls auto' closes' zero => numbered ?_
      exact (Sink.store.inj (sink.symm.trans zero)).1
    · rintro rfl full
      exact State.enterStarting_of_full found ready sound sink full
    · rintro rfl room
      exact State.enterStarting_of_room found ready sound sink room

/-- Settles O8. -/
theorem settleKeeps : Obligations.SettleKeeps := by
  unfold Obligations.SettleKeeps
  refine ⟨fun s => s.settle_follows.leads, fun s still => s.settle_of_settled (s.settled_iff.mpr still),
    fun s t before after rule split none_ acts => ?_, rfl, State.settled_iff, ruleIdleTimer_spec, fun s => ?_,
    fun _ => rfl, fun s m => ⟨ruleRun_of_oldest, ruleRun_eq_none_iff.mpr⟩, fun s => State.settled_spec, fun s => ?_,
    fun s ch => ?_, fun c u hold => c.giveUp_spec u hold, fun s m found _ => State.enterStarting_spec found,
    fun s m found => ?_⟩
  · have first : firstActing s consequenceRules = some t := split ▸ firstActing_of_first none_ acts
    exact ⟨settleFor_of_acts first 511, settleFor_of_acts first⟩
  · exact ⟨s.power.computed_cases, s.power.computed_eq_run_iff, rulePowerState_of_changed, rulePowerState_eq_none_iff.mpr⟩
  · refine ⟨rfl, (firstAdmitted_eq s.claims s.pendingMoves 0 s.freeDepth).trans ?_⟩
    simp only [Nat.zero_add]
    rfl
  · refine ⟨s.moveRequest_asked ch, ?_, fun m distinct one loaded => ?_⟩
    · rintro rfl
      exact s.feedRequest_asked
    · rintro rfl unused absent
      exact ruleScanRequest_of_one distinct one loaded fun asks => asks.elim unused absent
  · obtain ⟨r, stands, kept, reads⟩ := State.enterRunning_spec found
    refine ⟨⟨r, ?_, kept, fun doc first count d p source held page => ?_⟩, State.enterRunning_told,
      State.enterRunning_of_unscanned, fun d limit source => ?_⟩
    · rw [stands, Move.prefixCount_eq]
      rfl
    · rw [reads p (State.sourcePage?_of_doc source held page), Reader.fill_start]
    · rw [State.enterRunning_of_scan source]
      exact ⟨rfl, rfl, rfl⟩

end Sys2Proof.Machine
end
